-- ==== Sys2Proof/Word.lean ====
section
/-! DEFINITION. The plain types of numbers the part uses: bytes, the indexes of slots, lanes, targets and
segments, sets of attention conditions. -/

namespace Sys2Proof

/-- One byte on the link, a card or a drive. -/
abbrev Byte := BitVec 8

/-- Slots, card ports and lanes share one index 0 to 7 (scope, Indexes). -/
abbrev LaneIx := Fin 8

/-- Targets, target ports and space pools share one index 0 to 3 (scope, Indexes). -/
abbrev TargetIx := Fin 4

/-- The 128 segments of the staging buffer (R35). -/
abbrev SegmentIx := Fin 128

/-- A set of attention conditions: condition c is bit c (R169, R191). -/
abbrev CondSet := BitVec 78

/-- A set of targets: target t is bit t (R191). -/
abbrev TargetSet := BitVec 4

end Sys2Proof
end

