-- ==== Sys2Proof/Syntax.lean ====
section
/-! DEFINITION. The commands of the block: one constructor of `Instr` for each row of
spec/opcode_table.json. Requests carry their tag and the fields of their body, raw, in the widths of R191;
events of cards and drives carry what the card or drive answers. -/

namespace Sys2Proof

/-- A source run of a FILE entry as appended: card start LBA and sector count (R3, 11.6). -/
structure RunArg where
  start : BitVec 32
  sectors : BitVec 16
deriving DecidableEq, Repr

/-- One entry as appended (11.6, Entry as appended). -/
inductive EntryArg where
  | file (fileId : BitVec 32) (length : BitVec 48) (runs : List RunArg)
  | mark (number : BitVec 16)
  | pause
  | endOfList
deriving DecidableEq, Repr

/-- One run of GRANT SPACE: start unit and length in units (R191). -/
structure UnitRunArg where
  start : BitVec 32
  length : BitVec 32
deriving DecidableEq, Repr

/-- The class a card's completion gives an attempt (R76). -/
inductive CardClass where
  | ok
  | corrected
  | uncorrectable
  | badBlock
  | outOfRange
deriving DecidableEq, Repr

/-- What a card answers to an identify attempt (R70). -/
inductive CardAnswer where
  | identity (serial : BitVec 128) (sectors : BitVec 32)
  | error
deriving DecidableEq, Repr

/-- What a drive answers to an identify operation (R110). -/
inductive DriveAnswer where
  | identity (serial : BitVec 160) (capacity : BitVec 64)
  | error
deriving DecidableEq, Repr

/-- The requests of the host (11.6, Request kinds) with the fields of their bodies (R191). -/
inductive Request where
  | identify
  | resetPart
  | readAttention
  | clearAttention (conds : BitVec 80)
  | setAttentionEnables (notice : BitVec 80) (noticeFlag : Byte) (panel : BitVec 80) (panelFlag : Byte)
  | slotStatus (slot : Byte)
  | peekCard (slot : Byte) (start : BitVec 32) (count retries alternate : Byte)
  | holdSlot (slot : Byte)
  | freeSlot (slot : Byte)
  | targetStatus (target : Byte)
  | configureTarget (target : Byte) (unit : BitVec 16) (quota : Byte)
  | takeTargetOffline (target : Byte)
  | bringTargetOnline (target : Byte)
  | readTarget (target : Byte) (start : BitVec 32) (count : Byte)
  | writeTarget (target : Byte) (start : BitVec 32) (count : Byte) (data : List Byte)
  | grantSpace (target : Byte) (runs : List UnitRunArg)
  | clearPool (target : Byte)
  | readPool (target : Byte)
  | openTake (lane : Byte) (label : BitVec 16) (targets k verify policy mismatch retries alternate window : Byte)
  | appendEntries (lane : Byte) (entries : List EntryArg)
  | startTake (lane : Byte)
  | suspendTake (lane : Byte)
  | resumeTake (lane : Byte)
  | stopTake (lane : Byte)
  | abortTake (lane : Byte)
  | adjustTake (lane k remove : Byte)
  | takeStatus (lane : Byte)
  | releaseTake (lane reclaim : Byte)
  | readManifest (lane : Byte) (first : BitVec 16) (count : Byte)
  | readAllocation (lane : Byte) (index : BitVec 16) (target : Byte)
deriving DecidableEq, Repr

/-- The commands: one constructor for each row of spec/opcode_table.json. -/
inductive Instr where
  -- link events (R181 to R189)
  | powerOn
  | linkReset
  | linkConfigured
  | frameArrival (transfer : List Byte)
  | frameSent
  -- requests of the host, each the arrival of its well-formed frame with a tag
  | identify (tag : BitVec 16)
  | resetPart (tag : BitVec 16)
  | readAttention (tag : BitVec 16)
  | clearAttention (tag : BitVec 16) (conds : BitVec 80)
  | setAttentionEnables (tag : BitVec 16) (notice : BitVec 80) (noticeFlag : Byte) (panel : BitVec 80) (panelFlag : Byte)
  | slotStatus (tag : BitVec 16) (slot : Byte)
  | peekCard (tag : BitVec 16) (slot : Byte) (start : BitVec 32) (count retries alternate : Byte)
  | holdSlot (tag : BitVec 16) (slot : Byte)
  | freeSlot (tag : BitVec 16) (slot : Byte)
  | targetStatus (tag : BitVec 16) (target : Byte)
  | configureTarget (tag : BitVec 16) (target : Byte) (unit : BitVec 16) (quota : Byte)
  | takeTargetOffline (tag : BitVec 16) (target : Byte)
  | bringTargetOnline (tag : BitVec 16) (target : Byte)
  | readTarget (tag : BitVec 16) (target : Byte) (start : BitVec 32) (count : Byte)
  | writeTarget (tag : BitVec 16) (target : Byte) (start : BitVec 32) (count : Byte) (data : List Byte)
  | grantSpace (tag : BitVec 16) (target : Byte) (runs : List UnitRunArg)
  | clearPool (tag : BitVec 16) (target : Byte)
  | readPool (tag : BitVec 16) (target : Byte)
  | openTake (tag : BitVec 16) (lane : Byte) (label : BitVec 16) (targets k verify policy mismatch retries alternate window : Byte)
  | appendEntries (tag : BitVec 16) (lane : Byte) (entries : List EntryArg)
  | startTake (tag : BitVec 16) (lane : Byte)
  | suspendTake (tag : BitVec 16) (lane : Byte)
  | resumeTake (tag : BitVec 16) (lane : Byte)
  | stopTake (tag : BitVec 16) (lane : Byte)
  | abortTake (tag : BitVec 16) (lane : Byte)
  | adjustTake (tag : BitVec 16) (lane k remove : Byte)
  | takeStatus (tag : BitVec 16) (lane : Byte)
  | releaseTake (tag : BitVec 16) (lane reclaim : Byte)
  | readManifest (tag : BitVec 16) (lane : Byte) (first : BitVec 16) (count : Byte)
  | readAllocation (tag : BitVec 16) (lane : Byte) (index : BitVec 16) (target : Byte)
  -- card events; `late` marks an answer to an attempt that has already ended (R70, R75; log 3)
  | cardInsertion (slot : LaneIx)
  | cardRemoval (slot : LaneIx)
  | settleTimerExpiry (slot : LaneIx)
  | identifyAttemptAnswer (slot : LaneIx) (late : Bool) (answer : CardAnswer)
  | cardAttemptTimeout (slot : LaneIx)
  | cardAttemptComplete (slot : LaneIx) (late : Bool) (cls : CardClass) (data : List Byte)
  -- drive events; `late` marks an answer to an operation that has already ended (R110, R112, R115; log 3)
  | driveLinkUp (target : TargetIx)
  | driveLinkLoss (target : TargetIx)
  | driveIdentifyAnswer (target : TargetIx) (late : Bool) (answer : DriveAnswer)
  | deviceOpTimeout (target : TargetIx)
  | writePieceComplete (target : TargetIx) (late error : Bool)
  | readbackReadComplete (target : TargetIx) (late error : Bool) (data : List Byte)
  | hostOpComplete (target : TargetIx) (late error : Bool) (data : List Byte)
deriving DecidableEq, Repr

/-- The request a request command carries, with its tag; none for an event. -/
def Instr.request? : Instr → Option (BitVec 16 × Request)
  | .powerOn => none
  | .linkReset => none
  | .linkConfigured => none
  | .frameArrival _ => none
  | .frameSent => none
  | .identify tag => some (tag, .identify)
  | .resetPart tag => some (tag, .resetPart)
  | .readAttention tag => some (tag, .readAttention)
  | .clearAttention tag c => some (tag, .clearAttention c)
  | .setAttentionEnables tag n nf p pf => some (tag, .setAttentionEnables n nf p pf)
  | .slotStatus tag x => some (tag, .slotStatus x)
  | .peekCard tag x a c r al => some (tag, .peekCard x a c r al)
  | .holdSlot tag x => some (tag, .holdSlot x)
  | .freeSlot tag x => some (tag, .freeSlot x)
  | .targetStatus tag x => some (tag, .targetStatus x)
  | .configureTarget tag x u q => some (tag, .configureTarget x u q)
  | .takeTargetOffline tag x => some (tag, .takeTargetOffline x)
  | .bringTargetOnline tag x => some (tag, .bringTargetOnline x)
  | .readTarget tag x a c => some (tag, .readTarget x a c)
  | .writeTarget tag x a c d => some (tag, .writeTarget x a c d)
  | .grantSpace tag x r => some (tag, .grantSpace x r)
  | .clearPool tag x => some (tag, .clearPool x)
  | .readPool tag x => some (tag, .readPool x)
  | .openTake tag x l ts k v p m r al w => some (tag, .openTake x l ts k v p m r al w)
  | .appendEntries tag x es => some (tag, .appendEntries x es)
  | .startTake tag x => some (tag, .startTake x)
  | .suspendTake tag x => some (tag, .suspendTake x)
  | .resumeTake tag x => some (tag, .resumeTake x)
  | .stopTake tag x => some (tag, .stopTake x)
  | .abortTake tag x => some (tag, .abortTake x)
  | .adjustTake tag x k rm => some (tag, .adjustTake x k rm)
  | .takeStatus tag x => some (tag, .takeStatus x)
  | .releaseTake tag x rc => some (tag, .releaseTake x rc)
  | .readManifest tag x f c => some (tag, .readManifest x f c)
  | .readAllocation tag x i t => some (tag, .readAllocation x i t)
  | .cardInsertion _ => none
  | .cardRemoval _ => none
  | .settleTimerExpiry _ => none
  | .identifyAttemptAnswer _ _ _ => none
  | .cardAttemptTimeout _ => none
  | .cardAttemptComplete _ _ _ _ => none
  | .driveLinkUp _ => none
  | .driveLinkLoss _ => none
  | .driveIdentifyAnswer _ _ _ => none
  | .deviceOpTimeout _ => none
  | .writePieceComplete _ _ _ => none
  | .readbackReadComplete _ _ _ _ => none
  | .hostOpComplete _ _ _ _ => none

end Sys2Proof
end

