-- ==== Sys2Proof/Decode.lean ====
section
/-! DEFINITION. The decoder of opcode-table words. The table of this block gives bits to none of its rows
(spec/98_reader.md: 0 rows with fixed bits), so no word spells a command. The bytes of a request frame are
read by `Sys2Proof.Machine.parseRequest` (Machine/Operands.lean). -/

namespace Sys2Proof

/-- The command a word spells by the table's bits: none, for no row has bits. -/
def decodeTableWord (_nbits _w : Nat) : Option Instr := none

end Sys2Proof
end

