-- ==== Sys2Proof/Config.lean ====
section
/-! DEFINITION. The fixed quantities of the LK8400 (00_scope.md, Fixed quantities) and the values the
manual leaves free. -/

namespace Sys2Proof.Config

/-- Entry store: records shared by all lanes (R5). -/
def storeEntries : Nat := 8192
/-- Entries per take at most (R5). -/
def takeEntries : Nat := 4096
/-- Staging segments (R35). -/
def segments : Nat := 128
/-- Sectors of a full chunk (R32). -/
def chunkSectors : Nat := 256
/-- Bytes of a sector (00_scope.md, Sizes and addresses). -/
def sectorBytes : Nat := 512
/-- FILE entries of a lane in progress at most (R7, R9). -/
def fileDepth : Nat := 2
/-- Free runs of a pool at most (R131). -/
def poolRuns : Nat := 32
/-- Runs of one allocation at most (R132). -/
def allocationRuns : Nat := 8
/-- Digest modulus M (R56). -/
def digestModulus : Nat := 4294967291
/-- Largest frame body, in bytes (R180). -/
def maxBody : Nat := 4600
/-- Bytes of a frame header (R180). -/
def headerBytes : Nat := 8
/-- Waiting request frames (R181). -/
def waitingFrames : Nat := 4
/-- Card settle time in milliseconds (R69). -/
def settleMs : Nat := 250
/-- Number of attention conditions (R169). -/
def conditions : Nat := 78
/-- File lengths are below this (R3). -/
def lengthLimit : Nat := 2 ^ 40
/-- How many follow-on actions one step takes at most: far more than the 8192 entries, 128 segments and 64
copies of the part can give rise to (log 23). -/
def settleFuel : Nat := 2 ^ 64

/-- The part serial of IDENTIFY, 8 bytes "different in each part" (R190): a free value (log 24). -/
opaque partSerial : BitVec 64

/-- The settle time left when SLOT STATUS reads it (R82): a free value, of which at most 250 counts (log 4). -/
opaque settleTimeLeft : Nat → Nat

end Sys2Proof.Config
end

