-- ==== Sys2Proof/Machine/State.lean ====
section
/-! DEFINITION. The state of the LK8400: every register, list, queue, buffer and mode the manual gives its
blocks, as plain data, the reasons a step can stop, and the state right after reset. -/

namespace Sys2Proof.Machine

/-! ### Reasons to stop -/

/-- The faults of the model: the type has no member. Nothing a command does stops the part: a request it
cannot carry out is answered with a status (R184), a fault of a card or drive is a change of State. -/
inductive Fault where
deriving DecidableEq, Repr

/-- The refusals of the model. -/
inductive Refusal where
  /-- Raised only by an arm of `exec` whose command has no meaning yet; no arm of this model raises it. Safe. -/
  | notModelled (mnemonic : String)
deriving DecidableEq, Repr

/-! ### Digests, identities and space -/

/-- A digest: the sums A and B and the byte count L (R56). -/
structure Digest where
  a : Nat
  b : Nat
  len : Nat
deriving DecidableEq, Repr

/-- The starting value of a digest (R56). -/
def Digest.start : Digest := { a := 0, b := 0, len := 0 }

/-- A card identity: serial of 16 bytes, byte i in bits 8i+7..8i, and sector count (R70, R71). -/
structure CardIdentity where
  serial : BitVec 128
  sectors : BitVec 32
deriving DecidableEq, Repr

/-- A drive identity: serial of 20 bytes, byte i in bits 8i+7..8i, and capacity in sectors (R107, R110). -/
structure DriveIdentity where
  serial : BitVec 160
  capacity : BitVec 32
deriving DecidableEq, Repr

/-- A contiguous range: card sectors of a source run, drive sectors of a device piece, or units of a run. -/
structure Extent where
  start : Nat
  len : Nat
deriving DecidableEq, Repr

/-- What a pool hands to one copy: runs of units and the identity generation at that moment (R132). -/
structure Allocation where
  runs : List Extent
  generation : BitVec 32
deriving DecidableEq, Repr

/-! ### Entries of a take (chapter 1, section 1.2) -/

/-- Progress of a FILE entry (section 2.6). -/
inductive Progress where
  | pending
  | allocating
  | moving
  | draining
  | finished
deriving DecidableEq, Repr

/-- What the reading of a file has come to (R89). -/
inductive SourceCondition where
  | clean
  | corrected
  | damaged
  | unreadable
  | cut
deriving DecidableEq, Repr

/-- State of a copy record (R160). -/
inductive CopyState where
  | none
  | skipped
  | writing
  | written
  | verifyWait
  | verifying
  | verified
  | mismatch
  | recopyWait
  | failed
deriving DecidableEq, Repr

/-- Reason of a SKIPPED or FAILED copy record (R160). -/
inductive CopyReason where
  | source
  | sourceUnstable
  | cut
  | fault
  | offline
  | absent
  | removed
  | aborted
deriving DecidableEq, Repr

/-- The part of a FILE entry that holds the state and results of one copy (R4, R160). -/
structure CopyRecord where
  state : CopyState
  reason : Option CopyReason
  allocation : Option Allocation
  chunksWritten : Nat
  readback : Option Digest
  recopied : Bool
deriving DecidableEq, Repr

/-- A copy record as appended (R4). -/
def CopyRecord.fresh : CopyRecord :=
  { state := .none, reason := none, allocation := none, chunksWritten := 0, readback := none, recopied := false }

/-- A FILE entry: host fields and result fields (R3, R4, R91, R159). -/
structure FileEntry where
  fileId : BitVec 32
  length : Nat
  runs : List Extent
  progress : Progress
  condition : SourceCondition
  chunksRead : Nat
  correctedCount : Nat
  running : Digest
  source : Option Digest
  copies : Vector CopyRecord 4
  damageCounted : Bool
  goodFile : Option Bool
deriving DecidableEq, Repr

/-- One record of a take list (R3). -/
inductive Entry where
  | file (f : FileEntry)
  | mark (number : BitVec 16) (reached : Bool)
  | pause (reached : Bool)
  | endOfList
deriving DecidableEq, Repr

/-! ### Takes and lanes (chapter 1) -/

/-- The lane states beside IDLE; an IDLE lane holds no take (R1, section 1.3). -/
inductive TakeState where
  | opened
  | running
  | starved
  | waiting
  | suspended
  | stopping
  | draining
  | interrupted
  | aborting
  | closed
deriving DecidableEq, Repr

/-- Wait reason of a WAITING lane (R12). -/
inductive WaitReason where
  | segments
  | pool (t : TargetIx)
  | targets
deriving DecidableEq, Repr

/-- Why the head is not advancing (R6). -/
inductive HeadHold where
  | none
  | depth
  | mark
  | pause
  | endOfList
deriving DecidableEq, Repr

/-- Read policy (R1). -/
inductive ReadPolicy where
  | skip
  | fill
  | halt
deriving DecidableEq, Repr

/-- Mismatch response (R1). -/
inductive MismatchResponse where
  | record
  | recopy
deriving DecidableEq, Repr

/-- Outcome of a take (R19). -/
inductive TakeOutcome where
  | complete
  | stopped
  | halted
  | aborted
deriving DecidableEq, Repr

/-- What a lane reads: nothing, a file, or a copy for a recopy (R1). -/
inductive Reading where
  | none
  | file (entry : Nat)
  | recopy (entry : Nat) (target : TargetIx)
deriving DecidableEq, Repr

/-- A piece of a chunk: its first file sector, its first card LBA and its sector count (R33). -/
structure Piece where
  sector : Nat
  lba : Nat
  count : Nat
deriving DecidableEq, Repr

/-- A chunk read in flight: its segment and the pieces that have not ended, the current one first (R33). -/
structure ChunkRead where
  segment : SegmentIx
  pieces : List Piece
deriving DecidableEq, Repr

/-- The take counters (R2). -/
structure Counters where
  bytesRead : Nat
  chunksRead : Nat
  corrected : Nat
  filesFinished : Nat
  filesGood : Nat
  filesDamaged : Nat
  filesUnreadable : Nat
  filesCut : Nat
deriving DecidableEq, Repr

/-- Every counter 0 (R2). -/
def Counters.zero : Counters :=
  { bytesRead := 0, chunksRead := 0, corrected := 0, filesFinished := 0, filesGood := 0, filesDamaged := 0,
    filesUnreadable := 0, filesCut := 0 }

/-- A take context (R1) with the working state of its reading (R32, R36, R56). -/
structure Take where
  label : BitVec 16
  state : TakeState
  waitReason : Option WaitReason
  headHold : HeadHold
  targets : TargetSet
  k : Nat
  verify : Bool
  policy : ReadPolicy
  mismatch : MismatchResponse
  retries : Nat
  alternate : Bool
  window : Nat
  snapshot : Option CardIdentity
  entries : List Entry
  head : Nat
  listEnded : Bool
  halting : Bool
  reading : Reading
  nextChunk : Nat
  chunkRead : Option ChunkRead
  recopyDigest : Digest
  recopyList : List (Nat × TargetIx)
  counters : Counters
  outcome : Option TakeOutcome
  cleared : Option Bool
deriving DecidableEq, Repr

/-! ### Staging buffer (chapter 2) -/

/-- What a held segment is used for: owner lane, entry, chunk, pass (none: the file's own reading; some t: a
recopy to target t), and the data its read has delivered so far (R35, R33; log 15). -/
structure SegmentUse where
  owner : LaneIx
  entry : Nat
  chunk : Nat
  pass : Option TargetIx
  data : List Byte
deriving DecidableEq, Repr

/-- State of a segment (R35). -/
inductive Segment where
  | free
  | filling (use : SegmentUse) (discard : Bool)
  | sending (use : SegmentUse) (outstanding : Nat)
deriving DecidableEq, Repr

/-- The staging buffer (R35, R37, R38). -/
structure Staging where
  segments : Vector Segment 128
  waiting : List LaneIx
  lastServed : LaneIx
deriving DecidableEq, Repr

/-- The staging buffer after reset (R35). -/
def Staging.reset : Staging :=
  { segments := Vector.replicate 128 .free, waiting := [], lastServed := 7 }

/-! ### Card ports (chapter 4) -/

/-- Slot states (R67). -/
inductive SlotState where
  | empty
  | settling
  | identifying
  | ready
  | faulted
  | held
deriving DecidableEq, Repr

/-- Result classes of attempts and operations (R76). -/
inductive ResultClass where
  | ok
  | corrected
  | uncorrectable
  | noResponse
  | badBlock
  | outOfRange
  | aborted
deriving DecidableEq, Repr

/-- A card read operation: its range and the settings that govern it (R74). -/
structure CardRead where
  start : Nat
  count : Nat
  retries : Nat
  alternate : Bool
deriving DecidableEq, Repr

/-- A peek: its read, and whether its retry setting was clamped (R83, R184). -/
structure Peek where
  read : CardRead
  clamped : Bool
deriving DecidableEq, Repr

/-- The operation in flight at a card port, with the attempts issued so far (R67, R77). -/
inductive CardOp where
  | none
  | identify
  | piece (read : CardRead) (attempts : Nat)
  | peek (peek : Peek) (attempts : Nat)
deriving DecidableEq, Repr

/-- The slot record (R67), the detection input (R68) and the peek buffer (R74). -/
structure Slot where
  state : SlotState
  present : Bool
  detect : Bool
  settleRunning : Bool
  identity : Option CardIdentity
  identifyAttempt : Nat
  op : CardOp
  waitingPeek : Option Peek
  waitingPiece : Option CardRead
  retried : Nat
  corrected : Nat
  failed : Nat
  peekBuffer : List Byte
deriving DecidableEq, Repr

/-- A card port after reset, with no card detected (R67). -/
def Slot.reset : Slot :=
  { state := .empty, present := false, detect := false, settleRunning := false, identity := none,
    identifyAttempt := 0, op := .none, waitingPeek := none, waitingPiece := none, retried := 0,
    corrected := 0, failed := 0, peekBuffer := [] }

/-! ### Target ports and pools (chapters 6 and 7) -/

/-- Target states (R107). -/
inductive TargetState where
  | absent
  | attaching
  | online
  | faulted
  | offline
deriving DecidableEq, Repr

/-- Fault reasons (R107). -/
inductive FaultReason where
  | identify
  | write
  | readback
  | timeout
deriving DecidableEq, Repr

/-- A write order in a lane's FIFO at a target (R45, R120, R121). -/
structure WriteOrder where
  entry : Nat
  chunk : Nat
  segment : SegmentIx
  pieces : List Extent
  errors : Nat
  withdrawn : Bool
deriving DecidableEq, Repr

/-- A host operation at a target (R128, R129). -/
inductive HostOp where
  | read (lba count : Nat)
  | write (lba count : Nat) (data : List Byte)
deriving DecidableEq, Repr

/-- The device operation in progress (R107, R115): for a write piece the lane whose head order it belongs to
and the number of the piece; for a readback read whether it is the repeat. -/
inductive DeviceOp where
  | none
  | identify
  | writePiece (lane : LaneIx) (piece : Nat)
  | readback (repeated : Bool)
  | host (op : HostOp)
deriving DecidableEq, Repr

/-- A party in the arbiter's ring (R116). -/
inductive Candidate where
  | lane (n : LaneIx)
  | verifier
deriving DecidableEq, Repr

/-- The target record (R107) with the drive-link input (R109). -/
structure Target where
  state : TargetState
  link : Bool
  faultReason : Option FaultReason
  identity : Option DriveIdentity
  generation : BitVec 32
  unit : Nat
  quota : Nat
  fifos : Vector (List WriteOrder) 8
  op : DeviceOp
  holder : Option Candidate
  grantCount : Nat
  waitingHost : Option HostOp
  writeRepeats : Nat
  readbackRepeats : Nat
deriving DecidableEq, Repr

/-- A target port after reset, with no drive link (R107). -/
def Target.reset : Target :=
  { state := .absent, link := false, faultReason := none, identity := none, generation := 0, unit := 2048,
    quota := 4, fifos := Vector.replicate 8 [], op := .none, holder := none, grantCount := 0,
    waitingHost := none, writeRepeats := 0, readbackRepeats := 0 }

/-- A space pool (R131). -/
structure Pool where
  runs : List Extent
  short : List LaneIx
  dropped : Nat
deriving DecidableEq, Repr

/-- A pool after reset (R131). -/
def Pool.reset : Pool := { runs := [], short := [], dropped := 0 }

/-! ### Verify unit (chapter 8) -/

/-- A verify order (R144). -/
structure VerifyOrder where
  lane : LaneIx
  entry : Nat
  target : TargetIx
deriving DecidableEq, Repr

/-- Where the readback read of an active verification stands (R144, R147). -/
inductive ReadPhase where
  | ready
  | granted
deriving DecidableEq, Repr

/-- An active verification (R144). -/
structure Verification where
  lane : LaneIx
  entry : Nat
  buffer : Fin 4
  chunk : Nat
  piece : Nat
  read : ReadPhase
  digest : Digest
  stop : Bool
deriving DecidableEq, Repr

/-- The verify unit: its queue and the active verification of each target (R144). -/
structure VerifyUnit where
  queue : List VerifyOrder
  active : Vector (Option Verification) 4
deriving DecidableEq, Repr

/-- The verify unit after reset (R144). -/
def VerifyUnit.reset : VerifyUnit := { queue := [], active := Vector.replicate 4 none }

/-! ### Attention unit (chapter 10) -/

/-- The attention unit (R170 to R173). -/
structure Attention where
  latched : CondSet
  asserted : CondSet
  noticeEnable : CondSet
  panelEnable : CondSet
  gained : CondSet
  sequence : BitVec 16
  panelLine : Bool
deriving DecidableEq, Repr

/-- The attention unit after reset (R178). -/
def Attention.reset : Attention :=
  { latched := 0, asserted := 0, noticeEnable := 0, panelEnable := 0, gained := 0, sequence := 0,
    panelLine := false }

/-! ### Message link unit (chapter 11) -/

/-- Status codes of replies (R184). -/
inductive Status where
  | ok
  | badFrame
  | unknownKind
  | badField
  | wrongState
  | noCard
  | noTarget
  | outOfRange
  | overlap
  | poolFull
  | noEntries
  | takeFull
  | regionBusy
  | poolRegion
  | cardMismatch
  | cardFault
  | targetFault
  | overrun
deriving DecidableEq, Repr

/-- An arrived frame: the bytes kept of its transfer, and the note that it was too long (R179). -/
structure Frame where
  bytes : List Byte
  tooLong : Bool
deriving DecidableEq, Repr

/-- A frame from the part (11.6, Frame header; R186). -/
structure OutFrame where
  kind : Byte
  flags : Byte
  status : Status
  tag : BitVec 16
  body : List Byte
deriving DecidableEq, Repr

/-- The request in service (R181): its kind and tag, and its reply once composed (R183). -/
structure Service where
  kind : Byte
  tag : BitVec 16
  reply : Option OutFrame
deriving DecidableEq, Repr

/-- Which frame the outgoing path sends; a notice with the gained set it carries (R185, R187). -/
inductive Sending where
  | reply
  | overrun
  | notice (gained : CondSet)
deriving DecidableEq, Repr

/-- The message link unit (R181), with the transfers that wait at the USB level (R179, R182; log 7). -/
structure Link where
  inService : Option Service
  queue : List Frame
  overrun : Option OutFrame
  pendingNotice : Bool
  outgoing : Option (Sending × OutFrame)
  configured : Bool
  stale : Bool
  outPipe : List Frame
deriving DecidableEq, Repr

/-- The message link unit at power-on (R181). -/
def Link.reset : Link :=
  { inService := none, queue := [], overrun := none, pendingNotice := false, outgoing := none,
    configured := false, stale := false, outPipe := [] }

/-! ### The machine -/

/-- The state of the LK8400. `pending` is the queue of waiting commands and `freeReads` picks the next free
value; both are the model's own (log 4, 32). -/
structure State where
  link : Link
  attention : Attention
  freeEntries : Nat
  lanes : Vector (Option Take) 8
  staging : Staging
  slots : Vector Slot 8
  targets : Vector Target 4
  pools : Vector Pool 4
  verify : VerifyUnit
  freeReads : Nat
  pending : List Instr
deriving DecidableEq, Repr

/-- The machine right after power-on, no card and no drive detected yet (R31, R35, R67, R107, R131, R144,
R178, R181; log 1). -/
def State.reset : State :=
  { link := Link.reset
    attention := Attention.reset
    freeEntries := Config.storeEntries
    lanes := Vector.replicate 8 none
    staging := Staging.reset
    slots := Vector.replicate 8 Slot.reset
    targets := Vector.replicate 4 Target.reset
    pools := Vector.replicate 4 Pool.reset
    verify := VerifyUnit.reset
    freeReads := 0
    pending := [] }

end Sys2Proof.Machine
end

