-- ==== Sys2Proof/Machine/Ops.lean ====
section
/-! DEFINITION. The named operations over the parts of State that every block uses: reading and replacing a
slot, target, pool, take, entry and copy record; saturating counters; and the agenda of follow-on actions
that one step takes until nothing more is to do (`Task`). -/

namespace Sys2Proof.Machine

/-! ### Saturating counters -/

/-- Add to a counter of the given width that stays at its largest value (R2, R78, R131). -/
def satAdd (bits n m : Nat) : Nat := min (n + m) (2 ^ bits - 1)

/-- Count one more on a 32-bit counter that stays at its largest value. -/
def satInc (n : Nat) : Nat := satAdd 32 n 1

/-- ceil(n / d) for d above 0 (00_scope.md, Numbers). -/
def ceilDiv (n d : Nat) : Nat := (n + d - 1) / d

/-! ### Parts of State -/

def State.slot (s : State) (n : LaneIx) : Slot := s.slots[n]

def State.setSlot (s : State) (n : LaneIx) (x : Slot) : State :=
  { s with slots := s.slots.set n.val x n.isLt }

def State.modifySlot (s : State) (n : LaneIx) (f : Slot → Slot) : State := s.setSlot n (f (s.slot n))

def State.target (s : State) (t : TargetIx) : Target := s.targets[t]

def State.setTarget (s : State) (t : TargetIx) (x : Target) : State :=
  { s with targets := s.targets.set t.val x t.isLt }

def State.modifyTarget (s : State) (t : TargetIx) (f : Target → Target) : State :=
  s.setTarget t (f (s.target t))

def State.pool (s : State) (t : TargetIx) : Pool := s.pools[t]

def State.setPool (s : State) (t : TargetIx) (x : Pool) : State :=
  { s with pools := s.pools.set t.val x t.isLt }

def State.modifyPool (s : State) (t : TargetIx) (f : Pool → Pool) : State := s.setPool t (f (s.pool t))

def State.segment (s : State) (g : SegmentIx) : Segment := s.staging.segments[g]

def State.setSegment (s : State) (g : SegmentIx) (x : Segment) : State :=
  { s with staging := { s.staging with segments := s.staging.segments.set g.val x g.isLt } }

/-- The take context of a lane; none while the lane is IDLE (R1). -/
def State.take? (s : State) (n : LaneIx) : Option Take := s.lanes[n]

def State.setLane (s : State) (n : LaneIx) (x : Option Take) : State :=
  { s with lanes := s.lanes.set n.val x n.isLt }

def State.modifyTake (s : State) (n : LaneIx) (f : Take → Take) : State :=
  s.setLane n ((s.take? n).map f)

/-- The lane state; none stands for IDLE. -/
def State.laneState (s : State) (n : LaneIx) : Option TakeState := (s.take? n).map Take.state

def State.active (s : State) (t : TargetIx) : Option Verification := s.verify.active[t]

def State.setActive (s : State) (t : TargetIx) (x : Option Verification) : State :=
  { s with verify := { s.verify with active := s.verify.active.set t.val x t.isLt } }

/-! ### Entries and copy records -/

/-- The FILE entry of an entry, if it is one. -/
def Entry.file? : Entry → Option FileEntry
  | .file f => some f
  | .mark _ _ => none
  | .pause _ => none
  | .endOfList => none

/-- Change a FILE entry; other kinds stay. -/
def Entry.mapFile (f : FileEntry → FileEntry) : Entry → Entry
  | .file x => .file (f x)
  | .mark n r => .mark n r
  | .pause r => .pause r
  | .endOfList => .endOfList

def Take.file? (t : Take) (e : Nat) : Option FileEntry := (t.entries[e]?).bind Entry.file?

def Take.modifyFile (t : Take) (e : Nat) (f : FileEntry → FileEntry) : Take :=
  { t with entries := t.entries.modify e (Entry.mapFile f) }

def State.file? (s : State) (n : LaneIx) (e : Nat) : Option FileEntry := (s.take? n).bind (·.file? e)

def State.modifyFile (s : State) (n : LaneIx) (e : Nat) (f : FileEntry → FileEntry) : State :=
  s.modifyTake n (·.modifyFile e f)

def FileEntry.copy (f : FileEntry) (t : TargetIx) : CopyRecord := f.copies[t]

def FileEntry.modifyCopy (f : FileEntry) (t : TargetIx) (g : CopyRecord → CopyRecord) : FileEntry :=
  { f with copies := f.copies.set t.val (g (f.copy t)) t.isLt }

def State.copy? (s : State) (n : LaneIx) (e : Nat) (t : TargetIx) : Option CopyRecord :=
  (s.file? n e).map (·.copy t)

def State.modifyCopy (s : State) (n : LaneIx) (e : Nat) (t : TargetIx) (g : CopyRecord → CopyRecord) : State :=
  s.modifyFile n e (·.modifyCopy t g)

/-- Sectors of a file: S = ceil(n / 512) (R3). -/
def FileEntry.sectors (f : FileEntry) : Nat := ceilDiv f.length Config.sectorBytes

/-- Chunks total: ceil(S / 256) (R4, R32). -/
def FileEntry.chunksTotal (f : FileEntry) : Nat := ceilDiv f.sectors Config.chunkSectors

/-- All lanes and all targets, in ascending order. -/
def allLanes : List LaneIx := List.finRange 8
def allTargets : List TargetIx := List.finRange 4
def allSegments : List SegmentIx := List.finRange 128

/-- The targets of a set, in ascending order. -/
def targetsOf (ts : TargetSet) : List TargetIx := allTargets.filter fun t => ts.getLsbD t.val

/-- The entries of a take with their indexes. -/
def Take.indexed (t : Take) : List (Nat × Entry) := (List.range t.entries.length).zip t.entries

/-- The FILE entries of a take with their indexes. -/
def Take.files (t : Take) : List (Nat × FileEntry) :=
  t.indexed.filterMap fun p => p.2.file?.map fun f => (p.1, f)

/-- The terminal states of a copy record; WRITTEN is terminal when the take's verify setting is off (R10). -/
def CopyState.terminal (verify : Bool) : CopyState → Bool
  | .none => true
  | .skipped => true
  | .writing => false
  | .written => !verify
  | .verifyWait => false
  | .verifying => false
  | .verified => true
  | .mismatch => true
  | .recopyWait => false
  | .failed => true

/-- Every copy record of the file is in a terminal state (R10). -/
def FileEntry.allTerminal (f : FileEntry) (verify : Bool) : Bool :=
  allTargets.all fun t => (f.copy t).state.terminal verify

/-- A copy record made FAILED with a reason; allocation, chunks written and digests are kept (R92, R160). -/
def CopyRecord.fail (r : CopyReason) (c : CopyRecord) : CopyRecord :=
  { c with state := .failed, reason := some r }

/-- A copy record made FAILED if it is in one of the given states. -/
def CopyRecord.failIf (p : CopyState → Bool) (r : CopyReason) (c : CopyRecord) : CopyRecord :=
  if p c.state then c.fail r else c

/-! ### Follow-on actions of a step

The manual's steps are whole (95_what_each_step_holds.md): what an event brings about in other blocks
belongs to the event's step. Each operation returns the new state and the follow-on actions still to take, in
order; `settle` (Machine/Settle.lean) takes them, the newest first. -/

inductive Task where
  /-- A lane in RUNNING works its head (R6). -/
  | workHead (n : LaneIx)
  /-- A lane goes on after a reading ended, a file finished or a pair joined its recopy list (R6, R10, R50, R102). -/
  | goOn (n : LaneIx)
  /-- A lane tests whether it can begin a chunk read (R36). -/
  | tryRead (n : LaneIx)
  /-- The test of R10 for one file. -/
  | testFinish (n : LaneIx) (e : Nat)
  /-- A segment whose use has ended becomes FREE and is handed on (R38). -/
  | freeSegment (g : SegmentIx)
  /-- A lane hands its current piece to its card port (R33, R79). -/
  | handPiece (n : LaneIx)
  /-- A piece of a lane has ended at the card port (R41, R42). -/
  | pieceEnded (n : LaneIx) (cls : ResultClass) (data : List Byte)
  /-- The wait of a lane in WAITING ends (R13). -/
  | endWait (n : LaneIx)
  /-- The copy a lane is recopying may have left WRITING (R51). -/
  | recopyLeft (n : LaneIx)
  /-- A STOPPING, DRAINING or ABORTING lane tests whether it can close, an INTERRUPTED lane whether work needs its
  card (R15, R16, R19, R53, R102). -/
  | laneTests (n : LaneIx)
  /-- The reply of a take request is composed with the lane's state after the request (R20). -/
  | takeReply (n : LaneIx) (clamped : Bool) (st : Status) (body : List Byte)
deriving DecidableEq, Repr

/-- The result of an operation: the state and the follow-on actions in order. -/
abbrev Work := State × List Task

/-- Run one more operation after another; follow-on actions in order. -/
def Work.andThen (w : Work) (f : State → Work) : Work :=
  let w2 := f w.1
  (w2.1, w.2 ++ w2.2)

/-- Add follow-on actions at the end. -/
def Work.addTasks (w : Work) (ts : List Task) : Work := (w.1, w.2 ++ ts)

/-- Run an operation for each member of a list, in order. -/
def forEach {α : Type} (xs : List α) (f : α → State → Work) (s : State) : Work :=
  xs.foldl (fun w x => w.andThen (f x)) (s, [])

end Sys2Proof.Machine
end

