-- ==== Sys2Proof/Machine/Flags.lean ====
section
/-! DEFINITION. The attention unit (chapter 10): condition numbers, latches, asserted levels, the gained set
and the panel alert line; the changes of lane state that assert and end its levels; the tally lamps (9.4). -/

namespace Sys2Proof.Machine

/-! ### Condition numbers (R169) -/

def condLaneDone (n : LaneIx) : Nat := 6 * n.val
def condLaneWaiting (n : LaneIx) : Nat := 6 * n.val + 1
def condLaneSuspended (n : LaneIx) : Nat := 6 * n.val + 2
def condLaneStarved (n : LaneIx) : Nat := 6 * n.val + 3
def condLaneMark (n : LaneIx) : Nat := 6 * n.val + 4
def condSourceFault (n : LaneIx) : Nat := 6 * n.val + 5
def condSlotReady (n : LaneIx) : Nat := 48 + 2 * n.val
def condSlotRemoved (n : LaneIx) : Nat := 49 + 2 * n.val
def condTargetAttached (t : TargetIx) : Nat := 64 + 3 * t.val
def condTargetFault (t : TargetIx) : Nat := 65 + 3 * t.val
def condPoolShort (t : TargetIx) : Nat := 66 + 3 * t.val
def condStagingDry : Nat := 76
def condLinkOverrun : Nat := 77

/-- Level conditions; the others are edge conditions (R169). -/
def isLevel (c : Nat) : Bool :=
  if c < 48 then c % 6 == 1 || c % 6 == 2 || c % 6 == 3
  else if c < 64 then false
  else if c < 76 then (c - 64) % 3 == 1 || (c - 64) % 3 == 2
  else c == 76

/-- The set of one condition. -/
def condBit (c : Nat) : CondSet := BitVec.twoPow 78 c

/-- The set of all level conditions (R169). -/
def levelSet : CondSet :=
  (List.range 78).foldl (fun acc c => if isLevel c then acc ||| condBit c else acc) 0

/-! ### Latches -/

/-- The panel alert line from the latches and the panel-enable set (R173). -/
def Attention.evalPanel (a : Attention) : Attention :=
  { a with panelLine := a.latched &&& a.panelEnable != 0 }

/-- Conditions are gained: they join the gained set, and the pending-notice flag is set if it was empty (R171). -/
def State.gain (s : State) (new : CondSet) : State :=
  if new = 0 then s
  else
    { s with
      attention := { s.attention with gained := s.attention.gained ||| new }
      link := { s.link with
        pendingNotice := if s.attention.gained = 0 then true else s.link.pendingNotice } }

/-- An event of an edge condition, and the latching part of a rise: a clear latch becomes set, and the
condition is gained if its notice is enabled (R170, R171). -/
def State.latch (s : State) (c : Nat) : State :=
  if s.attention.latched.getLsbD c then s
  else
    let s1 := { s with
      attention := ({ s.attention with latched := s.attention.latched ||| condBit c }).evalPanel }
    s1.gain (condBit c &&& s.attention.noticeEnable)

/-- Rise of a level condition (R170). -/
def State.rise (s : State) (c : Nat) : State :=
  ({ s with attention := { s.attention with asserted := s.attention.asserted ||| condBit c } }).latch c

/-- Fall of a level condition (R170). -/
def State.fall (s : State) (c : Nat) : State :=
  { s with attention := { s.attention with asserted := s.attention.asserted &&& ~~~ (condBit c) } }

/-! ### Lane states and the levels they assert (R11, R12, R14, R169) -/

/-- The level condition a lane asserts in a state. -/
def laneLevel (n : LaneIx) : TakeState → Option Nat
  | .waiting => some (condLaneWaiting n)
  | .suspended => some (condLaneSuspended n)
  | .starved => some (condLaneStarved n)
  | .opened => none
  | .running => none
  | .stopping => none
  | .draining => none
  | .interrupted => none
  | .aborting => none
  | .closed => none

/-- The head hold is kept only in RUNNING and DRAINING (R6). -/
def TakeState.keepsHold : TakeState → Bool
  | .running => true
  | .draining => true
  | .opened => false
  | .starved => false
  | .waiting => false
  | .suspended => false
  | .stopping => false
  | .interrupted => false
  | .aborting => false
  | .closed => false

/-- The fields a change of lane state sets: the state; no wait reason (R12: present only in WAITING); the head
hold NONE in any state but RUNNING and DRAINING (R6). -/
def Take.inState (t : Take) (st : TakeState) : Take :=
  { t with state := st, waitReason := none, headHold := if st.keepsHold then t.headHold else .none }

/-- Lane n enters a state: the level of the state left falls, the level of the state entered rises (R169). -/
def State.enter (s : State) (n : LaneIx) (st : TakeState) : State :=
  let s1 := match (s.laneState n).bind (laneLevel n) with
    | some c => s.fall c
    | none => s
  let s2 := s1.modifyTake n (·.inState st)
  match laneLevel n st with
  | some c => s2.rise c
  | none => s2

/-- Lane n enters WAITING with a reason (R12). -/
def State.enterWaiting (s : State) (n : LaneIx) (r : WaitReason) : State :=
  (s.enter n .waiting).modifyTake n fun t => { t with waitReason := some r }

def State.setHold (s : State) (n : LaneIx) (h : HeadHold) : State :=
  s.modifyTake n fun t => { t with headHold := h }

/-! ### Sets whose being non-empty is a level -/

/-- A lane joins the set of waiting lanes; STAGING DRY rises when the set was empty (R37). -/
def State.joinWaiting (s : State) (n : LaneIx) : State :=
  if s.staging.waiting.contains n then s
  else
    let s1 := { s with staging := { s.staging with waiting := s.staging.waiting ++ [n] } }
    if s.staging.waiting.isEmpty then s1.rise condStagingDry else s1

/-- A lane leaves the set of waiting lanes; STAGING DRY falls when the set becomes empty (R37, R39). -/
def State.leaveWaiting (s : State) (n : LaneIx) : State :=
  if s.staging.waiting.contains n then
    let rest := s.staging.waiting.erase n
    let s1 := { s with staging := { s.staging with waiting := rest } }
    if rest.isEmpty then s1.fall condStagingDry else s1
  else s

/-- A lane joins the tail of a pool's short list unless it is on it; POOL SHORT rises (R138). -/
def State.joinShort (s : State) (t : TargetIx) (n : LaneIx) : State :=
  if (s.pool t).short.contains n then s
  else
    let s1 := s.modifyPool t fun p => { p with short := p.short ++ [n] }
    if (s.pool t).short.isEmpty then s1.rise (condPoolShort t) else s1

/-- A lane leaves a pool's short list; POOL SHORT falls when the list becomes empty (R138). -/
def State.leaveShort (s : State) (t : TargetIx) (n : LaneIx) : State :=
  if (s.pool t).short.contains n then
    let rest := (s.pool t).short.erase n
    let s1 := s.modifyPool t fun p => { p with short := rest }
    if rest.isEmpty then s1.fall (condPoolShort t) else s1
  else s

/-- A lane leaves every short list (R138). -/
def State.leaveAllShort (s : State) (n : LaneIx) : State :=
  allTargets.foldl (fun s t => s.leaveShort t n) s

/-! ### Outputs that are functions of State -/

/-- Tally lamp values (R166, R191). -/
inductive Lamp where
  | off
  | amber
  | amberBlinking
  | green
  | red
deriving DecidableEq, Repr

/-- Card power: applied in SETTLING, IDENTIFYING, READY and FAULTED (R67). -/
def Slot.powered (x : Slot) : Bool :=
  match x.state with
  | .empty => false
  | .settling => true
  | .identifying => true
  | .ready => true
  | .faulted => true
  | .held => false

/-- The tally lamp of slot n (R166); it holds no state of its own. -/
def lamp (s : State) (n : LaneIx) : Lamp :=
  match (s.slot n).state with
  | .empty => .off
  | .held => .off
  | .settling => .amber
  | .identifying => .amber
  | .faulted => .red
  | .ready =>
    match s.take? n with
    | none => .amber
    | some t =>
      match t.state with
      | .opened => .amber
      | .closed =>
        if t.snapshot.isSome && (s.slot n).identity == t.snapshot then
          if t.cleared = some true then .green else .red
        else .amber
      | .running => .amberBlinking
      | .starved => .amberBlinking
      | .waiting => .amberBlinking
      | .suspended => .amberBlinking
      | .stopping => .amberBlinking
      | .draining => .amberBlinking
      | .interrupted => .amberBlinking
      | .aborting => .amberBlinking

end Sys2Proof.Machine
end

