-- ==== Sys2Proof/Machine/Operands.lean ====
section
/-! DEFINITION. The fields of frames and records (chapter 11): little-endian fields, the codes of enumerated
fields, the clamped fields of requests, and request frames read from and written as bytes. -/

namespace Sys2Proof.Machine

/-! ### Little-endian fields (R191) -/

/-- n as a field of `width` bytes, least significant first. -/
def le : Nat → Nat → List Byte
  | 0, _ => []
  | width + 1, n => BitVec.ofNat 8 n :: le width (n / 256)

/-- The value of a little-endian field. -/
def fromLe : List Byte → Nat
  | [] => 0
  | b :: rest => b.toNat + 256 * fromLe rest

def yesNo (b : Bool) : Byte := if b then 1 else 0

/-- A field that may be absent: a presence byte, then the value's bytes, 0 when absent (R191). -/
def optField (width : Nat) : Option (List Byte) → List Byte
  | none => 0 :: List.replicate width 0
  | some bytes => 1 :: bytes

/-- A set of conditions, 10 bytes (R191). -/
def condSetBytes (c : CondSet) : List Byte := le 10 c.toNat

/-- A card identity: serial of 16 bytes, sector count of 4 (R191). -/
def cardIdentityBytes (i : CardIdentity) : List Byte := le 16 i.serial.toNat ++ le 4 i.sectors.toNat

/-- A drive identity: serial of 20 bytes, capacity of 4 (R191). -/
def driveIdentityBytes (i : DriveIdentity) : List Byte := le 20 i.serial.toNat ++ le 4 i.capacity.toNat

/-! ### Codes (R184, R191, 11.6) -/

def Status.code : Status → Byte
  | .ok => 0x00
  | .badFrame => 0x01
  | .unknownKind => 0x02
  | .badField => 0x03
  | .wrongState => 0x04
  | .noCard => 0x05
  | .noTarget => 0x06
  | .outOfRange => 0x07
  | .overlap => 0x08
  | .poolFull => 0x09
  | .noEntries => 0x0A
  | .takeFull => 0x0B
  | .regionBusy => 0x0C
  | .poolRegion => 0x0D
  | .cardMismatch => 0x0E
  | .cardFault => 0x0F
  | .targetFault => 0x10
  | .overrun => 0x11

/-- Lane state code; none is IDLE. -/
def laneStateCode : Option TakeState → Byte
  | none => 0
  | some .opened => 1
  | some .running => 2
  | some .starved => 3
  | some .waiting => 4
  | some .suspended => 5
  | some .stopping => 6
  | some .draining => 7
  | some .interrupted => 8
  | some .aborting => 9
  | some .closed => 10

def HeadHold.code : HeadHold → Byte
  | .none => 0
  | .depth => 1
  | .mark => 2
  | .pause => 3
  | .endOfList => 4

def WaitReason.code : WaitReason → Byte
  | .segments => 0
  | .pool _ => 1
  | .targets => 2

def Reading.code : Reading → Byte
  | .none => 0
  | .file _ => 1
  | .recopy _ _ => 2

def ReadPolicy.code : ReadPolicy → Byte
  | .skip => 0
  | .fill => 1
  | .halt => 2

def MismatchResponse.code : MismatchResponse → Byte
  | .record => 0
  | .recopy => 1

def TakeOutcome.code : TakeOutcome → Byte
  | .complete => 0
  | .stopped => 1
  | .halted => 2
  | .aborted => 3

def SlotState.code : SlotState → Byte
  | .empty => 0
  | .settling => 1
  | .identifying => 2
  | .ready => 3
  | .faulted => 4
  | .held => 5

def CardOp.code : CardOp → Byte
  | .none => 0
  | .identify => 1
  | .piece _ _ => 2
  | .peek _ _ => 3

def ResultClass.code : ResultClass → Byte
  | .ok => 0
  | .corrected => 1
  | .uncorrectable => 2
  | .noResponse => 3
  | .badBlock => 4
  | .outOfRange => 5
  | .aborted => 6

def Lamp.code : Lamp → Byte
  | .off => 0
  | .amber => 1
  | .amberBlinking => 2
  | .green => 3
  | .red => 4

def TargetState.code : TargetState → Byte
  | .absent => 0
  | .attaching => 1
  | .online => 2
  | .faulted => 3
  | .offline => 4

def FaultReason.code : FaultReason → Byte
  | .identify => 0
  | .write => 1
  | .readback => 2
  | .timeout => 3

def DeviceOp.code : DeviceOp → Byte
  | .none => 0
  | .identify => 1
  | .writePiece _ _ => 2
  | .readback _ => 3
  | .host (.read _ _) => 4
  | .host (.write _ _ _) => 5

def holderCode : Option Candidate → Byte
  | some (.lane n) => BitVec.ofNat 8 n.val
  | some .verifier => 8
  | none => 9

/-- Host target operation class ERROR, TIMEOUT, ENDED (R130, R191). -/
def hostClassError : Byte := 0
def hostClassTimeout : Byte := 1
def hostClassEnded : Byte := 2

def Progress.code : Progress → Byte
  | .pending => 0
  | .allocating => 1
  | .moving => 2
  | .draining => 3
  | .finished => 4

def SourceCondition.code : SourceCondition → Byte
  | .clean => 0
  | .corrected => 1
  | .damaged => 2
  | .unreadable => 3
  | .cut => 4

def CopyState.code : CopyState → Byte
  | .none => 0
  | .skipped => 1
  | .writing => 2
  | .written => 3
  | .verifyWait => 4
  | .verifying => 5
  | .verified => 6
  | .mismatch => 7
  | .recopyWait => 8
  | .failed => 9

/-- Reason code; 0 is absent. -/
def copyReasonCode : Option CopyReason → Byte
  | none => 0
  | some .source => 1
  | some .sourceUnstable => 2
  | some .cut => 3
  | some .fault => 4
  | some .offline => 5
  | some .absent => 6
  | some .removed => 7
  | some .aborted => 8

/-! ### Fields of requests: ranges, codes and clamps -/

/-- A lane, slot number below 8 (R20, R81, R163). -/
def laneOf (b : Byte) : Option LaneIx := if h : b.toNat < 8 then some ⟨b.toNat, h⟩ else none

/-- A target number below 4 (R123, R165). -/
def targetOf (b : Byte) : Option TargetIx := if h : b.toNat < 4 then some ⟨b.toNat, h⟩ else none

/-- An on-or-off field (R191): 0 off or no, 1 on or yes, other codes name no value. -/
def onOff (b : Byte) : Option Bool := if b = 0 then some false else if b = 1 then some true else none

def policyOf (b : Byte) : Option ReadPolicy :=
  if b = 0 then some .skip else if b = 1 then some .fill else if b = 2 then some .halt else none

def mismatchOf (b : Byte) : Option MismatchResponse :=
  if b = 0 then some .record else if b = 1 then some .recopy else none

/-- A target set that names no target above 3 (R21, R28). -/
def targetSetOf (b : Byte) : Option TargetSet := if b.toNat < 16 then some (b.setWidth 4) else none

/-- Number of targets in a set. -/
def setSize (ts : TargetSet) : Nat := (targetsOf ts).length

/-- A condition set that names no condition of 78 or above (R174, R191). -/
def condSetOf (c : BitVec 80) : Option CondSet := if c.toNat < 2 ^ 78 then some (c.setWidth 78) else none

/-- Window in effect (R21). -/
def clampWindow (w : Nat) : Nat := if w = 0 then 8 else min w 32

/-- Retries in effect (R21, R83). -/
def clampRetries (r : Nat) : Nat := if r = 3 then 4 else min r 4

/-- Allocation unit in effect (R125). -/
def clampUnit (u : Nat) : Nat := if u = 128 ∨ u = 512 ∨ u = 2048 ∨ u = 8192 then u else 2048

/-- Hold quota in effect (R125). -/
def clampQuota (q : Nat) : Nat := if q = 0 then 1 else min q 16

/-! ### Request frames (R180, R191, 11.6) -/

/-- The kind byte of a request. -/
def requestKind : Request → Byte
  | .identify => 0x01
  | .resetPart => 0x02
  | .readAttention => 0x10
  | .clearAttention _ => 0x11
  | .setAttentionEnables _ _ _ _ => 0x12
  | .slotStatus _ => 0x20
  | .peekCard _ _ _ _ _ => 0x21
  | .holdSlot _ => 0x22
  | .freeSlot _ => 0x23
  | .targetStatus _ => 0x30
  | .configureTarget _ _ _ => 0x31
  | .takeTargetOffline _ => 0x32
  | .bringTargetOnline _ => 0x33
  | .readTarget _ _ _ => 0x34
  | .writeTarget _ _ _ _ => 0x35
  | .grantSpace _ _ => 0x40
  | .clearPool _ => 0x41
  | .readPool _ => 0x42
  | .openTake _ _ _ _ _ _ _ _ _ _ => 0x50
  | .appendEntries _ _ => 0x51
  | .startTake _ => 0x52
  | .suspendTake _ => 0x53
  | .resumeTake _ => 0x54
  | .stopTake _ => 0x55
  | .abortTake _ => 0x56
  | .adjustTake _ _ _ => 0x57
  | .takeStatus _ => 0x58
  | .releaseTake _ _ => 0x59
  | .readManifest _ _ _ => 0x60
  | .readAllocation _ _ _ => 0x61

/-- The kinds of requests (11.6, Request kinds). -/
def requestKinds : List Byte :=
  [0x01, 0x02, 0x10, 0x11, 0x12, 0x20, 0x21, 0x22, 0x23, 0x30, 0x31, 0x32, 0x33, 0x34, 0x35, 0x40, 0x41,
   0x42, 0x50, 0x51, 0x52, 0x53, 0x54, 0x55, 0x56, 0x57, 0x58, 0x59, 0x60, 0x61]

/-- An entry as appended, as bytes (11.6). -/
def entryArgBytes : EntryArg → List Byte
  | .file id len runs =>
      [1, BitVec.ofNat 8 runs.length] ++ le 4 id.toNat ++ le 6 len.toNat
        ++ (runs.map fun r => le 4 r.start.toNat ++ le 2 r.sectors.toNat).flatten
  | .mark n => 2 :: le 2 n.toNat
  | .pause => [3]
  | .endOfList => [4]

/-- The body of a request: its fields in the order its rule names them (R191). -/
def requestBody : Request → List Byte
  | .identify => []
  | .resetPart => []
  | .readAttention => []
  | .clearAttention c => le 10 c.toNat
  | .setAttentionEnables n nf p pf => le 10 n.toNat ++ [nf] ++ le 10 p.toNat ++ [pf]
  | .slotStatus x => [x]
  | .peekCard x a c r al => [x] ++ le 4 a.toNat ++ [c, r, al]
  | .holdSlot x => [x]
  | .freeSlot x => [x]
  | .targetStatus x => [x]
  | .configureTarget x u q => [x] ++ le 2 u.toNat ++ [q]
  | .takeTargetOffline x => [x]
  | .bringTargetOnline x => [x]
  | .readTarget x a c => [x] ++ le 4 a.toNat ++ [c]
  | .writeTarget x a c d => [x] ++ le 4 a.toNat ++ [c] ++ d
  | .grantSpace x rs =>
      [x, BitVec.ofNat 8 rs.length] ++ (rs.map fun r => le 4 r.start.toNat ++ le 4 r.length.toNat).flatten
  | .clearPool x => [x]
  | .readPool x => [x]
  | .openTake x l ts k v p m r al w => [x] ++ le 2 l.toNat ++ [ts, k, v, p, m, r, al, w]
  | .appendEntries x es => [x, BitVec.ofNat 8 es.length] ++ (es.map entryArgBytes).flatten
  | .startTake x => [x]
  | .suspendTake x => [x]
  | .resumeTake x => [x]
  | .stopTake x => [x]
  | .abortTake x => [x]
  | .adjustTake x k rm => [x, k, rm]
  | .takeStatus x => [x]
  | .releaseTake x rc => [x, rc]
  | .readManifest x f c => [x] ++ le 2 f.toNat ++ [c]
  | .readAllocation x i t => [x] ++ le 2 i.toNat ++ [t]

/-- The frame of a request with a tag (11.6, Frame header). -/
def requestFrame (tag : BitVec 16) (r : Request) : Frame :=
  { bytes := [0x6C, requestKind r, 0, 0] ++ le 2 tag.toNat ++ le 2 (requestBody r).length ++ requestBody r, tooLong := false }

/-- The bytes of a transfer as an arrived frame: 4608 bytes at most are kept (R179). -/
def frameOf (transfer : List Byte) : Frame :=
  { bytes := transfer.take (Config.headerBytes + Config.maxBody)
    tooLong := decide (transfer.length > Config.headerBytes + Config.maxBody) }

/-- Kind and tag as header bytes 1 and 4 to 5 give them, 0 where the frame held them not (R180). -/
def Frame.kind (f : Frame) : Byte := f.bytes.getD 1 0
def Frame.tag (f : Frame) : BitVec 16 :=
  if f.bytes.length < 6 then 0 else BitVec.ofNat 16 (fromLe ((f.bytes.drop 4).take 2))
def Frame.body (f : Frame) : List Byte := f.bytes.drop Config.headerBytes
def Frame.bodyLength (f : Frame) : Nat := fromLe ((f.bytes.drop 6).take 2)

/-- The first four checks of R180. -/
def Frame.headerOk (f : Frame) : Bool :=
  decide (Config.headerBytes ≤ f.bytes.length) && !f.tooLong
    && f.bytes.getD 0 0 == 0x6C
    && f.bytes.getD 2 0 == 0 && f.bytes.getD 3 0 == 0
    && decide (f.bodyLength ≤ Config.maxBody) && f.bytes.length == Config.headerBytes + f.bodyLength

/-- Read r runs of 6 bytes (11.6). -/
def readRuns : Nat → List Byte → List RunArg
  | 0, _ => []
  | r + 1, bs =>
    { start := BitVec.ofNat 32 (fromLe (bs.take 4)), sectors := BitVec.ofNat 16 (fromLe ((bs.drop 4).take 2)) }
      :: readRuns r (bs.drop 6)

/-- The walk of the entries of APPEND ENTRIES (R191): the entries, or the refusal met first. -/
def walkEntries : Nat → List Byte → Except Status (List EntryArg)
  | 0, [] => .ok []
  | 0, _ :: _ => .error .badFrame
  | _ + 1, [] => .error .badFrame
  | k + 1, kind :: rest =>
    if kind = 1 then
      match rest with
      | [] => .error .badFrame
      | r :: more =>
        if r.toNat > 16 then .error .badField
        else if more.length < 10 + 6 * r.toNat then .error .badFrame
        else do
          let e := EntryArg.file (BitVec.ofNat 32 (fromLe (more.take 4)))
            (BitVec.ofNat 48 (fromLe ((more.drop 4).take 6))) (readRuns r.toNat (more.drop 10))
          let es ← walkEntries k (more.drop (10 + 6 * r.toNat))
          return e :: es
    else if kind = 2 then
      if rest.length < 2 then .error .badFrame
      else do
        let es ← walkEntries k (rest.drop 2)
        return .mark (BitVec.ofNat 16 (fromLe (rest.take 2))) :: es
    else if kind = 3 then do
      let es ← walkEntries k rest
      return .pause :: es
    else if kind = 4 then do
      let es ← walkEntries k rest
      return .endOfList :: es
    else .error .badField

/-- Read r runs of 8 bytes (R191). -/
def readUnitRuns : Nat → List Byte → List UnitRunArg
  | 0, _ => []
  | r + 1, bs =>
    { start := BitVec.ofNat 32 (fromLe (bs.take 4)), length := BitVec.ofNat 32 (fromLe ((bs.drop 4).take 4)) }
      :: readUnitRuns r (bs.drop 8)

/-- A body of exactly one byte. -/
def oneByte (mk : Byte → Request) : List Byte → Except Status Request
  | [x] => .ok (mk x)
  | _ => .error .badFrame

/-- A body with no bytes. -/
def noByte (r : Request) : List Byte → Except Status Request
  | [] => .ok r
  | _ => .error .badFrame

/-- Read the body of a request of a known kind, with the refusals of R191. A kind that names no request is
refused with UNKNOWN_KIND (R180). -/
def parseBody (kind : Byte) (body : List Byte) : Except Status Request :=
  if kind = 0x01 then noByte .identify body
  else if kind = 0x02 then noByte .resetPart body
  else if kind = 0x10 then noByte .readAttention body
  else if kind = 0x11 then
    if body.length = 10 then .ok (.clearAttention (BitVec.ofNat 80 (fromLe body))) else .error .badFrame
  else if kind = 0x12 then
    if body.length = 22 then
      .ok (.setAttentionEnables (BitVec.ofNat 80 (fromLe (body.take 10))) (body.getD 10 0)
        (BitVec.ofNat 80 (fromLe ((body.drop 11).take 10))) (body.getD 21 0))
    else .error .badFrame
  else if kind = 0x20 then oneByte .slotStatus body
  else if kind = 0x21 then
    match body with
    | [x, a0, a1, a2, a3, c, r, al] => .ok (.peekCard x (BitVec.ofNat 32 (fromLe [a0, a1, a2, a3])) c r al)
    | _ => .error .badFrame
  else if kind = 0x22 then oneByte .holdSlot body
  else if kind = 0x23 then oneByte .freeSlot body
  else if kind = 0x30 then oneByte .targetStatus body
  else if kind = 0x31 then
    match body with
    | [x, u0, u1, q] => .ok (.configureTarget x (BitVec.ofNat 16 (fromLe [u0, u1])) q)
    | _ => .error .badFrame
  else if kind = 0x32 then oneByte .takeTargetOffline body
  else if kind = 0x33 then oneByte .bringTargetOnline body
  else if kind = 0x34 then
    match body with
    | [x, a0, a1, a2, a3, c] => .ok (.readTarget x (BitVec.ofNat 32 (fromLe [a0, a1, a2, a3])) c)
    | _ => .error .badFrame
  else if kind = 0x35 then
    match body with
    | x :: a0 :: a1 :: a2 :: a3 :: c :: data =>
      if data.length = c.toNat * Config.sectorBytes then
        .ok (.writeTarget x (BitVec.ofNat 32 (fromLe [a0, a1, a2, a3])) c data)
      else .error .badField
    | _ => .error .badFrame
  else if kind = 0x40 then
    match body with
    | x :: r :: runs =>
      if r.toNat = 0 ∨ r.toNat > 8 then .error .badField
      else if runs.length = 8 * r.toNat then .ok (.grantSpace x (readUnitRuns r.toNat runs))
      else .error .badFrame
    | _ => .error .badFrame
  else if kind = 0x41 then oneByte .clearPool body
  else if kind = 0x42 then oneByte .readPool body
  else if kind = 0x50 then
    match body with
    | [x, l0, l1, ts, k, v, p, m, r, al, w] =>
      .ok (.openTake x (BitVec.ofNat 16 (fromLe [l0, l1])) ts k v p m r al w)
    | _ => .error .badFrame
  else if kind = 0x51 then
    match body with
    | x :: c :: rest =>
      if c.toNat = 0 ∨ c.toNat > 16 then .error .badField
      else (walkEntries c.toNat rest).map (.appendEntries x)
    | _ => .error .badFrame
  else if kind = 0x52 then oneByte .startTake body
  else if kind = 0x53 then oneByte .suspendTake body
  else if kind = 0x54 then oneByte .resumeTake body
  else if kind = 0x55 then oneByte .stopTake body
  else if kind = 0x56 then oneByte .abortTake body
  else if kind = 0x57 then
    match body with
    | [x, k, rm] => .ok (.adjustTake x k rm)
    | _ => .error .badFrame
  else if kind = 0x58 then oneByte .takeStatus body
  else if kind = 0x59 then
    match body with
    | [x, rc] => .ok (.releaseTake x rc)
    | _ => .error .badFrame
  else if kind = 0x60 then
    match body with
    | [x, f0, f1, c] => .ok (.readManifest x (BitVec.ofNat 16 (fromLe [f0, f1])) c)
    | _ => .error .badFrame
  else if kind = 0x61 then
    match body with
    | [x, i0, i1, t] => .ok (.readAllocation x (BitVec.ofNat 16 (fromLe [i0, i1])) t)
    | _ => .error .badFrame
  else .error .unknownKind

/-- Read an arrived frame: the checks of R180, then the body. -/
def parseRequest (f : Frame) : Except Status Request :=
  if f.headerOk then parseBody f.kind f.body else .error .badFrame

/-- The refusals R191 gives a request whose fields are already known: counts of 0 or too large, run counts
above 16, sector data of the wrong length. They come before every check of the request's own rule (R180). -/
def shapeRefusal : Request → Option Status
  | .writeTarget _ _ c d => if d.length = c.toNat * Config.sectorBytes then none else some .badField
  | .grantSpace _ rs => if rs.length = 0 ∨ rs.length > 8 then some .badField else none
  | .appendEntries _ es =>
      if es.length = 0 ∨ es.length > 16 then some .badField
      else if es.any (fun e => match e with | .file _ _ rs => decide (rs.length > 16) | _ => false) then
        some .badField
      else none
  | _ => none

end Sys2Proof.Machine
end

