-- ==== Sys2Proof/Machine/LinkOps.lean ====
section
/-! DEFINITION. Replies and notices on the message link (chapter 11): composing the reply of the request in
service, composing a notice, and the choice of the outgoing path. -/

namespace Sys2Proof.Machine

/-- A reply frame: from-part flag, and the clamped flag when a value in effect differs from the value given
(R184; 11.6, Frame header). -/
def replyFrame (kind : Byte) (tag : BitVec 16) (clamped : Bool) (st : Status) (body : List Byte) : OutFrame :=
  { kind := kind, flags := if clamped then 0x05 else 0x01, status := st, tag := tag, body := body }

/-- The reply of the request in service is composed (R183). -/
def State.answerClamped (s : State) (clamped : Bool) (st : Status) (body : List Byte) : State :=
  match s.link.inService with
  | none => s
  | some sv =>
    { s with link := { s.link with
        inService := some { sv with reply := some (replyFrame sv.kind sv.tag clamped st body) } } }

/-- A reply with no value clamped. -/
def State.answer (s : State) (st : Status) (body : List Byte) : State := s.answerClamped false st body

/-- The OVERRUN reply to a discarded frame: its kind and tag and an empty body (R182). -/
def overrunReply (f : Frame) : OutFrame := replyFrame f.kind f.tag false .overrun []

/-- A notice frame: sequence number, gained set, latched set (R186). -/
def noticeFrame (sequence : BitVec 16) (gained latched : CondSet) : OutFrame :=
  { kind := 0xF0, flags := 0x03, status := .ok, tag := 0
    body := le 2 sequence.toNat ++ condSetBytes gained ++ condSetBytes latched }

/-- A notice is composed: the sequence number rises, the gained set goes into the notice and is emptied, the
pending-notice flag is cleared (R172, R186); the path begins to send it. -/
def State.composeNotice (s : State) : State :=
  let a := s.attention
  let seq := a.sequence + 1
  { s with
    attention := { a with sequence := seq, gained := 0 }
    link := { s.link with
      pendingNotice := false
      outgoing := some (.notice a.gained, noticeFrame seq a.gained a.latched) } }

/-- The composed reply of the request in service, if any. -/
def Link.composed (l : Link) : Option OutFrame := l.inService.bind Service.reply

/-- The choice of the outgoing path when it is free and the link is configured: a waiting OVERRUN reply, else
the composed reply of the request in service, else a pending notice (R185). -/
def State.choosePath (s : State) : State :=
  if s.link.configured && s.link.outgoing.isNone then
    match s.link.overrun with
    | some r => { s with link := { s.link with outgoing := some (.overrun, r) } }
    | none =>
      match s.link.composed with
      | some r => { s with link := { s.link with outgoing := some (.reply, r) } }
      | none => if s.link.pendingNotice then s.composeNotice else s
  else s

end Sys2Proof.Machine
end

