-- ==== Sys2Proof/Machine/AttentionRequests.lean ====
section
/-! DEFINITION. The attention requests (section 10.4). -/

namespace Sys2Proof.Machine

/-- The body of the READ ATTENTION reply (R175). -/
def attentionBody (a : Attention) : List Byte :=
  condSetBytes a.latched ++ condSetBytes a.asserted ++ condSetBytes a.noticeEnable ++ condSetBytes a.panelEnable
    ++ condSetBytes a.gained ++ le 2 a.sequence.toNat ++ [yesNo a.panelLine]

/-- READ ATTENTION (R175). -/
def serveReadAttention (s : State) : Work := (s.answer .ok (attentionBody s.attention), [])

/-- The conditions of a set that CLEAR ATTENTION holds: latched levels that are asserted (R176). -/
def Attention.held (a : Attention) (c : CondSet) : CondSet := c &&& a.latched &&& a.asserted

/-- The conditions of a set that CLEAR ATTENTION clears: latched, and not an asserted level (R176). -/
def Attention.clearable (a : Attention) (c : CondSet) : CondSet := c &&& a.latched &&& ~~~ a.asserted

/-- Latches become clear; the panel line is evaluated again (R173, R176). -/
def Attention.clear (a : Attention) (c : CondSet) : Attention :=
  ({ a with latched := a.latched &&& ~~~ (a.clearable c) }).evalPanel

/-- CLEAR ATTENTION (R174, R176). -/
def serveClearAttention (conds : BitVec 80) (s : State) : Work :=
  match condSetOf conds with
  | none => (s.answer .badField [], [])
  | some c =>
    let a := s.attention
    let s1 := { s with attention := a.clear c }
    (s1.answer .ok (condSetBytes (a.clearable c) ++ condSetBytes (a.held c) ++ condSetBytes s1.attention.latched), [])

/-- The notice-enable set is replaced: conditions added to it whose latch is set are gained (R171, R177). -/
def State.setNoticeEnable (s : State) (c : CondSet) : State :=
  let a := s.attention
  ({ s with attention := { a with noticeEnable := c } }).gain (c &&& ~~~ a.noticeEnable &&& a.latched)

/-- The panel-enable set is replaced and the line evaluated again (R173, R177). -/
def State.setPanelEnable (s : State) (c : CondSet) : State :=
  { s with attention := ({ s.attention with panelEnable := c }).evalPanel }

/-- SET ATTENTION ENABLES (R174, R177; flag codes that name no value: log 20). -/
def serveSetAttentionEnables (notice : BitVec 80) (noticeFlag : Byte) (panel : BitVec 80) (panelFlag : Byte)
    (s : State) : Work :=
  match condSetOf notice, onOff noticeFlag, condSetOf panel, onOff panelFlag with
  | some n, some nf, some p, some pf =>
    let s1 := if nf then s.setNoticeEnable n else s
    let s2 := if pf then s1.setPanelEnable p else s1
    let a := s2.attention
    (s2.answer .ok (condSetBytes a.noticeEnable ++ condSetBytes a.panelEnable ++ condSetBytes a.latched), [])
  | _, _, _, _ => (s.answer .badField [], [])

end Sys2Proof.Machine
end

