-- ==== Sys2Proof/Machine/Digest.lean ====
section
/-! DEFINITION. The lane digest (chapter 3): words, reduction, folding, file bytes of a range of sectors. -/

namespace Sys2Proof.Machine

/-- The value of a group of up to four bytes, least significant first, missing high bytes zero (R57). -/
def wordOf (b0 b1 b2 b3 : Byte) : Nat :=
  b0.toNat + 256 * b1.toNat + 65536 * b2.toNat + 16777216 * b3.toNat

/-- The words of a sequence of bytes; the last group may be short (R57). -/
def wordsOf : List Byte → List Nat
  | [] => []
  | [b0] => [wordOf b0 0 0 0]
  | [b0, b1] => [wordOf b0 b1 0 0]
  | [b0, b1, b2] => [wordOf b0 b1 b2 0]
  | b0 :: b1 :: b2 :: b3 :: rest => wordOf b0 b1 b2 b3 :: wordsOf rest

/-- Fold one word: reduce it, add it to A, add the new A to B (R58). -/
def Digest.foldWord (d : Digest) (w : Nat) : Digest :=
  let a := (d.a + w % Config.digestModulus) % Config.digestModulus
  { d with a := a, b := (d.b + a) % Config.digestModulus }

/-- Fold file bytes: their words into A and B, their number into L (R58, R59). -/
def Digest.fold (d : Digest) (bytes : List Byte) : Digest :=
  let d' := (wordsOf bytes).foldl Digest.foldWord d
  { d' with len := d.len + bytes.length }

/-- Two digests are equal when A, B and L are (R64). -/
def Digest.same (d e : Digest) : Bool := d.a == e.a && d.b == e.b && d.len == e.len

/-- How many of the bytes of `count` sectors from file sector `sector` are file bytes (R41, R59). -/
def fileBytesOf (length sector count : Nat) : Nat :=
  min ((sector + count) * Config.sectorBytes) length - sector * Config.sectorBytes

/-- A card's or drive's answer taken as exactly `count` sectors: longer data are cut, missing bytes are zero.
Hardware answers always have the length asked for (log 14). -/
def fitSectors (count : Nat) (data : List Byte) : List Byte :=
  let n := count * Config.sectorBytes
  data.take n ++ List.replicate (n - data.length) 0

/-- Sectors of zeros (R42, R61). -/
def zeroSectors (count : Nat) : List Byte := List.replicate (count * Config.sectorBytes) 0

end Sys2Proof.Machine
end

