-- ==== Sys2Proof/Machine/CardPort.lean ====
section
/-! DEFINITION. The card port (chapter 4): entering SETTLING, beginning and ending card read operations, the
ordering of a lane piece against a peek, retries. -/

namespace Sys2Proof.Machine

/-- Entry to SETTLING: card present, settle timer started, health counters 0 (R68, R69, R78). -/
def Slot.settle (x : Slot) : Slot :=
  { x with state := .settling, present := true, settleRunning := true, retried := 0, corrected := 0, failed := 0 }

/-- The port takes its reset values and samples its detection: a card present is an insertion (R67, R88). -/
def Slot.resetKeeping (x : Slot) : Slot :=
  let y := { Slot.reset with detect := x.detect }
  if x.detect then y.settle else y

/-- The mode of attempt number k of an operation: careful for even k when alternate is on (R77). -/
def carefulAttempt (alternate : Bool) (k : Nat) : Bool := alternate && k % 2 == 0

/-- The mode of the attempt in flight: careful, or normal. The first identify attempt is in normal mode and the
second in careful mode (R70); of a piece or a peek the even attempts are careful when alternate is on (R75, R77). -/
def Slot.careful (x : Slot) : Bool :=
  match x.op with
  | .none => false
  | .identify => x.identifyAttempt == 2
  | .piece r k => carefulAttempt r.alternate k
  | .peek p k => carefulAttempt p.read.alternate k

/-- The range of an operation exceeds the card (R74). -/
def Slot.outOfRange (x : Slot) (r : CardRead) : Bool :=
  match x.identity with
  | some i => decide (r.start + r.count > i.sectors.toNat)
  | none => true

/-- The reply of a peek whose operation has ended (R84). -/
def State.answerPeek (s : State) (p : Peek) (cls : ResultClass) (attempts : Nat) (data : List Byte) : State :=
  let head := [cls.code, BitVec.ofNat 8 p.read.retries, BitVec.ofNat 8 attempts]
  match cls with
  | .ok => s.answerClamped p.clamped .ok (head ++ data)
  | .corrected => s.answerClamped p.clamped .ok (head ++ data)
  | .uncorrectable => s.answerClamped p.clamped .cardFault head
  | .noResponse => s.answerClamped p.clamped .cardFault head
  | .badBlock => s.answerClamped p.clamped .cardFault head
  | .outOfRange => s.answerClamped p.clamped .cardFault head
  | .aborted => s.answerClamped p.clamped .cardFault [cls.code, BitVec.ofNat 8 attempts]

/-- The port begins a lane piece: its range is checked, then its first attempt is issued (R74). -/
def State.beginPiece (s : State) (n : LaneIx) (r : CardRead) : Work :=
  if (s.slot n).outOfRange r then (s, [.pieceEnded n .outOfRange []])
  else (s.modifySlot n fun x => { x with op := .piece r 1 }, [])

/-- The port begins a peek (R74, R84). -/
def State.beginPeek (s : State) (n : LaneIx) (p : Peek) : State :=
  if (s.slot n).outOfRange p.read then s.answerPeek p .outOfRange 0 []
  else s.modifySlot n fun x => { x with op := .peek p 1 }

/-- A lane piece is handed over: begun when no operation is in flight, else it waits (R79). A port without a card
identity accepts no operation: the piece ends OUT_OF_RANGE there (R74; log 34). -/
def State.offerPiece (s : State) (n : LaneIx) (r : CardRead) : Work :=
  if (s.slot n).op = .none ∨ (s.slot n).identity = none then s.beginPiece n r
  else (s.modifySlot n fun x => { x with waitingPiece := some r }, [])

/-- A peek arrives: begun when no operation is in flight, else it waits (R79). -/
def State.offerPeek (s : State) (n : LaneIx) (p : Peek) : State :=
  if (s.slot n).op = .none then s.beginPeek n p
  else s.modifySlot n fun x => { x with waitingPeek := some p }

/-- The health counters at the end of an operation (R78). -/
def Slot.countEnd (x : Slot) (cls : ResultClass) : Slot :=
  match cls with
  | .corrected => { x with corrected := satInc x.corrected }
  | .uncorrectable => { x with failed := satInc x.failed }
  | .noResponse => { x with failed := satInc x.failed }
  | .badBlock => { x with failed := satInc x.failed }
  | .ok => x
  | .outOfRange => x
  | .aborted => x

/-- A lane piece has ended: a waiting peek goes first, then the lane receives the result (R79). -/
def State.endPiece (s : State) (n : LaneIx) (cls : ResultClass) (data : List Byte) : Work :=
  let waiting := (s.slot n).waitingPeek
  let s1 := s.modifySlot n fun x => { x.countEnd cls with op := .none, waitingPeek := none }
  let s2 := match waiting with
    | some p => s1.beginPeek n p
    | none => s1
  (s2, [.pieceEnded n cls data])

/-- A peek has ended: its reply is composed, then a waiting piece begins (R79, R84). -/
def State.endPeek (s : State) (n : LaneIx) (p : Peek) (attempts : Nat) (cls : ResultClass) (data : List Byte) :
    Work :=
  let waiting := (s.slot n).waitingPiece
  let kept := fitSectors p.read.count data
  let s1 := s.modifySlot n fun x =>
    { x.countEnd cls with
      op := .none, waitingPiece := none
      peekBuffer := if cls = .ok ∨ cls = .corrected then kept else x.peekBuffer }
  let s2 := s1.answerPeek p cls attempts kept
  match waiting with
  | some r => s2.beginPiece n r
  | none => (s2, [])

/-- An attempt that ended so may be retried (R76). -/
def ResultClass.retried : ResultClass → Bool
  | .uncorrectable => true
  | .noResponse => true
  | .ok => false
  | .corrected => false
  | .badBlock => false
  | .outOfRange => false
  | .aborted => false

/-- The result of an operation whose last attempt was number k: a retry that delivers is CORRECTED (R77). -/
def operationResult (k : Nat) (cls : ResultClass) : ResultClass :=
  match cls with
  | .ok => if k ≤ 1 then .ok else .corrected
  | .corrected => .corrected
  | .uncorrectable => .uncorrectable
  | .noResponse => .noResponse
  | .badBlock => .badBlock
  | .outOfRange => .outOfRange
  | .aborted => .aborted

/-- A further attempt is issued (R77, R78). -/
def State.retryWith (s : State) (n : LaneIx) (op : CardOp) : State :=
  s.modifySlot n fun x => { x with op := op, retried := satInc x.retried }

/-- An attempt of a lane piece or a peek has ended with a class (R75 to R77). A piece of a lane in ABORTING
receives no further attempt; where its attempt in flight is a retry and ends OK, the operation ends CORRECTED, as R77's
list has it, and not OK, as R77's last paragraph and R80 could be read (log 40). -/
def State.attemptEnded (s : State) (n : LaneIx) (cls : ResultClass) (data : List Byte) : Work :=
  match (s.slot n).op with
  | .none => (s, [])
  | .identify => (s, [])
  | .piece r k =>
    if cls.retried ∧ k < 1 + r.retries ∧ s.laneState n ≠ some .aborting then
      (s.retryWith n (.piece r (k + 1)), [])
    else s.endPiece n (operationResult k cls) data
  | .peek p k =>
    if cls.retried ∧ k < 1 + p.read.retries then (s.retryWith n (.peek p (k + 1)), [])
    else s.endPeek n p k (operationResult k cls) data

/-- An identify attempt has failed: the second follows the first; after the second the slot is FAULTED (R70). -/
def State.identifyFailed (s : State) (n : LaneIx) : State :=
  s.modifySlot n fun x =>
    if x.identifyAttempt < 2 then { x with identifyAttempt := x.identifyAttempt + 1, op := .identify }
    else { x with state := .faulted, op := .none, identity := none }

/-- The card is at hand: the slot is READY with the take's snapshot identity (R101). -/
def State.cardAtHand (s : State) (n : LaneIx) : Bool :=
  match s.take? n with
  | none => false
  | some t => (s.slot n).state == .ready && t.snapshot.isSome && (s.slot n).identity == t.snapshot

end Sys2Proof.Machine
end

