-- ==== Sys2Proof/Machine/Chunks.lean ====
section
/-! DEFINITION. Chunks, pieces and device pieces: how the sectors of a file lie in runs (R32, R33, R143). -/

namespace Sys2Proof.Machine

/-- The parts of the sector range lo..hi-1 that lie in each of a list of runs, the first run beginning at
sector `at_`: one piece for each run that the range meets, in order (R33). -/
def piecesIn (lo hi : Nat) : Nat → List Extent → List Piece
  | _, [] => []
  | at_, r :: rest =>
    let a := max lo at_
    let b := min hi (at_ + r.len)
    let more := piecesIn lo hi (at_ + r.len) rest
    if a < b then { sector := a, lba := r.start + (a - at_), count := b - a } :: more else more

/-- First file sector of chunk c (R32). -/
def chunkStart (c : Nat) : Nat := Config.chunkSectors * c

/-- One past the last file sector of chunk c (R32). -/
def FileEntry.chunkEnd (f : FileEntry) (c : Nat) : Nat :=
  min (Config.chunkSectors * c + Config.chunkSectors) f.sectors

/-- The pieces of chunk c on the card (R33). -/
def FileEntry.pieces (f : FileEntry) (c : Nat) : List Piece :=
  piecesIn (chunkStart c) (f.chunkEnd c) 0 f.runs

/-- A run of units as a range of drive sectors (R132, R143). -/
def scaleRun (unit : Nat) (r : Extent) : Extent := { start := r.start * unit, len := r.len * unit }

/-- Where chunk c of a file lies on a drive, given the copy's allocation and the unit (R143); with the file
sector each device piece begins at. -/
def FileEntry.drivePieces (f : FileEntry) (a : Allocation) (unit c : Nat) : List Piece :=
  piecesIn (chunkStart c) (f.chunkEnd c) 0 (a.runs.map (scaleRun unit))

/-- The device pieces of a write order (R45, R143). -/
def FileEntry.devicePieces (f : FileEntry) (a : Allocation) (unit c : Nat) : List Extent :=
  (f.drivePieces a unit c).map fun p => { start := p.lba, len := p.count }

/-- The allocation units a file of n bytes needs (R137). -/
def unitsFor (length unit : Nat) : Nat := ceilDiv length (unit * Config.sectorBytes)

end Sys2Proof.Machine
end

