-- ==== Sys2Proof/Machine/Pools.lean ====
section
/-! DEFINITION. Space pools (chapter 7): merging runs, supplying an allocation, giving allocations back. -/

namespace Sys2Proof.Machine

/-- The units of a list of runs. -/
def unitsOf (runs : List Extent) : Nat := (runs.map Extent.len).sum

/-- One past the last unit of a run. -/
def Extent.stop (r : Extent) : Nat := r.start + r.len

/-- Two ranges share a member. -/
def Extent.meets (a b : Extent) : Bool := decide (a.start < b.stop ∧ b.start < a.stop)

/-- A run enters a free-run list, merged with the runs it is adjacent to (R131). -/
def insertRun (r : Extent) : List Extent → List Extent
  | [] => [r]
  | x :: rest =>
    if x.stop = r.start then insertRun { start := x.start, len := x.len + r.len } rest
    else if r.stop = x.start then { start := r.start, len := r.len + x.len } :: rest
    else if r.start < x.start then r :: x :: rest
    else x :: insertRun r rest

/-- A run is returned to a pool; one that would raise the list above 32 runs is dropped (R140). -/
def Pool.returnRun (p : Pool) (r : Extent) : Pool :=
  let runs := insertRun r p.runs
  if runs.length > Config.poolRuns then { p with dropped := satAdd 32 p.dropped r.len }
  else { p with runs := runs }

/-- The runs of an allocation are returned in run order (R140, R141). -/
def Pool.returnRuns (p : Pool) (rs : List Extent) : Pool := rs.foldl Pool.returnRun p

/-- The units of the runs that returning them drops (R141). -/
def Pool.droppedBy (p : Pool) : List Extent → Nat
  | [] => 0
  | r :: rest =>
    (if (insertRun r p.runs).length > Config.poolRuns then r.len else 0) + (p.returnRun r).droppedBy rest

/-- Take units from the low end of a list: what is given, and what stays (R137, First runs). -/
def takeUnits : Nat → List Extent → List Extent × List Extent
  | _, [] => ([], [])
  | need, r :: rest =>
    if need = 0 then ([], r :: rest)
    else if r.len ≤ need then
      let more := takeUnits (need - r.len) rest
      (r :: more.1, more.2)
    else ([{ start := r.start, len := need }], { start := r.start + need, len := r.len - need } :: rest)

/-- Take units from the lowest run that holds them all (R137, Single run). -/
def takeSingle (need : Nat) : List Extent → Option (Extent × List Extent)
  | [] => none
  | r :: rest =>
    if need < r.len then
      some ({ start := r.start, len := need }, { start := r.start + need, len := r.len - need } :: rest)
    else if need = r.len then some (r, rest)
    else (takeSingle need rest).map fun x => (x.1, r :: x.2)

/-- A pool's answer to a request for a number of units: the allocation's runs and the list left, or none for
short (R137). -/
def supply (need : Nat) (runs : List Extent) : Option (List Extent × List Extent) :=
  if need = 0 then some ([], runs)
  else if need ≤ unitsOf (runs.take Config.allocationRuns) then some (takeUnits need runs)
  else (takeSingle need runs).map fun x => ([x.1], x.2)

/-- The allocation of a copy is given back: its runs return to the pool when the target holds an identity and
the generation recorded is the current one, and are discarded otherwise; the record holds none after (R140). -/
def State.giveBack (s : State) (n : LaneIx) (e : Nat) (t : TargetIx) : State :=
  match (s.copy? n e t).bind CopyRecord.allocation with
  | none => s
  | some a =>
    let s1 :=
      if (s.target t).identity.isSome && a.generation == (s.target t).generation then
        s.modifyPool t (·.returnRuns a.runs)
      else s
    s1.modifyCopy n e t fun c => { c with allocation := none }

/-- An ALLOCATING file gives back every allocation; its copy records return to NONE, its progress to PENDING
(R7, R15, R18, R98). A record of a target outside the set is NONE already, or was SKIPPED before ADJUST TAKE
removed the target; a PENDING file has every record NONE (R15; log 37). -/
def State.unallocate (s : State) (n : LaneIx) (e : Nat) : State :=
  let s1 := allTargets.foldl (fun s x => s.giveBack n e x) s
  let s2 := allTargets.foldl
    (fun s x => s.modifyCopy n e x fun c => { c with state := .none, reason := none }) s1
  s2.modifyFile n e fun f => { f with progress := .pending }

/-- The entry of a lane's ALLOCATING file, if any. -/
def Take.allocatingFile (t : Take) : Option Nat :=
  (t.files.find? fun p => p.2.progress == .allocating).map Prod.fst

/-- The lane lets go of an ALLOCATING file and leaves every short list (R15, R18, R98, R138). -/
def State.dropAllocating (s : State) (n : LaneIx) : State :=
  let s1 := match (s.take? n).bind Take.allocatingFile with
    | some e => s.unallocate n e
    | none => s
  s1.leaveAllShort n

/-- One pool is asked for a file's allocation (R137): supplied and recorded with the current generation, or
short and the lane on its short list (R138). -/
def State.askPool (s : State) (n : LaneIx) (e : Nat) (t : TargetIx) : State :=
  match s.file? n e with
  | none => s
  | some f =>
    match supply (unitsFor f.length (s.target t).unit) (s.pool t).runs with
    | some (given, rest) =>
      ((s.modifyPool t fun p => { p with runs := rest }).modifyCopy n e t fun c =>
        { c with allocation := some { runs := given, generation := (s.target t).generation } }).leaveShort t n
    | none => s.joinShort t n

/-- Allocations of unreleased takes on a target: lane, entry, copy record and allocation (R133, R136). -/
def State.allocationsOn (s : State) (t : TargetIx) : List (CopyRecord × Allocation) :=
  allLanes.flatMap fun n =>
    match s.take? n with
    | none => []
    | some tk => tk.files.filterMap fun p => ((p.2.copy t).allocation).map fun a => (p.2.copy t, a)

/-- Capacity in units; a target without identity has none (R124, R132). -/
def Target.capacityUnits (x : Target) : Option Nat := x.identity.map fun i => i.capacity.toNat / x.unit

end Sys2Proof.Machine
end

