-- ==== Sys2Proof/Machine/StagingOps.lean ====
section
/-! DEFINITION. The staging buffer (chapter 2): claiming segments, counting write orders down, freeing
segments and handing them to waiting lanes, beginning chunk reads and handing pieces to the card port. -/

namespace Sys2Proof.Machine

/-- The use a held segment is put to. -/
def Segment.use? : Segment → Option SegmentUse
  | .free => none
  | .filling u _ => some u
  | .sending u _ => some u

/-- The owner lane of a held segment (R35). -/
def Segment.owner? (x : Segment) : Option LaneIx := x.use?.map SegmentUse.owner

/-- Held segments of a lane: the segments in FILLING or SENDING whose owner it is (R35). -/
def heldSegments (s : State) (n : LaneIx) : Nat :=
  s.staging.segments.toList.countP fun x => x.owner? == some n

/-- The free list: the FREE segments (R35). A lane takes the lowest; no behaviour depends on which (log 16). -/
def State.firstFree (s : State) : Option SegmentIx :=
  allSegments.find? fun g => s.segment g == .free

/-- The waiting lane next in round-robin order after the last-served lane (R38). -/
def Staging.nextWaiting (x : Staging) : Option LaneIx :=
  ((List.range 8).map fun i => (⟨(x.lastServed.val + 1 + i) % 8, Nat.mod_lt _ (by decide)⟩ : LaneIx)).find?
    fun n => x.waiting.contains n

/-- The use of the segment the lane is about to claim: the next chunk of its reading (R36). -/
def Take.nextUse (t : Take) (n : LaneIx) : Option SegmentUse :=
  match t.reading with
  | .none => none
  | .file e => some { owner := n, entry := e, chunk := t.nextChunk, pass := none, data := [] }
  | .recopy e x => some { owner := n, entry := e, chunk := t.nextChunk, pass := some x, data := [] }

/-- The lane begins its next chunk read into a segment: the segment becomes FILLING with the discard flag
clear, and the lane hands over the first piece (R36). -/
def State.beginRead (s : State) (n : LaneIx) (g : SegmentIx) : Work :=
  match s.take? n with
  | none => (s, [])
  | some t =>
    match t.nextUse n with
    | none => (s, [])
    | some u =>
      let pieces := match t.file? u.entry with
        | some f => f.pieces u.chunk
        | none => []
      ((s.setSegment g (.filling u false)).modifyTake n fun t =>
          { t with chunkRead := some { segment := g, pieces := pieces } },
        [.handPiece n])

/-- A lane may begin a chunk read, but for a free segment (R36). -/
def State.mayRead (s : State) (n : LaneIx) : Bool :=
  match s.take? n with
  | none => false
  | some t =>
    (t.state == .running || t.state == .stopping || t.state == .draining)
      && (match t.nextUse n with
          | none => false
          | some u =>
            match t.file? u.entry with
            | none => false
            | some f => decide (t.nextChunk < f.chunksTotal))
      && t.chunkRead.isNone
      && decide (heldSegments s n < t.window)
      && !s.staging.waiting.contains n

/-- The test of R36: claim a free segment, or become a waiting lane (R37), in RUNNING with reason SEGMENTS. -/
def State.tryRead (s : State) (n : LaneIx) : Work :=
  if s.mayRead n then
    match s.firstFree with
    | some g => s.beginRead n g
    | none =>
      let s1 := s.joinWaiting n
      (if s.laneState n = some .running then s1.enterWaiting n .segments else s1, [])
  else (s, [])

/-- The owner of a segment whose use has ended: a SENDING segment with no order outstanding, or a FILLING one
that no chunk read of its owner is in flight into (R38). -/
def State.endedUse (s : State) (g : SegmentIx) : Option LaneIx :=
  match s.segment g with
  | .free => none
  | .filling u _ =>
    if ((s.take? u.owner).bind Take.chunkRead).map ChunkRead.segment = some g then none else some u.owner
  | .sending u k => if k = 0 then some u.owner else none

/-- A FREE segment joins the free list, or goes at once to the next waiting lane, which leaves the set and begins
its read; a lane in WAITING returns to RUNNING (R38, R13). -/
def State.handOn (s : State) (g : SegmentIx) : Work :=
  match s.staging.nextWaiting with
  | none => (s, [])
  | some m =>
    let s1 := s.leaveWaiting m
    let s2 := { s1 with staging := { s1.staging with lastServed := m } }
    let w := s2.beginRead m g
    (if w.1.laneState m = some .waiting then w.1.enter m .running else w.1, w.2 ++ [.workHead m])

/-- A segment whose use has ended becomes FREE and is handed on (R38). The lane that held it then tests R36, and
whether it can close (R18, R19, R53). -/
def State.freeSegment (s : State) (g : SegmentIx) : Work :=
  match s.endedUse g with
  | none => (s, [])
  | some o => ((s.setSegment g .free).handOn g).addTasks [.tryRead o, .laneTests o]

/-- A write order that names the segment has left its target (R47). -/
def State.countDown (s : State) (g : SegmentIx) : Work :=
  match s.segment g with
  | .sending u k => (s.setSegment g (.sending u (k - 1)), if k - 1 = 0 then [.freeSegment g] else [])
  | .free => (s, [])
  | .filling _ _ => (s, [])

/-- The lane hands its current piece to its card port (R33). -/
def State.handPiece (s : State) (n : LaneIx) : Work :=
  match s.take? n with
  | none => (s, [])
  | some t =>
    match t.chunkRead with
    | none => (s, [])
    | some cr =>
      match cr.pieces with
      | [] => (s, [])
      | p :: _ =>
        s.offerPiece n { start := p.lba, count := p.count, retries := t.retries, alternate := t.alternate }

/-- Write orders of a lane at a target that a predicate names are withdrawn: queued ones are cancelled, the
one whose device operation is in progress is marked (R49). -/
def State.withdrawAt (s : State) (n : LaneIx) (t : TargetIx) (p : WriteOrder → Bool) : Work :=
  let x := s.target t
  let fifo := x.fifos[n]
  let inProgress := match x.op with
    | .writePiece m _ => m == n
    | _ => false
  let head := if inProgress then fifo.take 1 else []
  let queued := if inProgress then fifo.drop 1 else fifo
  let kept := head.map (fun o => if p o then { o with withdrawn := true } else o) ++ queued.filter (fun o => !p o)
  let s1 := s.modifyTarget t fun x => { x with fifos := x.fifos.set n.val kept n.isLt }
  forEach (queued.filter p) (fun o s => s.countDown o.segment) s1

/-- The same at every target. -/
def State.withdraw (s : State) (n : LaneIx) (p : WriteOrder → Bool) : Work :=
  forEach allTargets (fun t s => s.withdrawAt n t p) s

end Sys2Proof.Machine
end

