-- ==== Sys2Proof/Machine/TargetOps.lean ====
section
/-! DEFINITION. Target ports and the verify unit (chapters 6 and 8): the arbiter, the start and stop of
verifications, and the effects of a target's leaving ONLINE. -/

namespace Sys2Proof.Machine

/-! ### The verify unit (R145, R146, R157) -/

/-- A readback buffer no active verification holds (R144); the lowest one. -/
def VerifyUnit.freeBuffer (v : VerifyUnit) : Fin 4 :=
  ((List.finRange 4).find? fun b =>
    allTargets.all fun t => (v.active[t]).map Verification.buffer != some b).getD 0

/-- A verify order is placed for a copy at the tail of the queue; the copy is VERIFY_WAIT (R145). -/
def State.placeVerifyOrder (s : State) (n : LaneIx) (e : Nat) (t : TargetIx) : State :=
  let s1 := s.modifyCopy n e t fun c => { c with state := .verifyWait }
  { s1 with verify := { s1.verify with queue := s1.verify.queue ++ [{ lane := n, entry := e, target := t }] } }

/-- The order may start: its target is ONLINE and has no active verification (R146). -/
def State.orderQualifies (s : State) (o : VerifyOrder) : Bool :=
  (s.target o.target).state == .online && (s.active o.target).isNone

/-- Starting a verification (R146): the order leaves the queue, the copy is VERIFYING, a free buffer is given,
the digest is at its start, the cursor at the first device piece, and the first read is ready. -/
def State.startVerification (s : State) (o : VerifyOrder) : State :=
  let v : Verification :=
    { lane := o.lane, entry := o.entry, buffer := s.verify.freeBuffer, chunk := 0, piece := 0, read := .ready,
      digest := Digest.start, stop := false }
  let s1 := { s with verify := { s.verify with queue := s.verify.queue.erase o } }
  (s1.setActive o.target (some v)).modifyCopy o.lane o.entry o.target fun c => { c with state := .verifying }

/-- The verify unit's choice, repeated for each target: the oldest orders that qualify start (R146). -/
def State.startVerifications (s : State) : State :=
  s.verify.queue.foldl (fun s o => if s.orderQualifies o then s.startVerification o else s) s

/-- A stopped verification ends at once when no read of it is in progress; else it sets its stop flag and ends
when the read ends (R157). -/
def State.stopVerification (s : State) (t : TargetIx) : State :=
  match s.active t with
  | none => s
  | some v =>
    match v.read with
    | .ready => s.setActive t none
    | .granted => s.setActive t (some { v with stop := true })

/-- Verify orders of a lane leave the queue and its active verifications stop, at the targets named (R157). -/
def State.stopLaneVerifications (s : State) (n : LaneIx) (ts : List TargetIx) : State :=
  let s1 := { s with verify := { s.verify with
    queue := s.verify.queue.filter fun o => !(o.lane == n && ts.contains o.target) } }
  ts.foldl (fun s t =>
    match s.active t with
    | none => s
    | some v => if v.lane = n then s.stopVerification t else s) s1

/-! ### The arbiter (R116 to R118) -/

/-- The current grant as the operation in progress shows it (R107, R116). -/
inductive Grant where
  | none
  | order (lane : LaneIx)
  | readback
  | host
deriving DecidableEq, Repr

def DeviceOp.grant : DeviceOp → Grant
  | .none => .none
  | .identify => .none
  | .writePiece n _ => .order n
  | .readback _ => .readback
  | .host _ => .host

/-- A candidate has work (R116). -/
def State.hasWork (s : State) (t : TargetIx) : Candidate → Bool
  | .lane n => !((s.target t).fifos[n]).isEmpty
  | .verifier =>
    match s.active t with
    | none => false
    | some v => v.read == .ready

/-- The ring: lane 0 to lane 7, verifier (R116). -/
def ring : List Candidate := allLanes.map Candidate.lane ++ [.verifier]

/-- The ring from the candidate after the holder, without the holder; from lane 0 when there is none (R117). -/
def ringAfter : Option Candidate → List Candidate
  | none => ring
  | some (.lane n) => ring.drop (n.val + 1) ++ ring.take n.val
  | some .verifier => ring.take 8

/-- The channel is granted to a candidate's work, which is issued as a device operation (R118, R119, R122). -/
def State.grantTo (s : State) (t : TargetIx) (c : Candidate) (count : Nat) : State :=
  let s1 := s.modifyTarget t fun x => { x with holder := some c, grantCount := count }
  match c with
  | .lane n => s1.modifyTarget t fun x => { x with op := .writePiece n 0 }
  | .verifier =>
    let s2 := s1.modifyTarget t fun x => { x with op := .readback false }
    match s2.active t with
    | none => s2
    | some v => s2.setActive t (some { v with read := .granted })

/-- The choice of the arbiter among the candidates (R117 steps 2 to 5). -/
def State.chooseCandidate (s : State) (t : TargetIx) : State :=
  let x := s.target t
  let again := match x.holder with
    | some h => s.hasWork t h
    | none => false
  match x.holder, again && decide (x.grantCount < x.quota) with
  | some h, true => s.grantTo t h (x.grantCount + 1)
  | holder, _ =>
    match (ringAfter holder).find? (s.hasWork t) with
    | some c => s.grantTo t c 1
    | none =>
      match holder with
      | some h => if again then s.grantTo t h (min (x.grantCount + 1) (max x.grantCount x.quota)) else s
      | none => s

/-- The arbiter makes its choice when the channel is free in ONLINE: a waiting host operation first (R117). -/
def State.arbitrate (s : State) (t : TargetIx) : State :=
  let x := s.target t
  if x.state = .online ∧ x.op = .none then
    match x.waitingHost with
    | some h => s.modifyTarget t fun x => { x with op := .host h, waitingHost := none }
    | none => s.chooseCandidate t
  else s

def State.arbitrateAll (s : State) : State := allTargets.foldl State.arbitrate s

/-- The bytes of the write piece in progress, taken from the order's segment (R115, R119). -/
def writePieceData (s : State) (t : TargetIx) : List Byte :=
  let x := s.target t
  match x.op with
  | .writePiece n i =>
    match x.fifos[n] with
    | [] => []
    | o :: _ =>
      match (s.segment o.segment).use? with
      | none => []
      | some u =>
        let before := ((o.pieces.take i).map Extent.len).sum
        let count := ((o.pieces[i]?).map Extent.len).getD 0
        (u.data.drop (before * Config.sectorBytes)).take (count * Config.sectorBytes)
  | _ => []

/-! ### Leaving ONLINE (R112, R113) -/

/-- The copy states that R112 fails. -/
def CopyState.unsafe_ : CopyState → Bool
  | .writing => true
  | .verifyWait => true
  | .verifying => true
  | .recopyWait => true
  | .none => false
  | .skipped => false
  | .written => false
  | .verified => false
  | .mismatch => false
  | .failed => false

/-- Every copy of a take on a target that is not yet safe becomes FAILED, and its pairs leave the recopy list
(R112 item 4). -/
def Take.failTarget (t : Take) (x : TargetIx) (r : CopyReason) : Take :=
  { t with
    entries := t.entries.map (Entry.mapFile fun f => f.modifyCopy x (CopyRecord.failIf CopyState.unsafe_ r))
    recopyList := t.recopyList.filter fun p => p.2 != x }

/-- What the lanes do after a target's copies failed (R113): files may be FINISHED, a wait for the target's
pool ends, an ABORTING lane may close. -/
def State.laneEffects (s : State) (t : TargetIx) (n : LaneIx) : List Task :=
  match s.take? n with
  | none => []
  | some tk =>
    (tk.files.filterMap fun p => if p.2.progress = .draining then some (Task.testFinish n p.1) else none)
      ++ (if tk.state = .waiting ∧ tk.waitReason = some (.pool t) then [.endWait n] else [])
      ++ [.laneTests n]

/-- A target leaves ONLINE (R112): its FIFOs are purged and its operation abandoned, its host operation
answered, its verification ended and its verify orders removed, every copy on it that is not yet safe FAILED.
`timeout` says that the host operation in progress ended on its own timer (R130). -/
def State.leaveOnline (s : State) (t : TargetIx) (st : TargetState) (why : Option FaultReason)
    (reason : CopyReason) (timeout : Bool) : Work :=
  let x := s.target t
  let w := forEach allLanes (fun n => forEach (x.fifos[n]) fun o s => s.countDown o.segment) s
  let s1 := w.1.modifyTarget t fun x =>
    { x with state := st, faultReason := why, fifos := Vector.replicate 8 [], op := .none, holder := none,
             grantCount := 0, waitingHost := none }
  let s2 := match x.op with
    | .host _ => s1.answer .targetFault (if timeout then [hostClassTimeout] else [hostClassEnded, st.code])
    | _ => s1
  let s3 := match x.waitingHost with
    | some _ => s2.answer .targetFault [hostClassEnded, st.code]
    | none => s2
  let s4 := ({ s3 with verify := { s3.verify with
    queue := s3.verify.queue.filter fun o => o.target != t } }).setActive t none
  let s5 := allLanes.foldl (fun s n => s.modifyTake n fun tk => tk.failTarget t reason) s4
  let s6 := if st = .faulted then s5.rise (condTargetFault t) else s5
  (s6, allLanes.map Task.recopyLeft ++ w.2 ++ allLanes.flatMap (s6.laneEffects t))

end Sys2Proof.Machine
end

