-- ==== Sys2Proof/Machine/LaneOps.lean ====
section
/-! DEFINITION. The lane (chapters 1, 5, 9): judging and closing a take, finishing files, working the head,
starting a file, recopies, STOPPING, ABORTING, INTERRUPTED, and the return from INTERRUPTED. -/

namespace Sys2Proof.Machine

/-! ### Judgement and close (R159, R161, R162, R19) -/

/-- A good copy: VERIFIED, or WRITTEN when the take's verify setting is off (R159). -/
def CopyRecord.good (verify : Bool) (c : CopyRecord) : Bool :=
  c.state == .verified || (c.state == .written && !verify)

/-- Good copies of a file, counted over all four records (R159). -/
def FileEntry.goodCopies (f : FileEntry) (verify : Bool) : Nat :=
  allTargets.countP fun t => (f.copy t).good verify

/-- A good file: CLEAN or CORRECTED with at least K good copies (R161). -/
def FileEntry.isGood (f : FileEntry) (verify : Bool) (k : Nat) : Bool :=
  (f.condition == .clean || f.condition == .corrected) && decide (k ≤ f.goodCopies verify)

/-- The verdicts, files good, outcome and cleared a take takes on entry to CLOSED (R161, R162). -/
def Take.judged (t : Take) (o : TakeOutcome) : Take :=
  let verdict (f : FileEntry) : Bool := f.isGood t.verify t.k
  { t with
    entries := t.entries.map (Entry.mapFile fun f => { f with goodFile := some (verdict f) })
    counters := { t.counters with filesGood := t.files.countP fun p => verdict p.2 }
    outcome := some o
    cleared := some (o == .complete && t.files.all fun p => verdict p.2) }

/-- Lane n enters CLOSED: the take is judged, LANE DONE is raised (R19). -/
def State.closeTake (s : State) (n : LaneIx) (o : TakeOutcome) : State :=
  ((s.modifyTake n (·.judged o)).enter n .closed).latch (condLaneDone n)

/-! ### Files finishing (R10, R50) -/

/-- A file whose reading is over and whose copies are all terminal (R10). -/
def FileEntry.mayFinish (f : FileEntry) (verify : Bool) : Bool :=
  f.progress == .draining && f.allTerminal verify

/-- The file becomes FINISHED if it may; files finished rises by one (R10). -/
def State.finishFile (s : State) (n : LaneIx) (e : Nat) : State :=
  (s.modifyFile n e fun f => { f with progress := .finished }).modifyTake n fun t =>
    { t with counters := { t.counters with filesFinished := satInc t.counters.filesFinished } }

def State.mayFinish (s : State) (n : LaneIx) (e : Nat) : Bool :=
  match s.take? n with
  | none => false
  | some t =>
    match t.file? e with
    | none => false
    | some f => f.mayFinish t.verify

/-- Finish the file if R10 holds, without the lane's going on. -/
def State.finishIf (s : State) (n : LaneIx) (e : Nat) : State :=
  if s.mayFinish n e then s.finishFile n e else s

/-- The test of R10; the lane goes on when the file finishes. -/
def State.testFinish (s : State) (n : LaneIx) (e : Nat) : Work :=
  if s.mayFinish n e then (s.finishFile n e, [.goOn n]) else (s, [])

/-- The reading of a lane becomes none (R50). -/
def State.endReading (s : State) (n : LaneIx) : State :=
  s.modifyTake n fun t => { t with reading := .none }

/-! ### INTERRUPTED (R99, R101) -/

/-- Work that needs the card remains (R99). -/
def Take.needsCard (t : Take) : Bool :=
  (t.files.any fun p => p.2.condition == .cut && p.2.progress == .draining)
    || (t.files.any fun p => decide (t.head ≤ p.1) && p.2.progress == .pending)
    || !t.recopyList.isEmpty
    || !t.listEnded

/-- Lane n enters INTERRUPTED (R99): it lets go of an ALLOCATING file (R98) and of every wait. -/
def State.interrupt (s : State) (n : LaneIx) : State :=
  ((s.dropAllocating n).leaveWaiting n).enter n .interrupted

/-- Lane n enters RUNNING: it tests R36 and works its head (R6, R36). -/
def State.enterRunning (s : State) (n : LaneIx) : Work :=
  (s.enter n .running, [.tryRead n, .workHead n])

/-- The wait of a lane in WAITING with reason POOL or TARGETS ends (R13). A wait for a segment ends elsewhere
(`State.freeSegment`, `State.recopyLeft`): a lane that waits for one while it stands on a short list goes on
waiting (log 11). -/
def State.endWait (s : State) (n : LaneIx) : Work :=
  if s.laneState n = some .waiting ∧ (s.take? n).bind Take.waitReason ≠ some .segments then s.enterRunning n
  else (s, [])

/-! ### File start (R7, R34) -/

/-- The live targets of a take (R7). -/
def State.liveTargets (s : State) (t : Take) : List TargetIx :=
  (targetsOf t.targets).filter fun x => (s.target x).state == .online

/-- A copy record becomes SKIPPED with reason OFFLINE (R7). -/
def CopyRecord.skip (c : CopyRecord) : CopyRecord := { c with state := .skipped, reason := some .offline }

/-- A zero-length file's copy at its start (R34). -/
def CopyRecord.startEmpty (verify : Bool) (c : CopyRecord) : CopyRecord :=
  if verify then { c with state := .verified, readback := some Digest.start } else { c with state := .written }

/-- Step 4 of R7: each copy record that holds an allocation becomes WRITING, the file MOVING and the lane's
reading, the head advances. A file of length 0 is read, written and, with verify on, verified at once (R34). -/
def State.beginFile (s : State) (n : LaneIx) (e : Nat) (on : List TargetIx) : Work :=
  match s.take? n, s.file? n e with
  | some t, some f =>
    let s1 := on.foldl (fun s x => s.modifyCopy n e x fun c => { c with state := .writing }) s
    if f.chunksTotal = 0 then
      let s2 := on.foldl (fun s x => s.modifyCopy n e x (CopyRecord.startEmpty t.verify)) s1
      let s3 := s2.modifyFile n e fun f => { f with progress := .draining, source := some Digest.start }
      (s3.modifyTake n fun t => { t with head := t.head + 1, headHold := .none, nextChunk := 0 },
        [.testFinish n e, .goOn n])
    else
      let s2 := s1.modifyFile n e fun f => { f with progress := .moving, running := Digest.start }
      (s2.modifyTake n fun t =>
          { t with reading := .file e, nextChunk := 0, head := t.head + 1, headHold := .none },
        [.tryRead n])
  | _, _ => (s, [])

/-- Step 3 of R7: the pools that have not supplied the file are asked in ascending target number; if one falls
short the lane enters WAITING with POOL, else the file starts. -/
def State.allocateFile (s : State) (n : LaneIx) (e : Nat) (on : List TargetIx) : Work :=
  let lacking (s : State) (x : TargetIx) : Bool := ((s.copy? n e x).bind CopyRecord.allocation).isNone
  let s1 := (on.filter (lacking s)).foldl (fun s x => s.askPool n e x) s
  match on.find? (lacking s1) with
  | some x => (s1.enterWaiting n (.pool x), [])
  | none => s1.beginFile n e on

/-- Steps 2 and 3 of R7 for a PENDING file, and the return to a file that is ALLOCATING. -/
def State.startFile (s : State) (n : LaneIx) (e : Nat) : Work :=
  match s.take? n, s.file? n e with
  | some t, some f =>
    let live := s.liveTargets t
    if f.progress = .allocating then
      let on := live.filter fun x => (f.copy x).state == .none
      if on.length < t.k then
        (((s.unallocate n e).leaveAllShort n).enterWaiting n .targets, [])
      else
        let gone := (targetsOf t.targets).filter fun x => !live.contains x && (f.copy x).state == .none
        let s1 := gone.foldl
          (fun s x => ((s.giveBack n e x).modifyCopy n e x CopyRecord.skip).leaveShort x n) s
        s1.allocateFile n e on
    else if f.progress ≠ .pending then (s, [])
    else if live.length < t.k then
      ((s.leaveAllShort n).enterWaiting n .targets, [])
    else
      let s1 := s.modifyFile n e fun f => { f with progress := .allocating }
      let s2 := ((targetsOf t.targets).filter fun x => !live.contains x).foldl
        (fun s x => s.modifyCopy n e x CopyRecord.skip) s1
      s2.allocateFile n e live
  | _, _ => (s, [])

/-! ### Recopies (R51, R153) -/

/-- The lane begins the recopy of the pair at the head of its list (R153). -/
def State.beginRecopy (s : State) (n : LaneIx) (e : Nat) (x : TargetIx) : Work :=
  let s1 := s.modifyTake n fun t =>
    { t with recopyList := t.recopyList.drop 1, reading := .recopy e x, recopyDigest := Digest.start,
             nextChunk := 0, headHold := if t.state = .running then .none else t.headHold }
  (s1.modifyCopy n e x fun c => { c with state := .writing, chunksWritten := 0, recopied := true },
    [.tryRead n])

/-- If the copy a lane is recopying has left WRITING, the recopy's reading ends at once when no chunk read of
it is in flight; a lane that waits for a segment leaves the waiting lanes (R51, R39). -/
def State.recopyLeft (s : State) (n : LaneIx) : Work :=
  match s.take? n with
  | none => (s, [])
  | some t =>
    match t.reading with
    | .none => (s, [])
    | .file _ => (s, [])
    | .recopy e x =>
      if (s.copy? n e x).map CopyRecord.state = some .writing ∨ t.chunkRead.isSome then (s, [])
      else
        let s1 := (s.endReading n).leaveWaiting n
        if t.state = .waiting then
          let w := s1.enterRunning n
          (w.1, w.2)
        else (s1, [.goOn n])

/-! ### Working the head (R6 to R8, R11) -/

/-- FILE entries of the lane, other than the one at the head, in progress (R7 step 1). -/
def Take.depth (t : Take) : Nat :=
  t.files.countP fun p => p.1 != t.head && p.2.progress != .pending && p.2.progress != .finished

/-- Every FILE entry before the head is FINISHED (R8). -/
def Take.earlierFinished (t : Take) : Bool :=
  t.files.all fun p => !decide (p.1 < t.head) || p.2.progress == .finished

/-- A lane in RUNNING works its head (R6). -/
def State.workHead (s : State) (n : LaneIx) : Work :=
  match s.take? n with
  | none => (s, [])
  | some t =>
    if t.state ≠ .running then (s, [])
    else if t.reading ≠ .none then (s.setHold n .none, [])
    else
      match t.recopyList with
      | p :: _ => if s.cardAtHand n then s.beginRecopy n p.1 p.2 else (s.interrupt n, [])
      | [] =>
        match t.entries[t.head]? with
        | none => if t.listEnded then (s.setHold n .none, []) else (s.enter n .starved, [])
        | some (.file _) =>
          if !s.cardAtHand n then (s.interrupt n, [])
          else if Config.fileDepth ≤ t.depth then (s.setHold n .depth, [])
          else (s.setHold n .none).startFile n t.head
        | some (.mark k _) =>
          if t.earlierFinished then
            let s1 := s.modifyTake n fun t =>
              { t with entries := t.entries.set t.head (.mark k true), head := t.head + 1, headHold := .none }
            (s1.latch (condLaneMark n), [.workHead n])
          else (s.setHold n .mark, [])
        | some (.pause _) =>
          if t.earlierFinished then
            let s1 := s.modifyTake n fun t =>
              { t with entries := t.entries.set t.head (.pause true), head := t.head + 1 }
            (s1.enter n .suspended, [])
          else (s.setHold n .pause, [])
        | some .endOfList => ((s.enter n .draining).setHold n .endOfList, [.goOn n])

/-- The close conditions of R15 (STOPPING) and R16 (DRAINING), but for reading and recopy list. -/
def Take.filesDone (t : Take) : Bool :=
  t.files.all fun p => p.2.progress == .finished || (t.state == .stopping && p.2.progress == .pending)

/-- Nothing of the lane is left in the part: no chunk read, no held segment, no write order, no verify order and no
active verification, a stopped one included (R19, R46, R53, R158). -/
def State.laneClear (s : State) (n : LaneIx) : Bool :=
  ((s.take? n).bind Take.chunkRead).isNone && decide (heldSegments s n = 0)
    && (allTargets.all fun x => ((s.target x).fifos[n]).isEmpty)
    && (s.verify.queue.all fun o => o.lane != n)
    && (allTargets.all fun x => (s.active x).map Verification.lane != some n)

/-- The lane closes if nothing of it is left in the part; else it waits for the last of it to end (R18, R19, R53;
log 12). -/
def State.closeIfClear (s : State) (n : LaneIx) (o : TakeOutcome) : Work :=
  if s.laneClear n then (s.closeTake n o, []) else (s, [])

/-- The outcome of a take that closes in STOPPING or DRAINING (R15, R16). -/
def Take.closingOutcome (t : Take) : TakeOutcome :=
  if t.state = .draining then .complete else if t.halting then .halted else .stopped

/-- A lane in STOPPING or DRAINING serves its recopy list, or closes (R15, R16, R101, R153). -/
def State.serveOrClose (s : State) (n : LaneIx) (t : Take) : Work :=
  if t.reading ≠ .none then (s, [])
  else
    match t.recopyList with
    | p :: rest =>
      if s.cardAtHand n then s.beginRecopy n p.1 p.2
      else if t.state = .draining then (s.interrupt n, [])
      else
        ((s.modifyTake n fun t => { t with recopyList := rest }).modifyCopy n p.1 p.2 (CopyRecord.fail .cut),
          [.testFinish n p.1, .goOn n])
    | [] => if t.filesDone then s.closeIfClear n t.closingOutcome else (s, [])

/-- An INTERRUPTED lane with no work that needs the card enters RUNNING at once (R102). -/
def State.testInterrupted (s : State) (n : LaneIx) (t : Take) : Work :=
  if t.needsCard then (s, []) else s.enterRunning n

/-- The last of a STOPPING or DRAINING lane's work may have ended: the lane closes if R15 or R16 holds and nothing
of it is left (R19; log 12). -/
def State.testDone (s : State) (n : LaneIx) (t : Take) : Work :=
  if t.reading = .none ∧ t.recopyList = [] ∧ t.filesDone = true then s.closeIfClear n t.closingOutcome else (s, [])

/-- A lane goes on after a reading ended, a file finished or a pair joined its recopy list, as its state says
(R6, R10, R11, R50, R102). -/
def State.goOn (s : State) (n : LaneIx) : Work :=
  match s.take? n with
  | none => (s, [])
  | some t =>
    match t.state with
    | .running => (s, [.workHead n])
    | .stopping => s.serveOrClose n t
    | .draining => s.serveOrClose n t
    | .interrupted => s.testInterrupted n t
    | .aborting => s.closeIfClear n .aborted
    | .opened => (s, [])
    | .starved => (s, [])
    | .waiting => (s, [])
    | .suspended => (s, [])
    | .closed => (s, [])

/-- The tests of a lane after work of it has ended in another block: whether a STOPPING, DRAINING or ABORTING lane
can close, and whether an INTERRUPTED lane still has work that needs its card (R15, R16, R18, R19, R53, R102). -/
def State.laneTests (s : State) (n : LaneIx) : Work :=
  match s.take? n with
  | none => (s, [])
  | some t =>
    match t.state with
    | .interrupted => s.testInterrupted n t
    | .aborting => s.closeIfClear n .aborted
    | .stopping => s.testDone n t
    | .draining => s.testDone n t
    | .opened => (s, [])
    | .running => (s, [])
    | .starved => (s, [])
    | .waiting => (s, [])
    | .suspended => (s, [])
    | .closed => (s, [])

/-- A pair joins the tail of the recopy list (R152): a lane in STARVED enters RUNNING, the others go on. -/
def State.joinRecopyList (s : State) (n : LaneIx) (e : Nat) (x : TargetIx) : Work :=
  let s1 := s.modifyTake n fun t => { t with recopyList := t.recopyList ++ [(e, x)] }
  if s1.laneState n = some .starved then s1.enterRunning n else (s1, [.goOn n])

/-! ### STOPPING and ABORTING (R15, R18, R53) -/

/-- Entry to STOPPING (R15): an ALLOCATING file is let go; a MOVING file and listed recopies go on (log 13). -/
def State.enterStopping (s : State) (n : LaneIx) : Work :=
  ((s.dropAllocating n).enter n .stopping, [.tryRead n, .goOn n])

/-- The cut file's WRITING copies and the copies on the recopy list become FAILED with reason CUT, and the
list is emptied (R100, R105). -/
def State.giveUpCardWork (s : State) (n : LaneIx) : Work :=
  match s.take? n with
  | none => (s, [])
  | some t =>
    let cutFiles := t.files.filter fun p => p.2.condition == .cut && p.2.progress == .draining
    let s1 := cutFiles.foldl (fun s p =>
      s.modifyFile n p.1 fun f => { f with copies := f.copies.map (CopyRecord.failIf (· == .writing) .cut) }) s
    let s2 := t.recopyList.foldl (fun s p => s.modifyCopy n p.1 p.2 (CopyRecord.fail .cut)) s1
    (s2.modifyTake n fun t => { t with recopyList := [] },
      cutFiles.map (fun p => Task.testFinish n p.1) ++ t.recopyList.map fun p => Task.testFinish n p.1)

/-- A MOVING file is cut: condition CUT, files cut rises, its running digest is discarded, its reading is over
(R18, R96). -/
def State.cutFile (s : State) (n : LaneIx) (e : Nat) : State :=
  (s.modifyFile n e fun f =>
      { f with condition := .cut, progress := .draining, running := Digest.start }).modifyTake n fun t =>
    { t with reading := .none, counters := { t.counters with filesCut := satInc t.counters.filesCut } }

/-- A chunk read of the lane has ended: the take's chunks read counter counts it (R2, R43). -/
def State.countChunkRead (s : State) (n : LaneIx) : State :=
  s.modifyTake n fun t =>
    { t with chunkRead := none
             counters := { t.counters with chunksRead := satInc t.counters.chunksRead } }

/-- Entry to ABORTING, the chunk read in flight: its segment's discard flag is set; a piece that still waits
at the port is withdrawn and the chunk read ends at once (R53 item 3, R80). -/
def State.abortChunkRead (s : State) (n : LaneIx) : Work :=
  match (s.take? n).bind Take.chunkRead with
  | none => (s, [])
  | some cr =>
    let s1 := match s.segment cr.segment with
      | .filling u _ => s.setSegment cr.segment (.filling u true)
      | .free => s
      | .sending _ _ => s
    if (s1.slot n).waitingPiece.isSome then
      ((s1.modifySlot n fun x => { x with waitingPiece := none }).countChunkRead n, [.freeSegment cr.segment])
    else (s1, [])

/-- Entry to ABORTING (R18, R53, R106, R157). -/
def State.enterAborting (s : State) (n : LaneIx) : Work :=
  let w1 := s.withdraw n fun _ => true
  let s2 := (w1.1.stopLaneVerifications n allTargets).dropAllocating n
  let s3 := match (s2.take? n).map Take.reading with
    | some (.file e) => s2.cutFile n e
    | _ => s2
  let s4 := s3.modifyTake n fun t =>
    { t with
      reading := .none, recopyList := []
      entries := t.entries.map (Entry.mapFile fun f =>
        { f with copies := f.copies.map (CopyRecord.failIf (fun c => !c.terminal t.verify) .aborted) }) }
  let w5 := s4.abortChunkRead n
  let s6 := (w5.1.leaveWaiting n).enter n .aborting
  let files := match s6.take? n with
    | some t => t.files.map Prod.fst
    | none => []
  let s7 := files.foldl (fun s e => s.finishIf n e) s6
  (s7, w1.2 ++ w5.2 ++ [.laneTests n])

end Sys2Proof.Machine
end

