-- ==== Sys2Proof/Machine/ManifestRequests.lean ====
section
/-! DEFINITION. The manifest requests (section 9.3) and the entry results of READ MANIFEST (11.6). -/

namespace Sys2Proof.Machine

/-- A digest as presented: B * 2^32 + A in 8 bytes, then L in 6 (11.6). -/
def digestBytes (d : Digest) : List Byte := le 8 (d.b * 2 ^ 32 + d.a) ++ le 6 d.len

/-- A digest that may be absent, its bytes 0 when it is (11.6). -/
def digestField : Option Digest → List Byte
  | none => List.replicate 14 0
  | some d => digestBytes d

/-- A copy result, 27 bytes (11.6, R160). -/
def copyResult (c : CopyRecord) : List Byte :=
  [c.state.code, copyReasonCode c.reason, yesNo c.recopied,
   match c.allocation with
   | none => 0xFF
   | some a => BitVec.ofNat 8 a.runs.length,
   yesNo c.readback.isSome]
    ++ le 4 c.chunksWritten
    ++ le 4 (match c.allocation with
        | none => 0
        | some a => unitsOf a.runs)
    ++ digestField c.readback

/-- The result of a FILE entry, 151 bytes (11.6, R159). -/
def fileResult (t : Take) (f : FileEntry) : List Byte :=
  [1, f.progress.code, f.condition.code, BitVec.ofNat 8 f.runs.length,
   BitVec.ofNat 8 (f.goodCopies t.verify),
   match f.goodFile with
   | none => 0xFF
   | some g => yesNo g,
   yesNo f.source.isSome]
    ++ le 4 f.fileId.toNat ++ le 6 f.length ++ le 4 f.chunksTotal ++ le 4 f.chunksRead ++ le 4 f.correctedCount
    ++ digestField f.source
    ++ allTargets.flatMap fun x => copyResult (f.copy x)

/-- The result of an entry (11.6, R159). -/
def entryResult (t : Take) : Entry → List Byte
  | .file f => fileResult t f
  | .mark k reached => [2, yesNo reached] ++ le 2 k.toNat
  | .pause reached => [3, yesNo reached]
  | .endOfList => [4]

/-- The body of the READ MANIFEST reply, its fields in the order R164 names them: outcome, cleared and files good
stand behind the entry results, and are absent until the take is CLOSED (R164, R191). -/
def manifestBody (t : Take) (first count : Nat) : List Byte :=
  let results := (t.entries.drop first).take count
  let closed := t.state == .closed
  [laneStateCode (some t.state)] ++ le 2 t.label.toNat ++ le 2 t.entries.length ++ le 2 first
    ++ le 1 results.length
    ++ results.flatMap (entryResult t)
    ++ optField 1 (t.outcome.map fun o => [o.code])
    ++ optField 1 (t.cleared.map fun c => [yesNo c])
    ++ optField 4 (if closed then some (le 4 t.counters.filesGood) else none)

/-- READ MANIFEST (R163, R164). -/
def serveReadManifest (lane : Byte) (first : BitVec 16) (count : Byte) (s : State) : Work :=
  match laneOf lane with
  | none => (s.answer .badField [], [])
  | some n =>
    if count = 0 ∨ count.toNat > 16 then (s.answer .badField [], [])
    else
      match s.take? n with
      | none => (s.answer .wrongState [], [])
      | some t =>
        if t.entries.length ≤ first.toNat then (s.answer .outOfRange [], [])
        else (s.answer .ok (manifestBody t first.toNat count.toNat), [])

/-- One allocation run as READ ALLOCATION gives it: start unit, units, drive LBA of its first sector, sectors. -/
def allocationRunBytes (unit : Nat) (r : Extent) : List Byte :=
  le 4 r.start ++ le 4 r.len ++ le 4 (r.start * unit) ++ le 4 (r.len * unit)

/-- The body of the READ ALLOCATION reply (R165; log 18). -/
def allocationBody (x : Target) (c : CopyRecord) : List Byte :=
  [c.state.code, copyReasonCode c.reason]
    ++ match c.allocation with
      | none => 0 :: List.replicate 7 0
      | some a =>
        [1] ++ le 4 a.generation.toNat ++ [yesNo (a.generation == x.generation)] ++ le 2 x.unit
          ++ a.runs.flatMap (allocationRunBytes x.unit)

/-- READ ALLOCATION (R163, R165). -/
def serveReadAllocation (lane : Byte) (index : BitVec 16) (target : Byte) (s : State) : Work :=
  match laneOf lane with
  | none => (s.answer .badField [], [])
  | some n =>
    match targetOf target with
    | none => (s.answer .badField [], [])
    | some x =>
      match s.take? n with
      | none => (s.answer .wrongState [], [])
      | some t =>
        match t.entries[index.toNat]? with
        | none => (s.answer .outOfRange [], [])
        | some e =>
          match e.file? with
          | none => (s.answer .badField [], [])
          | some f => (s.answer .ok (allocationBody (s.target x) (f.copy x)), [])

end Sys2Proof.Machine
end

