-- ==== Sys2Proof/Machine/PartRequests.lean ====
section
/-! DEFINITION. The requests of the message link unit itself: IDENTIFY (11.5) and RESET PART (R188). -/

namespace Sys2Proof.Machine

/-- The fields of the capability record before the entry store free count (R190; widths: log 18). -/
def capabilityHead : List Byte :=
  le 2 0x4D57 ++ le 2 0x8400 ++ le 1 1 ++ le 8 Config.partSerial.toNat
    ++ le 1 8 ++ le 1 4
    ++ le 1 Config.segments ++ le 2 Config.chunkSectors
    ++ le 2 Config.storeEntries ++ le 2 Config.takeEntries

/-- The fields of the capability record after the entry store free count (R190). -/
def capabilityTail : List Byte :=
  le 1 16 ++ le 1 Config.fileDepth ++ le 1 32 ++ le 1 8
    ++ le 1 Config.allocationRuns ++ le 1 Config.poolRuns
    ++ le 2 128 ++ le 2 512 ++ le 2 2048 ++ le 2 8192 ++ le 2 2048
    ++ le 1 16 ++ le 1 4
    ++ le 1 64 ++ le 1 4
    ++ le 1 8
    ++ le 1 4
    ++ le 1 Config.settleMs ++ le 2 500 ++ le 2 2000
    ++ le 2 Config.maxBody ++ le 1 Config.waitingFrames
    ++ le 1 8
    ++ le 1 16 ++ le 1 16 ++ le 1 8
    ++ le 1 Config.conditions
    ++ le 4 Config.digestModulus

/-- The capability record (R190). -/
def capabilityRecord (free : Nat) : List Byte := capabilityHead ++ le 2 free ++ capabilityTail

/-- IDENTIFY (R190). -/
def serveIdentify (s : State) : Work := (s.answer .ok (capabilityRecord s.freeEntries), [])

/-- RESET PART (R188): answered OK at once; the reset itself comes when the reply has been sent. -/
def serveResetPart (s : State) : Work := (s.answer .ok [], [])

end Sys2Proof.Machine
end

