-- ==== Sys2Proof/Machine/PoolRequests.lean ====
section
/-! DEFINITION. The pool requests: GRANT SPACE, CLEAR POOL, READ POOL (chapter 7). -/

namespace Sys2Proof.Machine

/-- A granted run as a run of units. -/
def UnitRunArg.extent (r : UnitRunArg) : Extent := { start := r.start.toNat, len := r.length.toNat }

/-- The members of a list that stand at another place than i. -/
def others (rs : List Extent) (i : Nat) : List Extent := rs.eraseIdx i

/-- The position of the first granted run that exceeds the target's capacity in units (R133 item 4). A target
without identity has no capacity in units, so every run exceeds it (log 36). -/
def beyondCapacity (capacity : Option Nat) (rs : List Extent) : Option Nat :=
  rs.findIdx? fun r => decide (r.stop > capacity.getD 0)

/-- The position of the first granted run that shares a unit with a held run or with another of the request
(R133 item 5). -/
def firstOverlap (held rs : List Extent) : Option Nat :=
  (List.range rs.length).find? fun i =>
    match rs[i]? with
    | none => false
    | some r => (held ++ others rs i).any r.meets

/-- Every run recorded on a target: free runs and the allocation runs of unreleased takes (R133 item 5). -/
def State.recordedRuns (s : State) (t : TargetIx) : List Extent :=
  (s.pool t).runs ++ (s.allocationsOn t).flatMap fun p => p.2.runs

/-- The free-run list with the runs of a request merged into it (R134). -/
def mergeRuns (runs rs : List Extent) : List Extent := rs.foldl (fun acc r => insertRun r acc) runs

/-- The first failing check of GRANT SPACE: its status and the field its reply carries (R133). -/
def State.grantRefusal (s : State) (t : TargetIx) (rs : List Extent) : Option (Status × List Byte) :=
  let x := s.target t
  if rs.isEmpty ∨ rs.length > 8 ∨ rs.any (fun r => r.len == 0) = true then some (.badField, [])
  else if x.state = .absent then some (.noTarget, [])
  else if x.state = .attaching ∨ (x.state = .faulted ∧ x.identity = none) then some (.wrongState, [])
  else
    match beyondCapacity x.capacityUnits rs with
    | some i => some (.outOfRange, le 1 i)
    | none =>
      match firstOverlap (s.recordedRuns t) rs with
      | some i => some (.overlap, le 1 i)
      | none =>
        let merged := mergeRuns (s.pool t).runs rs
        if merged.length > Config.poolRuns then some (.poolFull, le 1 merged.length) else none

/-- The reply of a pool request that gives the pool's free units and number of runs (R134). -/
def poolSummary (p : Pool) : List Byte := le 4 (unitsOf p.runs) ++ le 1 p.runs.length

/-- GRANT SPACE (R123, R133, R134): the runs are merged and the reply composed, then every lane of the short
list ends its wait, in list order. -/
def serveGrantSpace (target : Byte) (runs : List UnitRunArg) (s : State) : Work :=
  match targetOf target with
  | none => (s.answer .badField [], [])
  | some t =>
    let rs := runs.map UnitRunArg.extent
    match s.grantRefusal t rs with
    | some (st, body) => (s.answer st body, [])
    | none =>
      let s1 := s.modifyPool t fun p => { p with runs := mergeRuns p.runs rs }
      (s1.answer .ok (poolSummary (s1.pool t)), (s.pool t).short.map Task.endWait)

/-- A pool's free-run list is emptied; nothing else of it is touched (R131). -/
def Pool.empty (p : Pool) : Pool := { p with runs := [] }

/-- CLEAR POOL (R123, R135): the reply gives the runs and the units removed. -/
def serveClearPool (target : Byte) (s : State) : Work :=
  match targetOf target with
  | none => (s.answer .badField [], [])
  | some t =>
    let p := s.pool t
    ((s.modifyPool t Pool.empty).answer .ok (le 1 p.runs.length ++ le 4 (unitsOf p.runs)), [])

/-- Units held on a target by allocations of unreleased takes made under the current generation (R136). -/
def State.heldUnits (s : State) (t : TargetIx) : Nat :=
  ((s.allocationsOn t).map fun p =>
    if p.2.generation = (s.target t).generation then unitsOf p.2.runs else 0).sum

/-- The fields of READ POOL in the order of R136 (log 18). -/
def readPoolBody (s : State) (t : TargetIx) : List Byte :=
  let x := s.target t
  let p := s.pool t
  le 2 x.unit
    ++ optField 4 (x.capacityUnits.map (le 4))
    ++ le 4 x.generation.toNat
    ++ poolSummary p
    ++ p.runs.flatMap (fun r => le 4 r.start ++ le 4 r.len)
    ++ (p.short.map fun n => BitVec.ofNat 8 n.val)
    ++ le 4 p.dropped
    ++ le 4 (s.heldUnits t)

/-- READ POOL (R123, R136). -/
def serveReadPool (target : Byte) (s : State) : Work :=
  match targetOf target with
  | none => (s.answer .badField [], [])
  | some t => (s.answer .ok (readPoolBody s t), [])

end Sys2Proof.Machine
end

