-- ==== Sys2Proof/Machine/SlotRequests.lean ====
section
/-! DEFINITION. The slot requests (section 4.4). -/

namespace Sys2Proof.Machine

/-- The settle time left in SETTLING, in milliseconds: a free value of at most 250 (R69, R82; log 4). -/
def State.settleLeft (s : State) : Nat := min (Config.settleTimeLeft s.freeReads) Config.settleMs

/-- The fields of SLOT STATUS in the order of R82 (log 18). -/
def slotStatusBody (s : State) (n : LaneIx) : List Byte :=
  let x := s.slot n
  let piece := match x.op with
    | .piece r k => some (r, k)
    | .peek _ _ => none
    | .identify => none
    | .none => none
  [x.state.code, yesNo x.present]
    ++ optField 1 (if x.state = .settling then some (le 1 s.settleLeft) else none)
    ++ optField 1 (if x.state = .identifying then some (le 1 x.identifyAttempt) else none)
    ++ optField 20 (x.identity.map cardIdentityBytes)
    ++ [x.op.code]
    ++ optField 4 (piece.map fun p => le 4 p.1.start)
    ++ optField 2 (piece.map fun p => le 2 p.1.count)
    ++ optField 1 (piece.map fun p => le 1 p.2)
    ++ [yesNo x.waitingPeek.isSome, yesNo x.waitingPiece.isSome]
    ++ le 4 x.retried ++ le 4 x.corrected ++ le 4 x.failed
    ++ [(lamp s n).code, laneStateCode (s.laneState n)]

/-- SLOT STATUS (R81, R82). A read of the settle time left takes the next free value. -/
def serveSlotStatus (slot : Byte) (s : State) : Work :=
  match laneOf slot with
  | none => (s.answer .badField [], [])
  | some n =>
    let s1 := s.answer .ok (slotStatusBody s n)
    (if (s.slot n).state = .settling then { s1 with freeReads := s.freeReads + 1 } else s1, [])

/-- PEEK CARD (R81, R83). -/
def servePeekCard (slot : Byte) (start : BitVec 32) (count retries alternate : Byte) (s : State) : Work :=
  match laneOf slot with
  | none => (s.answer .badField [], [])
  | some n =>
    let x := s.slot n
    match onOff alternate with
    | none => (s.answer .badField [], [])
    | some alt =>
      if count = 0 ∨ count.toNat > 8 then (s.answer .badField [], [])
      else
        match x.state with
        | .empty => (s.answer .noCard [], [])
        | .held => (s.answer (if x.present then .wrongState else .noCard) [], [])
        | .settling => (s.answer .wrongState [], [])
        | .identifying => (s.answer .wrongState [], [])
        | .faulted => (s.answer .wrongState [], [])
        | .ready =>
          let r : CardRead :=
            { start := start.toNat, count := count.toNat, retries := clampRetries retries.toNat, alternate := alt }
          if x.outOfRange r then (s.answer .outOfRange [], [])
          else (s.offerPeek n { read := r, clamped := clampRetries retries.toNat != retries.toNat }, [])

/-- The lane states in which HOLD SLOT is refused: from RUNNING to ABORTING (R85). -/
def TakeState.refusesHold : TakeState → Bool
  | .opened => false
  | .closed => false
  | .running => true
  | .starved => true
  | .waiting => true
  | .suspended => true
  | .stopping => true
  | .draining => true
  | .interrupted => true
  | .aborting => true

/-- Entry to HELD (R85): power off, no identity, no settle timer, identify attempt 0, the identify attempt in
flight abandoned. Nothing waits at the port then (R80, R85). Card present stays: in every state it is as the
table of R67 gives. -/
def Slot.hold (x : Slot) : Slot :=
  { x with state := .held, settleRunning := false, identity := none, identifyAttempt := 0, op := .none,
           waitingPeek := none, waitingPiece := none }

/-- The reply of HOLD SLOT: the slot state and whether a card is present (R85). -/
def holdBody (x : Slot) : List Byte := [x.state.code, yesNo x.present]

/-- HOLD SLOT (R81, R85). -/
def serveHoldSlot (slot : Byte) (s : State) : Work :=
  match laneOf slot with
  | none => (s.answer .badField [], [])
  | some n =>
    if ((s.laneState n).map TakeState.refusesHold).getD false then (s.answer .wrongState [], [])
    else if (s.slot n).state = .held then (s.answer .ok (holdBody (s.slot n)), [])
    else
      let s1 := s.modifySlot n Slot.hold
      (s1.answer .ok (holdBody (s1.slot n)), [])

/-- A HELD slot returns to service (R87). -/
def Slot.release (x : Slot) : Slot := if x.present then x.settle else { x with state := .empty }

/-- FREE SLOT (R81, R87). -/
def serveFreeSlot (slot : Byte) (s : State) : Work :=
  match laneOf slot with
  | none => (s.answer .badField [], [])
  | some n =>
    if (s.slot n).state ≠ .held then (s.answer .wrongState [], [])
    else
      let s1 := s.modifySlot n Slot.release
      (s1.answer .ok [(s1.slot n).state.code], [])

end Sys2Proof.Machine
end

