-- ==== Sys2Proof/Machine/ReadingOps.lean ====
section
/-! DEFINITION. The chunk read (chapters 2, 3, 5): pieces delivered, filled and failed, chunk reads that end
good, write orders, the end of a file's reading and of a recopy's reading. -/

namespace Sys2Proof.Machine

/-- The data of a piece goes to its place in the segment: pieces come in file-sector order (R33). -/
def State.storePiece (s : State) (g : SegmentIx) (bytes : List Byte) : State :=
  match s.segment g with
  | .filling u d => s.setSegment g (.filling { u with data := u.data ++ bytes } d)
  | .free => s
  | .sending _ _ => s

/-- File bytes are folded into the running digest of the pass: the file's own, or the recopy's (R41, R60, R66). -/
def State.foldPass (s : State) (n : LaneIx) (u : SegmentUse) (bytes : List Byte) : State :=
  match u.pass with
  | none => s.modifyFile n u.entry fun f => { f with running := f.running.fold bytes }
  | some _ => s.modifyTake n fun t => { t with recopyDigest := t.recopyDigest.fold bytes }

/-- A CORRECTED piece is counted; in the file's own reading the entry counts it too and a CLEAN condition
becomes CORRECTED (R41 step 3, R90). R90 and R159 do not say whether the entry's 32-bit count wraps; the model lets it
stay at its largest value (log 38). -/
def State.countCorrected (s : State) (n : LaneIx) (u : SegmentUse) : State :=
  let s1 := s.modifyTake n fun t =>
    { t with counters := { t.counters with corrected := satInc t.counters.corrected } }
  match u.pass with
  | some _ => s1
  | none => s1.modifyFile n u.entry fun f =>
      { f with correctedCount := satInc f.correctedCount
               condition := if f.condition = .clean then .corrected else f.condition }

/-- A piece of the file's own reading is filled under FILL for the first time in its reading: DAMAGED, files
damaged unless the entry has been counted, SOURCE FAULT (R91). -/
def State.damage (s : State) (n : LaneIx) (e : Nat) : State :=
  match s.file? n e with
  | none => s
  | some f =>
    if f.condition = .clean ∨ f.condition = .corrected then
      let s1 := s.modifyFile n e fun f => { f with condition := .damaged, damageCounted := true }
      let s2 := if f.damageCounted then s1
        else s1.modifyTake n fun t =>
          { t with counters := { t.counters with filesDamaged := satInc t.counters.filesDamaged } }
      s2.latch (condSourceFault n)
    else s

/-- The targets whose copy of the chunk is to receive it (R45): those of the take's set whose record is
WRITING, or the recopy's target if its record is WRITING. -/
def orderTargets (t : Take) (f : FileEntry) (u : SegmentUse) : List TargetIx :=
  (match u.pass with
   | none => targetsOf t.targets
   | some x => [x]).filter fun (x : TargetIx) => (f.copy x).state == CopyState.writing

/-- One write order is placed at the tail of the lane's FIFO at a target (R45, R46). -/
def State.placeOrder (s : State) (n : LaneIx) (f : FileEntry) (u : SegmentUse) (g : SegmentIx) (x : TargetIx) :
    State :=
  let pieces := match (f.copy x).allocation with
    | some a => f.devicePieces a (s.target x).unit u.chunk
    | none => []
  let o : WriteOrder :=
    { entry := u.entry, chunk := u.chunk, segment := g, pieces := pieces, errors := 0, withdrawn := false }
  s.modifyTarget x fun y => { y with fifos := y.fifos.set n.val (y.fifos[n] ++ [o]) n.isLt }

/-- The orders of a chunk are placed; the segment becomes SENDING, or FREE when none is placed (R45). -/
def State.fanOut (s : State) (n : LaneIx) (t : Take) (f : FileEntry) (u : SegmentUse) (g : SegmentIx) : Work :=
  let xs := orderTargets t f u
  let s1 := xs.foldl (fun s x => s.placeOrder n f u g x) s
  (s1.setSegment g (.sending u xs.length), if xs.isEmpty then [.freeSegment g] else [])

/-- The comparison at the good end of a recopy's last chunk: a digest that differs from the source digest
fails the copy with SOURCE_UNSTABLE and withdraws its orders; a copy that has left WRITING is not compared
(R64, R66, R154, R51). -/
def State.compareRecopy (s : State) (n : LaneIx) (e : Nat) (x : TargetIx) : Work :=
  match s.take? n, s.file? n e with
  | some t, some f =>
    let equal := match f.source with
      | some d => t.recopyDigest.same d
      | none => false
    if (f.copy x).state = .writing ∧ equal = false then
      (s.modifyCopy n e x (CopyRecord.fail .sourceUnstable)).withdrawAt n x fun o => o.entry == e
    else (s, [])
  | _, _ => (s, [])

/-- A chunk read ends good (R43). -/
def State.chunkGood (s : State) (n : LaneIx) (g : SegmentIx) (u : SegmentUse) : Work :=
  let s1 := s.countChunkRead n
  let s2 := match u.pass with
    | none => s1.modifyFile n u.entry fun f => { f with chunksRead := f.chunksRead + 1 }
    | some _ => s1
  match s2.take? n, s2.file? n u.entry with
  | some t, some f =>
    let w3 := s2.fanOut n t f u g
    let w4 : Work := (w3.1.modifyTake n fun t => { t with nextChunk := u.chunk + 1 }, w3.2)
    let last := decide (f.chunksTotal ≤ u.chunk + 1)
    match u.pass with
    | none =>
      if last then
        let s5 := w4.1.modifyFile n u.entry fun f => { f with source := some f.running, progress := .draining }
        (s5.endReading n, w4.2 ++ [.testFinish n u.entry, .goOn n])
      else w4.addTasks [.tryRead n]
    | some x =>
      if last then
        let w5 := w4.andThen fun s => s.compareRecopy n u.entry x
        (w5.1.endReading n, w5.2 ++ [.testFinish n u.entry, .goOn n])
      else if (f.copy x).state = .writing then w4.addTasks [.tryRead n]
      else (w4.1.endReading n, w4.2 ++ [.goOn n])
  | _, _ => (s2, [.freeSegment g])

/-- The current piece has ended with its data in the segment: the next is handed over, or the chunk read ends
good (R41 step 4, R43). -/
def State.pieceDone (s : State) (n : LaneIx) (g : SegmentIx) (rest : List Piece) : Work :=
  match rest with
  | [] =>
    match (s.segment g).use? with
    | some u => s.chunkGood n g u
    | none => (s, [])
  | _ :: _ =>
    (s.modifyTake n fun t => { t with chunkRead := some { segment := g, pieces := rest } }, [.handPiece n])

/-- Policy HALT after an unreadable file: halting becomes yes, and RUNNING, SUSPENDED and DRAINING enter
STOPPING (R93). -/
def State.haltTake (s : State) (n : LaneIx) : Work :=
  let s1 := s.modifyTake n fun t => { t with halting := true }
  match s1.laneState n with
  | some .running => s1.enterStopping n
  | some .suspended => s1.enterStopping n
  | some .draining => s1.enterStopping n
  | _ => (s1, [])

/-- A chunk read of the file's own reading ends failed under SKIP or HALT: the file is UNREADABLE (R92, R93). -/
def State.fileUnreadable (s : State) (n : LaneIx) (e : Nat) (g : SegmentIx) : Work :=
  let s1 := (s.countChunkRead n).modifyFile n e fun f =>
    { f with condition := .unreadable, progress := .draining, running := Digest.start
             copies := f.copies.map (CopyRecord.failIf (· == .writing) .source) }
  let s2 := (s1.modifyTake n fun t =>
    { t with reading := .none
             counters := { t.counters with filesUnreadable := satInc t.counters.filesUnreadable } }).latch
      (condSourceFault n)
  let w3 := s2.withdraw n fun o => o.entry == e
  let s4 := w3.1.finishIf n e
  let w5 := match (s4.take? n).map Take.policy with
    | some .halt => s4.haltTake n
    | _ => (s4, [])
  (w5.1, [.freeSegment g] ++ w3.2 ++ w5.2 ++ [.goOn n])

/-- A chunk read of a recopy ends failed: the copy, if WRITING, is FAILED with reason SOURCE (R154). -/
def State.recopyFailed (s : State) (n : LaneIx) (e : Nat) (x : TargetIx) (g : SegmentIx) : Work :=
  let s1 := (s.countChunkRead n).endReading n
  let w2 := if (s1.copy? n e x).map CopyRecord.state = some .writing then
      (s1.modifyCopy n e x (CopyRecord.fail .source)).withdrawAt n x fun o => o.entry == e
    else (s1, [])
  (w2.1, [.freeSegment g] ++ w2.2 ++ [.testFinish n e, .goOn n])

/-- A result that delivers data (R76). -/
def ResultClass.delivers : ResultClass → Bool
  | .ok => true
  | .corrected => true
  | .uncorrectable => false
  | .noResponse => false
  | .badBlock => false
  | .outOfRange => false
  | .aborted => false

/-- The counts of a piece that has delivered its sectors: its file bytes, and a correction (R2, R41 steps 2 and 3). -/
def State.countDelivered (s : State) (n : LaneIx) (u : SegmentUse) (length : Nat) (p : Piece) (cls : ResultClass) :
    State :=
  let s1 := s.modifyTake n fun t =>
    { t with counters := { t.counters with
        bytesRead := satAdd 64 t.counters.bytesRead (fileBytesOf length p.sector p.count) } }
  if cls = .corrected then s1.countCorrected n u else s1

/-- A piece has delivered its sectors (R41). -/
def State.deliverPiece (s : State) (n : LaneIx) (g : SegmentIx) (u : SegmentUse) (length : Nat) (p : Piece)
    (rest : List Piece) (cls : ResultClass) (data : List Byte) : Work :=
  let sectors := fitSectors p.count data
  let s1 := (s.storePiece g sectors).foldPass n u (sectors.take (fileBytesOf length p.sector p.count))
  (s1.countDelivered n u length p cls).pieceDone n g rest

/-- A piece whose segment's discard flag is set has ended, and its chunk read with it: sectors it has delivered are
counted and neither digested nor ordered, and the segment's use ends (R53 item 3, R94; log 17). -/
def State.discardPiece (s : State) (n : LaneIx) (g : SegmentIx) (u : SegmentUse) (p : Piece) (cls : ResultClass) :
    Work :=
  let s1 := match s.file? n u.entry with
    | none => s
    | some f => if cls.delivers then s.countDelivered n u f.length p cls else s
  (s1.countChunkRead n, [.freeSegment g, .laneTests n])

/-- A piece that failed under FILL is filled with zeros (R42, R61, R91). -/
def State.fillPiece (s : State) (n : LaneIx) (g : SegmentIx) (u : SegmentUse) (length : Nat) (p : Piece)
    (rest : List Piece) : Work :=
  let sectors := zeroSectors p.count
  let k := fileBytesOf length p.sector p.count
  let s1 := (s.storePiece g sectors).foldPass n u (sectors.take k)
  (s1.damage n u.entry).pieceDone n g rest

/-- A piece of a lane has ended at the card port (R41, R42, R53, R94). -/
def State.pieceEnded (s : State) (n : LaneIx) (cls : ResultClass) (data : List Byte) : Work :=
  match s.take? n with
  | none => (s, [])
  | some t =>
    match t.chunkRead with
    | none => (s, [])
    | some cr =>
      match s.segment cr.segment, cr.pieces with
      | .filling u discard, p :: rest =>
        if discard then s.discardPiece n cr.segment u p cls
        else if cls = .aborted then (s.countChunkRead n, [.freeSegment cr.segment])
        else
          match t.file? u.entry with
          | none => (s.countChunkRead n, [.freeSegment cr.segment])
          | some f =>
            if cls.delivers then s.deliverPiece n cr.segment u f.length p rest cls data
            else
              match u.pass with
              | some x => s.recopyFailed n u.entry x cr.segment
              | none =>
                if t.policy = .fill then s.fillPiece n cr.segment u f.length p rest
                else s.fileUnreadable n u.entry cr.segment
      | _, _ => (s, [])

end Sys2Proof.Machine
end

