-- ==== Sys2Proof/Machine/Settle.lean ====
section
/-! DEFINITION. The follow-on actions of a step, taken one after another until none is left, and what ends
every step: a stale reply is discarded, verifications start, the arbiters and the outgoing path choose. -/

namespace Sys2Proof.Machine

/-- The reply of a take request: the lane's state as it stands, then the fields of the request's rule (R20). -/
def State.answerTake (s : State) (n : LaneIx) (clamped : Bool) (st : Status) (body : List Byte) : State :=
  s.answerClamped clamped st (laneStateCode (s.laneState n) :: body)

/-- One follow-on action. -/
def doTask (s : State) : Task → Work
  | .workHead n => s.workHead n
  | .goOn n => s.goOn n
  | .tryRead n => s.tryRead n
  | .testFinish n e => s.testFinish n e
  | .freeSegment g => s.freeSegment g
  | .handPiece n => s.handPiece n
  | .pieceEnded n cls data => s.pieceEnded n cls data
  | .endWait n => s.endWait n
  | .recopyLeft n => s.recopyLeft n
  | .laneTests n => s.laneTests n
  | .takeReply n clamped st body => (s.answerTake n clamped st body, [])

/-- Of the follow-on actions of a list only the replies are taken. -/
def repliesOnly : List Task → State → State
  | [], s => s
  | .takeReply n clamped st body :: ts, s => repliesOnly ts (s.answerTake n clamped st body)
  | _ :: ts, s => repliesOnly ts s

/-- Take follow-on actions, each action's own before the rest, until none is left. The bound makes the
recursion end for every state; no state of the part comes near it, and at the bound the request in service
would still be answered (log 23). -/
def settle : Nat → List Task → State → State
  | _, [], s => s
  | 0, t :: ts, s => repliesOnly (t :: ts) s
  | fuel + 1, t :: ts, s =>
    let w := doTask s t
    settle fuel (w.2 ++ ts) w.1

/-- Settle the follow-on actions of an operation. -/
def settled (w : Work) : State := settle Config.settleFuel w.2 w.1

/-- What ends a step once its follow-on actions have been taken: verifications start (R146), each free channel
is granted (R117), the outgoing path makes its choice (R185). -/
def State.conclude (s : State) : State := (s.startVerifications.arbitrateAll).choosePath

end Sys2Proof.Machine
end

