-- ==== Sys2Proof/Machine/TakeRequests.lean ====
section
/-! DEFINITION. The take requests (section 1.4): what each does once it is served. Each answers the request in
service; follow-on actions come with it. -/

namespace Sys2Proof.Machine

/-- A take request that is refused: nothing changes but the reply, which carries the lane's state (R20). -/
def State.refuseTake (s : State) (n : LaneIx) (st : Status) (body : List Byte) : Work :=
  (s.answerTake n false st body, [])

/-- A take request whose lane number is above 7 (R20). -/
def State.refuseBare (s : State) (st : Status) : Work := (s.answer st [], [])

/-- The take context OPEN TAKE creates (R1, R21). -/
def Take.create (label : BitVec 16) (targets : TargetSet) (k : Nat) (verify : Bool) (policy : ReadPolicy)
    (mismatch : MismatchResponse) (retries : Nat) (alternate : Bool) (window : Nat) : Take :=
  { label := label, state := .opened, waitReason := none, headHold := .none, targets := targets, k := k
    verify := verify, policy := policy, mismatch := mismatch, retries := retries, alternate := alternate
    window := window, snapshot := none, entries := [], head := 0, listEnded := false, halting := false
    reading := .none, nextChunk := 0, chunkRead := none, recopyDigest := Digest.start, recopyList := []
    counters := Counters.zero, outcome := none, cleared := none }

/-- OPEN TAKE (R21). -/
def serveOpenTake (lane : Byte) (label : BitVec 16) (ts k v p m r al w : Byte) (s : State) : Work :=
  match laneOf lane with
  | none => s.refuseBare .badField
  | some n =>
    match s.take? n with
    | some _ => s.refuseTake n .wrongState []
    | none =>
      match targetSetOf ts, onOff v, policyOf p, mismatchOf m, onOff al with
      | some set, some verify, some policy, some mismatch, some alternate =>
        if set = 0 ∨ k = 0 ∨ k.toNat > setSize set then s.refuseTake n .badField []
        else
          let window := clampWindow w.toNat
          let retries := clampRetries r.toNat
          let clamped := window != w.toNat || retries != r.toNat
          (s.setLane n (some (Take.create label set k.toNat verify policy mismatch retries alternate window)),
            [.takeReply n clamped .ok [BitVec.ofNat 8 window, BitVec.ofNat 8 retries]])
      | _, _, _, _, _ => s.refuseTake n .badField []

/-- The entry record of an appended entry (R3, R4). -/
def Entry.ofArg : EntryArg → Entry
  | .file id len runs => .file
      { fileId := id, length := len.toNat
        runs := runs.map fun r => { start := r.start.toNat, len := r.sectors.toNat }
        progress := .pending, condition := .clean, chunksRead := 0, correctedCount := 0
        running := Digest.start, source := none, copies := Vector.replicate 4 CopyRecord.fresh
        damageCounted := false, goodFile := none }
  | .mark k => .mark k false
  | .pause => .pause false
  | .endOfList => .endOfList

def Entry.isEnd : Entry → Bool
  | .endOfList => true
  | .file _ => false
  | .mark _ _ => false
  | .pause _ => false

/-- A FILE entry's length, runs and their sum are as R3 and R22 want them. -/
def Entry.fieldsOk : Entry → Bool
  | .file f =>
      decide (f.length < Config.lengthLimit) && decide (f.runs.length ≤ 16)
        && f.runs.all (fun r => r.len != 0) && (f.runs.map Extent.len).sum == f.sectors
  | .mark _ _ => true
  | .pause _ => true
  | .endOfList => true

/-- A run of the entry ends above a card's sector count (R22, R23). -/
def Entry.beyond (sectors : Nat) : Entry → Bool
  | .file f => f.runs.any fun r => decide (r.start + r.len > sectors)
  | .mark _ _ => false
  | .pause _ => false
  | .endOfList => false

/-- The lane states in which APPEND ENTRIES is checked (R22). -/
def TakeState.appends : TakeState → Bool
  | .opened => true
  | .running => true
  | .starved => true
  | .waiting => true
  | .suspended => true
  | .interrupted => true
  | .stopping => false
  | .draining => false
  | .aborting => false
  | .closed => false

/-- The first failing check of a batch (R22): its status and the fields its reply carries. -/
def appendRefusal (t : Take) (free : Nat) (batch : List Entry) : Option (Status × List Byte) :=
  if batch.isEmpty ∨ batch.length > 16 then some (.badField, [])
  else if batch.dropLast.any Entry.isEnd then some (.badField, [])
  else if !batch.all Entry.fieldsOk then some (.badField, [])
  else
    let bad := match t.snapshot with
      | some i => batch.findIdx? (Entry.beyond i.sectors.toNat)
      | none => none
    match bad with
    | some i => some (.outOfRange, le 2 (t.entries.length + i))
    | none =>
      if t.entries.length + batch.length > Config.takeEntries then some (.takeFull, [])
      else if free < batch.length then some (.noEntries, [])
      else none

/-- APPEND ENTRIES (R22). -/
def serveAppendEntries (lane : Byte) (args : List EntryArg) (s : State) : Work :=
  match laneOf lane with
  | none => s.refuseBare .badField
  | some n =>
    match s.take? n with
    | none => s.refuseTake n .wrongState []
    | some t =>
      if !t.state.appends ∨ t.listEnded then s.refuseTake n .wrongState []
      else
        let batch := args.map Entry.ofArg
        match appendRefusal t s.freeEntries batch with
        | some (st, body) => s.refuseTake n st body
        | none =>
          let s1 := { s with freeEntries := s.freeEntries - batch.length }
          let s2 := s1.modifyTake n fun t =>
            { t with entries := t.entries ++ batch, listEnded := batch.any Entry.isEnd }
          let w : Work := match t.state with
            | .starved => s2.enterRunning n
            | .running => (s2, [.workHead n])
            | .interrupted => (s2, [.laneTests n])
            | _ => (s2, [])
          w.addTasks [.takeReply n false .ok (le 2 t.entries.length ++ [BitVec.ofNat 8 batch.length])]

/-- START TAKE (R23). -/
def serveStartTake (lane : Byte) (s : State) : Work :=
  match laneOf lane with
  | none => s.refuseBare .badField
  | some n =>
    match s.take? n with
    | none => s.refuseTake n .wrongState []
    | some t =>
      if t.state ≠ .opened then s.refuseTake n .wrongState []
      else
        let x := s.slot n
        match x.state, x.identity with
        | .empty, _ => s.refuseTake n .noCard []
        | .held, _ => s.refuseTake n (if x.present then .wrongState else .noCard) []
        | .ready, some i =>
          match t.entries.findIdx? (Entry.beyond i.sectors.toNat) with
          | some e => s.refuseTake n .outOfRange (le 2 e)
          | none =>
            let s1 := s.modifyTake n fun t => { t with snapshot := some i, head := 0 }
            (s1.enterRunning n).addTasks [.takeReply n false .ok (cardIdentityBytes i)]
        | _, _ => s.refuseTake n .wrongState []

/-- SUSPEND TAKE (R24): the lane leaves its wait, the waiting lanes and every short list. -/
def serveSuspendTake (lane : Byte) (s : State) : Work :=
  match laneOf lane with
  | none => s.refuseBare .badField
  | some n =>
    match s.laneState n with
    | some .running => (((s.leaveWaiting n).leaveAllShort n).enter n .suspended, [.takeReply n false .ok []])
    | some .starved => (((s.leaveWaiting n).leaveAllShort n).enter n .suspended, [.takeReply n false .ok []])
    | some .waiting => (((s.leaveWaiting n).leaveAllShort n).enter n .suspended, [.takeReply n false .ok []])
    | some .suspended => (s, [.takeReply n false .ok []])
    | _ => s.refuseTake n .wrongState []

/-- The cut file a matching RESUME TAKE restarts: the one with condition CUT that is not FINISHED (R103). -/
def Take.cutEntry (t : Take) : Option Nat :=
  (t.files.find? fun p => p.2.condition == .cut && p.2.progress == .draining).map Prod.fst

/-- The restart of a cut file (R104). -/
def State.restartFile (s : State) (n : LaneIx) (e : Nat) : State :=
  (s.modifyFile n e fun f =>
      { f with progress := .moving, condition := .clean, chunksRead := 0, correctedCount := 0
               running := Digest.start
               copies := f.copies.map fun c => if c.state = .writing then { c with chunksWritten := 0 } else c })
    |>.modifyTake n fun t => { t with reading := .file e, nextChunk := 0 }

/-- The restarted file's take index, or none (R103); it stands, as absent, in every OK reply of RESUME TAKE (log 18). -/
def restartField (e : Option Nat) : List Byte := optField 2 (e.map (le 2))

/-- RESUME TAKE in INTERRUPTED (R103). -/
def resumeInterrupted (n : LaneIx) (t : Take) (s : State) : Work :=
  let x := s.slot n
  match x.state, x.identity with
  | .empty, _ => s.refuseTake n .noCard []
  | .ready, some i =>
    if t.snapshot = some i then
      let cut := t.cutEntry
      let s1 := match cut with
        | some e => s.restartFile n e
        | none => s
      (s1.enterRunning n).addTasks [.takeReply n false .ok (restartField cut)]
    else
      s.refuseTake n .cardMismatch
        (cardIdentityBytes i ++ (match t.snapshot with
          | some j => cardIdentityBytes j
          | none => List.replicate 20 0))
  | _, _ => s.refuseTake n .wrongState []

/-- RESUME TAKE (R25, R103). R25 names no field for the reply in SUSPENDED, RUNNING, STARVED and WAITING; the model
gives R103's restarted-file field there too, as absent (log 18). -/
def serveResumeTake (lane : Byte) (s : State) : Work :=
  match laneOf lane with
  | none => s.refuseBare .badField
  | some n =>
    match s.take? n with
    | none => s.refuseTake n .wrongState []
    | some t =>
      match t.state with
      | .suspended => (s.enterRunning n).addTasks [.takeReply n false .ok (restartField none)]
      | .running => (s, [.takeReply n false .ok (restartField none)])
      | .starved => (s, [.takeReply n false .ok (restartField none)])
      | .waiting => (s, [.takeReply n false .ok (restartField none)])
      | .interrupted => resumeInterrupted n t s
      | _ => s.refuseTake n .wrongState []

/-- STOP TAKE (R26, R105). -/
def serveStopTake (lane : Byte) (s : State) : Work :=
  match laneOf lane with
  | none => s.refuseBare .badField
  | some n =>
    match s.laneState n with
    | some .running => (s.enterStopping n).addTasks [.takeReply n false .ok []]
    | some .starved => (s.enterStopping n).addTasks [.takeReply n false .ok []]
    | some .waiting => (s.enterStopping n).addTasks [.takeReply n false .ok []]
    | some .suspended => (s.enterStopping n).addTasks [.takeReply n false .ok []]
    | some .interrupted =>
      let w1 := s.giveUpCardWork n
      let w2 := w1.1.enterStopping n
      (w2.1, w1.2 ++ w2.2 ++ [.takeReply n false .ok []])
    | some .stopping => (s, [.takeReply n false .ok []])
    | some .draining => (s, [.takeReply n false .ok []])
    | _ => s.refuseTake n .wrongState []

/-- ABORT TAKE (R27). -/
def serveAbortTake (lane : Byte) (s : State) : Work :=
  match laneOf lane with
  | none => s.refuseBare .badField
  | some n =>
    match s.laneState n with
    | none => s.refuseTake n .wrongState []
    | some .closed => s.refuseTake n .wrongState []
    | some .opened => (s.closeTake n .aborted, [.takeReply n false .ok []])
    | some .aborting => (s, [.takeReply n false .ok []])
    | some _ => (s.enterAborting n).addTasks [.takeReply n false .ok []]

/-- The removals and the new K of ADJUST TAKE (R28). -/
def State.adjust (s : State) (n : LaneIx) (t : Take) (left : TargetSet) (k : Nat) (gone : List TargetIx) : Work :=
  let s1 := s.modifyTake n fun t => { t with targets := left, k := k }
  let w2 := forEach gone (fun x s => s.withdrawAt n x fun _ => true) s1
  let s3 := w2.1.stopLaneVerifications n gone
  let s4 := gone.foldl (fun s x =>
    let s := match t.allocatingFile with
      | some e => s.giveBack n e x
      | none => s
    (s.modifyTake n fun t => t.failTarget x .removed).leaveShort x n) s3
  let files : List (Nat × FileEntry) := match s4.take? n with
    | some t => t.files
    | none => []
  let finishing := files.filterMap fun p =>
    if p.2.progress = .draining then some (Task.testFinish n p.1) else none
  let wakes := match t.waitReason with
    | some .targets => true
    | some (.pool x) => gone.contains x
    | some .segments => false
    | none => false
  let w5 : Work := match t.state with
    | .waiting => (s4, if wakes then [.endWait n] else [])
    | .running => (s4, [.workHead n])
    | .starved => s4.enterRunning n
    | .interrupted => (s4, [.laneTests n])
    | _ => (s4, [])
  (w5.1, [.recopyLeft n] ++ w2.2 ++ finishing ++ w5.2)

/-- ADJUST TAKE (R28). -/
def serveAdjustTake (lane k remove : Byte) (s : State) : Work :=
  match laneOf lane with
  | none => s.refuseBare .badField
  | some n =>
    match s.take? n with
    | none => s.refuseTake n .wrongState []
    | some t =>
      if t.state = .aborting ∨ t.state = .closed then s.refuseTake n .wrongState []
      else
        match targetSetOf remove with
        | none => s.refuseTake n .badField []
        | some rm =>
          let k' := if k = 0 then t.k else k.toNat
          let left := t.targets &&& ~~~ rm
          if k.toNat > t.k then s.refuseTake n .badField []
          else if left = 0 ∨ setSize left < k' then s.refuseTake n .badField []
          else
            (s.adjust n t left k' (targetsOf (t.targets &&& rm))).addTasks
              [.takeReply n false .ok [left.setWidth 8, BitVec.ofNat 8 k']]

/-- The fields of TAKE STATUS in the order of R1 and R29; in IDLE every field but the lane state and the store's
free count is absent (log 18). R56 speaks of TAKE STATUS as showing digests, R1 and R29 give it none; the model follows
R29 and gives none (log 39). -/
def takeStatusBody (s : State) (n : LaneIx) : List Byte :=
  let t := s.take? n
  let byte (f : Take → Byte) : List Byte := optField 1 (t.map fun t => [f t])
  let num (width : Nat) (f : Take → Nat) : List Byte := optField width (t.map fun t => le width (f t))
  num 2 (fun t => t.label.toNat)
    ++ [laneStateCode (s.laneState n)]
    ++ optField 1 ((t.bind Take.waitReason).map fun r => [r.code])
    ++ optField 1 ((t.bind Take.waitReason).bind fun r => match r with
        | .pool x => some [BitVec.ofNat 8 x.val]
        | .segments => none
        | .targets => none)
    ++ byte (fun t => t.headHold.code)
    ++ byte (fun t => t.targets.setWidth 8)
    ++ num 1 Take.k
    ++ byte (fun t => yesNo t.verify)
    ++ byte (fun t => t.policy.code)
    ++ byte (fun t => t.mismatch.code)
    ++ num 1 Take.retries
    ++ byte (fun t => yesNo t.alternate)
    ++ num 1 Take.window
    ++ optField 20 ((t.bind Take.snapshot).map cardIdentityBytes)
    ++ num 2 (fun t => t.entries.length)
    ++ num 2 Take.head
    ++ byte (fun t => yesNo t.listEnded)
    ++ byte (fun t => yesNo t.halting)
    ++ byte (fun t => t.reading.code)
    ++ optField 2 (t.bind fun t => match t.reading with
        | .none => none
        | .file e => some (le 2 e)
        | .recopy e _ => some (le 2 e))
    ++ optField 1 (t.bind fun t => match t.reading with
        | .none => none
        | .file _ => none
        | .recopy _ x => some [BitVec.ofNat 8 x.val])
    ++ num 1 (fun _ => heldSegments s n)
    ++ num 1 (fun t => t.recopyList.length)
    ++ num 8 (fun t => t.counters.bytesRead)
    ++ num 4 (fun t => t.counters.chunksRead)
    ++ num 4 (fun t => t.counters.corrected)
    ++ num 4 (fun t => t.counters.filesFinished)
    ++ num 4 (fun t => t.counters.filesGood)
    ++ num 4 (fun t => t.counters.filesDamaged)
    ++ num 4 (fun t => t.counters.filesUnreadable)
    ++ num 4 (fun t => t.counters.filesCut)
    ++ optField 1 ((t.bind Take.outcome).map fun o => [o.code])
    ++ optField 1 ((t.bind Take.cleared).map fun c => [yesNo c])
    ++ le 2 s.freeEntries

/-- TAKE STATUS (R29). -/
def serveTakeStatus (lane : Byte) (s : State) : Work :=
  match laneOf lane with
  | none => s.refuseBare .badField
  | some n => (s.answer .ok (takeStatusBody s n), [])

/-- The allocations RELEASE TAKE reclaims: FAILED and MISMATCH copies, in take index order and ascending target
number (R141). -/
def Take.reclaimable (t : Take) : List (TargetIx × Allocation) :=
  t.files.flatMap fun p => allTargets.filterMap fun x =>
    let c := p.2.copy x
    if c.state = .failed ∨ c.state = .mismatch then c.allocation.map fun a => (x, a) else none

/-- One allocation is reclaimed: its runs go back to the pool when the drive is still the one (R141). -/
def State.reclaimOne (s : State) (x : TargetIx) (a : Allocation) : State :=
  if (s.target x).identity.isSome && a.generation == (s.target x).generation then
    s.modifyPool x (·.returnRuns a.runs)
  else s

/-- The units that reclaiming one allocation drops (R141). -/
def State.reclaimDrops (s : State) (x : TargetIx) (a : Allocation) : Nat :=
  if (s.target x).identity.isSome && a.generation == (s.target x).generation then
    (s.pool x).droppedBy a.runs
  else 0

/-- Reclaim in order, with the units dropped (R141). -/
def State.reclaim (s : State) (as : List (TargetIx × Allocation)) : State × Nat :=
  as.foldl (fun p a => (p.1.reclaimOne a.1 a.2, p.2 + p.1.reclaimDrops a.1 a.2)) (s, 0)

/-- RELEASE TAKE (R30). -/
def serveReleaseTake (lane reclaim : Byte) (s : State) : Work :=
  match laneOf lane with
  | none => s.refuseBare .badField
  | some n =>
    match s.take? n with
    | none => s.refuseTake n .wrongState []
    | some t =>
      if t.state ≠ .closed then s.refuseTake n .wrongState []
      else
        match onOff reclaim with
        | none => s.refuseTake n .badField []
        | some flag =>
          let r := if flag then s.reclaim t.reclaimable else (s, 0)
          let s1 := { r.1 with freeEntries := r.1.freeEntries + t.entries.length }
          (s1.setLane n none,
            [.takeReply n false .ok
              ([match t.outcome with | some o => o.code | none => 0,
                match t.cleared with | some c => yesNo c | none => 0]
                ++ le 2 t.entries.length ++ le 4 r.2)])

end Sys2Proof.Machine
end

