-- ==== Sys2Proof/Machine/TargetRequests.lean ====
section
/-! DEFINITION. The target requests (section 6.7). -/

namespace Sys2Proof.Machine

/-- The write order in progress at a target: its lane and the order (R124). -/
def Target.orderInProgress (x : Target) : Option (LaneIx × WriteOrder) :=
  match x.op with
  | .writePiece n _ => (x.fifos[n]).head?.map fun o => (n, o)
  | .none => none
  | .identify => none
  | .readback _ => none
  | .host _ => none

/-- The fields of TARGET STATUS in the order of R124 (log 18). -/
def targetStatusBody (s : State) (t : TargetIx) : List Byte :=
  let x := s.target t
  let order := x.orderInProgress
  [x.state.code]
    ++ optField 1 (x.faultReason.map fun r => [r.code])
    ++ optField 24 (x.identity.map driveIdentityBytes)
    ++ le 4 x.generation.toNat ++ le 2 x.unit ++ le 1 x.quota
    ++ optField 4 (x.capacityUnits.map (le 4))
    ++ [x.op.code]
    ++ optField 1 (order.map fun p => le 1 p.1.val)
    ++ optField 2 (order.map fun p => le 2 p.2.entry)
    ++ optField 4 (order.map fun p => le 4 p.2.chunk)
    ++ [holderCode x.holder] ++ le 1 x.grantCount
    ++ (x.fifos.toList.map fun q => BitVec.ofNat 8 q.length)
    ++ [yesNo (s.hasWork t .verifier), yesNo x.waitingHost.isSome]
    ++ le 4 x.writeRepeats ++ le 4 x.readbackRepeats
    ++ le 4 (unitsOf (s.pool t).runs) ++ le 1 (s.pool t).runs.length

/-- TARGET STATUS (R123, R124). -/
def serveTargetStatus (target : Byte) (s : State) : Work :=
  match targetOf target with
  | none => (s.answer .badField [], [])
  | some t => (s.answer .ok (targetStatusBody s t), [])

/-- The unit of a target may not change: its pool holds a run, or an unreleased take holds an allocation on it,
an empty one included (R125; log 33). -/
def State.unitFixed (s : State) (t : TargetIx) : Bool :=
  !(s.pool t).runs.isEmpty || !(s.allocationsOn t).isEmpty

/-- CONFIGURE TARGET (R123, R125). -/
def serveConfigureTarget (target : Byte) (unit : BitVec 16) (quota : Byte) (s : State) : Work :=
  match targetOf target with
  | none => (s.answer .badField [], [])
  | some t =>
    let u := clampUnit unit.toNat
    let q := clampQuota quota.toNat
    if u ≠ (s.target t).unit ∧ s.unitFixed t = true then (s.answer .wrongState [], [])
    else
      ((s.modifyTarget t fun x => { x with unit := u, quota := q }).answerClamped
        (u != unit.toNat || q != quota.toNat) .ok (le 2 u ++ le 1 q), [])

/-- The reply of TAKE TARGET OFFLINE and BRING TARGET ONLINE: the target state after the request. -/
def State.answerTarget (s : State) (t : TargetIx) : State := s.answer .ok [(s.target t).state.code]

/-- A FAULTED target leaves FAULTED for another state: no fault reason, TARGET FAULT falls (R108, R126, R127). -/
def State.leaveFaulted (s : State) (t : TargetIx) (st : TargetState) : State :=
  (s.modifyTarget t fun x => { x with state := st, faultReason := none }).fall (condTargetFault t)

/-- TAKE TARGET OFFLINE (R123, R126). -/
def serveTakeTargetOffline (target : Byte) (s : State) : Work :=
  match targetOf target with
  | none => (s.answer .badField [], [])
  | some t =>
    match (s.target t).state with
    | .online => (s.leaveOnline t .offline none .offline false).andThen fun s => (s.answerTarget t, [])
    | .faulted => ((s.leaveFaulted t .offline).answerTarget t, [])
    | .offline => (s.answerTarget t, [])
    | .absent => (s.answer .noTarget [], [])
    | .attaching => (s.answer .wrongState [], [])

/-- The target enters ATTACHING and begins its identify operation (R109, R110, R127). -/
def Target.attach (x : Target) : Target := { x with state := .attaching, op := .identify }

/-- BRING TARGET ONLINE (R123, R127). -/
def serveBringTargetOnline (target : Byte) (s : State) : Work :=
  match targetOf target with
  | none => (s.answer .badField [], [])
  | some t =>
    match (s.target t).state with
    | .offline => ((s.modifyTarget t Target.attach).answerTarget t, [])
    | .faulted => (((s.leaveFaulted t .attaching).modifyTarget t Target.attach).answerTarget t, [])
    | .online => (s.answerTarget t, [])
    | .attaching => (s.answerTarget t, [])
    | .absent => (s.answer .noTarget [], [])

/-- The checks READ TARGET and WRITE TARGET share: sector count, target state, range (R128, R129 items 1 to 4). -/
def Target.hostRefusal (x : Target) (start count : Nat) : Option Status :=
  if count = 0 ∨ count > 8 then some .badField
  else
    match x.state with
    | .absent => some .noTarget
    | .attaching => some .wrongState
    | .faulted => some .wrongState
    | .offline => some .wrongState
    | .online =>
      match x.identity with
      | some i => if start + count > i.capacity.toNat then some .outOfRange else none
      | none => some .outOfRange

/-- A host operation that has passed its checks waits for the channel; a free channel is granted at the end of
the step (R117, R130; log 8). -/
def State.offerHost (s : State) (t : TargetIx) (h : HostOp) : State :=
  s.modifyTarget t fun x => { x with waitingHost := some h }

/-- READ TARGET (R123, R128, R130). -/
def serveReadTarget (target : Byte) (start : BitVec 32) (count : Byte) (s : State) : Work :=
  match targetOf target with
  | none => (s.answer .badField [], [])
  | some t =>
    match (s.target t).hostRefusal start.toNat count.toNat with
    | some st => (s.answer st [], [])
    | none => (s.offerHost t (.read start.toNat count.toNat), [])

/-- A range of drive sectors meets a run of units (R129). -/
def rangeMeets (start count unit : Nat) (r : Extent) : Bool :=
  ({ start := start, len := count } : Extent).meets (scaleRun unit r)

/-- A range of drive sectors meets the allocation of a copy that is not terminal, or one held by a file that is
ALLOCATING (R129 item 5). -/
def State.regionBusy (s : State) (t : TargetIx) (start count : Nat) : Bool :=
  allLanes.any fun n =>
    match s.take? n with
    | none => false
    | some tk => tk.files.any fun p =>
      (p.2.progress == .allocating || !(p.2.copy t).state.terminal tk.verify)
        && match (p.2.copy t).allocation with
          | none => false
          | some a => a.runs.any (rangeMeets start count (s.target t).unit)

/-- WRITE TARGET (R123, R129, R130). -/
def serveWriteTarget (target : Byte) (start : BitVec 32) (count : Byte) (data : List Byte) (s : State) : Work :=
  match targetOf target with
  | none => (s.answer .badField [], [])
  | some t =>
    match (s.target t).hostRefusal start.toNat count.toNat with
    | some st => (s.answer st [], [])
    | none =>
      if s.regionBusy t start.toNat count.toNat then (s.answer .regionBusy [], [])
      else if (s.pool t).runs.any (rangeMeets start.toNat count.toNat (s.target t).unit) then
        (s.answer .poolRegion [], [])
      else (s.offerHost t (.write start.toNat count.toNat data), [])

end Sys2Proof.Machine
end

