-- ==== Sys2Proof/Machine/Serve.lean ====
section
/-! DEFINITION. The message link unit's handling of request frames (section 11.2): entering service, the
waiting queue, the OVERRUN reply, transfers held at the USB level, and the end of every step. -/

namespace Sys2Proof.Machine

/-- A request that has passed the checks of R180 and R191 is carried out by the block that owns it (R183). -/
def serve : Request → State → Work
  | .identify => serveIdentify
  | .resetPart => serveResetPart
  | .readAttention => serveReadAttention
  | .clearAttention c => serveClearAttention c
  | .setAttentionEnables n nf p pf => serveSetAttentionEnables n nf p pf
  | .slotStatus x => serveSlotStatus x
  | .peekCard x a c r al => servePeekCard x a c r al
  | .holdSlot x => serveHoldSlot x
  | .freeSlot x => serveFreeSlot x
  | .targetStatus x => serveTargetStatus x
  | .configureTarget x u q => serveConfigureTarget x u q
  | .takeTargetOffline x => serveTakeTargetOffline x
  | .bringTargetOnline x => serveBringTargetOnline x
  | .readTarget x a c => serveReadTarget x a c
  | .writeTarget x a c d => serveWriteTarget x a c d
  | .grantSpace x rs => serveGrantSpace x rs
  | .clearPool x => serveClearPool x
  | .readPool x => serveReadPool x
  | .openTake x l ts k v p m r al w => serveOpenTake x l ts k v p m r al w
  | .appendEntries x es => serveAppendEntries x es
  | .startTake x => serveStartTake x
  | .suspendTake x => serveSuspendTake x
  | .resumeTake x => serveResumeTake x
  | .stopTake x => serveStopTake x
  | .abortTake x => serveAbortTake x
  | .adjustTake x k rm => serveAdjustTake x k rm
  | .takeStatus x => serveTakeStatus x
  | .releaseTake x rc => serveReleaseTake x rc
  | .readManifest x f c => serveReadManifest x f c
  | .readAllocation x i t => serveReadAllocation x i t

/-- The kinds of the take requests, whose replies carry the lane's state (R20; 11.6). -/
def isTakeKind (kind : Byte) : Bool := decide (0x50 ≤ kind.toNat ∧ kind.toNat ≤ 0x59)

/-- The kinds whose replies carry the lane's state: the take requests other than TAKE STATUS (R20). -/
def carriesLaneState (kind : Byte) : Bool := isTakeKind kind && kind != 0x58

/-- The body of a BAD_FRAME or BAD_FIELD reply under R191: a take request names its lane in its body's first byte,
and its reply carries the lane's state (R20, R184); every other is empty. It is empty too when there is no such
byte or it names no lane (log 19). -/
def refusalBody (s : State) (kind : Byte) (body : List Byte) : List Byte :=
  if carriesLaneState kind then
    match (body.head?).bind laneOf with
    | some n => [laneStateCode (s.laneState n)]
    | none => []
  else []

/-- A request is in service with its kind and tag (R181). -/
def State.beginService (s : State) (kind : Byte) (tag : BitVec 16) : State :=
  { s with link := { s.link with inService := some { kind := kind, tag := tag, reply := none } } }

/-- An arrived frame enters service: it is checked under R180 and R191, and refused or carried out (R183). The bytes of
a frame that fails the first four checks of R180 are no body, and its reply is empty (log 19). -/
def State.enterService (s : State) (f : Frame) : Work :=
  let s1 := s.beginService f.kind f.tag
  match parseRequest f with
  | .error st => (s1.answer st (if f.headerOk then refusalBody s1 f.kind f.body else []), [])
  | .ok r => serve r s1

/-- A request whose fields are known enters service: as `enterService` of its frame. -/
def State.enterRequest (s : State) (tag : BitVec 16) (r : Request) : Work :=
  let s1 := s.beginService (requestKind r) tag
  match shapeRefusal r with
  | some st => (s1.answer st (refusalBody s1 (requestKind r) (requestBody r)), [])
  | none => serve r s1

/-- No request is in service and none waits (R182). -/
def Link.idle (l : Link) : Bool := l.inService.isNone && l.queue.isEmpty

/-- The part does not read the OUT pipe: before the host configures it (R189), and while an OVERRUN reply waits
to be sent (R182). -/
def Link.pipeHeld (l : Link) : Bool := !l.configured || l.overrun.isSome

/-- A frame that does not enter service at once joins the waiting queue, or is discarded with an OVERRUN reply
and LINK OVERRUN when four frames wait (R182). -/
def State.queueFrame (s : State) (f : Frame) : State :=
  if s.link.queue.length < Config.waitingFrames then
    { s with link := { s.link with queue := s.link.queue ++ [f] } }
  else
    ({ s with link := { s.link with overrun := some (overrunReply f) } }).latch condLinkOverrun

/-- An arrived frame is taken (R182). -/
def State.takeFrame (s : State) (f : Frame) : Work :=
  if s.link.idle then s.enterService f else (s.queueFrame f, [])

/-- The frame at the head of the waiting queue, if any, becomes the request in service (R183). -/
def State.serveNext (s : State) : Work :=
  match s.link.inService, s.link.queue with
  | none, f :: rest => ({ s with link := { s.link with queue := rest } }).enterService f
  | _, _ => (s, [])

/-- The request in service becomes none, and stale service no (R183, R187). -/
def State.endService (s : State) : State :=
  { s with link := { s.link with inService := none, stale := false } }

/-- The reply of a stale request is discarded when it is composed, and the next frame enters service (R187). -/
def State.discardStale (s : State) : Work :=
  if s.link.stale && s.link.composed.isSome then s.endService.serveNext else (s, [])

/-- The end of a step: its follow-on actions are taken, a stale reply is discarded, and the blocks make their
choices. -/
def finish (w : Work) : State := (settled (settled w).discardStale).conclude

/-- Transfers that wait at the USB level are read until the pipe is held again (R182; log 7). -/
def drainPipe : List Frame → State → State
  | [], s => { s with link := { s.link with outPipe := [] } }
  | f :: fs, s =>
    if s.link.pipeHeld then { s with link := { s.link with outPipe := f :: fs } }
    else drainPipe fs (finish (s.takeFrame f))

/-- The end of a step after which the part may read the OUT pipe again. -/
def finishAndRead (w : Work) : State := drainPipe (finish w).link.outPipe (finish w)

/-- A transfer waits at the USB level (R179, R182; log 7). -/
def State.holdTransfer (s : State) (f : Frame) : State :=
  { s with link := { s.link with outPipe := s.link.outPipe ++ [f] } }

/-- The host sends a request with a tag: the arrival of its frame (log 6). A frame that enters service at once
is served from the fields the command carries. -/
def submit (tag : BitVec 16) (r : Request) (s : State) : State :=
  if s.link.pipeHeld then s.holdTransfer (requestFrame tag r)
  else if s.link.idle then finish (s.enterRequest tag r)
  else finish (s.queueFrame (requestFrame tag r), [])

end Sys2Proof.Machine
end

