-- ==== Sys2Proof/Machine/CardEvents.lean ====
section
/-! DEFINITION. The card events: detection, settling, identification and attempts (chapter 4), and what a
removal does to the lane (section 5.3). An event that cannot arise where the slot stands changes nothing (log 2). -/

namespace Sys2Proof.Machine

/-! ### Insertion and identification -/

/-- A card is detected (R68, R86). -/
def Slot.insert (x : Slot) : Slot :=
  let y := { x with detect := true }
  match x.state with
  | .empty => y.settle
  | .held => { y with present := true }
  | .settling => y
  | .identifying => y
  | .ready => y
  | .faulted => y

/-- CARD_INSERTION (R68). -/
def execCardInsertion (n : LaneIx) (s : State) : Host.Outcome State Fault Refusal :=
  if (s.slot n).detect then .next s else .next (finish (s.modifySlot n Slot.insert, []))

/-- The settle timer has run out: the first identify attempt begins (R69, R70). -/
def Slot.startIdentify (x : Slot) : Slot :=
  { x with state := .identifying, settleRunning := false, identifyAttempt := 1, op := .identify }

/-- SETTLE_TIMER_EXPIRY (R69). -/
def execSettleTimerExpiry (n : LaneIx) (s : State) : Host.Outcome State Fault Refusal :=
  if (s.slot n).state = .settling ∧ (s.slot n).settleRunning = true then
    .next (finish (s.modifySlot n Slot.startIdentify, []))
  else .next s

/-- The identity is recorded and the slot enters READY (R70, R71). -/
def State.cardIdentified (s : State) (n : LaneIx) (i : CardIdentity) : State :=
  (s.modifySlot n fun x => { x with state := .ready, identity := some i, op := .none }).latch (condSlotReady n)

/-- The end an answer gives an identify attempt (R70). -/
def State.identifyAnswered (s : State) (n : LaneIx) : CardAnswer → State
  | .identity serial sectors =>
    if sectors = 0 then s.identifyFailed n else s.cardIdentified n { serial := serial, sectors := sectors }
  | .error => s.identifyFailed n

/-- IDENTIFY_ATTEMPT_ANSWER (R70). A late answer is ignored (log 3). -/
def execIdentifyAttemptAnswer (n : LaneIx) (late : Bool) (answer : CardAnswer) (s : State) :
    Host.Outcome State Fault Refusal :=
  if late = false ∧ (s.slot n).state = .identifying ∧ (s.slot n).op = .identify then
    .next (finish (s.identifyAnswered n answer, []))
  else .next s

/-! ### Attempts -/

/-- CARD_ATTEMPT_TIMEOUT (R70, R75): the attempt in flight has run into its 500 ms timer. -/
def execCardAttemptTimeout (n : LaneIx) (s : State) : Host.Outcome State Fault Refusal :=
  match (s.slot n).op with
  | .none => .next s
  | .identify => .next (finish (s.identifyFailed n, []))
  | .piece _ _ => .next (finish (s.attemptEnded n .noResponse []))
  | .peek _ _ => .next (finish (s.attemptEnded n .noResponse []))

/-- The result class of a card's completion (R76). -/
def attemptClass : CardClass → ResultClass
  | .ok => .ok
  | .corrected => .corrected
  | .uncorrectable => .uncorrectable
  | .badBlock => .badBlock
  | .outOfRange => .outOfRange

/-- CARD_ATTEMPT_COMPLETE (R75, R76). A late completion is ignored (log 3). -/
def execCardAttemptComplete (n : LaneIx) (late : Bool) (cls : CardClass) (data : List Byte) (s : State) :
    Host.Outcome State Fault Refusal :=
  if late then .next s
  else
    match (s.slot n).op with
    | .none => .next s
    | .identify => .next s
    | .piece _ _ => .next (finish (s.attemptEnded n (attemptClass cls) data))
    | .peek _ _ => .next (finish (s.attemptEnded n (attemptClass cls) data))

/-! ### Removal -/

/-- A lane piece is in flight or waiting at the port (R72 items 3 and 4). -/
def Slot.hasPiece (x : Slot) : Bool :=
  x.waitingPiece.isSome || match x.op with
    | .piece _ _ => true
    | .peek _ _ => false
    | .identify => false
    | .none => false

/-- The port's fields after a removal outside HELD (R72 items 1, 2, 5). The health counters stay. -/
def Slot.remove (x : Slot) : Slot :=
  { x with state := .empty, present := false, detect := false, settleRunning := false, identity := none,
           identifyAttempt := 0, op := .none, waitingPeek := none, waitingPiece := none }

/-- The peek in flight or waiting ends ABORTED and is answered (R72 items 3 and 4, R84). -/
def State.abortPeeks (s : State) (x : Slot) : State :=
  let s1 := match x.op with
    | .peek p k => s.answerPeek p .aborted k []
    | .piece _ _ => s
    | .identify => s
    | .none => s
  match x.waitingPeek with
  | some p => s1.answerPeek p .aborted 0 []
  | none => s1

/-- The file a lane reads is cut by the removal (R96). -/
def State.cutByRemoval (s : State) (n : LaneIx) (e : Nat) : Work :=
  let w := (s.cutFile n e).withdraw n fun o => o.entry == e
  ((w.1.leaveWaiting n).finishIf n e, w.2)

/-- The copy of a cut recopy waits again (R97). -/
def CopyRecord.recopyCut (c : CopyRecord) : CopyRecord :=
  { c with state := .recopyWait, chunksWritten := 0, recopied := false }

/-- The recopy a lane reads ends unfinished: its pair returns to the head of the list (R97). A copy that has
already left WRITING ends its recopy as R51 gives. -/
def State.recopyCutByRemoval (s : State) (n : LaneIx) (e : Nat) (x : TargetIx) : Work :=
  let w := s.withdrawAt n x fun o => o.entry == e
  let s1 := (w.1.endReading n).leaveWaiting n
  let s2 := if (s1.copy? n e x).map CopyRecord.state = some .writing then
      (s1.modifyCopy n e x CopyRecord.recopyCut).modifyTake n fun t =>
        { t with recopyList := (e, x) :: t.recopyList }
    else s1
  (s2.modifyTake n fun t => { t with recopyDigest := Digest.start }, w.2)

/-- What the removal does to the lane's reading (R96, R97). -/
def State.cutReading (s : State) (n : LaneIx) (r : Reading) : Work :=
  match r with
  | .none => (s, [])
  | .file e => s.cutByRemoval n e
  | .recopy e x => s.recopyCutByRemoval n e x

/-- The lane decides its state after the removal (R99), and goes on in it (R95). A WAITING lane whose waiting
ended with its work goes on in RUNNING (log 25). -/
def State.afterRemoval (s : State) (n : LaneIx) (t : Take) : Work :=
  if t.needsCard then (s.interrupt n, [])
  else
    match t.state with
    | .waiting => s.enterRunning n
    | _ => (s, [.goOn n])

/-- A STOPPING lane gives up its card work and goes on (R100). -/
def State.stoppingRemoval (s : State) (n : LaneIx) : Work := (s.giveUpCardWork n).addTasks [.goOn n]

/-- The removal report reaches a lane whose take has its card work to do (R95 to R100). -/
def State.laneRemoval (s : State) (n : LaneIx) (t : Take) : Work :=
  let w1 := s.cutReading n t.reading
  let s2 := w1.1.dropAllocating n
  let w3 : Work := match s2.take? n with
    | none => (s2, [])
    | some (t2 : Take) => if t2.state = .stopping then s2.stoppingRemoval n else s2.afterRemoval n t2
  (w3.1, w1.2 ++ w3.2)

/-- The removal report reaches the lane (R95). -/
def State.reportRemoval (s : State) (n : LaneIx) : Work :=
  match s.take? n with
  | none => (s, [])
  | some t =>
    match t.state with
    | .opened => (s, [])
    | .closed => (s, [])
    | .interrupted => (s, [])
    | .aborting => (s, [])
    | .running => s.laneRemoval n t
    | .starved => s.laneRemoval n t
    | .waiting => s.laneRemoval n t
    | .suspended => s.laneRemoval n t
    | .stopping => s.laneRemoval n t
    | .draining => s.laneRemoval n t

/-- A removal outside HELD, in the order of R72; the aborted piece reaches the lane before the report (R95). -/
def State.cardRemoved (s : State) (n : LaneIx) : Work :=
  let x := s.slot n
  let s1 := ((s.modifySlot n Slot.remove).abortPeeks x).latch (condSlotRemoved n)
  let w2 := if x.hasPiece then s1.pieceEnded n .aborted [] else (s1, [])
  let w3 := w2.1.reportRemoval n
  (w3.1, w2.2 ++ w3.2)

/-- CARD_REMOVAL (R68, R72, R86). -/
def execCardRemoval (n : LaneIx) (s : State) : Host.Outcome State Fault Refusal :=
  if (s.slot n).detect then
    match (s.slot n).state with
    | .empty => .next (finish (s.modifySlot n fun x => { x with detect := false }, []))
    | .held => .next (finish (s.modifySlot n fun x => { x with detect := false, present := false }, []))
    | .settling => .next (finish (s.cardRemoved n))
    | .identifying => .next (finish (s.cardRemoved n))
    | .ready => .next (finish (s.cardRemoved n))
    | .faulted => .next (finish (s.cardRemoved n))
  else .next s

end Sys2Proof.Machine
end

