-- ==== Sys2Proof/Machine/LinkEvents.lean ====
section
/-! DEFINITION. The events of the message link (section 11.4) and the resets of the part (R188, R189). -/

namespace Sys2Proof.Machine

/-- A target port takes its reset values and samples its drive link: a link that is up is a link-up event (R107). -/
def Target.resetKeeping (x : Target) : Target :=
  let y := { Target.reset with link := x.link }
  if x.link then y.attach else y

/-- Every block at its reset values; the ports sample their detection inputs in the same step (R188, R189;
log 26). Kept: the pins, the queue of waiting commands, and the model's count of free values. -/
def State.resetBlocks (s : State) : State :=
  { State.reset with
    slots := s.slots.map Slot.resetKeeping
    targets := s.targets.map Target.resetKeeping
    freeReads := s.freeReads
    pending := s.pending }

/-- RESET PART once its reply has been sent: link configured is kept, and transfers that wait at the USB level
go on waiting (R188). -/
def State.resetPart (s : State) : State :=
  { s.resetBlocks with
    link := { Link.reset with configured := s.link.configured, outPipe := s.link.outPipe } }

/-- POWER_ON (R189). -/
def execPowerOn (s : State) : Host.Outcome State Fault Refusal := .next s.resetBlocks

/-- What the frame that is being sent leaves behind when a link reset cuts it off (R187 item 2). -/
def State.cutOff (s : State) : State :=
  match s.link.outgoing with
  | none => s
  | some (.reply, _) => { s with link := { s.link with outgoing := none, inService := none } }
  | some (.overrun, _) => { s with link := { s.link with outgoing := none, overrun := none } }
  | some (.notice g, _) =>
    { s with
      attention := { s.attention with gained := s.attention.gained ||| g }
      link := { s.link with outgoing := none, pendingNotice := true } }

/-- Items 3 to 6 of R187. Transfers at the USB level are discarded with the bus (log 7). -/
def Link.unconfigure (l : Link) : Link :=
  { l with queue := [], overrun := none, outPipe := [], configured := false
           stale := l.inService.isSome }

/-- LINK_RESET (R187). A reply already composed is discarded at once (log 27). -/
def execLinkReset (s : State) : Host.Outcome State Fault Refusal :=
  let s1 := s.cutOff
  .next (finish ({ s1 with link := s1.link.unconfigure }, []))

/-- LINK_CONFIGURED (R187, R189): the path makes its choice and the part reads the OUT pipe. -/
def execLinkConfigured (s : State) : Host.Outcome State Fault Refusal :=
  if s.link.configured then .next s
  else .next (finishAndRead ({ s with link := { s.link with configured := true } }, []))

/-- FRAME_ARRIVAL (R179, R180, R182). -/
def execFrameArrival (transfer : List Byte) (s : State) : Host.Outcome State Fault Refusal :=
  let f := frameOf transfer
  if s.link.pipeHeld then .next (s.holdTransfer f) else .next (finish (s.takeFrame f))

/-- The reply of RESET PART, answered OK (R188). -/
def OutFrame.isReset (r : OutFrame) : Bool := r.kind == 0x02 && r.status == .ok

/-- What follows the end of a frame's sending, before the path's next choice (R182, R183, R188). -/
def State.frameSent (s : State) (k : Sending) (r : OutFrame) : Work :=
  let s1 := { s with link := { s.link with outgoing := none } }
  match k with
  | .overrun => ({ s1 with link := { s1.link with overrun := none } }, [])
  | .notice _ => (s1, [])
  | .reply => if r.isReset then (s1.resetPart, []) else s1.endService.serveNext

/-- FRAME_SENT (R183, R185, R188). -/
def execFrameSent (s : State) : Host.Outcome State Fault Refusal :=
  match s.link.outgoing with
  | none => .next s
  | some (k, r) => .next (finishAndRead (s.frameSent k r))

end Sys2Proof.Machine
end

