-- ==== Sys2Proof/Machine/DriveEvents.lean ====
section
/-! DEFINITION. The drive events: link, attach, device operations (chapter 6), readback (chapter 8). An event
that cannot arise where the target stands changes nothing (log 2). -/

namespace Sys2Proof.Machine

/-! ### Link and attach (R109, R110) -/

/-- The drive link comes up (R109). -/
def Target.linkUp (x : Target) : Target :=
  let y := { x with link := true }
  match x.state with
  | .absent => y.attach
  | .attaching => y
  | .online => y
  | .faulted => y
  | .offline => y

/-- DRIVE_LINK_UP (R109). -/
def execDriveLinkUp (t : TargetIx) (s : State) : Host.Outcome State Fault Refusal :=
  if (s.target t).link then .next s else .next (finish (s.modifyTarget t Target.linkUp, []))

/-- The fields of a target that enters ABSENT: no identity, no fault reason, no operation (R109). Unit, quota,
generation and repeat counters stay (R107). -/
def Target.detach (x : Target) : Target :=
  { x with state := .absent, faultReason := none, identity := none, op := .none }

/-- Entry to ABSENT: the pool is emptied (R109, R131). -/
def State.enterAbsent (s : State) (t : TargetIx) : State :=
  (s.modifyTarget t Target.detach).modifyPool t Pool.empty

/-- What link loss does, by the target's state (R109, R112). -/
def State.linkLost (s : State) (t : TargetIx) : Work :=
  match (s.target t).state with
  | .absent => (s, [])
  | .attaching => (s.enterAbsent t, [])
  | .online => (s.leaveOnline t .absent none .absent false).andThen fun s => (s.enterAbsent t, [])
  | .faulted => ((s.fall (condTargetFault t)).enterAbsent t, [])
  | .offline => (s.enterAbsent t, [])

/-- DRIVE_LINK_LOSS (R109). -/
def execDriveLinkLoss (t : TargetIx) (s : State) : Host.Outcome State Fault Refusal :=
  if (s.target t).link then
    .next (finish ((s.modifyTarget t fun x => { x with link := false }).linkLost t))
  else .next s

/-- A failed attach brings the target to FAULTED (R110, R114). -/
def State.attachFailed (s : State) (t : TargetIx) (r : FaultReason) : State :=
  (s.modifyTarget t fun x => { x with state := .faulted, faultReason := some r, op := .none }).rise
    (condTargetFault t)

/-- The capacity taken from a drive's answer (R110). -/
def takenCapacity (c : BitVec 64) : BitVec 32 := BitVec.ofNat 32 (min c.toNat (2 ^ 32 - 1))

/-- A new identity replaces the one held, if they differ: the generation rises and the pool is emptied (R110). -/
def State.setIdentity (s : State) (t : TargetIx) (i : DriveIdentity) : State :=
  if (s.target t).identity = some i then s
  else
    (s.modifyTarget t fun x => { x with identity := some i, generation := x.generation + 1 }).modifyPool t Pool.empty

/-- A lane waits for a target of its take's set to become ONLINE (R12, R13). -/
def State.waitsForTarget (s : State) (t : TargetIx) (n : LaneIx) : Bool :=
  match s.take? n with
  | none => false
  | some tk => tk.state == .waiting && tk.waitReason == some .targets && tk.targets.getLsbD t.val

/-- The target enters ONLINE from ATTACHING (R110). -/
def State.attached (s : State) (t : TargetIx) (i : DriveIdentity) : Work :=
  let s1 := (s.setIdentity t i).modifyTarget t fun x =>
    { x with state := .online, op := .none, holder := none, grantCount := 0 }
  let s2 := s1.latch (condTargetAttached t)
  (s2, (allLanes.filter (s2.waitsForTarget t)).map Task.endWait)

/-- The end an answer gives the identify operation (R110). -/
def State.driveAnswered (s : State) (t : TargetIx) : DriveAnswer → Work
  | .identity serial capacity =>
    if capacity = 0 then (s.attachFailed t .identify, [])
    else s.attached t { serial := serial, capacity := takenCapacity capacity }
  | .error => (s.attachFailed t .identify, [])

/-- DRIVE_IDENTIFY_ANSWER (R110). A late answer is ignored (log 3). -/
def execDriveIdentifyAnswer (t : TargetIx) (late : Bool) (answer : DriveAnswer) (s : State) :
    Host.Outcome State Fault Refusal :=
  if late = false ∧ (s.target t).state = .attaching ∧ (s.target t).op = .identify then
    .next (finish (s.driveAnswered t answer))
  else .next s

/-! ### Device operations (R115) -/

/-- A device fault: the target leaves ONLINE for FAULTED (R112, R114, R115). -/
def State.deviceFault (s : State) (t : TargetIx) (r : FaultReason) : Work :=
  s.leaveOnline t .faulted (some r) .fault (r == .timeout)

/-- DEVICE_OP_TIMEOUT (R110, R115). -/
def execDeviceOpTimeout (t : TargetIx) (s : State) : Host.Outcome State Fault Refusal :=
  match (s.target t).state, (s.target t).op with
  | .attaching, .identify => .next (finish (s.attachFailed t .timeout, []))
  | .online, .writePiece _ _ => .next (finish (s.deviceFault t .timeout))
  | .online, .readback _ => .next (finish (s.deviceFault t .timeout))
  | .online, .host _ => .next (finish (s.deviceFault t .timeout))
  | _, _ => .next s

/-! ### Write pieces (R119 to R121, R47, R48) -/

/-- The order in progress leaves the target and lowers its segment's count; the channel is free (R47, R119). -/
def State.orderLeaves (s : State) (t : TargetIx) (n : LaneIx) (o : WriteOrder) : Work :=
  (s.modifyTarget t fun x =>
      { x with op := .none, fifos := x.fifos.set n.val ((x.fifos[n]).drop 1) n.isLt }).countDown o.segment

/-- The copy becomes WRITTEN: terminal with verify off, else a verify order is placed (R48, R145). -/
def State.copyWritten (s : State) (n : LaneIx) (e : Nat) (x : TargetIx) (verify : Bool) : Work :=
  let s1 := s.modifyCopy n e x fun c => { c with state := .written }
  if verify then (s1.placeVerifyOrder n e x, []) else (s1, [.testFinish n e])

/-- A completed order applies to its copy record if that is WRITING (R48). -/
def State.orderApplies (s : State) (n : LaneIx) (e : Nat) (x : TargetIx) : Work :=
  match s.take? n, s.file? n e with
  | some t, some f =>
    if (f.copy x).state = .writing then
      let s1 := s.modifyCopy n e x fun c => { c with chunksWritten := c.chunksWritten + 1 }
      if (f.copy x).chunksWritten + 1 = f.chunksTotal then s1.copyWritten n e x t.verify else (s1, [])
    else (s, [])
  | _, _ => (s, [])

/-- The order in progress has completed without error (R119). -/
def State.orderCompletes (s : State) (t : TargetIx) (n : LaneIx) (o : WriteOrder) : Work :=
  (s.orderLeaves t n o).andThen fun s => s.orderApplies n o.entry t

/-- The piece is repeated once (R120); the count of repeats stays at its largest value (log 35). -/
def State.repeatPiece (s : State) (t : TargetIx) (n : LaneIx) (o : WriteOrder) : State :=
  s.modifyTarget t fun x =>
    { x with writeRepeats := satInc x.writeRepeats
             fifos := x.fifos.set n.val ({ o with errors := 1 } :: (x.fifos[n]).drop 1) n.isLt }

/-- A write piece of an order has ended (R119 to R121). -/
def State.pieceWritten (s : State) (t : TargetIx) (n : LaneIx) (i : Nat) (o : WriteOrder) (error : Bool) : Work :=
  if o.withdrawn then (s.orderLeaves t n o).addTasks [.laneTests n]
  else if error then
    if o.errors = 0 then (s.repeatPiece t n o, []) else s.deviceFault t .write
  else if i + 1 < o.pieces.length then
    (s.modifyTarget t fun x => { x with op := .writePiece n (i + 1) }, [])
  else s.orderCompletes t n o

/-- WRITE_PIECE_COMPLETE (R119). A late completion is ignored (log 3). -/
def execWritePieceComplete (t : TargetIx) (late error : Bool) (s : State) : Host.Outcome State Fault Refusal :=
  if late then .next s
  else
    match (s.target t).op with
    | .writePiece n i =>
      match ((s.target t).fifos[n]).head? with
      | some o => .next (finish (s.pieceWritten t n i o error))
      | none => .next s
    | .none => .next s
    | .identify => .next s
    | .readback _ => .next s
    | .host _ => .next s

/-! ### Readback reads (R122, R148 to R151, R157, R158) -/

/-- The device pieces of the chunk a verification reads (R147). -/
def verifyPieces (f : FileEntry) (x : TargetIx) (unit chunk : Nat) : List Piece :=
  match (f.copy x).allocation with
  | some a => f.drivePieces a unit chunk
  | none => []

/-- The digest of a verification after a read of a device piece (R63, R148 item 1). -/
def foldRead (d : Digest) (length : Nat) (p : Option Piece) (data : List Byte) : Digest :=
  match p with
  | some p => d.fold ((fitSectors p.count data).take (fileBytesOf length p.sector p.count))
  | none => d

/-- The read cursor after a read, as chunk and piece; none after the copy's last read (R148 item 2). -/
def nextCursor (f : FileEntry) (v : Verification) (pieces : List Piece) : Option (Nat × Nat) :=
  if v.piece + 1 < pieces.length then some (v.chunk, v.piece + 1)
  else if v.chunk + 1 < f.chunksTotal then some (v.chunk + 1, 0)
  else none

/-- The copy state a differing readback gives (R151). -/
def mismatchState (t : Take) (f : FileEntry) (c : CopyRecord) : CopyState :=
  if t.mismatch = .recopy ∧ c.recopied = false ∧ f.condition ≠ .damaged then .recopyWait else .mismatch

/-- The result of a complete readback (R150, R151). -/
def State.verificationResult (s : State) (n : LaneIx) (e : Nat) (x : TargetIx) (t : Take) (f : FileEntry)
    (d : Digest) : Work :=
  let s1 := s.modifyCopy n e x fun c => { c with readback := some d }
  let equal := match f.source with
    | some src => d.same src
    | none => false
  if equal then
    (s1.modifyCopy n e x fun c => { c with state := .verified }, [.testFinish n e])
  else
    let st := mismatchState t f (f.copy x)
    let s2 := s1.modifyCopy n e x fun c => { c with state := st }
    if st = .recopyWait then s2.joinRecopyList n e x else (s2, [.testFinish n e])

/-- A readback read has delivered its sectors to a verification that is not stopped (R148, R158). -/
def State.readFolded (s : State) (x : TargetIx) (v : Verification) (data : List Byte) : Work :=
  match s.take? v.lane, s.file? v.lane v.entry with
  | some t, some f =>
    if (f.copy x).state = .verifying then
      let pieces := verifyPieces f x (s.target x).unit v.chunk
      let d := foldRead v.digest f.length pieces[v.piece]? data
      match nextCursor f v pieces with
      | some c => (s.setActive x (some { v with digest := d, chunk := c.1, piece := c.2, read := .ready }), [])
      | none => (s.setActive x none).verificationResult v.lane v.entry x t f d
    else (s.setActive x none, [])
  | _, _ => (s.setActive x none, [])

/-- A readback read has ended at the target port (R122, R157); the count of repeats stays at its largest value
(log 35). -/
def State.readEnded (s : State) (x : TargetIx) (v : Verification) (repeated error : Bool) (data : List Byte) : Work :=
  if error then
    if repeated then s.deviceFault x .readback
    else
      (s.modifyTarget x fun y => { y with op := .readback true, readbackRepeats := satInc y.readbackRepeats }, [])
  else
    let s1 := s.modifyTarget x fun y => { y with op := .none }
    if v.stop then (s1.setActive x none, [.laneTests v.lane]) else s1.readFolded x v data

/-- READBACK_READ_COMPLETE (R122, R148). A late completion is ignored (log 3). -/
def execReadbackReadComplete (t : TargetIx) (late error : Bool) (data : List Byte) (s : State) :
    Host.Outcome State Fault Refusal :=
  if late then .next s
  else
    match (s.target t).op with
    | .readback repeated =>
      match s.active t with
      | some v => .next (finish (s.readEnded t v repeated error data))
      | none => .next s
    | .none => .next s
    | .identify => .next s
    | .writePiece _ _ => .next s
    | .host _ => .next s

/-! ### Host operations (R130) -/

/-- The reply of a host operation the drive has completed (R130). -/
def State.hostAnswered (s : State) (h : HostOp) (error : Bool) (data : List Byte) : State :=
  if error then s.answer .targetFault [hostClassError]
  else
    match h with
    | .read _ count => s.answer .ok (fitSectors count data)
    | .write _ count _ => s.answer .ok (le 1 count)

/-- HOST_OP_COMPLETE (R130). A late completion is ignored (log 3). -/
def execHostOpComplete (t : TargetIx) (late error : Bool) (data : List Byte) (s : State) :
    Host.Outcome State Fault Refusal :=
  if late then .next s
  else
    match (s.target t).op with
    | .host h => .next (finish ((s.modifyTarget t fun x => { x with op := .none }).hostAnswered h error data, []))
    | .none => .next s
    | .identify => .next s
    | .writePiece _ _ => .next s
    | .readback _ => .next s

end Sys2Proof.Machine
end

