-- ==== Sys2Proof/Machine/Requests.lean ====
section
/-! DEFINITION. The request commands: each is the arrival of the well-formed frame of its request (R180, R182;
log 6). What the request does once served is the `serve` definition of its name. -/

namespace Sys2Proof.Machine

/-- IDENTIFY (R190). -/
def execIdentify (tag : BitVec 16) (s : State) : Host.Outcome State Fault Refusal :=
  .next (submit tag .identify s)

/-- RESET_PART (R188). -/
def execResetPart (tag : BitVec 16) (s : State) : Host.Outcome State Fault Refusal :=
  .next (submit tag .resetPart s)

/-- READ_ATTENTION (R175). -/
def execReadAttention (tag : BitVec 16) (s : State) : Host.Outcome State Fault Refusal :=
  .next (submit tag .readAttention s)

/-- CLEAR_ATTENTION (R176). -/
def execClearAttention (tag : BitVec 16) (conds : BitVec 80) (s : State) : Host.Outcome State Fault Refusal :=
  .next (submit tag (.clearAttention conds) s)

/-- SET_ATTENTION_ENABLES (R177). -/
def execSetAttentionEnables (tag : BitVec 16) (notice : BitVec 80) (noticeFlag : Byte) (panel : BitVec 80) (panelFlag : Byte) (s : State) :
    Host.Outcome State Fault Refusal :=
  .next (submit tag (.setAttentionEnables notice noticeFlag panel panelFlag) s)

/-- SLOT_STATUS (R82). -/
def execSlotStatus (tag : BitVec 16) (slot : Byte) (s : State) : Host.Outcome State Fault Refusal :=
  .next (submit tag (.slotStatus slot) s)

/-- PEEK_CARD (R83). -/
def execPeekCard (tag : BitVec 16) (slot : Byte) (start : BitVec 32) (count retries alternate : Byte) (s : State) :
    Host.Outcome State Fault Refusal :=
  .next (submit tag (.peekCard slot start count retries alternate) s)

/-- HOLD_SLOT (R85). -/
def execHoldSlot (tag : BitVec 16) (slot : Byte) (s : State) : Host.Outcome State Fault Refusal :=
  .next (submit tag (.holdSlot slot) s)

/-- FREE_SLOT (R87). -/
def execFreeSlot (tag : BitVec 16) (slot : Byte) (s : State) : Host.Outcome State Fault Refusal :=
  .next (submit tag (.freeSlot slot) s)

/-- TARGET_STATUS (R124). -/
def execTargetStatus (tag : BitVec 16) (target : Byte) (s : State) : Host.Outcome State Fault Refusal :=
  .next (submit tag (.targetStatus target) s)

/-- CONFIGURE_TARGET (R125). -/
def execConfigureTarget (tag : BitVec 16) (target : Byte) (unit : BitVec 16) (quota : Byte) (s : State) :
    Host.Outcome State Fault Refusal :=
  .next (submit tag (.configureTarget target unit quota) s)

/-- TAKE_TARGET_OFFLINE (R126). -/
def execTakeTargetOffline (tag : BitVec 16) (target : Byte) (s : State) : Host.Outcome State Fault Refusal :=
  .next (submit tag (.takeTargetOffline target) s)

/-- BRING_TARGET_ONLINE (R127). -/
def execBringTargetOnline (tag : BitVec 16) (target : Byte) (s : State) : Host.Outcome State Fault Refusal :=
  .next (submit tag (.bringTargetOnline target) s)

/-- READ_TARGET (R128). -/
def execReadTarget (tag : BitVec 16) (target : Byte) (start : BitVec 32) (count : Byte) (s : State) :
    Host.Outcome State Fault Refusal :=
  .next (submit tag (.readTarget target start count) s)

/-- WRITE_TARGET (R129). -/
def execWriteTarget (tag : BitVec 16) (target : Byte) (start : BitVec 32) (count : Byte) (data : List Byte) (s : State) :
    Host.Outcome State Fault Refusal :=
  .next (submit tag (.writeTarget target start count data) s)

/-- GRANT_SPACE (R133). -/
def execGrantSpace (tag : BitVec 16) (target : Byte) (runs : List UnitRunArg) (s : State) :
    Host.Outcome State Fault Refusal :=
  .next (submit tag (.grantSpace target runs) s)

/-- CLEAR_POOL (R135). -/
def execClearPool (tag : BitVec 16) (target : Byte) (s : State) : Host.Outcome State Fault Refusal :=
  .next (submit tag (.clearPool target) s)

/-- READ_POOL (R136). -/
def execReadPool (tag : BitVec 16) (target : Byte) (s : State) : Host.Outcome State Fault Refusal :=
  .next (submit tag (.readPool target) s)

/-- OPEN_TAKE (R21). -/
def execOpenTake (tag : BitVec 16) (lane : Byte) (label : BitVec 16) (targets k verify policy mismatch retries alternate window : Byte) (s : State) :
    Host.Outcome State Fault Refusal :=
  .next (submit tag (.openTake lane label targets k verify policy mismatch retries alternate window) s)

/-- APPEND_ENTRIES (R22). -/
def execAppendEntries (tag : BitVec 16) (lane : Byte) (entries : List EntryArg) (s : State) :
    Host.Outcome State Fault Refusal :=
  .next (submit tag (.appendEntries lane entries) s)

/-- START_TAKE (R23). -/
def execStartTake (tag : BitVec 16) (lane : Byte) (s : State) : Host.Outcome State Fault Refusal :=
  .next (submit tag (.startTake lane) s)

/-- SUSPEND_TAKE (R24). -/
def execSuspendTake (tag : BitVec 16) (lane : Byte) (s : State) : Host.Outcome State Fault Refusal :=
  .next (submit tag (.suspendTake lane) s)

/-- RESUME_TAKE (R25). -/
def execResumeTake (tag : BitVec 16) (lane : Byte) (s : State) : Host.Outcome State Fault Refusal :=
  .next (submit tag (.resumeTake lane) s)

/-- STOP_TAKE (R26). -/
def execStopTake (tag : BitVec 16) (lane : Byte) (s : State) : Host.Outcome State Fault Refusal :=
  .next (submit tag (.stopTake lane) s)

/-- ABORT_TAKE (R27). -/
def execAbortTake (tag : BitVec 16) (lane : Byte) (s : State) : Host.Outcome State Fault Refusal :=
  .next (submit tag (.abortTake lane) s)

/-- ADJUST_TAKE (R28). -/
def execAdjustTake (tag : BitVec 16) (lane k remove : Byte) (s : State) : Host.Outcome State Fault Refusal :=
  .next (submit tag (.adjustTake lane k remove) s)

/-- TAKE_STATUS (R29). -/
def execTakeStatus (tag : BitVec 16) (lane : Byte) (s : State) : Host.Outcome State Fault Refusal :=
  .next (submit tag (.takeStatus lane) s)

/-- RELEASE_TAKE (R30). -/
def execReleaseTake (tag : BitVec 16) (lane reclaim : Byte) (s : State) : Host.Outcome State Fault Refusal :=
  .next (submit tag (.releaseTake lane reclaim) s)

/-- READ_MANIFEST (R164). -/
def execReadManifest (tag : BitVec 16) (lane : Byte) (first : BitVec 16) (count : Byte) (s : State) :
    Host.Outcome State Fault Refusal :=
  .next (submit tag (.readManifest lane first count) s)

/-- READ_ALLOCATION (R165). -/
def execReadAllocation (tag : BitVec 16) (lane : Byte) (index : BitVec 16) (target : Byte) (s : State) :
    Host.Outcome State Fault Refusal :=
  .next (submit tag (.readAllocation lane index target) s)

end Sys2Proof.Machine
end

