-- ==== Sys2Proof/Machine/Dispatch.lean ====
section
/-! DEFINITION. One arm per command: what the command does to everything but the queue. -/

namespace Sys2Proof.Machine

def exec (i : Instr) (s : State) : Host.Outcome State Fault Refusal :=
  match i with
  | .powerOn => Sys2Proof.Machine.execPowerOn s
  | .linkReset => Sys2Proof.Machine.execLinkReset s
  | .linkConfigured => Sys2Proof.Machine.execLinkConfigured s
  | .frameArrival transfer => Sys2Proof.Machine.execFrameArrival transfer s
  | .frameSent => Sys2Proof.Machine.execFrameSent s
  | .identify tag => Sys2Proof.Machine.execIdentify tag s
  | .resetPart tag => Sys2Proof.Machine.execResetPart tag s
  | .readAttention tag => Sys2Proof.Machine.execReadAttention tag s
  | .clearAttention tag conds => Sys2Proof.Machine.execClearAttention tag conds s
  | .setAttentionEnables tag notice noticeFlag panel panelFlag => Sys2Proof.Machine.execSetAttentionEnables tag notice noticeFlag panel panelFlag s
  | .slotStatus tag slot => Sys2Proof.Machine.execSlotStatus tag slot s
  | .peekCard tag slot start count retries alternate => Sys2Proof.Machine.execPeekCard tag slot start count retries alternate s
  | .holdSlot tag slot => Sys2Proof.Machine.execHoldSlot tag slot s
  | .freeSlot tag slot => Sys2Proof.Machine.execFreeSlot tag slot s
  | .targetStatus tag target => Sys2Proof.Machine.execTargetStatus tag target s
  | .configureTarget tag target unit quota => Sys2Proof.Machine.execConfigureTarget tag target unit quota s
  | .takeTargetOffline tag target => Sys2Proof.Machine.execTakeTargetOffline tag target s
  | .bringTargetOnline tag target => Sys2Proof.Machine.execBringTargetOnline tag target s
  | .readTarget tag target start count => Sys2Proof.Machine.execReadTarget tag target start count s
  | .writeTarget tag target start count data => Sys2Proof.Machine.execWriteTarget tag target start count data s
  | .grantSpace tag target runs => Sys2Proof.Machine.execGrantSpace tag target runs s
  | .clearPool tag target => Sys2Proof.Machine.execClearPool tag target s
  | .readPool tag target => Sys2Proof.Machine.execReadPool tag target s
  | .openTake tag lane label targets k verify policy mismatch retries alternate window => Sys2Proof.Machine.execOpenTake tag lane label targets k verify policy mismatch retries alternate window s
  | .appendEntries tag lane entries => Sys2Proof.Machine.execAppendEntries tag lane entries s
  | .startTake tag lane => Sys2Proof.Machine.execStartTake tag lane s
  | .suspendTake tag lane => Sys2Proof.Machine.execSuspendTake tag lane s
  | .resumeTake tag lane => Sys2Proof.Machine.execResumeTake tag lane s
  | .stopTake tag lane => Sys2Proof.Machine.execStopTake tag lane s
  | .abortTake tag lane => Sys2Proof.Machine.execAbortTake tag lane s
  | .adjustTake tag lane k remove => Sys2Proof.Machine.execAdjustTake tag lane k remove s
  | .takeStatus tag lane => Sys2Proof.Machine.execTakeStatus tag lane s
  | .releaseTake tag lane reclaim => Sys2Proof.Machine.execReleaseTake tag lane reclaim s
  | .readManifest tag lane first count => Sys2Proof.Machine.execReadManifest tag lane first count s
  | .readAllocation tag lane index target => Sys2Proof.Machine.execReadAllocation tag lane index target s
  | .cardInsertion slot => Sys2Proof.Machine.execCardInsertion slot s
  | .cardRemoval slot => Sys2Proof.Machine.execCardRemoval slot s
  | .settleTimerExpiry slot => Sys2Proof.Machine.execSettleTimerExpiry slot s
  | .identifyAttemptAnswer slot late answer => Sys2Proof.Machine.execIdentifyAttemptAnswer slot late answer s
  | .cardAttemptTimeout slot => Sys2Proof.Machine.execCardAttemptTimeout slot s
  | .cardAttemptComplete slot late cls data => Sys2Proof.Machine.execCardAttemptComplete slot late cls data s
  | .driveLinkUp target => Sys2Proof.Machine.execDriveLinkUp target s
  | .driveLinkLoss target => Sys2Proof.Machine.execDriveLinkLoss target s
  | .driveIdentifyAnswer target late answer => Sys2Proof.Machine.execDriveIdentifyAnswer target late answer s
  | .deviceOpTimeout target => Sys2Proof.Machine.execDeviceOpTimeout target s
  | .writePieceComplete target late error => Sys2Proof.Machine.execWritePieceComplete target late error s
  | .readbackReadComplete target late error data => Sys2Proof.Machine.execReadbackReadComplete target late error data s
  | .hostOpComplete target late error data => Sys2Proof.Machine.execHostOpComplete target late error data s

end Sys2Proof.Machine
end

