-- ==== Sys2Proof/WellFormed.lean ====
section
/-! DEFINITION. Which commands are well-formed as syntax: a request whose body the frame layout of R180 and
R191 can carry, an answer of a card or drive that is a whole number of sectors. -/

namespace Sys2Proof

/-- The bytes an entry takes in the body of APPEND ENTRIES (11.6). -/
def EntryArg.size : EntryArg → Nat
  | .file _ _ runs => 12 + 6 * runs.length
  | .mark _ => 3
  | .pause => 1
  | .endOfList => 1

/-- A run count is one byte (11.6). -/
def EntryArg.wf : EntryArg → Bool
  | .file _ _ runs => decide (runs.length ≤ 255)
  | _ => true

/-- A request is well-formed when its counts fit their bytes and its body fits a frame (R180, R191). -/
def Request.wf : Request → Bool
  | .writeTarget _ _ _ data => decide (6 + data.length ≤ Config.maxBody)
  | .grantSpace _ runs => decide (runs.length ≤ 255) && decide (2 + 8 * runs.length ≤ Config.maxBody)
  | .appendEntries _ entries =>
      decide (entries.length ≤ 255) && entries.all EntryArg.wf
        && decide (2 + (entries.map EntryArg.size).sum ≤ Config.maxBody)
  | _ => true

/-- The data of a read: whole sectors, no more than a chunk (R74, R147). -/
def wholeSectors (data : List Byte) : Bool :=
  data.length % Config.sectorBytes == 0
    && decide (data.length ≤ Config.chunkSectors * Config.sectorBytes)

/-- Only OK and CORRECTED deliver data (R76). -/
def CardClass.delivers : CardClass → Bool
  | .ok => true
  | .corrected => true
  | .uncorrectable => false
  | .badBlock => false
  | .outOfRange => false

/-- Well-formed commands. -/
def Instr.wf (i : Instr) : Bool :=
  match i with
  | .cardAttemptComplete _ _ cls data => wholeSectors data && (cls.delivers || data.isEmpty)
  | .readbackReadComplete _ _ error data => wholeSectors data && (!error || data.isEmpty)
  | .hostOpComplete _ _ error data => wholeSectors data && (!error || data.isEmpty)
  | .writeTarget _ t a c d => (Request.writeTarget t a c d).wf
  | .grantSpace _ t rs => (Request.grantSpace t rs).wf
  | .appendEntries _ l es => (Request.appendEntries l es).wf
  | _ => true

end Sys2Proof
end

