-- ==== Sys2Proof/Safety.lean ====
section
/-! DEFINITION. What the statements about the part speak of: when the link serves a request at once, when no
choice is open, the reply of a request, and what holds in every state the part reaches. -/

namespace Sys2Proof.Machine

/-! ### What the statements about one command speak of -/

/-- An arriving request enters service at once and its reply will be kept: the link is configured, no OVERRUN
reply waits, no request is in service, none waits, none is stale (R182, R187). -/
def State.listening (s : State) : Bool :=
  s.link.configured && s.link.overrun.isNone && s.link.inService.isNone && s.link.queue.isEmpty && !s.link.stale

/-- The arbiter of target t has no choice to make: the target is not ONLINE, its channel is busy, or nobody has
work there (R117). -/
def State.targetAtRest (s : State) (t : TargetIx) : Bool :=
  (s.target t).state != .online || (s.target t).op != .none
    || ((s.target t).waitingHost.isNone && ring.all fun c => !s.hasWork t c)

/-- No choice is open: no verify order may start (R146) and every arbiter is at rest (R117). -/
def State.atRest (s : State) : Bool :=
  (s.verify.queue.all fun o => !s.orderQualifies o) && allTargets.all s.targetAtRest

/-- s with the reply of the request of a kind and tag composed, and the outgoing path's choice made. -/
def State.replied (s : State) (kind : Byte) (tag : BitVec 16) (clamped : Bool) (st : Status) (body : List Byte) :
    State :=
  ({ s with link := { s.link with
      inService := some { kind := kind, tag := tag, reply := some (replyFrame kind tag clamped st body) } } }).choosePath

/-- s with the request of a kind and tag in service and its reply still to come, and the path's choice made. -/
def State.awaiting (s : State) (kind : Byte) (tag : BitVec 16) : State := (s.beginService kind tag).choosePath

/-- From s to t the target x has left ONLINE for a state with a fault reason: nothing is in progress, granted or
waiting there; identity, generation, settings and repeat counters are as they were (R112). What R112 does to its
FIFOs and copies is said by `State.OutOfServiceOk`. -/
def State.leftOnline (s t : State) (x : TargetIx) (st : TargetState) (why : Option FaultReason) : Prop :=
  t.active x = none ∧ t.target x = { s.target x with
    state := st, faultReason := why, fifos := (t.target x).fifos, op := .none, holder := none, grantCount := 0
    waitingHost := none }

/-- A copy on a target that has left the copy's reach: FAILED with a reason if it was not yet safe, else as it was
(R28, R112 item 4). -/
def CopyRecord.lost (r : CopyReason) (c : CopyRecord) : CopyRecord :=
  if c.state ∈ [.writing, .verifyWait, .verifying, .recopyWait] then { c with state := .failed, reason := some r }
  else c

/-- A FILE entry that has started (R7). -/
def Progress.started (p : Progress) : Prop := p = .moving ∨ p = .draining ∨ p = .finished

/-- From s to t every copy that a started file has on target x is lost for a reason (R112 item 4, R113). -/
def State.copiesLost (s t : State) (x : TargetIx) (r : CopyReason) : Prop :=
  ∀ n e f, s.file? n e = some f → f.progress.started → t.copy? n e x = some ((f.copy x).lost r)

/-- From s to t the request in service, if there is one, has been answered TARGET_FAULT with a body (R130). -/
def State.hostFailed (s t : State) (body : List Byte) : Prop :=
  ∀ sv, s.link.inService = some sv → t.link.inService = some { sv with
    reply := some { kind := sv.kind, flags := 0x01, status := .targetFault, tag := sv.tag, body := body } }

/-- What the reply of a frame refused under R180 or R191 carries: a take request other than TAKE STATUS names its lane
in its body's first byte, and its reply carries that lane's state (R20, R184); nothing where the header's checks fail, or
that byte is not there or names no lane (log 19). -/
def State.refusedBody (s : State) (f : Frame) : List Byte :=
  if f.headerOk = true ∧ 0x50 ≤ f.kind.toNat ∧ f.kind.toNat ≤ 0x59 ∧ f.kind.toNat ≠ 0x58 then
    match f.body with
    | [] => []
    | x :: _ => if h : x.toNat < 8 then [laneStateCode (s.laneState ⟨x.toNat, h⟩)] else []
  else []

/-- The event c ends a lane's piece at card port n so that it has failed, its read r in attempt k; `counted` says
whether the port's count of failed operations counts it (R76, R77, R78). -/
def failsPiece (n : LaneIx) (r : CardRead) (k : Nat) (c : Instr) (counted : Bool) : Prop :=
  (∃ data, c = .cardAttemptComplete n false .badBlock data) ∧ counted = true
    ∨ (∃ data, c = .cardAttemptComplete n false .outOfRange data) ∧ counted = false
    ∨ 1 + r.retries ≤ k ∧ ((∃ data, c = .cardAttemptComplete n false .uncorrectable data) ∨ c = .cardAttemptTimeout n)
      ∧ counted = true

/-! ### Attention (chapter 10) -/

/-- The panel line follows the latches (R173); an asserted level has its latch set (R170, R176) and is a level
condition (R169); the pending-notice flag is set exactly while the gained set has a member, and a notice being
sent carries one (R171, R172, R187). -/
structure State.AttentionOk (s : State) : Prop where
  panel : s.attention.panelLine = (s.attention.latched &&& s.attention.panelEnable != 0)
  latched : s.attention.asserted &&& ~~~ s.attention.latched = 0
  levels : s.attention.asserted &&& ~~~ levelSet = 0
  pending : s.link.pendingNotice = true ↔ s.attention.gained ≠ 0
  carried : ∀ g f, s.link.outgoing = some (.notice g, f) → g ≠ 0

/-- Each level condition is asserted exactly while its owner's state holds (R169). -/
structure State.LevelsOk (s : State) : Prop where
  waiting : ∀ n, s.attention.asserted.getLsbD (condLaneWaiting n) = true ↔ s.laneState n = some .waiting
  suspended : ∀ n, s.attention.asserted.getLsbD (condLaneSuspended n) = true ↔ s.laneState n = some .suspended
  starved : ∀ n, s.attention.asserted.getLsbD (condLaneStarved n) = true ↔ s.laneState n = some .starved
  fault : ∀ t, s.attention.asserted.getLsbD (condTargetFault t) = true ↔ (s.target t).state = .faulted
  short : ∀ t, s.attention.asserted.getLsbD (condPoolShort t) = true ↔ (s.pool t).short ≠ []
  dry : s.attention.asserted.getLsbD condStagingDry = true ↔ s.staging.waiting ≠ []

/-! ### Entry store (R5) -/

/-- The entries a lane's take holds. -/
def State.entriesHeld (s : State) (n : LaneIx) : Nat := ((s.take? n).map fun t => t.entries.length).getD 0

/-- Free entries and held entries number 8192 together, and no take holds more than 4096 (R5). -/
structure State.StoreOk (s : State) : Prop where
  total : s.freeEntries + (allLanes.map s.entriesHeld).sum = Config.storeEntries
  each : ∀ n, s.entriesHeld n ≤ Config.takeEntries

/-! ### Takes (R1) -/

/-- The ranges and presences of the take context (R1, R6, R12, R19, R21, R162). -/
structure Take.Ok (t : Take) : Prop where
  kLow : 1 ≤ t.k
  kHigh : t.k ≤ setSize t.targets
  window : 1 ≤ t.window ∧ t.window ≤ 32
  retries : t.retries = 0 ∨ t.retries = 1 ∨ t.retries = 2 ∨ t.retries = 4
  waitReason : t.waitReason.isSome = true ↔ t.state = .waiting
  headHold : t.state.keepsHold = false → t.headHold = .none
  snapshot : t.state = .opened → t.snapshot = none
  outcome : t.outcome.isSome = true ↔ t.state = .closed
  cleared : t.cleared.isSome = true ↔ t.state = .closed
  clearance : t.cleared = some true → t.outcome = some .complete

def State.TakesOk (s : State) : Prop := ∀ n t, s.take? n = some t → t.Ok

/-! ### What the other takes keep (R20) -/

/-- What a take keeps while lanes work: its settings, its snapshot, how many entries it holds and whether its list has
ended (R1). -/
structure Take.Kept (a b : Take) : Prop where
  label : b.label = a.label
  targets : b.targets = a.targets
  k : b.k = a.k
  verify : b.verify = a.verify
  policy : b.policy = a.policy
  mismatch : b.mismatch = a.mismatch
  retries : b.retries = a.retries
  alternate : b.alternate = a.alternate
  window : b.window = a.window
  snapshot : b.snapshot = a.snapshot
  entries : b.entries.length = a.entries.length
  listEnded : b.listEnded = a.listEnded

/-- A lane stays IDLE, or keeps its take. -/
def keptTake : Option Take → Option Take → Prop
  | none, y => y = none
  | some a, y => ∃ b, y = some b ∧ a.Kept b

/-! ### Ports (R67, R107, R108, R131) -/

/-- The slot record agrees with the table of R67. -/
structure Slot.Ok (x : Slot) : Prop where
  detected : x.present = x.detect
  present : x.present = match x.state with
    | .empty => false
    | .held => x.present
    | _ => true
  timer : x.settleRunning = true ↔ x.state = .settling
  identity : x.identity.isSome = true ↔ x.state = .ready
  attempt : x.identifyAttempt ≤ 2 ∧ ((x.state = .empty ∨ x.state = .settling ∨ x.state = .held) → x.identifyAttempt = 0)
    ∧ (x.state = .identifying → 1 ≤ x.identifyAttempt)
  identifying : x.op = .identify ↔ x.state = .identifying
  working : x.state ≠ .ready → (x.op = .none ∨ x.op = .identify) ∧ x.waitingPeek = none ∧ x.waitingPiece = none

/-- The target record agrees with R107, R108 and R115, its settings with R125, its pool with R131. That an OFFLINE
target holds an identity is not said: R126 brings a target there whose first attach has failed (log 36). -/
structure State.TargetOk (s : State) (t : TargetIx) : Prop where
  link : (s.target t).link = true ↔ (s.target t).state ≠ .absent
  reason : (s.target t).faultReason.isSome = true ↔ (s.target t).state = .faulted
  absent : (s.target t).state = .absent → (s.target t).identity = none
  present : (s.target t).state = .online → (s.target t).identity.isSome = true
  attaching : (s.target t).op = .identify ↔ (s.target t).state = .attaching
  working : (s.target t).state ≠ .online →
    ((s.target t).op = .none ∨ (s.target t).op = .identify) ∧ (s.target t).waitingHost = none
      ∧ (s.target t).holder = none ∧ (s.target t).grantCount = 0
  unit : clampUnit (s.target t).unit = (s.target t).unit
  quota : 1 ≤ (s.target t).quota ∧ (s.target t).quota ≤ 16
  writing : ∀ n i, (s.target t).op = .writePiece n i → (s.target t).fifos[n] ≠ []
  reading : (∃ r, (s.target t).op = .readback r) ↔ ∃ v, s.active t = some v ∧ v.read = .granted
  runs : (s.pool t).runs.length ≤ Config.poolRuns

structure State.PortsOk (s : State) : Prop where
  slots : ∀ n, (s.slot n).Ok
  targets : ∀ t, s.TargetOk t

/-! ### Arbiter, verify unit, addresses -/

/-- The place of a candidate in the ring: lane n at n, the verifier at 8 (R116). -/
def ringPlace : Candidate → Nat
  | .lane n => n.val
  | .verifier => 8

/-- How many places after the holder a candidate comes in ring order; from lane 0 when there is none (R117). -/
def ringDistance : Option Candidate → Candidate → Nat
  | none, c => ringPlace c
  | some h, c => (ringPlace c + 9 - ringPlace h - 1) % 9

/-- No two active verifications hold one readback buffer (R144). -/
def State.BuffersDiffer (s : State) : Prop :=
  ∀ x y v w, s.active x = some v → s.active y = some w → v.buffer = w.buffer → x = y

/-- The place of member number i of a list of ranges, counted through the ranges in order (R33, R143). -/
def placeOf : List Extent → Nat → Option Nat
  | [], _ => none
  | r :: rest, i => if i < r.len then some (r.start + i) else placeOf rest (i - r.len)

/-! ### Targets out of service (R108, R112, R156) -/

/-- A target that is not ONLINE has no write order, no copy that is not safe, no pair on a recopy list, no verify
order and no active verification. -/
structure State.OutOfServiceOk (s : State) : Prop where
  fifos : ∀ (x : TargetIx) (n : LaneIx), (s.target x).state ≠ .online → (s.target x).fifos[n] = []
  copies : ∀ x n e c, (s.target x).state ≠ .online → s.copy? n e x = some c → c.state.unsafe_ = false
  pairs : ∀ x n t e, (s.target x).state ≠ .online → s.take? n = some t → (e, x) ∉ t.recopyList
  orders : ∀ x, (s.target x).state ≠ .online → ∀ o ∈ s.verify.queue, o.target ≠ x
  active : ∀ x, (s.target x).state ≠ .online → s.active x = none

/-! ### Runs of units (R131) -/

/-- The runs of a pool: each of at least one unit, in ascending order, no two overlapping or adjacent (R131). -/
def orderedRuns (runs : List Extent) : Prop :=
  (∀ r ∈ runs, 1 ≤ r.len) ∧ runs.Pairwise fun a b => a.start + a.len < b.start

/-- A unit lies in one of the runs. -/
def coversUnit (runs : List Extent) (u : Nat) : Prop := ∃ r ∈ runs, r.start ≤ u ∧ u < r.start + r.len

/-- On every target the pool's runs are ordered, and all recorded runs, those of the allocations of unreleased takes
included, hold at least one unit each and share none (R131, R132, R133). -/
structure State.SpaceOk (s : State) : Prop where
  pools : ∀ t, orderedRuns (s.pool t).runs
  lengths : ∀ t, ∀ r ∈ s.recordedRuns t, 1 ≤ r.len
  apart : ∀ t, (s.recordedRuns t).Pairwise fun a b => a.start + a.len ≤ b.start ∨ b.start + b.len ≤ a.start

/-! ### Staging buffer (R35 to R40, R45 to R47, R53) -/

/-- How many write orders name a segment, over the FIFOs of every lane at every target. -/
def State.ordersNaming (s : State) (g : SegmentIx) : Nat :=
  (allTargets.map fun x => (allLanes.map fun n =>
    ((s.target x).fifos[n]).countP fun o => o.segment == g).sum).sum

/-- A lane with no work in the part: IDLE, OPEN or CLOSED. -/
def State.resting (s : State) (n : LaneIx) : Prop :=
  s.laneState n = none ∨ s.laneState n = some .opened ∨ s.laneState n = some .closed

/-- The staging buffer keeps its account. A SENDING segment's outstanding count is the number of orders that name
it (R35); an order names a SENDING segment of its own lane, and a FIFO no segment twice (R45, R46); a chunk read in
flight fills a segment of its lane (R36); a lane holds at most its window (R40); no segment is FREE while a lane
waits (R37); a waiting lane is in the set once, has a reading and no chunk read in flight, holds fewer than its
window, and is in WAITING with SEGMENTS, in STOPPING or in DRAINING (R37); and a lane that is IDLE, OPEN or CLOSED
holds none (R53). -/
structure State.StagingOk (s : State) : Prop where
  outstanding : ∀ g u k, s.segment g = .sending u k → k = s.ordersNaming g
  orders : ∀ (x : TargetIx) (n : LaneIx), ∀ o ∈ (s.target x).fifos[n],
    ∃ u k, s.segment o.segment = .sending u k ∧ u.owner = n
  once : ∀ (x : TargetIx) (n : LaneIx), (((s.target x).fifos[n]).map WriteOrder.segment).Nodup
  reads : ∀ n t cr, s.take? n = some t → t.chunkRead = some cr →
    ∃ u d, s.segment cr.segment = .filling u d ∧ u.owner = n
  window : ∀ n t, s.take? n = some t → heldSegments s n ≤ t.window
  noneFree : s.staging.waiting ≠ [] → ∀ g, s.segment g ≠ .free
  inOnce : s.staging.waiting.Nodup
  waiting : ∀ n ∈ s.staging.waiting, ∃ t, s.take? n = some t ∧ t.chunkRead = none ∧ t.reading ≠ .none
    ∧ heldSegments s n < t.window
    ∧ (t.state = .waiting ∧ t.waitReason = some .segments ∨ t.state = .stopping ∨ t.state = .draining)
  resting : ∀ n, s.resting n → heldSegments s n = 0

/-! ### Verify unit and recopy lists (R144, R152, R158) -/

/-- The verify unit and the recopy lists agree with the copy records. An order stands in the queue, once, exactly for
a copy in VERIFY_WAIT, and a verification that is not stopped is active exactly for a copy in VERIFYING (R144); a pair
stands on a recopy list at most once, and only for a copy in RECOPY_WAIT (R152); a file that has not started has every
copy NONE or SKIPPED (R50); and no order and no verification of an IDLE, OPEN or CLOSED lane is left (R158). -/
structure State.VerifyOk (s : State) : Prop where
  once : s.verify.queue.Nodup
  queued : ∀ n e x, { lane := n, entry := e, target := x } ∈ s.verify.queue ↔
    (s.copy? n e x).map CopyRecord.state = some .verifyWait
  active : ∀ n e x, (∃ v, s.active x = some v ∧ v.lane = n ∧ v.entry = e ∧ v.stop = false) ↔
    (s.copy? n e x).map CopyRecord.state = some .verifying
  pairs : ∀ n t, s.take? n = some t → t.recopyList.Nodup
    ∧ ∀ p ∈ t.recopyList, (s.copy? n p.1 p.2).map CopyRecord.state = some .recopyWait
  unstarted : ∀ n e f, s.file? n e = some f → f.progress = .pending ∨ f.progress = .allocating →
    ∀ x, (f.copy x).state = .none ∨ (f.copy x).state = .skipped
  resting : ∀ n, s.resting n → (∀ o ∈ s.verify.queue, o.lane ≠ n) ∧ ∀ x v, s.active x = some v → v.lane ≠ n

/-! ### Link (R181 to R189) -/

/-- The peeks a slot holds, in flight or waiting. -/
def Slot.peeks (x : Slot) : Nat :=
  (match x.op with
    | .peek _ _ => 1
    | .piece _ _ => 0
    | .identify => 0
    | .none => 0) + (if x.waitingPeek.isSome then 1 else 0)

/-- The host operations a target holds, in progress or waiting. -/
def Target.hostOps (x : Target) : Nat :=
  (match x.op with
    | .host _ => 1
    | .writePiece _ _ => 0
    | .readback _ => 0
    | .identify => 0
    | .none => 0) + (if x.waitingHost.isSome then 1 else 0)

/-- The operations the request in service may wait for (R183). -/
def State.outstanding (s : State) : Nat :=
  (allLanes.map fun n => (s.slot n).peeks).sum + (allTargets.map fun t => (s.target t).hostOps).sum

/-- A request is in service and its reply has not been composed. -/
def Link.awaits (l : Link) : Bool := l.inService.isSome && l.composed.isNone

/-- The message link unit keeps its order: at most four frames wait, and only behind a request in service; an
unconfigured link holds no frame; the reply being sent is that of the request in service; the path is not free
with something to send; a stale request has no reply yet; transfers wait only while the pipe is held; and the
part holds one peek or host operation exactly while the request in service waits for one (R79, R130, R181 to
R189). -/
structure State.LinkOk (s : State) : Prop where
  room : s.link.queue.length ≤ Config.waitingFrames
  behind : s.link.inService = none → s.link.queue = []
  unconfigured : s.link.configured = false →
    s.link.queue = [] ∧ s.link.overrun = none ∧ s.link.outgoing = none
  reply : ∀ r, s.link.outgoing = some (.reply, r) → s.link.composed = some r
  discarded : ∀ r, s.link.outgoing = some (.overrun, r) → s.link.overrun = some r
  busy : s.link.configured = true → s.link.outgoing = none →
    s.link.overrun = none ∧ s.link.composed = none ∧ s.link.pendingNotice = false
  stale : s.link.stale = true → s.link.awaits = true
  held : s.link.outPipe ≠ [] → s.link.pipeHeld = true
  outstanding : s.outstanding = if s.link.awaits then 1 else 0

end Sys2Proof.Machine
end

