-- ==== Sys2Proof/Certificates/Slice0/Obligations.lean ====
section
/-! DEFINITION. The statements about the part for the provers: `Obligations.<Name>`, each a Prop. -/

open Sys2Proof
open Sys2Proof.Machine

/-! ### The queue of commands and the frames -/

/-- One step carries out the command at the front of the queue, on the state with the queue's rest; with no
command waiting the part idles, which is the model's choice (log 5). -/
def Obligations.StepTakesTheFrontCommand : Prop :=
  (∀ (c : Instr) (rest : List Instr) (s : State), s.pending = c :: rest →
    step s = exec c { s with pending := rest })
    ∧ (∀ s : State, s.pending = [] → step s = .next s)

/-- Every command is carried out, in every state, and none touches the queue of the commands that wait. That an event
which cannot arise where the part stands changes nothing and is no stop is the model's choice (log 2); the queue is
the model's own field (log 32). -/
def Obligations.EveryCommandIsCarriedOutAndKeepsTheQueue : Prop :=
  ∀ (c : Instr) (s : State), ∃ t, exec c s = .next t ∧ t.pending = s.pending

/-- The part reads back from the frame of a well-formed request its kind, its tag and its fields, or the refusal
R191 gives its counts. -/
def Obligations.FrameOfARequestIsReadBack : Prop :=
  ∀ (tag : BitVec 16) (r : Request), r.wf = true →
    (requestFrame tag r).kind = requestKind r ∧ (requestFrame tag r).tag = tag
      ∧ parseRequest (requestFrame tag r) = (match shapeRefusal r with
          | some st => .error st
          | none => .ok r)

/-- A frame the part accepts as a request is the frame of that request, byte for byte: no bit of it is dropped. -/
def Obligations.AcceptedFrameIsTheFrameOfItsRequest : Prop :=
  ∀ (f : Frame) (r : Request), parseRequest f = .ok r →
    f = requestFrame f.tag r ∧ r.wf = true ∧ shapeRefusal r = none

/-- A request command is the arrival of its frame (the model's reading, log 6). -/
def Obligations.RequestIsTheArrivalOfItsFrame : Prop :=
  ∀ (c : Instr) (tag : BitVec 16) (r : Request) (s : State), c.request? = some (tag, r) → r.wf = true →
    exec c s = exec (.frameArrival (requestFrame tag r).bytes) s

/-- A transfer that fails the first four checks is refused with BAD_FRAME, one of an unknown kind with
UNKNOWN_KIND, and one whose body R191 refuses with that refusal's status, each with the kind and tag its bytes hold,
and nothing else changes; the last carries the lane's state in front where its kind is that of a take request other
than TAKE STATUS and its body names a lane. That the other refusals of such a kind have an empty body is the model's
choice (log 19). A frame that finds a request in service joins the queue, or, behind four frames, is discarded with an
OVERRUN reply and LINK OVERRUN; while the pipe is held it waits at the USB level (log 7). -/
def Obligations.ArrivingFramesAreRefusedQueuedOrDiscarded : Prop :=
  (∀ (bytes : List Byte) (s : State), s.listening = true → s.atRest = true →
    let f := frameOf bytes
    (f.headerOk = false →
      exec (.frameArrival bytes) s = .next (s.replied f.kind f.tag false .badFrame []))
    ∧ (f.headerOk = true → f.kind ∉ requestKinds →
      exec (.frameArrival bytes) s = .next (s.replied f.kind f.tag false .unknownKind []))
    ∧ (f.headerOk = true → f.kind ∈ requestKinds → ∀ st, parseRequest f = .error st →
      exec (.frameArrival bytes) s = .next (s.replied f.kind f.tag false st (s.refusedBody f))))
    ∧ (∀ (bytes : List Byte) (s : State), s.atRest = true → s.link.stale = false →
    let f := frameOf bytes
    (s.link.configured = true → s.link.overrun = none → s.link.inService ≠ none →
      s.link.queue.length < 4 →
      exec (.frameArrival bytes) s
        = .next ({ s with link := { s.link with queue := s.link.queue ++ [f] } }).choosePath)
    ∧ (s.link.configured = true → s.link.overrun = none → s.link.inService ≠ none →
      4 ≤ s.link.queue.length →
      exec (.frameArrival bytes) s
        = .next (({ s with link := { s.link with
            overrun := some { kind := f.kind, flags := 0x01, status := .overrun, tag := f.tag, body := [] } } }).latch
              condLinkOverrun).choosePath)
    ∧ (s.link.configured = false ∨ s.link.overrun ≠ none →
      exec (.frameArrival bytes) s
        = .next { s with link := { s.link with outPipe := s.link.outPipe ++ [f] } }))

/-- The outgoing path, when it is free and the link configured, sends a waiting OVERRUN reply first, else the
composed reply of the request in service, else composes a notice if one is pending, else stays free; otherwise
it goes on as it is. -/
def Obligations.PathSendsOverrunThenReplyThenNotice : Prop :=
  ∀ (s : State),
    (s.link.configured = false ∨ s.link.outgoing ≠ none → s.choosePath = s)
    ∧ (s.link.configured = true → s.link.outgoing = none →
        (∀ r, s.link.overrun = some r →
          s.choosePath = { s with link := { s.link with outgoing := some (.overrun, r) } })
        ∧ (∀ r, s.link.overrun = none → s.link.composed = some r →
          s.choosePath = { s with link := { s.link with outgoing := some (.reply, r) } })
        ∧ (s.link.overrun = none → s.link.composed = none → s.link.pendingNotice = true →
          s.choosePath = { s with
            attention := { s.attention with sequence := s.attention.sequence + 1, gained := 0 }
            link := { s.link with
              pendingNotice := false
              outgoing := some (.notice s.attention.gained,
                { kind := 0xF0, flags := 0x03, status := .ok, tag := 0
                  body := le 2 (s.attention.sequence + 1).toNat ++ le 10 s.attention.gained.toNat
                    ++ le 10 s.attention.latched.toNat }) } })
        ∧ (s.link.overrun = none → s.link.composed = none → s.link.pendingNotice = false → s.choosePath = s))

/-- A frame has been sent. An OVERRUN reply leaves; a notice leaves; a reply other than RESET PART's OK leaves
with its request, and the first waiting frame, if any, enters service: one that R180 or R191 refuses is answered so
(the body is log 19's), and a well-formed one is carried out as its request, just as it is when it arrives at a link
with nothing in service. Nothing being sent, nothing happens (log 2). -/
def Obligations.SentFrameFreesThePathAndServesTheNext : Prop :=
  ∀ (s : State), s.atRest = true → s.link.outPipe = [] →
    (s.link.outgoing = none → exec .frameSent s = .next s)
    ∧ (∀ g f, s.link.outgoing = some (.notice g, f) → s.link.stale = false →
        exec .frameSent s = .next ({ s with link := { s.link with outgoing := none } }).choosePath)
    ∧ (∀ f, s.link.outgoing = some (.overrun, f) → s.link.stale = false →
        exec .frameSent s
          = .next ({ s with link := { s.link with outgoing := none, overrun := none } }).choosePath)
    ∧ (∀ f, s.link.outgoing = some (.reply, f) → f.isReset = false → s.link.queue = [] →
        exec .frameSent s
          = .next ({ s with link := { s.link with outgoing := none, inService := none, stale := false } }).choosePath)
    ∧ (∀ f g rest, s.link.outgoing = some (.reply, f) → f.isReset = false → s.link.queue = g :: rest →
        let freed : State := { s with link := { s.link with
          outgoing := none, inService := none, stale := false, queue := rest } }
        (∀ st, parseRequest g = .error st →
          exec .frameSent s = .next (freed.replied g.kind g.tag false st (s.refusedBody g)))
        ∧ (∀ r, parseRequest g = .ok r →
          exec .frameSent s = .next (finish (serve r { freed with link := { freed.link with
            inService := some { kind := requestKind r, tag := g.tag, reply := none } } }))
          ∧ (rest = [] → s.link.configured = true → s.link.overrun = none →
            ∀ c, c.request? = some (g.tag, r) → exec .frameSent s = exec c freed)))

/-- POWER_ON brings every block to its reset values: link, attention, entry store, lanes, staging buffer, pools
and verify unit as the reset tables give them, each slot EMPTY, or SETTLING with a card detected, each target
ABSENT, or ATTACHING with its link up. When the reply of RESET PART has been sent every block takes the same
values, but for link configured, which is kept; the frames that waited are lost. That the pins are sampled in the
same step is the model's choice (log 26), and so is it that the transfers at the USB level go with POWER_ON (log 7). -/
def Obligations.PowerOnAndResetPartResetEveryBlock : Prop :=
  (∀ s : State, ∃ t, exec .powerOn s = .next t
    ∧ t.link = { inService := none, queue := [], overrun := none, pendingNotice := false, outgoing := none,
                 configured := false, stale := false, outPipe := [] }
    ∧ t.attention = { latched := 0, asserted := 0, noticeEnable := 0, panelEnable := 0, gained := 0, sequence := 0,
                      panelLine := false }
    ∧ t.freeEntries = 8192 ∧ (∀ n, t.take? n = none)
    ∧ (∀ g, t.segment g = .free) ∧ t.staging.waiting = [] ∧ t.staging.lastServed = 7
    ∧ (∀ p, t.pool p = { runs := [], short := [], dropped := 0 })
    ∧ t.verify.queue = [] ∧ (∀ x, t.active x = none)
    ∧ (∀ n, t.slot n = { Slot.reset with
        state := if (s.slot n).detect then .settling else .empty
        present := (s.slot n).detect, detect := (s.slot n).detect, settleRunning := (s.slot n).detect })
    ∧ (∀ x, t.target x = { Target.reset with
        link := (s.target x).link
        state := if (s.target x).link then .attaching else .absent
        op := if (s.target x).link then .identify else .none })
    ∧ t.pending = s.pending)
    ∧ (∀ (s : State) (f : OutFrame), s.link.outgoing = some (.reply, f) → f.kind = 0x02 → f.status = .ok →
    s.link.outPipe = [] →
    ∃ t, exec .powerOn s = .next t
      ∧ exec .frameSent s = .next { t with link := { t.link with configured := s.link.configured } })

/-- A link reset cuts off the frame being sent, discards the waiting frames and the OVERRUN reply, keeps a
request that is being carried out as stale and drops one whose reply is composed (log 27), gives a cut-off
notice's conditions back to the gained set, and unconfigures the link; that it discards the transfers at the USB level
is the model's choice (log 7). When the host configures the interface, link configured becomes yes and the outgoing
path makes its choice; a link that is configured already is not changed (log 2). -/
def Obligations.LinkResetAndConfigurationKeepTheRest : Prop :=
  (∀ (s : State), s.atRest = true →
    (∀ r, s.link.outgoing = some (.reply, r) → s.link.composed = some r) →
    exec .linkReset s = .next { s with
      attention := { s.attention with
        gained := match s.link.outgoing with
          | some (.notice g, _) => s.attention.gained ||| g
          | _ => s.attention.gained }
      link := {
        inService := if s.link.awaits then s.link.inService else none
        queue := [], overrun := none, outgoing := none
        pendingNotice := match s.link.outgoing with
          | some (.notice _, _) => true
          | _ => s.link.pendingNotice
        configured := false
        stale := s.link.awaits
        outPipe := [] } })
    ∧ (∀ (s : State), s.atRest = true → s.link.outPipe = [] →
    (s.link.configured = true → exec .linkConfigured s = .next s)
    ∧ (s.link.configured = false → (s.link.stale = true → s.link.composed = none) →
        exec .linkConfigured s = .next ({ s with link := { s.link with configured := true } }).choosePath))

/-! ### Requests that only report -/

/-- IDENTIFY answers the capability record, with the free count of the entry store and the part serial, and
RESET PART an empty OK; SLOT STATUS, TARGET STATUS, READ POOL and TAKE STATUS report in every state of what they
name, each field as R82, R124, R136 and R29 list it and with the codes of 11.6. None changes anything else. Which
widths the fields have, and how an absent one is given, is the model's reading (log 18), and so is it that TAKE STATUS
gives no digest, as R29, though R56 speaks of one (log 39); the model counts a reading of the settle time left (log 4). -/
def Obligations.PartAndStatusRequestsReport : Prop :=
  let flag (b : Bool) : Byte := if b then 1 else 0
  let byte (k : Nat) : Byte := BitVec.ofNat 8 k
  let present (width k : Nat) : List Byte := 1 :: le width k
  let laneCode (st : Option TakeState) : Byte := match st with
    | none => 0 | some .opened => 1 | some .running => 2 | some .starved => 3 | some .waiting => 4
    | some .suspended => 5 | some .stopping => 6 | some .draining => 7 | some .interrupted => 8
    | some .aborting => 9 | some .closed => 10
  let capacity (x : Target) : List Byte := match x.identity with
    | none => List.replicate 5 0
    | some i => 1 :: le 4 (i.capacity.toNat / x.unit)
  let slotBody (s : State) (n : LaneIx) : List Byte :=
    let x := s.slot n
    [match x.state with
        | .empty => 0 | .settling => 1 | .identifying => 2 | .ready => 3 | .faulted => 4 | .held => 5, flag x.present]
      ++ (if x.state = .settling then [1, byte (min (Config.settleTimeLeft s.freeReads) 250)] else [0, 0])
      ++ (if x.state = .identifying then [1, byte x.identifyAttempt] else [0, 0])
      ++ (match x.identity with
        | none => List.replicate 21 0
        | some i => 1 :: le 16 i.serial.toNat ++ le 4 i.sectors.toNat)
      ++ (match x.op with
        | .none => 0 :: List.replicate 10 0
        | .identify => 1 :: List.replicate 10 0
        | .piece r k => [2, 1] ++ le 4 r.start ++ [1] ++ le 2 r.count ++ [1, byte k]
        | .peek _ _ => 3 :: List.replicate 10 0)
      ++ [flag x.waitingPeek.isSome, flag x.waitingPiece.isSome]
      ++ le 4 x.retried ++ le 4 x.corrected ++ le 4 x.failed
      ++ [match lamp s n with | .off => 0 | .amber => 1 | .amberBlinking => 2 | .green => 3 | .red => 4,
        laneCode (s.laneState n)]
  let targetBody (s : State) (t : TargetIx) : List Byte :=
    let x := s.target t
    ([match x.state with | .absent => 0 | .attaching => 1 | .online => 2 | .faulted => 3 | .offline => 4] : List Byte)
      ++ (match x.faultReason with
        | none => ([0, 0] : List Byte) | some .identify => [1, 0] | some .write => [1, 1] | some .readback => [1, 2]
        | some .timeout => [1, 3])
      ++ (match x.identity with
        | none => List.replicate 25 0
        | some i => 1 :: le 20 i.serial.toNat ++ le 4 i.capacity.toNat)
      ++ le 4 x.generation.toNat ++ le 2 x.unit ++ [byte x.quota] ++ capacity x
      ++ [match x.op with
        | .none => 0 | .identify => 1 | .writePiece _ _ => 2 | .readback _ => 3 | .host (.read _ _) => 4
        | .host (.write _ _ _) => 5]
      ++ (match x.op with
        | .writePiece m _ => (match x.fifos[m] with
          | [] => List.replicate 10 0
          | o :: _ => [1, byte m.val, 1] ++ le 2 o.entry ++ [1] ++ le 4 o.chunk)
        | _ => List.replicate 10 0)
      ++ [match x.holder with | none => 9 | some (.lane m) => byte m.val | some .verifier => 8, byte x.grantCount]
      ++ ((List.finRange 8).map fun m => byte (x.fifos[m]).length)
      ++ [match s.active t with | none => 0 | some v => flag (v.read == .ready), flag x.waitingHost.isSome]
      ++ le 4 x.writeRepeats ++ le 4 x.readbackRepeats
      ++ le 4 ((s.pool t).runs.map Extent.len).sum ++ [byte (s.pool t).runs.length]
  let poolBody (s : State) (t : TargetIx) : List Byte :=
    let x := s.target t
    let p := s.pool t
    le 2 x.unit ++ capacity x ++ le 4 x.generation.toNat
      ++ le 4 (p.runs.map Extent.len).sum ++ [byte p.runs.length]
      ++ (p.runs.flatMap fun r => le 4 r.start ++ le 4 r.len) ++ (p.short.map fun n => byte n.val) ++ le 4 p.dropped
      ++ le 4 (((List.finRange 8).map fun n => match s.take? n with
          | none => 0
          | some tk => (tk.files.map fun q => match (q.2.copy t).allocation with
            | none => 0
            | some a => if a.generation = x.generation then (a.runs.map Extent.len).sum else 0).sum).sum)
  let takeBody (s : State) (n : LaneIx) : List Byte := match s.take? n with
    | none => List.replicate 116 0 ++ le 2 s.freeEntries
    | some k =>
      present 2 k.label.toNat ++ [laneCode (some k.state)]
        ++ (match k.waitReason with
          | none => ([0, 0, 0, 0] : List Byte) | some .segments => [1, 0, 0, 0] | some (.pool t) => [1, 1, 1, byte t.val]
          | some .targets => [1, 2, 0, 0])
        ++ [(1 : Byte), match k.headHold with | .none => 0 | .depth => 1 | .mark => 2 | .pause => 3 | .endOfList => 4,
          1, k.targets.setWidth 8, 1, byte k.k, 1, flag k.verify,
          1, match k.policy with | .skip => 0 | .fill => 1 | .halt => 2,
          1, match k.mismatch with | .record => 0 | .recopy => 1,
          1, byte k.retries, 1, flag k.alternate, 1, byte k.window]
        ++ (match k.snapshot with
          | none => List.replicate 21 0
          | some i => 1 :: le 16 i.serial.toNat ++ le 4 i.sectors.toNat)
        ++ present 2 k.entries.length ++ present 2 k.head ++ [(1 : Byte), flag k.listEnded, 1, flag k.halting]
        ++ (match k.reading with
          | .none => ([1, 0, 0, 0, 0, 0, 0] : List Byte)
          | .file e => [1, 1] ++ present 2 e ++ [0, 0]
          | .recopy e t => [1, 2] ++ present 2 e ++ [1, byte t.val])
        ++ [(1 : Byte), byte ((List.finRange 128).countP fun g => match s.segment g with
            | .free => false | .filling u _ => u.owner == n | .sending u _ => u.owner == n),
          1, byte k.recopyList.length]
        ++ present 8 k.counters.bytesRead ++ present 4 k.counters.chunksRead ++ present 4 k.counters.corrected
        ++ present 4 k.counters.filesFinished ++ present 4 k.counters.filesGood ++ present 4 k.counters.filesDamaged
        ++ present 4 k.counters.filesUnreadable ++ present 4 k.counters.filesCut
        ++ (match k.outcome with
          | none => ([0, 0] : List Byte) | some .complete => [1, 0] | some .stopped => [1, 1]
          | some .halted => [1, 2] | some .aborted => [1, 3])
        ++ (match k.cleared with | none => ([0, 0] : List Byte) | some c => [1, flag c])
        ++ le 2 s.freeEntries
  (∀ (tag : BitVec 16) (s : State), s.listening = true → s.atRest = true →
    exec (.identify tag) s = .next (s.replied 0x01 tag false .ok
        (le 2 0x4D57 ++ le 2 0x8400 ++ [1] ++ le 8 Config.partSerial.toNat ++ [8, 4, 128] ++ le 2 256
          ++ le 2 8192 ++ le 2 4096 ++ le 2 s.freeEntries ++ [16, 2, 32, 8, 8, 32]
          ++ le 2 128 ++ le 2 512 ++ le 2 2048 ++ le 2 8192 ++ le 2 2048 ++ [16, 4, 64, 4, 8, 4, 250]
          ++ le 2 500 ++ le 2 2000 ++ le 2 4600 ++ [4, 8, 16, 16, 8, 78] ++ le 4 4294967291))
    ∧ exec (.resetPart tag) s = .next (s.replied 0x02 tag false .ok []))
    ∧ (∀ (tag : BitVec 16) (x : Byte) (s : State), s.listening = true → s.atRest = true →
    (∀ n, laneOf x = some n →
      exec (.slotStatus tag x) s = .next (({ s with
        freeReads := if (s.slot n).state = SlotState.settling then s.freeReads + 1 else s.freeReads }).replied
          0x20 tag false .ok (slotBody s n))
      ∧ exec (.takeStatus tag x) s = .next (s.replied 0x58 tag false .ok (takeBody s n)))
    ∧ (∀ t, targetOf x = some t →
      exec (.targetStatus tag x) s = .next (s.replied 0x30 tag false .ok (targetBody s t))
      ∧ exec (.readPool tag x) s = .next (s.replied 0x42 tag false .ok (poolBody s t))))

/-- READ ATTENTION reports the attention unit and changes nothing. -/
def Obligations.ReadAttentionReportsAndChangesNothing : Prop :=
  ∀ (tag : BitVec 16) (s : State), s.listening = true → s.atRest = true →
    exec (.readAttention tag) s = .next (s.replied 0x10 tag false .ok
      (le 10 s.attention.latched.toNat ++ le 10 s.attention.asserted.toNat
        ++ le 10 s.attention.noticeEnable.toNat ++ le 10 s.attention.panelEnable.toNat
        ++ le 10 s.attention.gained.toNat ++ le 2 s.attention.sequence.toNat
        ++ [if s.attention.panelLine then 1 else 0]))

/-- READ MANIFEST answers the results of the entries asked for, from any lane but an IDLE one, each entry's result
field by field as R159, R160 and 11.6 give it, and behind them, for a CLOSED take, its outcome, cleared and files good,
all in the order of R164; and READ ALLOCATION one copy's state, reason and allocation; each with its refusals in their
order. They change nothing. The presence bytes of the fields around the entry results, and the layout of the
READ ALLOCATION reply, are the model's reading (log 18). -/
def Obligations.ManifestRequestsReportTheTake : Prop :=
  let flag (b : Bool) : Byte := if b then 1 else 0
  let byte (k : Nat) : Byte := BitVec.ofNat 8 k
  let copyCode (st : CopyState) : Byte := match st with
    | .none => 0 | .skipped => 1 | .writing => 2 | .written => 3 | .verifyWait => 4 | .verifying => 5
    | .verified => 6 | .mismatch => 7 | .recopyWait => 8 | .failed => 9
  let reasonCode (r : Option CopyReason) : Byte := match r with
    | none => 0 | some .source => 1 | some .sourceUnstable => 2 | some .cut => 3 | some .fault => 4
    | some .offline => 5 | some .absent => 6 | some .removed => 7 | some .aborted => 8
  let digest (d : Option Digest) : List Byte := match d with
    | none => List.replicate 14 0
    | some d => le 8 (d.b * 2 ^ 32 + d.a) ++ le 6 d.len
  let copyBytes (c : CopyRecord) : List Byte :=
    [copyCode c.state, reasonCode c.reason, flag c.recopied,
      match c.allocation with | none => 0xFF | some a => byte a.runs.length, flag c.readback.isSome]
      ++ le 4 c.chunksWritten
      ++ le 4 (match c.allocation with | none => 0 | some a => (a.runs.map Extent.len).sum)
      ++ digest c.readback
  let fileBytes (t : Take) (f : FileEntry) : List Byte :=
    [1, match f.progress with | .pending => 0 | .allocating => 1 | .moving => 2 | .draining => 3 | .finished => 4,
      match f.condition with | .clean => 0 | .corrected => 1 | .damaged => 2 | .unreadable => 3 | .cut => 4,
      byte f.runs.length,
      byte ((List.finRange 4).countP fun y =>
        (f.copy y).state == .verified || ((f.copy y).state == .written && !t.verify)),
      match f.goodFile with | none => 0xFF | some g => flag g, flag f.source.isSome]
      ++ le 4 f.fileId.toNat ++ le 6 f.length ++ le 4 (((f.length + 511) / 512 + 255) / 256)
      ++ le 4 f.chunksRead ++ le 4 f.correctedCount ++ digest f.source
      ++ (List.finRange 4).flatMap fun y => copyBytes (f.copy y)
  let entryBytes (t : Take) (e : Entry) : List Byte := match e with
    | .file f => fileBytes t f
    | .mark k reached => [2, flag reached] ++ le 2 k.toNat
    | .pause reached => [3, flag reached]
    | .endOfList => [4]
  (∀ (tag : BitVec 16) (x : Byte) (first : BitVec 16) (count : Byte) (n : LaneIx) (s : State),
    s.listening = true → s.atRest = true → laneOf x = some n →
    exec (.readManifest tag x first count) s = .next (
      if count = 0 ∨ 16 < count.toNat then s.replied 0x60 tag false .badField []
      else match s.take? n with
        | none => s.replied 0x60 tag false .wrongState []
        | some t =>
          if t.entries.length ≤ first.toNat then s.replied 0x60 tag false .outOfRange []
          else s.replied 0x60 tag false .ok
            ([laneStateCode (some t.state)] ++ le 2 t.label.toNat ++ le 2 t.entries.length ++ le 2 first.toNat
              ++ le 1 (min count.toNat (t.entries.length - first.toNat))
              ++ ((t.entries.drop first.toNat).take count.toNat).flatMap (entryBytes t)
              ++ (match t.outcome with
                | none => ([0, 0] : List Byte) | some .complete => [1, 0] | some .stopped => [1, 1]
                | some .halted => [1, 2] | some .aborted => [1, 3])
              ++ (match t.cleared with | none => ([0, 0] : List Byte) | some c => [1, flag c])
              ++ (if t.state = .closed then 1 :: le 4 t.counters.filesGood else [0, 0, 0, 0, 0]))))
    ∧ (∀ (tag : BitVec 16) (x : Byte) (index : BitVec 16) (y : Byte) (n : LaneIx) (s : State),
    s.listening = true → s.atRest = true → laneOf x = some n →
    exec (.readAllocation tag x index y) s = .next (
      match targetOf y with
      | none => s.replied 0x61 tag false .badField []
      | some g =>
        match s.take? n with
        | none => s.replied 0x61 tag false .wrongState []
        | some t =>
          match t.entries[index.toNat]? with
          | none => s.replied 0x61 tag false .outOfRange []
          | some (.file f) =>
            s.replied 0x61 tag false .ok
              ([copyCode (f.copy g).state, reasonCode (f.copy g).reason]
                ++ match (f.copy g).allocation with
                  | none => List.replicate 8 0
                  | some a =>
                    [1] ++ le 4 a.generation.toNat
                      ++ [if a.generation = (s.target g).generation then 1 else 0] ++ le 2 (s.target g).unit
                      ++ a.runs.flatMap fun r => le 4 r.start ++ le 4 r.len
                          ++ le 4 (r.start * (s.target g).unit) ++ le 4 (r.len * (s.target g).unit))
          | some _ => s.replied 0x61 tag false .badField []))

/-! ### Numbers out of range, and refusals -/

/-- A request that names a slot or lane above 7 or a target above 3 is refused with BAD_FIELD, whatever its
other fields hold, and nothing changes. A frame whose counts R191 refuses has been refused before, with
BAD_FIELD too. The reply of a take request to a lane that does not exist carries no lane state (log 19). -/
def Obligations.NumbersOutOfRangeAreRefused : Prop :=
  (∀ (tag : BitVec 16) (x : Byte) (s : State), s.listening = true → s.atRest = true → 8 ≤ x.toNat →
    exec (.slotStatus tag x) s = .next (s.replied 0x20 tag false .badField [])
    ∧ (∀ a c r al, exec (.peekCard tag x a c r al) s = .next (s.replied 0x21 tag false .badField []))
    ∧ exec (.holdSlot tag x) s = .next (s.replied 0x22 tag false .badField [])
    ∧ exec (.freeSlot tag x) s = .next (s.replied 0x23 tag false .badField []))
    ∧ (∀ (tag : BitVec 16) (x : Byte) (s : State), s.listening = true → s.atRest = true → 4 ≤ x.toNat →
    exec (.targetStatus tag x) s = .next (s.replied 0x30 tag false .badField [])
    ∧ (∀ u q, exec (.configureTarget tag x u q) s = .next (s.replied 0x31 tag false .badField []))
    ∧ exec (.takeTargetOffline tag x) s = .next (s.replied 0x32 tag false .badField [])
    ∧ exec (.bringTargetOnline tag x) s = .next (s.replied 0x33 tag false .badField [])
    ∧ (∀ a c, exec (.readTarget tag x a c) s = .next (s.replied 0x34 tag false .badField []))
    ∧ (∀ a c d, exec (.writeTarget tag x a c d) s = .next (s.replied 0x35 tag false .badField []))
    ∧ (∀ rs, exec (.grantSpace tag x rs) s = .next (s.replied 0x40 tag false .badField []))
    ∧ exec (.clearPool tag x) s = .next (s.replied 0x41 tag false .badField [])
    ∧ exec (.readPool tag x) s = .next (s.replied 0x42 tag false .badField []))
    ∧ (∀ (tag : BitVec 16) (x : Byte) (s : State), s.listening = true → s.atRest = true → 8 ≤ x.toNat →
    (∀ l ts k v p m r al w,
      exec (.openTake tag x l ts k v p m r al w) s = .next (s.replied 0x50 tag false .badField []))
    ∧ (∀ es, exec (.appendEntries tag x es) s = .next (s.replied 0x51 tag false .badField []))
    ∧ exec (.startTake tag x) s = .next (s.replied 0x52 tag false .badField [])
    ∧ exec (.suspendTake tag x) s = .next (s.replied 0x53 tag false .badField [])
    ∧ exec (.resumeTake tag x) s = .next (s.replied 0x54 tag false .badField [])
    ∧ exec (.stopTake tag x) s = .next (s.replied 0x55 tag false .badField [])
    ∧ exec (.abortTake tag x) s = .next (s.replied 0x56 tag false .badField [])
    ∧ (∀ k rm, exec (.adjustTake tag x k rm) s = .next (s.replied 0x57 tag false .badField []))
    ∧ exec (.takeStatus tag x) s = .next (s.replied 0x58 tag false .badField [])
    ∧ (∀ rc, exec (.releaseTake tag x rc) s = .next (s.replied 0x59 tag false .badField []))
    ∧ (∀ a c, exec (.readManifest tag x a c) s = .next (s.replied 0x60 tag false .badField []))
    ∧ (∀ i y, exec (.readAllocation tag x i y) s = .next (s.replied 0x61 tag false .badField [])))

/-- A request whose reply, when it is composed at once, has a status other than OK has changed nothing but the
link's reply. -/
def Obligations.RefusedRequestsChangeNothing : Prop :=
  ∀ (c : Instr) (tag : BitVec 16) (r : Request) (s t : State) (f : OutFrame),
    c.request? = some (tag, r) → s.listening = true → s.atRest = true →
    exec c s = .next t → t.link.composed = some f → f.status ≠ .ok →
    t = s.replied (requestKind r) tag false f.status f.body

/-! ### Attention requests -/

/-- CLEAR ATTENTION clears each named latched condition but the levels still asserted, lists what it cleared and
what it held, and evaluates the panel line again; a set that names a condition of 78 or above is refused. -/
def Obligations.ClearAttentionHoldsAssertedLevels : Prop :=
  ∀ (tag : BitVec 16) (conds : BitVec 80) (s : State), s.listening = true → s.atRest = true →
    (∀ c, s.attention.asserted.getLsbD c = true → isLevel c = true) →
    (2 ^ 78 ≤ conds.toNat → exec (.clearAttention tag conds) s = .next (s.replied 0x11 tag false .badField []))
    ∧ (conds.toNat < 2 ^ 78 → ∃ (latched cleared held : CondSet),
        exec (.clearAttention tag conds) s
          = .next (({ s with attention := { s.attention with
              latched := latched, panelLine := latched &&& s.attention.panelEnable != 0 } }).replied 0x11 tag false .ok
              (le 10 cleared.toNat ++ le 10 held.toNat ++ le 10 latched.toNat))
        ∧ ∀ c, c < 78 →
          cleared.getLsbD c = (conds.getLsbD c && s.attention.latched.getLsbD c
            && !(isLevel c && s.attention.asserted.getLsbD c))
          ∧ held.getLsbD c = (conds.getLsbD c && s.attention.latched.getLsbD c
            && (isLevel c && s.attention.asserted.getLsbD c))
          ∧ latched.getLsbD c = (s.attention.latched.getLsbD c && !cleared.getLsbD c))

/-- SET ATTENTION ENABLES replaces the sets whose flag is on; a latched condition added to the notice enables is
gained and sets the pending-notice flag if the gained set was empty; the panel line follows the new panel
enables. A set that names a condition of 78 or above is refused whatever its flag says. That a flag which is neither
on nor off is refused is the model's reading (log 20). -/
def Obligations.SetAttentionEnablesGainsLatchedConditions : Prop :=
  ∀ (tag : BitVec 16) (n p : BitVec 80) (nf pf : Byte) (s : State), s.listening = true → s.atRest = true →
    (2 ^ 78 ≤ n.toNat ∨ 2 ^ 78 ≤ p.toNat ∨ 2 ≤ nf.toNat ∨ 2 ≤ pf.toNat →
      exec (.setAttentionEnables tag n nf p pf) s = .next (s.replied 0x12 tag false .badField []))
    ∧ (n.toNat < 2 ^ 78 → p.toNat < 2 ^ 78 → nf.toNat < 2 → pf.toNat < 2 →
      let a := s.attention
      let notice : CondSet := if nf = 1 then n.setWidth 78 else a.noticeEnable
      let panel : CondSet := if pf = 1 then p.setWidth 78 else a.panelEnable
      let new : CondSet := notice &&& ~~~ a.noticeEnable &&& a.latched
      exec (.setAttentionEnables tag n nf p pf) s
        = .next (({ s with
            attention := { a with
              noticeEnable := notice, panelEnable := panel, gained := a.gained ||| new
              panelLine := if pf = 1 then a.latched &&& panel != 0 else a.panelLine }
            link := { s.link with
              pendingNotice := if new ≠ 0 ∧ a.gained = 0 then true else s.link.pendingNotice } }).replied
            0x12 tag false .ok (le 10 notice.toNat ++ le 10 panel.toNat ++ le 10 a.latched.toNat)))

/-- An event of an edge condition, and a rise, set a clear latch, which is gained if its notice is enabled and
moves the panel line; a set latch records no second event. A rise asserts its level, a fall ends it and leaves
the latch. -/
def Obligations.LatchesSetOnceAndOutliveTheirLevels : Prop :=
  ∀ (c : Nat) (s : State), c < 78 →
    (s.attention.latched.getLsbD c = true → s.latch c = s)
    ∧ (s.attention.latched.getLsbD c = false →
        (∀ d, (s.latch c).attention.latched.getLsbD d = (s.attention.latched.getLsbD d || decide (d = c)))
        ∧ (s.latch c).attention.panelLine
            = ((s.latch c).attention.latched &&& s.attention.panelEnable != 0)
        ∧ (∀ d, (s.latch c).attention.gained.getLsbD d
            = (s.attention.gained.getLsbD d || (decide (d = c) && s.attention.noticeEnable.getLsbD d)))
        ∧ (s.latch c).link.pendingNotice
            = (s.link.pendingNotice || (decide (s.attention.gained = 0) && s.attention.noticeEnable.getLsbD c)))
    ∧ (∀ d, (s.rise c).attention.asserted.getLsbD d = (s.attention.asserted.getLsbD d || decide (d = c)))
    ∧ (s.rise c).attention.latched = (s.latch c).attention.latched
    ∧ (∀ d, (s.fall c).attention.asserted.getLsbD d = (s.attention.asserted.getLsbD d && !decide (d = c)))
    ∧ (s.fall c).attention.latched = s.attention.latched ∧ (s.fall c).link = s.link

/-! ### Slot requests -/

/-- PEEK CARD: its refusals in their order; a peek that passes them is the operation in flight at an idle port
and waits at a busy one, with the retry setting in effect, and its reply is still to come. -/
def Obligations.PeekCardIsCheckedThenOffered : Prop :=
  ∀ (tag : BitVec 16) (x : Byte) (start : BitVec 32) (count retries alternate : Byte) (n : LaneIx) (s : State),
    s.listening = true → s.atRest = true → laneOf x = some n →
    (count = 0 ∨ 8 < count.toNat ∨ 2 ≤ alternate.toNat →
      exec (.peekCard tag x start count retries alternate) s = .next (s.replied 0x21 tag false .badField []))
    ∧ (count ≠ 0 → count.toNat ≤ 8 → alternate.toNat < 2 →
      ((s.slot n).state = .empty ∨ (s.slot n).state = .held ∧ (s.slot n).present = false →
        exec (.peekCard tag x start count retries alternate) s = .next (s.replied 0x21 tag false .noCard []))
      ∧ ((s.slot n).state = .settling ∨ (s.slot n).state = .identifying ∨ (s.slot n).state = .faulted
          ∨ (s.slot n).state = .held ∧ (s.slot n).present = true →
        exec (.peekCard tag x start count retries alternate) s = .next (s.replied 0x21 tag false .wrongState []))
      ∧ (∀ i, (s.slot n).state = .ready → (s.slot n).identity = some i →
        (i.sectors.toNat < start.toNat + count.toNat →
          exec (.peekCard tag x start count retries alternate) s = .next (s.replied 0x21 tag false .outOfRange []))
        ∧ (start.toNat + count.toNat ≤ i.sectors.toNat →
          let r := if retries.toNat = 3 then 4 else min retries.toNat 4
          let p : Peek :=
            { read := { start := start.toNat, count := count.toNat, retries := r, alternate := alternate == 1 }
              clamped := r != retries.toNat }
          exec (.peekCard tag x start count retries alternate) s = .next ((s.setSlot n
            (if (s.slot n).op = .none then { s.slot n with op := .peek p 1 }
             else { s.slot n with waitingPeek := some p })).awaiting 0x21 tag))))

/-- HOLD SLOT is refused while the lane is in any state from RUNNING to ABORTING; else the slot enters HELD with
its power off and no identity, and a HELD slot stays as it is. FREE SLOT brings a HELD slot to SETTLING with a
card present and to EMPTY without, and is refused in every other state. -/
def Obligations.SlotsAreHeldAndFreed : Prop :=
  ∀ (tag : BitVec 16) (x : Byte) (n : LaneIx) (s : State),
    s.listening = true → s.atRest = true → laneOf x = some n →
    let b : Byte := if (s.slot n).present then 1 else 0
    (s.laneState n ≠ none → s.laneState n ≠ some .opened → s.laneState n ≠ some .closed →
      exec (.holdSlot tag x) s = .next (s.replied 0x22 tag false .wrongState []))
    ∧ (s.laneState n = none ∨ s.laneState n = some .opened ∨ s.laneState n = some .closed →
      ((s.slot n).state = .held → exec (.holdSlot tag x) s = .next (s.replied 0x22 tag false .ok [5, b]))
      ∧ ((s.slot n).state ≠ .held → exec (.holdSlot tag x) s
          = .next ((s.setSlot n { s.slot n with
              state := .held, settleRunning := false, identity := none, identifyAttempt := 0, op := .none
              waitingPeek := none, waitingPiece := none }).replied 0x22 tag false .ok [5, b])))
    ∧ ((s.slot n).state ≠ .held → exec (.freeSlot tag x) s = .next (s.replied 0x23 tag false .wrongState []))
    ∧ ((s.slot n).state = .held → (s.slot n).present = false → exec (.freeSlot tag x) s
        = .next ((s.setSlot n { s.slot n with state := .empty }).replied 0x23 tag false .ok [0]))
    ∧ ((s.slot n).state = .held → (s.slot n).present = true → exec (.freeSlot tag x) s
        = .next ((s.setSlot n { s.slot n with
            state := .settling, settleRunning := true, retried := 0, corrected := 0, failed := 0 }).replied
            0x23 tag false .ok [1]))

/-- The tally lamp, by the table of R166. -/
def Obligations.LampFollowsSlotTakeAndCard : Prop :=
  ∀ (n : LaneIx) (s : State),
    ((s.slot n).state = .empty ∨ (s.slot n).state = .held → lamp s n = .off)
    ∧ ((s.slot n).state = .settling ∨ (s.slot n).state = .identifying → lamp s n = .amber)
    ∧ ((s.slot n).state = .faulted → lamp s n = .red)
    ∧ ((s.slot n).state = .ready →
      (s.laneState n = none ∨ s.laneState n = some .opened → lamp s n = .amber)
      ∧ (s.laneState n ≠ none → s.laneState n ≠ some .opened → s.laneState n ≠ some .closed →
          lamp s n = .amberBlinking)
      ∧ (∀ t, s.take? n = some t → t.state = .closed →
          (∀ i, t.snapshot = some i → (s.slot n).identity = some i →
            lamp s n = if t.cleared = some true then .green else .red)
          ∧ (t.snapshot = none ∨ (s.slot n).identity ≠ t.snapshot → lamp s n = .amber)))
    ∧ (s.TakesOk → lamp s n = .green →
        ∃ t i, s.take? n = some t ∧ t.state = .closed ∧ t.outcome = some .complete ∧ t.cleared = some true
          ∧ t.snapshot = some i ∧ (s.slot n).state = .ready ∧ (s.slot n).identity = some i)

/-! ### Target requests -/

/-- CONFIGURE TARGET sets unit and quota, clamped, and answers the values in effect; a change of unit is refused
as a whole while the pool holds a run or an unreleased take an allocation there. That an allocation of no run fixes
the unit too is the model's reading (log 33). -/
def Obligations.ConfigureTargetClampsAndGuardsTheUnit : Prop :=
  ∀ (tag : BitVec 16) (x : Byte) (unit : BitVec 16) (quota : Byte) (t : TargetIx) (s : State),
    s.listening = true → s.atRest = true → targetOf x = some t →
    let u := if unit.toNat ∈ [128, 512, 2048, 8192] then unit.toNat else 2048
    let q := if quota = 0 then 1 else min quota.toNat 16
    let fixed := (s.pool t).runs ≠ [] ∨ ∃ n e f, s.file? n e = some f ∧ (f.copy t).allocation ≠ none
    (u ≠ (s.target t).unit → fixed →
      exec (.configureTarget tag x unit quota) s = .next (s.replied 0x31 tag false .wrongState []))
    ∧ (u = (s.target t).unit ∨ ¬ fixed →
      exec (.configureTarget tag x unit quota) s
        = .next ((s.setTarget t { s.target t with unit := u, quota := q }).replied 0x31 tag
            (u != unit.toNat || q != quota.toNat) .ok (le 2 u ++ le 1 q)))

/-- TAKE TARGET OFFLINE (R126) and BRING TARGET ONLINE (R127) outside the leaving of ONLINE: a FAULTED target becomes
OFFLINE, or ATTACHING with its identify operation, and TARGET FAULT falls; an OFFLINE one stays, or attaches; an
ONLINE one stays when it is brought online; the other requests are refused or change nothing. That a FAULTED target
whose first attach failed becomes OFFLINE without an identity is the model's reading (log 36). -/
def Obligations.TargetsLeaveAndReenterService : Prop :=
  ∀ (tag : BitVec 16) (x : Byte) (t : TargetIx) (s : State),
    s.listening = true → s.atRest = true → targetOf x = some t →
    ((s.target t).state = .absent →
      exec (.takeTargetOffline tag x) s = .next (s.replied 0x32 tag false .noTarget [])
      ∧ exec (.bringTargetOnline tag x) s = .next (s.replied 0x33 tag false .noTarget []))
    ∧ ((s.target t).state = .attaching →
      exec (.takeTargetOffline tag x) s = .next (s.replied 0x32 tag false .wrongState [])
      ∧ exec (.bringTargetOnline tag x) s = .next (s.replied 0x33 tag false .ok [1]))
    ∧ ((s.target t).state = .online →
      exec (.bringTargetOnline tag x) s = .next (s.replied 0x33 tag false .ok [2]))
    ∧ ((s.target t).state = .offline →
      exec (.takeTargetOffline tag x) s = .next (s.replied 0x32 tag false .ok [4])
      ∧ exec (.bringTargetOnline tag x) s
          = .next ((s.setTarget t { s.target t with state := .attaching, op := .identify }).replied
              0x33 tag false .ok [1]))
    ∧ ((s.target t).state = .faulted →
      exec (.takeTargetOffline tag x) s
        = .next (((s.setTarget t { s.target t with state := .offline, faultReason := none }).fall
            (condTargetFault t)).replied 0x32 tag false .ok [4])
      ∧ exec (.bringTargetOnline tag x) s
          = .next (((s.setTarget t { s.target t with
              state := .attaching, faultReason := none, op := .identify }).fall (condTargetFault t)).replied
              0x33 tag false .ok [1]))

/-- READ TARGET and WRITE TARGET: their refusals in their order; one that passes them is granted a free channel at
once and waits at a busy one, and its reply is still to come. A write may share no drive sector with the allocation
of a copy that is not terminal, or of a file that is ALLOCATING, nor with a free run of the pool. -/
def Obligations.HostOperationsAreCheckedThenGranted : Prop :=
  ∀ (tag : BitVec 16) (x : Byte) (start : BitVec 32) (count : Byte) (data : List Byte) (t : TargetIx) (s : State),
    s.listening = true → s.atRest = true → targetOf x = some t →
    let rd := exec (.readTarget tag x start count) s
    let wr := exec (.writeTarget tag x start count data) s
    let offered (h : HostOp) : State := s.setTarget t
      (if (s.target t).op = .none then { s.target t with op := .host h, waitingHost := none }
       else { s.target t with waitingHost := some h })
    let shares (r : Extent) : Prop := ∃ b, start.toNat ≤ b ∧ b < start.toNat + count.toNat
      ∧ r.start * (s.target t).unit ≤ b ∧ b < (r.start + r.len) * (s.target t).unit
    let busy : Prop := ∃ n tk e f a r, s.take? n = some tk ∧ tk.file? e = some f ∧ (f.copy t).allocation = some a
      ∧ r ∈ a.runs ∧ (f.progress = .allocating ∨ (f.copy t).state.terminal tk.verify = false) ∧ shares r
    (data.length ≠ count.toNat * 512 → wr = .next (s.replied 0x35 tag false .badField []))
    ∧ (count = 0 ∨ 8 < count.toNat → rd = .next (s.replied 0x34 tag false .badField [])
        ∧ wr = .next (s.replied 0x35 tag false .badField []))
    ∧ (count ≠ 0 → count.toNat ≤ 8 → data.length = count.toNat * 512 →
      ((s.target t).state = .absent → rd = .next (s.replied 0x34 tag false .noTarget [])
        ∧ wr = .next (s.replied 0x35 tag false .noTarget []))
      ∧ ((s.target t).state = .attaching ∨ (s.target t).state = .faulted ∨ (s.target t).state = .offline →
        rd = .next (s.replied 0x34 tag false .wrongState []) ∧ wr = .next (s.replied 0x35 tag false .wrongState []))
      ∧ (∀ i, (s.target t).state = .online → (s.target t).identity = some i →
        (i.capacity.toNat < start.toNat + count.toNat → rd = .next (s.replied 0x34 tag false .outOfRange [])
          ∧ wr = .next (s.replied 0x35 tag false .outOfRange []))
        ∧ (start.toNat + count.toNat ≤ i.capacity.toNat →
          rd = .next ((offered (.read start.toNat count.toNat)).awaiting 0x34 tag)
          ∧ (0 < (s.target t).unit → (∀ r ∈ s.recordedRuns t, 1 ≤ r.len) →
            (busy → wr = .next (s.replied 0x35 tag false .regionBusy []))
            ∧ (¬ busy → (∃ r ∈ (s.pool t).runs, shares r) → wr = .next (s.replied 0x35 tag false .poolRegion []))
            ∧ (¬ busy → (∀ r ∈ (s.pool t).runs, ¬ shares r) →
              wr = .next ((offered (.write start.toNat count.toNat data)).awaiting 0x35 tag))))))

/-- A target leaves ONLINE for OFFLINE on TAKE TARGET OFFLINE, for ABSENT on link loss (without identity, its
pool emptied), and for FAULTED on a timeout, on the second error of a write order and on the error of a repeated
readback read; its record is as `State.leftOnline` says and no verification is active there. Every copy on it of a
started file that was not yet safe is FAILED with the reason of the way it went, and the safe copies keep their state.
A host operation there is answered TARGET_FAULT: with class TIMEOUT when it ran into its own timer, else with class
ENDED and the state the target has gone to. -/
def Obligations.TargetsLeaveOnline : Prop :=
  ∀ (x : TargetIx) (s : State), (s.target x).state = .online → s.link.stale = false →
    (∀ tag y, s.listening = true → s.atRest = true → targetOf y = some x →
      ∃ t, exec (.takeTargetOffline tag y) s = .next t ∧ s.leftOnline t x .offline none
        ∧ s.copiesLost t x .offline)
    ∧ ((s.target x).link = true →
      ∃ t, exec (.driveLinkLoss x) s = .next t ∧ t.active x = none ∧ (t.pool x).runs = []
        ∧ t.target x = { s.target x with
            state := .absent, link := false, faultReason := none, identity := none, fifos := (t.target x).fifos
            op := .none, holder := none, grantCount := 0, waitingHost := none }
        ∧ s.copiesLost t x .absent
        ∧ ((∃ h, (s.target x).op = .host h) ∨ (s.target x).waitingHost ≠ none → s.hostFailed t [2, 0]))
    ∧ ((s.target x).op ≠ .none → (s.target x).op ≠ .identify →
      ∃ t, exec (.deviceOpTimeout x) s = .next t ∧ s.leftOnline t x .faulted (some .timeout)
        ∧ s.copiesLost t x .fault
        ∧ (∀ h, (s.target x).op = .host h → (s.target x).waitingHost = none → s.hostFailed t [1])
        ∧ ((s.target x).waitingHost ≠ none → s.hostFailed t [2, 3]))
    ∧ (∀ n i o rest, (s.target x).op = .writePiece n i → (s.target x).fifos[n] = o :: rest →
        o.withdrawn = false → o.errors ≠ 0 →
      ∃ t, exec (.writePieceComplete x false true) s = .next t ∧ s.leftOnline t x .faulted (some .write)
        ∧ s.copiesLost t x .fault ∧ ((s.target x).waitingHost ≠ none → s.hostFailed t [2, 3]))
    ∧ (∀ v data, (s.target x).op = .readback true → s.active x = some v →
      ∃ t, exec (.readbackReadComplete x false true data) s = .next t
        ∧ s.leftOnline t x .faulted (some .readback)
        ∧ s.copiesLost t x .fault ∧ ((s.target x).waitingHost ≠ none → s.hostFailed t [2, 3]))

/-- A target out of service has no write order, no copy that is not safe, no pair on a recopy list, no verify
order and no active verification: every step keeps this. -/
def Obligations.NothingIsLeftAtATargetOutOfService : Prop :=
  ∀ (s t : State), s.OutOfServiceOk → step s = .next t → t.OutOfServiceOk

/-! ### Space pools -/

/-- GRANT SPACE is accepted exactly when it holds 1 to 8 runs of at least one unit, the target has an identity
and is not ABSENT or ATTACHING, every run lies within the capacity in units, the runs share no unit with each
other or with a run recorded on the target, and the merged list has at most 32 runs. -/
def Obligations.GrantIsAcceptedExactlyWhenItsRunsAreFree : Prop :=
  ∀ (t : TargetIx) (rs : List Extent) (s : State), (∀ r ∈ s.recordedRuns t, 1 ≤ r.len) →
    (s.grantRefusal t rs = none ↔
      1 ≤ rs.length ∧ rs.length ≤ 8 ∧ (∀ r ∈ rs, 1 ≤ r.len)
        ∧ (s.target t).state ≠ .absent ∧ (s.target t).state ≠ .attaching
        ∧ ((s.target t).state = .faulted → (s.target t).identity ≠ none)
        ∧ (∀ r ∈ rs, ∃ i, (s.target t).identity = some i ∧ r.start + r.len ≤ i.capacity.toNat / (s.target t).unit)
        ∧ rs.Pairwise (fun a b => a.start + a.len ≤ b.start ∨ b.start + b.len ≤ a.start)
        ∧ (∀ r ∈ rs, ∀ h ∈ s.recordedRuns t, r.start + r.len ≤ h.start ∨ h.start + h.len ≤ r.start)
        ∧ (mergeRuns (s.pool t).runs rs).length ≤ 32)

/-- GRANT SPACE merges an accepted request into the pool and answers its free units and runs; a refused one,
with the field its refusal names, changes nothing. With lanes on the short list each of them then ends its wait,
in list order. CLEAR POOL empties the pool's runs and answers how many runs and units it removed. -/
def Obligations.GrantAndClearChangeThePool : Prop :=
  (∀ (tag : BitVec 16) (x : Byte) (runs : List UnitRunArg) (t : TargetIx) (s : State), targetOf x = some t →
    let rs := runs.map fun r => ({ start := r.start.toNat, len := r.length.toNat } : Extent)
    let p : Pool := { s.pool t with runs := mergeRuns (s.pool t).runs rs }
    (∀ st body, s.listening = true → s.atRest = true → s.grantRefusal t rs = some (st, body) →
      exec (.grantSpace tag x runs) s = .next (s.replied 0x40 tag false st body))
    ∧ (s.listening = true → s.atRest = true → s.grantRefusal t rs = none → (s.pool t).short = [] →
      exec (.grantSpace tag x runs) s = .next ((s.setPool t p).replied 0x40 tag false .ok
        (le 4 (unitsOf p.runs) ++ le 1 p.runs.length)))
    ∧ (s.grantRefusal t rs = none →
      serveGrantSpace x runs s
        = ((s.setPool t p).answer .ok (le 4 (unitsOf p.runs) ++ le 1 p.runs.length),
            (s.pool t).short.map Task.endWait)))
    ∧ (∀ (tag : BitVec 16) (x : Byte) (t : TargetIx) (s : State),
    s.listening = true → s.atRest = true → targetOf x = some t →
    exec (.clearPool tag x) s = .next ((s.setPool t { s.pool t with runs := [] }).replied 0x41 tag false .ok
      (le 1 (s.pool t).runs.length ++ le 4 (unitsOf (s.pool t).runs))))

/-- In every step the free runs of a pool stay in ascending order with gaps between them, and all runs recorded on a
target, those of the allocations of unreleased takes included, hold at least one unit each and stay apart. A run that
shares no unit with an ordered list enters it: the list stays ordered with gaps, covers the units of both, and counts
their sum. A pool supplies a request from the low end of its first eight runs where they hold enough; else as one
run, from the start of the lowest run that holds it all; and takes nothing when it is short: what is given and what
is left are the list's units, the given ones as many as asked for, in at most eight runs. -/
def Obligations.RunsMergeAndSupplyFromTheLowEnd : Prop :=
  (∀ (s t : State), s.SpaceOk → step s = .next t → t.SpaceOk)
    ∧ (∀ (r : Extent) (runs : List Extent), orderedRuns runs → 1 ≤ r.len →
    (∀ h ∈ runs, r.start + r.len ≤ h.start ∨ h.start + h.len ≤ r.start) →
    orderedRuns (insertRun r runs)
      ∧ unitsOf (insertRun r runs) = unitsOf runs + r.len
      ∧ (∀ u, coversUnit (insertRun r runs) u ↔ coversUnit runs u ∨ (r.start ≤ u ∧ u < r.start + r.len))
      ∧ (insertRun r runs).length ≤ runs.length + 1)
    ∧ (∀ (need : Nat) (runs : List Extent), orderedRuns runs →
    (supply need runs = none ↔ unitsOf (runs.take 8) < need ∧ ∀ r ∈ runs, r.len < need)
    ∧ ∀ given left, supply need runs = some (given, left) →
      unitsOf given = need ∧ given.length ≤ 8 ∧ orderedRuns given ∧ orderedRuns left
        ∧ left.length ≤ runs.length
        ∧ (∀ u, coversUnit runs u ↔ coversUnit given u ∨ coversUnit left u)
        ∧ (∀ u, ¬ (coversUnit given u ∧ coversUnit left u))
        ∧ (need ≤ unitsOf (runs.take 8) → ∀ u v, coversUnit given u → coversUnit left v → u < v)
        ∧ (unitsOf (runs.take 8) < need → ∃ i r, runs[i]? = some r ∧ need ≤ r.len
          ∧ (∀ (j : Nat) q, j < i → runs[j]? = some q → q.len < need)
          ∧ given = [{ start := r.start, len := need }]
          ∧ left = if r.len = need then runs.eraseIdx i
              else runs.set i { start := r.start + need, len := r.len - need }))

/-! ### Take requests -/

/-- OPEN TAKE opens a take in an IDLE lane with the values of R1 and R21, window and retries clamped; it is
refused in any other state, and for a target set, K or code that names no value. That the lane's state stands first
in its replies is the model's choice (log 18). -/
def Obligations.OpenTakeCreatesTheContext : Prop :=
  ∀ (tag : BitVec 16) (x : Byte) (label : BitVec 16) (ts k v p m r al w : Byte) (n : LaneIx) (s : State),
    s.listening = true → s.atRest = true → laneOf x = some n →
    let window := if w = 0 then 8 else min w.toNat 32
    let retries := if r = 3 then 4 else min r.toNat 4
    (∀ t, s.take? n = some t → exec (.openTake tag x label ts k v p m r al w) s
        = .next (s.replied 0x50 tag false .wrongState [laneStateCode (some t.state)]))
    ∧ (s.take? n = none →
      (ts = 0 ∨ 16 ≤ ts.toNat ∨ k = 0 ∨ setSize (ts.setWidth 4) < k.toNat ∨ 2 ≤ v.toNat ∨ 3 ≤ p.toNat ∨ 2 ≤ m.toNat
          ∨ 2 ≤ al.toNat →
        exec (.openTake tag x label ts k v p m r al w) s = .next (s.replied 0x50 tag false .badField [0]))
      ∧ (∀ policy mismatch, ts ≠ 0 → ts.toNat < 16 → k ≠ 0 → k.toNat ≤ setSize (ts.setWidth 4) → v.toNat < 2 →
          al.toNat < 2 → policy.code = p → mismatch.code = m →
        exec (.openTake tag x label ts k v p m r al w) s = .next ((s.setLane n (some
          { label := label, state := .opened, waitReason := none, headHold := .none, targets := ts.setWidth 4
            k := k.toNat, verify := v == 1, policy := policy, mismatch := mismatch, retries := retries
            alternate := al == 1, window := window, snapshot := none, entries := [], head := 0, listEnded := false
            halting := false, reading := .none, nextChunk := 0, chunkRead := none
            recopyDigest := { a := 0, b := 0, len := 0 }, recopyList := []
            counters := { bytesRead := 0, chunksRead := 0, corrected := 0, filesFinished := 0, filesGood := 0
                          filesDamaged := 0, filesUnreadable := 0, filesCut := 0 }
            outcome := none, cleared := none })).replied 0x50 tag (window != w.toNat || retries != r.toNat) .ok
            [1, BitVec.ofNat 8 window, BitVec.ofNat 8 retries])))

/-- A batch of entries passes the checks of APPEND ENTRIES exactly when it holds 1 to 16 entries, END only at
its end, every FILE entry's length below 2^40 with 0 to 16 runs of at least one sector that sum to its sectors
and, with a snapshot, end within the card, and both bounds of the entry store hold. -/
def Obligations.BatchesAreCheckedWhole : Prop :=
  ∀ (tk : Take) (free : Nat) (batch : List Entry),
    (appendRefusal tk free batch = none ↔
      1 ≤ batch.length ∧ batch.length ≤ 16 ∧ (∀ i, batch[i]? = some .endOfList → i + 1 = batch.length)
        ∧ (∀ f, Entry.file f ∈ batch → f.length < 2 ^ 40 ∧ f.runs.length ≤ 16 ∧ (∀ r ∈ f.runs, 1 ≤ r.len)
            ∧ (f.runs.map Extent.len).sum = (f.length + 511) / 512
            ∧ ∀ c, tk.snapshot = some c → ∀ r ∈ f.runs, r.start + r.len ≤ c.sectors.toNat)
        ∧ tk.entries.length + batch.length ≤ 4096 ∧ batch.length ≤ free)

/-- APPEND ENTRIES: refused with WRONG_STATE in a lane that takes no entries or whose list has ended, with the
first failing check's status otherwise, and then nothing changes; accepted, the batch joins the list and leaves
the free count. A lane that is OPEN, SUSPENDED or WAITING, RUNNING with a reading, or INTERRUPTED with work that needs
its card, keeps its state. A RUNNING lane without a reading works its head again, and a MARK or PAUSE behind
unfinished files, or a file behind two files in progress, holds it. A STARVED lane works its head, and so does an
INTERRUPTED one with no work left that needs the card: with END alone it is DRAINING, or CLOSED with COMPLETE when all
is done; with a file and too few live targets a STARVED lane is WAITING with TARGETS. That the lane's state stands in
front of the other fields of the reply is the model's choice (log 18), that it is the state after the head has been
worked the model's reading (log 35). -/
def Obligations.AppendEntriesAddsTheWholeBatch : Prop :=
  ∀ (tag : BitVec 16) (x : Byte) (es : List EntryArg) (n : LaneIx) (s : State),
    s.listening = true → s.atRest = true → laneOf x = some n → shapeRefusal (.appendEntries x es) = none →
    let batch := es.map Entry.ofArg
    (s.take? n = none → exec (.appendEntries tag x es) s = .next (s.replied 0x51 tag false .wrongState [0]))
    ∧ ∀ tk, s.take? n = some tk →
      (tk.state = .stopping ∨ tk.state = .draining ∨ tk.state = .aborting ∨ tk.state = .closed ∨ tk.listEnded = true →
        exec (.appendEntries tag x es) s
          = .next (s.replied 0x51 tag false .wrongState [laneStateCode (some tk.state)]))
      ∧ (tk.listEnded = false → tk.state ∈ [.opened, .running, .starved, .waiting, .suspended, .interrupted] →
        (∀ st body, appendRefusal tk s.freeEntries batch = some (st, body) →
          exec (.appendEntries tag x es) s
            = .next (s.replied 0x51 tag false st (laneStateCode (some tk.state) :: body)))
        ∧ (appendRefusal tk s.freeEntries batch = none →
          let stored : State := { s with freeEntries := s.freeEntries - batch.length }
          let added : Take := { tk with entries := tk.entries ++ batch, listEnded := batch.any Entry.isEnd }
          let fields : List Byte := le 2 tk.entries.length ++ [BitVec.ofNat 8 batch.length]
          let gives (u : State) (code : Byte) : Prop :=
            exec (.appendEntries tag x es) s = .next (u.replied 0x51 tag false .ok (code :: fields))
          (tk.state = .opened ∨ tk.state = .suspended ∨ tk.state = .waiting
              ∨ tk.state = .interrupted ∧ added.needsCard = true →
            gives (stored.setLane n (some added)) (laneStateCode (some tk.state)))
          ∧ (tk.state = .running → tk.reading ≠ .none →
            gives (stored.setLane n (some { added with headHold := .none })) 2)
          ∧ (tk.state = .running → tk.reading = .none → tk.recopyList = [] →
            (∀ k r, added.entries[tk.head]? = some (.mark k r) → added.earlierFinished = false →
              gives (stored.setLane n (some { added with headHold := .mark })) 2)
            ∧ (∀ r, added.entries[tk.head]? = some (.pause r) → added.earlierFinished = false →
              gives (stored.setLane n (some { added with headHold := .pause })) 2)
            ∧ (∀ f, added.entries[tk.head]? = some (.file f) → s.cardAtHand n = true → 2 ≤ added.depth →
              gives (stored.setLane n (some { added with headHold := .depth })) 2))
          ∧ (tk.state = .starved ∨ tk.state = .interrupted ∧ added.needsCard = false → batch = [.endOfList] →
              tk.head = tk.entries.length → tk.reading = .none → tk.recopyList = [] →
            ((∃ e f, tk.file? e = some f ∧ f.progress ≠ .finished) →
              gives ((if tk.state = .starved then stored.fall (condLaneStarved n) else stored).setLane n
                (some { added with state := .draining, waitReason := none, headHold := .endOfList })) 7)
            ∧ ((∀ e f, tk.file? e = some f → f.progress = .finished) → s.laneClear n = true →
              ∃ t tk' r, exec (.appendEntries tag x es) s = .next t ∧ t.take? n = some tk' ∧ tk'.state = .closed
                ∧ tk'.outcome = some .complete ∧ tk'.snapshot = tk.snapshot
                ∧ (tk'.cleared = some true ↔ ∀ e f, tk.file? e = some f → f.isGood tk.verify tk.k = true)
                ∧ t.attention.latched.getLsbD (condLaneDone n) = true
                ∧ t.link.composed = some r ∧ r.status = .ok ∧ r.body = 10 :: fields))
          ∧ (∀ f rest, tk.state = .starved → batch = .file f :: rest → tk.head = tk.entries.length →
              tk.reading = .none → tk.recopyList = [] → s.cardAtHand n = true → added.depth < 2 →
              (s.liveTargets tk).length < tk.k → (∀ t, n ∉ (s.pool t).short) →
            gives (((stored.fall (condLaneStarved n)).setLane n (some
              { added with state := .waiting, waitReason := some .targets, headHold := .none })).rise
                (condLaneWaiting n)) 4)))

/-- START TAKE: refused outside OPEN and without a READY card, and with the take index of the first entry that
runs past the card; started, a take with no entries is STARVED, one whose list is END alone, with nothing of the lane
left in the part, is CLOSED with COMPLETE and cleared, one with a MARK alone reaches it, raises LANE MARK and is
STARVED behind it, one that begins with a PAUSE reaches it and is SUSPENDED behind it, and one whose first file finds
too few live targets is WAITING with TARGETS. That the lane's state stands in front of the other fields of the reply is
the model's choice (log 18), that it is the state after the head has been worked the model's reading (log 35). -/
def Obligations.StartTakeTakesTheSnapshotAndWorksTheHead : Prop :=
  ∀ (tag : BitVec 16) (x : Byte) (n : LaneIx) (s : State),
    s.listening = true → s.atRest = true → laneOf x = some n →
    (s.laneState n ≠ some .opened →
      exec (.startTake tag x) s = .next (s.replied 0x52 tag false .wrongState [laneStateCode (s.laneState n)]))
    ∧ ∀ tk, s.take? n = some tk → tk.state = .opened →
      ((s.slot n).state = .empty ∨ (s.slot n).state = .held ∧ (s.slot n).present = false →
        exec (.startTake tag x) s = .next (s.replied 0x52 tag false .noCard [1]))
      ∧ ((s.slot n).state = .settling ∨ (s.slot n).state = .identifying ∨ (s.slot n).state = .faulted
          ∨ (s.slot n).state = .held ∧ (s.slot n).present = true →
        exec (.startTake tag x) s = .next (s.replied 0x52 tag false .wrongState [1]))
      ∧ ∀ i, (s.slot n).state = .ready → (s.slot n).identity = some i →
        (∀ e, tk.entries.findIdx? (Entry.beyond i.sectors.toNat) = some e →
          exec (.startTake tag x) s = .next (s.replied 0x52 tag false .outOfRange (1 :: le 2 e)))
        ∧ (tk.entries.findIdx? (Entry.beyond i.sectors.toNat) = none → tk.reading = .none → tk.recopyList = [] →
          let card := le 16 i.serial.toNat ++ le 4 i.sectors.toNat
          let started : Take := { tk with snapshot := some i, head := 0, waitReason := none }
          (tk.entries = [] → tk.listEnded = false →
            exec (.startTake tag x) s = .next (((s.setLane n (some
              { started with state := .starved, headHold := .none })).rise (condLaneStarved n)).replied
                0x52 tag false .ok (3 :: card)))
          ∧ (tk.entries = [.endOfList] → s.laneClear n = true →
            exec (.startTake tag x) s = .next (((s.setLane n (some
              { started with
                state := .closed, headHold := .none, outcome := some .complete, cleared := some true
                counters := { tk.counters with filesGood := 0 } })).latch (condLaneDone n)).replied
                0x52 tag false .ok (10 :: card)))
          ∧ (∀ k r, tk.entries = [.mark k r] → tk.listEnded = false →
            exec (.startTake tag x) s = .next ((((s.setLane n (some
              { started with
                state := .starved, headHold := .none, entries := [.mark k true], head := 1 })).latch
                (condLaneMark n)).rise (condLaneStarved n)).replied 0x52 tag false .ok (3 :: card)))
          ∧ (∀ r, tk.entries[0]? = some (.pause r) →
            exec (.startTake tag x) s = .next (((s.setLane n (some
              { started with
                state := .suspended, headHold := .none, entries := tk.entries.set 0 (.pause true), head := 1 })).rise
                (condLaneSuspended n)).replied 0x52 tag false .ok (5 :: card)))
          ∧ (∀ f, tk.entries[0]? = some (.file f) → f.progress = .pending → started.depth < 2 →
              (s.liveTargets tk).length < tk.k → (∀ t, n ∉ (s.pool t).short) →
            exec (.startTake tag x) s = .next (((s.setLane n (some
              { started with state := .waiting, waitReason := some .targets, headHold := .none })).rise
                (condLaneWaiting n)).replied 0x52 tag false .ok (4 :: card))))

/-- The start of a file: with one target in the set, ONLINE and with the space, START TAKE makes the first file
MOVING and its copy WRITING over the allocation the pool supplies, claims a FREE segment for chunk 0 and hands
its first piece to the card port. -/
def Obligations.FirstFileStartsMoving : Prop :=
  ∀ (tag : BitVec 16) (x : Byte) (n : LaneIx) (s : State) (tk : Take) (f : FileEntry) (i : CardIdentity)
      (y : TargetIx) (given left : List Extent) (p : Piece) (ps : List Piece),
    s.listening = true → s.atRest = true → laneOf x = some n → s.take? n = some tk → tk.state = .opened →
    tk.reading = .none → tk.recopyList = [] → tk.chunkRead = none → tk.targets = 1#4 <<< y.val → tk.k = 1 →
    (s.slot n).state = .ready → (s.slot n).identity = some i → (s.slot n).op = .none →
    tk.entries.findIdx? (Entry.beyond i.sectors.toNat) = none →
    tk.entries[0]? = some (.file f) → ({ tk with head := 0 } : Take).depth < 2 →
    f.progress = .pending → f.runs ≠ [] → 0 < f.chunksTotal → (f.copy y).allocation = none →
    f.pieces 0 = p :: ps → p.lba + p.count ≤ i.sectors.toNat →
    (s.target y).state = .online → (∀ t, n ∉ (s.pool t).short) →
    supply (unitsFor f.length (s.target y).unit) (s.pool y).runs = some (given, left) →
    n ∉ s.staging.waiting → heldSegments s n < tk.window → s.firstFree ≠ none →
    ∃ t tk' f', exec (.startTake tag x) s = .next t ∧ t.take? n = some tk' ∧ tk'.state = .running
      ∧ tk'.reading = .file 0 ∧ tk'.head = 1 ∧ tk'.snapshot = some i ∧ tk'.file? 0 = some f'
      ∧ f'.progress = .moving
      ∧ f'.copy y = { f.copy y with
          state := .writing, allocation := some { runs := given, generation := (s.target y).generation } }
      ∧ (t.pool y).runs = left
      ∧ (∃ g, tk'.chunkRead = some { segment := g, pieces := p :: ps } ∧ s.segment g = .free
          ∧ t.segment g = .filling { owner := n, entry := 0, chunk := 0, pass := none, data := [] } false)
      ∧ (t.slot n).op = .piece
          { start := p.lba, count := p.count, retries := tk.retries, alternate := tk.alternate } 1

/-- SUSPEND TAKE: a lane in RUNNING, STARVED or WAITING leaves every wait and enters SUSPENDED, one that is
SUSPENDED stays so, and every other is refused. That a lane in RUNNING or STARVED leaves the short lists it stands on
too is the model's choice (log 11: R138 speaks of the leaving of WAITING). -/
def Obligations.SuspendTakeHoldsTheLane : Prop :=
  ∀ (tag : BitVec 16) (x : Byte) (n : LaneIx) (s : State),
    s.listening = true → s.atRest = true → laneOf x = some n →
    (∀ tk, s.take? n = some tk → tk.state = .running ∨ tk.state = .starved ∨ tk.state = .waiting →
      exec (.suspendTake tag x) s = .next ((((s.leaveWaiting n).leaveAllShort n).enter n .suspended).replied
        0x53 tag false .ok [5])
      ∧ (((s.leaveWaiting n).leaveAllShort n).enter n .suspended).take? n
          = some { tk with state := .suspended, waitReason := none, headHold := .none })
    ∧ (s.laneState n = some .suspended →
      exec (.suspendTake tag x) s = .next (s.replied 0x53 tag false .ok [5]))
    ∧ (s.laneState n ∉ [some .running, some .starved, some .waiting, some .suspended] →
      exec (.suspendTake tag x) s = .next (s.replied 0x53 tag false .wrongState [laneStateCode (s.laneState n)]))

/-- RESUME TAKE: a SUSPENDED lane enters RUNNING and works its head: it goes on with the chunk read in flight, is
STARVED with nothing at its head, begins the oldest recopy of its list with the card at hand, and is INTERRUPTED
without it. RUNNING, STARVED and WAITING stay; an INTERRUPTED one is checked against the card in its slot; every other
is refused. The recopy begins from the first byte: its pair has left the list, the copy is WRITING, recopied, with no
chunk written, and the first piece of chunk 0 is at the card port. With the take's card a cut file restarts from its
first byte: MOVING, CLEAN, its counts 0, its running digest at the start, and its WRITING copies at no chunk written;
the card snapshot stays. That the lane's state stands in front of the other fields of the reply, and that the field of
the restarted file stands, as absent, in every OK reply, is the model's choice (log 18); that the state is the one
after the head has been worked the model's reading (log 35). -/
def Obligations.ResumeTakeGoesOnOrRestarts : Prop :=
  (∀ (tag : BitVec 16) (x : Byte) (n : LaneIx) (s : State),
    s.listening = true → s.atRest = true → laneOf x = some n →
    (s.laneState n ∈ [some .running, some .starved, some .waiting] →
      exec (.resumeTake tag x) s = .next (s.replied 0x54 tag false .ok [laneStateCode (s.laneState n), 0, 0, 0]))
    ∧ (s.laneState n ∈ [none, some .opened, some .stopping, some .draining, some .aborting, some .closed] →
      exec (.resumeTake tag x) s = .next (s.replied 0x54 tag false .wrongState [laneStateCode (s.laneState n)]))
    ∧ ∀ tk, s.take? n = some tk →
      (tk.state = .suspended →
        (tk.reading ≠ .none → tk.chunkRead ≠ none →
          exec (.resumeTake tag x) s = .next (((s.fall (condLaneSuspended n)).setLane n (some
            { tk with state := .running, waitReason := none, headHold := .none })).replied
              0x54 tag false .ok [2, 0, 0, 0]))
        ∧ (tk.reading = .none → tk.recopyList = [] → tk.entries.length ≤ tk.head → tk.listEnded = false →
          exec (.resumeTake tag x) s = .next ((((s.fall (condLaneSuspended n)).setLane n (some
            { tk with state := .starved, waitReason := none, headHold := .none })).rise (condLaneStarved n)).replied
              0x54 tag false .ok [3, 0, 0, 0]))
        ∧ (tk.reading = .none → tk.recopyList ≠ [] → s.cardAtHand n = false → tk.allocatingFile = none →
            n ∉ s.staging.waiting → (∀ t, n ∉ (s.pool t).short) →
          exec (.resumeTake tag x) s = .next (((s.fall (condLaneSuspended n)).setLane n (some
            { tk with state := .interrupted, waitReason := none, headHold := .none })).replied
              0x54 tag false .ok [8, 0, 0, 0])))
      ∧ (tk.state = .interrupted →
        ((s.slot n).state = .empty →
          exec (.resumeTake tag x) s = .next (s.replied 0x54 tag false .noCard [8]))
        ∧ ((s.slot n).state ∈ [.settling, .identifying, .faulted, .held] →
          exec (.resumeTake tag x) s = .next (s.replied 0x54 tag false .wrongState [8]))
        ∧ (∀ i j, (s.slot n).state = .ready → (s.slot n).identity = some i → tk.snapshot = some j → i ≠ j →
          exec (.resumeTake tag x) s = .next (s.replied 0x54 tag false .cardMismatch
            (8 :: le 16 i.serial.toNat ++ le 4 i.sectors.toNat ++ le 16 j.serial.toNat ++ le 4 j.sectors.toNat)))
        ∧ (∀ i, (s.slot n).state = .ready → (s.slot n).identity = some i → tk.snapshot = some i →
            tk.cutEntry = none → tk.reading = .none → tk.recopyList = [] → tk.entries.length ≤ tk.head →
            tk.listEnded = false →
          exec (.resumeTake tag x) s = .next (((s.setLane n (some
            { tk with state := .starved, waitReason := none, headHold := .none })).rise (condLaneStarved n)).replied
              0x54 tag false .ok [3, 0, 0, 0]))))
    ∧ (∀ (tag : BitVec 16) (x : Byte) (n : LaneIx) (s : State) (tk : Take) (i : CardIdentity) (e : Nat) (f : FileEntry)
      (y : TargetIx) (rest : List (Nat × TargetIx)) (p : Piece) (ps : List Piece),
    s.listening = true → s.atRest = true → laneOf x = some n → s.take? n = some tk → tk.state = .suspended →
    tk.reading = .none → tk.chunkRead = none → tk.recopyList = (e, y) :: rest → tk.file? e = some f →
    (s.slot n).state = .ready → (s.slot n).identity = some i → tk.snapshot = some i → (s.slot n).op = .none →
    0 < f.chunksTotal → f.pieces 0 = p :: ps → p.lba + p.count ≤ i.sectors.toNat →
    n ∉ s.staging.waiting → heldSegments s n < tk.window → s.firstFree ≠ none →
    ∃ t tk' g, exec (.resumeTake tag x) s = .next t ∧ t.take? n = some tk' ∧ tk'.state = .running
      ∧ tk'.reading = .recopy e y ∧ tk'.recopyList = rest ∧ tk'.recopyDigest = { a := 0, b := 0, len := 0 }
      ∧ t.copy? n e y = some { f.copy y with state := .writing, chunksWritten := 0, recopied := true }
      ∧ tk'.chunkRead = some { segment := g, pieces := p :: ps } ∧ s.segment g = .free
      ∧ t.segment g = .filling { owner := n, entry := e, chunk := 0, pass := some y, data := [] } false
      ∧ (t.slot n).op = .piece
          { start := p.lba, count := p.count, retries := tk.retries, alternate := tk.alternate } 1)
    ∧ (∀ (tag : BitVec 16) (x : Byte) (n : LaneIx) (s : State) (tk : Take) (i : CardIdentity) (e : Nat) (f : FileEntry),
    s.listening = true → s.atRest = true → laneOf x = some n → s.take? n = some tk → tk.state = .interrupted →
    tk.chunkRead = none → (s.slot n).state = .ready → (s.slot n).identity = some i → tk.snapshot = some i →
    tk.cutEntry = some e → tk.file? e = some f → (∀ p ∈ f.pieces 0, p.lba + p.count ≤ i.sectors.toNat) →
    ∃ t tk' f', exec (.resumeTake tag x) s = .next t ∧ t.take? n = some tk' ∧ tk'.reading = .file e
      ∧ tk'.nextChunk = 0 ∧ tk'.snapshot = some i ∧ (tk'.state = .running ∨ tk'.state = .waiting)
      ∧ tk'.counters = tk.counters ∧ tk'.file? e = some f'
      ∧ f' = { f with
          progress := .moving, condition := .clean, chunksRead := 0, correctedCount := 0
          running := { a := 0, b := 0, len := 0 }
          copies := f.copies.map fun c => if c.state = .writing then { c with chunksWritten := 0 } else c })

/-- STOP TAKE: a lane with a chunk read in flight and no ALLOCATING file enters STOPPING and reads on; one with
no reading, no recopy to do and no file in progress, and with nothing of it left in the part (log 12), closes at once,
STOPPED or HALTED; an INTERRUPTED one gives up its card work, the WRITING copies of its cut file and the copies on its
recopy list FAILED with reason CUT, and is STOPPING or closed; STOPPING and DRAINING stay; every other is refused. That
the lane's state is the reply's first field is the model's choice (log 18), that it is the state after the lane has
gone on the model's reading (log 35). -/
def Obligations.StopTakeFinishesWhatHasStarted : Prop :=
  ∀ (tag : BitVec 16) (x : Byte) (n : LaneIx) (s : State),
    s.listening = true → s.atRest = true → laneOf x = some n →
    (s.laneState n ∈ [some .stopping, some .draining] →
      exec (.stopTake tag x) s = .next (s.replied 0x55 tag false .ok [laneStateCode (s.laneState n)]))
    ∧ (s.laneState n ∈ [none, some .opened, some .aborting, some .closed] →
      exec (.stopTake tag x) s = .next (s.replied 0x55 tag false .wrongState [laneStateCode (s.laneState n)]))
    ∧ ∀ tk, s.take? n = some tk → tk.allocatingFile = none → (∀ t, n ∉ (s.pool t).short) →
      (tk.state ∈ [.running, .starved, .waiting, .suspended] →
        (tk.reading ≠ .none → tk.chunkRead ≠ none →
          exec (.stopTake tag x) s = .next ((s.enter n .stopping).replied 0x55 tag false .ok [6]))
        ∧ (tk.reading = .none → tk.recopyList = [] → s.laneClear n = true →
            (∀ e f, tk.file? e = some f → f.progress = .pending ∨ f.progress = .finished) →
          ∃ t tk', exec (.stopTake tag x) s = .next t ∧ t.take? n = some tk' ∧ tk'.state = .closed
            ∧ tk'.outcome = some (if tk.halting then .halted else .stopped) ∧ tk'.cleared = some false
            ∧ t.attention.latched.getLsbD (condLaneDone n) = true))
      ∧ (tk.state = .interrupted → tk.reading = .none →
          ∃ t tk', exec (.stopTake tag x) s = .next t ∧ t.take? n = some tk' ∧ tk'.recopyList = []
            ∧ (tk'.state = .stopping ∨ tk'.state = .closed
              ∧ tk'.outcome = some (if tk.halting then .halted else .stopped) ∧ tk'.cleared = some false)
            ∧ ∀ e f y, tk.file? e = some f → t.copy? n e y = some
              (if f.condition = .cut ∧ f.progress = .draining ∧ (f.copy y).state = .writing ∨ (e, y) ∈ tk.recopyList
                then { f.copy y with state := .failed, reason := some .cut } else f.copy y))

/-- ABORT TAKE: an OPEN take closes at once, ABORTED and not cleared; a running one with nothing in flight
closes at once too, with no copy of it left in a state that is not terminal; ABORTING stays; IDLE and CLOSED are
refused. -/
def Obligations.AbortTakeEndsTheTake : Prop :=
  ∀ (tag : BitVec 16) (x : Byte) (n : LaneIx) (s : State),
    s.listening = true → s.atRest = true → laneOf x = some n →
    (s.laneState n ∈ [none, some .closed] →
      exec (.abortTake tag x) s = .next (s.replied 0x56 tag false .wrongState [laneStateCode (s.laneState n)]))
    ∧ (s.laneState n = some .aborting → exec (.abortTake tag x) s = .next (s.replied 0x56 tag false .ok [9]))
    ∧ (s.laneState n = some .opened →
      exec (.abortTake tag x) s = .next ((s.closeTake n .aborted).replied 0x56 tag false .ok [10])
      ∧ ∃ tk', (s.closeTake n .aborted).take? n = some tk' ∧ tk'.state = .closed ∧ tk'.outcome = some .aborted
          ∧ tk'.cleared = some false)
    ∧ (∀ tk, s.take? n = some tk →
        tk.state ∈ [.running, .starved, .waiting, .suspended, .stopping, .draining, .interrupted] →
        tk.chunkRead = none → heldSegments s n = 0 → (∀ y : TargetIx, ((s.target y).fifos[n]) = []) →
        (∀ y v, s.active y = some v → v.lane ≠ n) →
      ∃ t tk', exec (.abortTake tag x) s = .next t ∧ t.take? n = some tk' ∧ tk'.state = .closed
        ∧ tk'.outcome = some .aborted ∧ tk'.cleared = some false ∧ tk'.reading = .none ∧ tk'.recopyList = []
        ∧ t.attention.latched.getLsbD (condLaneDone n) = true
        ∧ ∀ e f y, tk'.file? e = some f → (f.copy y).state.terminal tk'.verify = true)

/-- ADJUST TAKE: its refusals; accepted, the take has the targets left and the new K, and no other setting of it
changes. At each target removed, every copy of a started file that was not yet safe is FAILED with reason REMOVED and
the safe ones stay; what is left of the lane's FIFO there is withdrawn; no verify order and no pair of the recopy list
names it, and a verification of the lane under way there is stopped; the lane leaves its short list, and a wait for its
pool ends. A wait for targets ends too: with one live target that is now enough but short of space, the lane waits for
that pool. -/
def Obligations.AdjustTakeLowersTheDemands : Prop :=
  ∀ (tag : BitVec 16) (x k rm : Byte) (n : LaneIx) (s : State),
    s.listening = true → s.atRest = true → laneOf x = some n →
    (s.laneState n ∈ [none, some .aborting, some .closed] →
      exec (.adjustTake tag x k rm) s = .next (s.replied 0x57 tag false .wrongState [laneStateCode (s.laneState n)]))
    ∧ ∀ tk, s.take? n = some tk → tk.state ≠ .aborting → tk.state ≠ .closed →
      let left : TargetSet := tk.targets &&& ~~~ (rm.setWidth 4)
      let k' := if k = 0 then tk.k else k.toNat
      (16 ≤ rm.toNat ∨ tk.k < k.toNat ∨ left = 0 ∨ setSize left < k' →
        exec (.adjustTake tag x k rm) s
          = .next (s.replied 0x57 tag false .badField [laneStateCode (some tk.state)]))
      ∧ (rm.toNat < 16 → k.toNat ≤ tk.k → left ≠ 0 → k' ≤ setSize left →
        ∃ t tk', exec (.adjustTake tag x k rm) s = .next t ∧ t.take? n = some tk' ∧ tk'.targets = left ∧ tk'.k = k'
          ∧ tk'.label = tk.label ∧ tk'.verify = tk.verify ∧ tk'.policy = tk.policy ∧ tk'.mismatch = tk.mismatch
          ∧ tk'.retries = tk.retries ∧ tk'.alternate = tk.alternate ∧ tk'.window = tk.window
          ∧ tk'.snapshot = tk.snapshot ∧ tk'.entries.length = tk.entries.length
          ∧ (∀ y : TargetIx, tk.targets.getLsbD y.val = true → rm.getLsbD y.val = true →
            (∀ e f, tk.file? e = some f → f.progress.started → t.copy? n e y = some ((f.copy y).lost .removed))
            ∧ (∀ o ∈ (t.target y).fifos[n], o.withdrawn = true)
            ∧ (∀ o ∈ t.verify.queue, o.target = y → o.lane ≠ n)
            ∧ (∀ v, t.active y = some v → v.lane = n → v.stop = true)
            ∧ (∀ e, (e, y) ∉ tk'.recopyList)
            ∧ ((s.pool y).short.Nodup → n ∉ (t.pool y).short)
            ∧ (tk.state = .waiting → tk.waitReason = some (.pool y) → tk.reading = .none →
                tk.entries.length ≤ 4096 → s.StagingOk → s.staging.waiting = [] →
              tk'.waitReason ≠ some (.pool y)))
          ∧ (∀ f z, tk.state = .waiting → tk.waitReason = some .targets → tk.targets &&& rm.setWidth 4 = 0 → k' = 1 →
              s.liveTargets tk = [z] → tk.entries[tk.head]? = some (.file f) → f.progress = .pending →
              (f.copy z).allocation = none → tk.reading = .none → tk.recopyList = [] → tk.depth < 2 →
              s.cardAtHand n = true → tk.entries.length ≤ 4096 →
              supply (unitsFor f.length (s.target z).unit) (s.pool z).runs = none →
            tk'.state = .waiting ∧ tk'.waitReason = some (.pool z) ∧ n ∈ (t.pool z).short
              ∧ ((s.pool z).short = [] → t.attention.asserted.getLsbD (condPoolShort z) = true)))

/-- RELEASE TAKE frees a CLOSED lane and returns its entries; with the flag set the runs of its FAILED and
MISMATCH copies go back to the pools of drives that are still the same, in take and target order, and the reply
counts the units dropped. In every other state it is refused. That a flag which is neither on nor off is refused is the
model's reading (log 20), and that the lane's state stands in front of the other fields of the reply its choice
(log 18). -/
def Obligations.ReleaseTakeFreesTheLane : Prop :=
  ∀ (tag : BitVec 16) (x flag : Byte) (n : LaneIx) (s : State),
    s.listening = true → s.atRest = true → laneOf x = some n →
    (s.laneState n ≠ some .closed →
      exec (.releaseTake tag x flag) s = .next (s.replied 0x59 tag false .wrongState [laneStateCode (s.laneState n)]))
    ∧ ∀ tk o c, s.take? n = some tk → tk.state = .closed → tk.outcome = some o → tk.cleared = some c →
      (2 ≤ flag.toNat → exec (.releaseTake tag x flag) s = .next (s.replied 0x59 tag false .badField [10]))
      ∧ (flag.toNat < 2 →
        let r := if flag = 1 then s.reclaim tk.reclaimable else (s, 0)
        exec (.releaseTake tag x flag) s
          = .next ((({ r.1 with freeEntries := s.freeEntries + tk.entries.length }).setLane n none).replied
              0x59 tag false .ok
              ([0, o.code, if c then 1 else 0] ++ le 2 tk.entries.length ++ le 4 r.2)))
      ∧ (∀ y a, (y, a) ∈ tk.reclaimable ↔ ∃ e f, tk.file? e = some f ∧ (f.copy y).allocation = some a
          ∧ ((f.copy y).state = .failed ∨ (f.copy y).state = .mismatch))

/-- A take request that enters service at once leaves the rest of the part alone, whatever it answers: the queue of
commands, the free reads, the waiting frames and transfers, the enable sets, the slots but for the piece a lane
reads, the targets but for their write orders, their grants and what their channels carry; and every take but the
one it names keeps its settings, its snapshot, the number of its entries and whether its list has ended. -/
def Obligations.TakeRequestsLeaveTheRestOfThePartAlone : Prop :=
  ∀ (c : Instr) (tag : BitVec 16) (r : Request) (s t : State), c.request? = some (tag, r) →
    isTakeKind (requestKind r) = true → s.listening = true → exec c s = .next t →
    t.pending = s.pending ∧ t.freeReads = s.freeReads
      ∧ t.link.configured = true ∧ t.link.queue = [] ∧ t.link.overrun = none ∧ t.link.stale = false
      ∧ t.link.outPipe = s.link.outPipe
      ∧ t.attention.noticeEnable = s.attention.noticeEnable
      ∧ t.attention.panelEnable = s.attention.panelEnable
      ∧ (∀ n, t.slot n = { s.slot n with op := (t.slot n).op, waitingPiece := (t.slot n).waitingPiece })
      ∧ (∀ x, t.target x = { s.target x with
          fifos := (t.target x).fifos, op := (t.target x).op, holder := (t.target x).holder
          grantCount := (t.target x).grantCount, waitingHost := (t.target x).waitingHost })
      ∧ ∀ n, (requestBody r).head?.bind laneOf ≠ some n → keptTake (s.take? n) (t.take? n)

/-! ### Card events -/

/-- An insertion brings an EMPTY slot to SETTLING with its timer and its counters at 0, and a HELD slot tracks
it; a removal from HELD is tracked; from the other states it empties the slot, answers a peek in flight with
CARD_FAULT and class ABORTED, and raises SLOT REMOVED. That this reply says whether the peek's setting was clamped is
the model's choice (log 31); a detection that shows nothing new changes nothing (log 2). A card pulled while a RUNNING
lane reads a file whose copies are not all terminal, with no chunk read and no order of the lane in the part, cuts the
file and leaves the lane INTERRUPTED; the copies, the snapshot and the head stay. Pulled while it reads for a recopy,
the recopy ends unfinished: its pair returns to the head of the list, and the copy waits again, not recopied, with no
chunk written. -/
def Obligations.CardsComeAndGo : Prop :=
  (∀ (n : LaneIx) (s : State), s.atRest = true → s.link.stale = false →
    let x := s.slot n
    (x.detect = true → exec (.cardInsertion n) s = .next s)
    ∧ (x.detect = false → exec (.cardRemoval n) s = .next s)
    ∧ (x.detect = false → x.state = .empty → exec (.cardInsertion n) s = .next (s.setSlot n { x with
        detect := true, present := true, state := .settling, settleRunning := true, retried := 0, corrected := 0
        failed := 0 }).choosePath)
    ∧ (x.detect = false → x.state = .held →
        exec (.cardInsertion n) s = .next (s.setSlot n { x with detect := true, present := true }).choosePath)
    ∧ (x.detect = true → x.state = .held →
        exec (.cardRemoval n) s = .next (s.setSlot n { x with detect := false, present := false }).choosePath)
    ∧ (x.detect = true → x.state ∈ [.settling, .identifying, .ready, .faulted] → x.hasPiece = false →
        s.laneState n ∈ [none, some .opened, some .closed, some .interrupted] → x.waitingPeek = none →
      let y := (s.setSlot n { x with
        state := .empty, present := false, detect := false, settleRunning := false, identity := none
        identifyAttempt := 0, op := .none, waitingPeek := none, waitingPiece := none })
      ((∀ p k, x.op ≠ .peek p k) → exec (.cardRemoval n) s = .next (y.latch (condSlotRemoved n)).choosePath)
      ∧ (∀ p k, x.op = .peek p k → exec (.cardRemoval n) s
          = .next ((y.answerClamped p.clamped .cardFault [6, BitVec.ofNat 8 k]).latch (condSlotRemoved n)).choosePath)))
    ∧ (∀ (n : LaneIx) (s : State) (tk : Take) (e : Nat) (f : FileEntry),
    s.atRest = true → s.link.stale = false → (s.slot n).detect = true → (s.slot n).state = .ready →
    (s.slot n).hasPiece = false → s.take? n = some tk → tk.state = .running → tk.chunkRead = none →
    tk.file? e = some f → tk.allocatingFile = none → (∀ y : TargetIx, ((s.target y).fifos[n]) = []) →
    (tk.reading = .file e → f.allTerminal tk.verify = false →
      ∃ t tk', exec (.cardRemoval n) s = .next t ∧ (t.slot n).state = .empty ∧ t.take? n = some tk'
        ∧ tk'.state = .interrupted ∧ tk'.reading = .none ∧ tk'.snapshot = tk.snapshot ∧ tk'.head = tk.head
        ∧ tk'.counters = { tk.counters with filesCut := min (tk.counters.filesCut + 1) (2 ^ 32 - 1) }
        ∧ tk'.file? e = some { f with
            condition := .cut, progress := .draining, running := { a := 0, b := 0, len := 0 } }
        ∧ t.attention.latched.getLsbD (condSlotRemoved n) = true ∧ (∀ g, t.segment g = s.segment g))
    ∧ (∀ y, tk.reading = .recopy e y → (f.copy y).state = .writing →
      ∃ t tk', exec (.cardRemoval n) s = .next t ∧ (t.slot n).state = .empty ∧ t.take? n = some tk'
        ∧ tk'.state = .interrupted ∧ tk'.reading = .none ∧ tk'.snapshot = tk.snapshot ∧ tk'.head = tk.head
        ∧ tk'.counters = tk.counters ∧ tk'.recopyList = (e, y) :: tk.recopyList
        ∧ tk'.recopyDigest = { a := 0, b := 0, len := 0 }
        ∧ t.copy? n e y = some { f.copy y with state := .recopyWait, chunksWritten := 0, recopied := false }
        ∧ t.attention.latched.getLsbD (condSlotRemoved n) = true ∧ (∀ g, t.segment g = s.segment g)))

/-- The settle timer's end begins the first identify attempt, in normal mode. An answer with a sector count of 1 or
more makes the slot READY and raises SLOT READY; an error, a count of 0 and a timeout fail the attempt: the first is
followed by the second, in careful mode, the second leaves the slot FAULTED. A late answer is ignored (log 3), and the
end of a timer that is not running changes nothing (log 2). -/
def Obligations.CardsSettleAndAreIdentified : Prop :=
  ∀ (n : LaneIx) (s : State), s.atRest = true → s.link.stale = false →
    let x := s.slot n
    (x.state = .settling → x.settleRunning = true →
      let first : Slot := { x with
        state := .identifying, settleRunning := false, identifyAttempt := 1, op := .identify }
      exec (.settleTimerExpiry n) s = .next (s.setSlot n first).choosePath ∧ first.careful = false)
    ∧ (x.state ≠ .settling ∨ x.settleRunning = false → exec (.settleTimerExpiry n) s = .next s)
    ∧ (∀ answer, exec (.identifyAttemptAnswer n true answer) s = .next s)
    ∧ (x.state = .identifying → x.op = .identify →
      (∀ serial sectors, sectors ≠ 0 → exec (.identifyAttemptAnswer n false (.identity serial sectors)) s
        = .next ((s.setSlot n { x with
            state := .ready, identity := some { serial := serial, sectors := sectors }, op := .none }).latch
            (condSlotReady n)).choosePath)
      ∧ ∀ c, c = Instr.identifyAttemptAnswer n false .error ∨ c = .cardAttemptTimeout n
            ∨ (∃ serial, c = .identifyAttemptAnswer n false (.identity serial 0)) →
        let second : Slot := { x with identifyAttempt := x.identifyAttempt + 1, op := .identify }
        (x.identifyAttempt < 2 → exec c s = .next (s.setSlot n second).choosePath)
        ∧ (x.identifyAttempt = 1 → second.careful = true)
        ∧ (2 ≤ x.identifyAttempt → exec c s
          = .next (s.setSlot n { x with state := .faulted, op := .none, identity := none }).choosePath))

/-- An attempt of a piece or a peek that ends UNCORRECTABLE or on its timer is followed by the next while fewer
than 1 + r have been made, the even ones in careful mode when the alternate setting is on; a peek's result is
answered when its operation ends: the sectors with OK or CORRECTED, CARD_FAULT with the class otherwise; a waiting
piece then begins. A late completion is ignored (log 3). That a failed peek's reply says whether its setting was
clamped is the model's choice (log 31), and so is that data of any length are cut or filled to the sectors asked for
(log 14). -/
def Obligations.AttemptsAreRetriedAndPeeksAnswered : Prop :=
  ∀ (n : LaneIx) (s : State), s.atRest = true → s.link.stale = false →
    let x := s.slot n
    (∀ cls data, exec (.cardAttemptComplete n true cls data) s = .next s)
    ∧ (∀ c data, c ∈ [Instr.cardAttemptComplete n false .uncorrectable data, .cardAttemptTimeout n] →
      (∀ r k, x.op = .piece r k → k < 1 + r.retries → s.laneState n ≠ some .aborting →
        let next : Slot := { x with op := .piece r (k + 1), retried := min (x.retried + 1) (2 ^ 32 - 1) }
        exec c s = .next (s.setSlot n next).choosePath ∧ next.careful = (r.alternate && decide ((k + 1) % 2 = 0)))
      ∧ (∀ p k, x.op = .peek p k → k < 1 + p.read.retries →
        let next : Slot := { x with op := .peek p (k + 1), retried := min (x.retried + 1) (2 ^ 32 - 1) }
        exec c s = .next (s.setSlot n next).choosePath
          ∧ next.careful = (p.read.alternate && decide ((k + 1) % 2 = 0))))
    ∧ (∀ p k sv, x.op = .peek p k → s.link.inService = some sv →
        (∀ r, x.waitingPiece = some r → ∃ i, x.identity = some i ∧ r.start + r.count ≤ i.sectors.toNat) →
      let next : CardOp := match x.waitingPiece with
        | none => .none
        | some r => .piece r 1
      (∀ cls data, cls = .ok ∨ cls = .corrected →
        let kept := fitSectors p.read.count data
        let corrected : Bool := !(decide (cls = .ok) && decide (k ≤ 1))
        exec (.cardAttemptComplete n false cls data) s = .next ((s.setSlot n { x with
            op := next, waitingPiece := none, peekBuffer := kept
            corrected := if corrected then min (x.corrected + 1) (2 ^ 32 - 1) else x.corrected }).replied
          sv.kind sv.tag p.clamped .ok
          ([if corrected then 1 else 0, BitVec.ofNat 8 p.read.retries, BitVec.ofNat 8 k] ++ kept)))
      ∧ (∀ c code data, 1 + p.read.retries ≤ k ∧ c = Instr.cardAttemptComplete n false .uncorrectable data ∧ code = 2#8
            ∨ 1 + p.read.retries ≤ k ∧ c = Instr.cardAttemptTimeout n ∧ code = 3#8
            ∨ c = Instr.cardAttemptComplete n false .badBlock data ∧ code = 4#8 →
        exec c s = .next ((s.setSlot n { x with
            op := next, waitingPiece := none, failed := min (x.failed + 1) (2 ^ 32 - 1) }).replied
          sv.kind sv.tag p.clamped .cardFault [code, BitVec.ofNat 8 p.read.retries, BitVec.ofNat 8 k]))
      ∧ (∀ data, exec (.cardAttemptComplete n false .outOfRange data) s = .next ((s.setSlot n { x with
            op := next, waitingPiece := none }).replied
          sv.kind sv.tag p.clamped .cardFault [5, BitVec.ofNat 8 p.read.retries, BitVec.ofNat 8 k])))

/-- A piece of a file's own reading that is not its chunk's last: delivered, its sectors go to the segment, its
file bytes to the running digest and the bytes read, and a correction is counted; failed under FILL, zeros go in
their place, uncounted, and the file is DAMAGED with SOURCE FAULT, counted among the damaged files once in the entry's
life; a file that is DAMAGED already stays so without another event. Either way the next piece is handed to the card
port. A piece that fails under SKIP or HALT ends the chunk read: the file is UNREADABLE, its WRITING copies FAILED with
reason SOURCE, its orders withdrawn, SOURCE FAULT is raised; with nothing at its head a lane under SKIP is STARVED, and
one under HALT is halting, STOPPING or CLOSED with HALTED. A piece of a recopy that fails ends it under every policy:
the copy, if still WRITING, is FAILED with reason SOURCE, and the file's own result stays. That data of any length are
cut or filled to the sectors asked for is the model's choice (log 14), and so is it that an entry's corrected count
stays at its largest value (log 38). The last two clauses take the staging buffer in order and no lane waiting for a
segment. -/
def Obligations.PiecesAreDeliveredOrFilled : Prop :=
  (∀ (n : LaneIx) (s : State) (tk : Take) (g : SegmentIx) (u : SegmentUse) (f : FileEntry) (r : CardRead) (k : Nat)
      (p q : Piece) (rest : List Piece) (i : CardIdentity),
    s.atRest = true → s.link.stale = false → s.take? n = some tk →
    tk.chunkRead = some { segment := g, pieces := p :: q :: rest } → s.segment g = .filling u false →
    u.pass = none → tk.file? u.entry = some f →
    (s.slot n).op = .piece r k → (s.slot n).waitingPeek = none → (s.slot n).identity = some i →
    q.lba + q.count ≤ i.sectors.toNat →
    let x := s.slot n
    let bytes := fileBytesOf f.length p.sector p.count
    let following : CardRead := { start := q.lba, count := q.count, retries := tk.retries, alternate := tk.alternate }
    let after (slot : Slot) (sectors : List Byte) (tk' : Take) : State :=
      ((s.setSlot n { slot with op := .piece following 1 }).setSegment g
        (.filling { u with data := u.data ++ sectors } false)).setLane n
        (some { tk' with chunkRead := some { segment := g, pieces := q :: rest } })
    (∀ data, k ≤ 1 → let sectors := fitSectors p.count data
      exec (.cardAttemptComplete n false .ok data) s = .next (after x sectors
        ({ tk with counters := { tk.counters with
            bytesRead := min (tk.counters.bytesRead + bytes) (2 ^ 64 - 1) } }.modifyFile u.entry fun (f : FileEntry) =>
          { f with running := f.running.fold (sectors.take bytes) })).choosePath)
    ∧ (∀ cls data, cls = .corrected ∨ cls = .ok ∧ 2 ≤ k → let sectors := fitSectors p.count data
      exec (.cardAttemptComplete n false cls data) s
        = .next (after { x with corrected := min (x.corrected + 1) (2 ^ 32 - 1) } sectors
            ({ tk with counters := { tk.counters with
                bytesRead := min (tk.counters.bytesRead + bytes) (2 ^ 64 - 1)
                corrected := min (tk.counters.corrected + 1) (2 ^ 32 - 1) } }.modifyFile u.entry fun (f : FileEntry) =>
              { f with
                running := f.running.fold (sectors.take bytes)
                correctedCount := min (f.correctedCount + 1) (2 ^ 32 - 1)
                condition := if f.condition = SourceCondition.clean then .corrected else f.condition })).choosePath)
    ∧ (∀ c counted, failsPiece n r k c counted → tk.policy = .fill →
      let sectors : List Byte := List.replicate (p.count * 512) 0
      let y : Slot := if counted then { x with failed := min (x.failed + 1) (2 ^ 32 - 1) } else x
      (f.condition = .clean ∨ f.condition = .corrected →
        exec c s = .next ((after y sectors
          ({ tk with counters := { tk.counters with
              filesDamaged := if f.damageCounted then tk.counters.filesDamaged
                else min (tk.counters.filesDamaged + 1) (2 ^ 32 - 1) } }.modifyFile u.entry fun (f : FileEntry) =>
            { f with
              running := f.running.fold (sectors.take bytes), condition := .damaged
              damageCounted := true })).latch (condSourceFault n)).choosePath)
      ∧ (f.condition = .damaged →
        exec c s = .next (after y sectors (tk.modifyFile u.entry fun (f : FileEntry) =>
          { f with running := f.running.fold (sectors.take bytes) })).choosePath)))
    ∧ (∀ (n : LaneIx) (s : State) (tk : Take) (g : SegmentIx) (u : SegmentUse) (f : FileEntry) (r : CardRead) (k : Nat)
      (p : Piece) (rest : List Piece) (c : Instr) (counted : Bool),
    s.atRest = true → s.link.stale = false → s.StagingOk → s.staging.waiting = [] → s.take? n = some tk →
    tk.state = .running → tk.recopyList = [] → tk.entries.length ≤ tk.head → tk.listEnded = false →
    tk.chunkRead = some { segment := g, pieces := p :: rest } → s.segment g = .filling u false →
    tk.file? u.entry = some f → (s.slot n).op = .piece r k → (s.slot n).waitingPeek = none →
    failsPiece n r k c counted →
    (u.pass = none → tk.policy = .skip ∨ tk.policy = .halt →
      ∃ t tk' f', exec c s = .next t ∧ t.take? n = some tk' ∧ tk'.file? u.entry = some f'
        ∧ tk'.reading = .none ∧ tk'.chunkRead = none ∧ f'.condition = .unreadable ∧ f'.source = f.source
        ∧ f'.running = { a := 0, b := 0, len := 0 }
        ∧ f'.progress = (if (∀ y, (f'.copy y).state.terminal tk.verify = true) then .finished else .draining)
        ∧ (∀ y, f'.copy y = if (f.copy y).state = .writing
            then { f.copy y with state := .failed, reason := some .source } else f.copy y)
        ∧ (∀ y, ∀ o ∈ (t.target y).fifos[n], o.entry = u.entry → o.withdrawn = true)
        ∧ tk'.counters.chunksRead = min (tk.counters.chunksRead + 1) (2 ^ 32 - 1)
        ∧ tk'.counters.filesUnreadable = min (tk.counters.filesUnreadable + 1) (2 ^ 32 - 1)
        ∧ tk'.counters.bytesRead = tk.counters.bytesRead
        ∧ t.attention.latched.getLsbD (condSourceFault n) = true
        ∧ t.slot n = { s.slot n with
            op := .none, failed := if counted then min ((s.slot n).failed + 1) (2 ^ 32 - 1) else (s.slot n).failed }
        ∧ (tk.policy = .skip → tk'.state = .starved ∧ tk'.halting = tk.halting)
        ∧ (tk.policy = .halt → tk'.halting = true
          ∧ (tk'.state = .stopping ∨ tk'.state = .closed ∧ tk'.outcome = some .halted ∧ tk'.cleared = some false)))
    ∧ (∀ y, u.pass = some y →
      ∃ t tk' f', exec c s = .next t ∧ t.take? n = some tk' ∧ tk'.file? u.entry = some f'
        ∧ tk'.state = .starved ∧ tk'.reading = .none ∧ tk'.chunkRead = none
        ∧ f'.condition = f.condition ∧ f'.source = f.source
        ∧ f'.copy y = (if (f.copy y).state = .writing
            then { f.copy y with state := .failed, reason := some .source } else f.copy y)
        ∧ (∀ z, z ≠ y → f'.copy z = f.copy z)
        ∧ ((f.copy y).state = .writing → ∀ o ∈ (t.target y).fifos[n], o.entry = u.entry → o.withdrawn = true)
        ∧ tk'.counters.chunksRead = min (tk.counters.chunksRead + 1) (2 ^ 32 - 1)
        ∧ tk'.counters.filesUnreadable = tk.counters.filesUnreadable
        ∧ t.attention.latched = s.attention.latched ||| BitVec.twoPow 78 (condLaneStarved n)))

/-- A chunk read that ends good is counted, places one write order at the tail of the lane's FIFO at every target of
the set whose copy is WRITING, with the copy's device pieces, and leaves its segment SENDING with that many orders
outstanding; the next chunk is the one after it. The last chunk of a file's own reading ends it: the running digest is
the source digest, the file DRAINING, the reading none. The last chunk of a recopy ends it too, and its digest is
compared with the source digest: where they are equal the copy stays WRITING with its last order placed; where they
differ it is FAILED with reason SOURCE_UNSTABLE, and every order of it that is left is withdrawn. -/
def Obligations.ChunksFanOutToEveryWritingCopy : Prop :=
  ∀ (n : LaneIx) (s : State) (tk : Take) (g : SegmentIx) (u : SegmentUse) (f : FileEntry),
    s.take? n = some tk → tk.file? u.entry = some f →
    let s' := (s.chunkGood n g u).1
    let counted : Take := { tk with
      chunkRead := none, nextChunk := u.chunk + 1
      counters := { tk.counters with chunksRead := min (tk.counters.chunksRead + 1) (2 ^ 32 - 1) } }
    let order (x : TargetIx) : WriteOrder :=
      { entry := u.entry, chunk := u.chunk, segment := g, errors := 0, withdrawn := false
        pieces := match (f.copy x).allocation with
          | some a => f.devicePieces a (s.target x).unit u.chunk
          | none => [] }
    (u.pass = none →
      let dests := (targetsOf tk.targets).filter fun (x : TargetIx) => (f.copy x).state == CopyState.writing
      s'.segment g = .sending u dests.length
      ∧ (∀ (x : TargetIx) (m : LaneIx), (s'.target x).fifos[m] = (s.target x).fifos[m]
          ++ (if m = n ∧ x ∈ dests then [order x] else []))
      ∧ s'.slots = s.slots ∧ s'.pools = s.pools ∧ s'.verify = s.verify ∧ s'.attention = s.attention
      ∧ s'.link = s.link
      ∧ (u.chunk + 1 < f.chunksTotal →
        s'.take? n = some (counted.modifyFile u.entry fun f => { f with chunksRead := f.chunksRead + 1 })
        ∧ (s.chunkGood n g u).2 = (if dests = [] then [.freeSegment g] else []) ++ [.tryRead n])
      ∧ (f.chunksTotal ≤ u.chunk + 1 →
        s'.take? n = some ({ counted with reading := .none }.modifyFile u.entry fun f => { f with
          chunksRead := f.chunksRead + 1, source := some f.running, progress := .draining })
        ∧ (s.chunkGood n g u).2
          = (if dests = [] then [.freeSegment g] else []) ++ [.testFinish n u.entry, .goOn n]))
    ∧ (∀ y d, u.pass = some y → f.chunksTotal ≤ u.chunk + 1 → (f.copy y).state = .writing → f.source = some d →
      (tk.recopyDigest.a = d.a ∧ tk.recopyDigest.b = d.b ∧ tk.recopyDigest.len = d.len →
        s'.take? n = some { counted with reading := .none } ∧ s'.segment g = .sending u 1
        ∧ (s'.target y).fifos[n] = (s.target y).fifos[n] ++ [order y]
        ∧ (s.chunkGood n g u).2 = [.testFinish n u.entry, .goOn n])
      ∧ (¬ (tk.recopyDigest.a = d.a ∧ tk.recopyDigest.b = d.b ∧ tk.recopyDigest.len = d.len) →
        s'.copy? n u.entry y = some { f.copy y with state := .failed, reason := some .sourceUnstable }
        ∧ (∀ o ∈ (s'.target y).fifos[n], o.entry = u.entry → o.withdrawn = true)
        ∧ (∃ t, s'.take? n = some t ∧ t.reading = .none ∧ t.counters = counted.counters)))

/-! ### Drive events -/

/-- Link up attaches an ABSENT target; link loss outside ONLINE leaves it ABSENT without identity and its pool
emptied, with TARGET FAULT ended; link up with the link up, and link loss with it down, change nothing (log 2). The
identify operation's answer brings the target ONLINE, with the generation risen and the pool emptied unless the
identity is the one held; an error, a capacity of 0 and a timeout bring it to FAULTED. A late answer is ignored
(log 3). -/
def Obligations.DrivesAttachAndDetach : Prop :=
  ∀ (t : TargetIx) (s : State), s.atRest = true → s.link.stale = false →
    let x := s.target t
    let gone := (s.setTarget t { x with
      link := false, state := .absent, faultReason := none, identity := none, op := .none }).setPool t
        { s.pool t with runs := [] }
    (x.link = true → exec (.driveLinkUp t) s = .next s)
    ∧ (x.link = false → exec (.driveLinkLoss t) s = .next s)
    ∧ (x.link = false → x.state = .absent → exec (.driveLinkUp t) s
        = .next (s.setTarget t { x with link := true, state := .attaching, op := .identify }).choosePath)
    ∧ (x.link = true → x.state = .attaching ∨ x.state = .offline →
        exec (.driveLinkLoss t) s = .next gone.choosePath)
    ∧ (x.link = true → x.state = .faulted →
        exec (.driveLinkLoss t) s = .next (gone.fall (condTargetFault t)).choosePath)
    ∧ (∀ answer, exec (.driveIdentifyAnswer t true answer) s = .next s)
    ∧ (x.state = .attaching → x.op = .identify →
      (∀ c r, c = Instr.driveIdentifyAnswer t false .error ∧ r = FaultReason.identify
            ∨ (∃ serial, c = .driveIdentifyAnswer t false (.identity serial 0)) ∧ r = .identify
            ∨ c = .deviceOpTimeout t ∧ r = .timeout →
        exec c s = .next ((s.setTarget t { x with state := .faulted, faultReason := some r, op := .none }).rise
          (condTargetFault t)).choosePath)
      ∧ (∀ serial capacity, capacity ≠ 0 → (∀ n, s.waitsForTarget t n = false) →
        let i : DriveIdentity :=
          { serial := serial, capacity := if capacity.toNat < 2 ^ 32 then capacity.setWidth 32 else 0xFFFFFFFF }
        let y : Target := { x with state := .online, op := .none, holder := none, grantCount := 0 }
        exec (.driveIdentifyAnswer t false (.identity serial capacity)) s
          = .next (((if x.identity = some i then s.setTarget t y
              else (s.setTarget t { y with identity := some i, generation := x.generation + 1 }).setPool t
                { s.pool t with runs := [] }).latch (condTargetAttached t)).conclude)))

/-- A write piece that ends: an error on an order without one repeats the piece and counts the repeat; a piece
that is not the order's last is followed by the next; the last one completes the order, which leaves its FIFO,
lowers its segment's count and raises the copy's chunks written, and the copy's last chunk makes it VERIFY_WAIT
with a verify order at the queue's tail (verify on). A withdrawn order leaves without effect on the copy. The last
order of a segment makes it FREE, and it goes at once to the waiting lane that comes first in round-robin order after
the lane last served: that lane leaves the set, is RUNNING again, and has the first piece of its chunk at its card
port. The end of a withdrawn order that was the last of a STOPPING or DRAINING lane's work in the part closes that lane
(the model's reading of R19 and R53 beside R15 and R16, log 12). A late completion is ignored (log 3). That the count of
write repeats stays at its largest value is the model's reading (log 35). -/
def Obligations.WritePiecesEnd : Prop :=
  (∀ (x : TargetIx) (n : LaneIx) (i : Nat) (o : WriteOrder) (rest : List WriteOrder) (u : SegmentUse) (k : Nat)
      (s : State), s.atRest = true → s.link.stale = false → (s.target x).op = .writePiece n i →
    (s.target x).fifos[n] = o :: rest → s.segment o.segment = .sending u (k + 2) →
    let y := s.target x
    let done := (s.setTarget x { y with op := .none, fifos := y.fifos.set n.val rest n.isLt }).setSegment o.segment
      (.sending u (k + 1))
    (∀ error, exec (.writePieceComplete x true error) s = .next s)
    ∧ (o.withdrawn = false → o.errors = 0 → exec (.writePieceComplete x false true) s = .next (s.setTarget x { y with
        writeRepeats := min (y.writeRepeats + 1) (2 ^ 32 - 1)
        fifos := y.fifos.set n.val ({ o with errors := 1 } :: rest) n.isLt }).choosePath)
    ∧ (o.withdrawn = false → i + 1 < o.pieces.length →
        exec (.writePieceComplete x false false) s
          = .next (s.setTarget x { y with op := .writePiece n (i + 1) }).choosePath)
    ∧ (o.withdrawn = true → s.laneState n ≠ some .aborting → s.laneState n ≠ some .interrupted →
        s.laneState n ≠ some .stopping → s.laneState n ≠ some .draining →
        ∀ error, exec (.writePieceComplete x false error) s = .next done.conclude)
    ∧ (o.withdrawn = false → o.pieces.length ≤ i + 1 →
      ∀ tk f, s.take? n = some tk → tk.file? o.entry = some f →
        let c := f.copy x
        let withCopy (c' : CopyRecord) : State := done.setLane n (some (tk.modifyFile o.entry fun f =>
          { f with copies := f.copies.set x.val c' x.isLt }))
        (c.state ≠ .writing → exec (.writePieceComplete x false false) s = .next done.conclude)
        ∧ (c.state = .writing → c.chunksWritten + 1 ≠ f.chunksTotal →
          exec (.writePieceComplete x false false) s
            = .next (withCopy { c with chunksWritten := c.chunksWritten + 1 }).conclude)
        ∧ (c.state = .writing → c.chunksWritten + 1 = f.chunksTotal → tk.verify = true →
          let w : State := withCopy { c with chunksWritten := c.chunksWritten + 1, state := .verifyWait }
          let order : VerifyOrder := { lane := n, entry := o.entry, target := x }
          exec (.writePieceComplete x false false) s
            = .next ({ w with verify := { w.verify with queue := w.verify.queue ++ [order] } }).conclude)))
    ∧ (∀ (x : TargetIx) (n m : LaneIx) (i e : Nat) (o : WriteOrder) (rest : List WriteOrder) (u : SegmentUse)
      (tk : Take) (f : FileEntry) (p : Piece) (ps : List Piece) (card : CardIdentity) (s : State),
    s.link.stale = false → (s.target x).op = .writePiece n i → (s.target x).fifos[n] = o :: rest →
    o.withdrawn = false → o.pieces.length ≤ i + 1 → s.segment o.segment = .sending u 1 → u.owner = n →
    s.laneState n = some .suspended →
    m ∈ s.staging.waiting → s.staging.waiting.Nodup →
    (∀ j ∈ s.staging.waiting, (m.val + 7 - s.staging.lastServed.val) % 8 ≤ (j.val + 7 - s.staging.lastServed.val) % 8) →
    s.take? m = some tk → tk.state = .waiting → tk.waitReason = some .segments → tk.reading = .file e →
    tk.file? e = some f → f.pieces tk.nextChunk = p :: ps →
    (s.slot m).op = .none → (s.slot m).identity = some card → p.lba + p.count ≤ card.sectors.toNat →
    ∃ t tk', exec (.writePieceComplete x false false) s = .next t ∧ t.take? m = some tk'
      ∧ t.segment o.segment
        = .filling { owner := m, entry := e, chunk := tk.nextChunk, pass := none, data := [] } false
      ∧ tk'.chunkRead = some { segment := o.segment, pieces := p :: ps }
      ∧ tk'.state = .running ∧ tk'.waitReason = none ∧ m ∉ t.staging.waiting ∧ t.staging.lastServed = m
      ∧ t.attention.asserted.getLsbD (condLaneWaiting m) = false
      ∧ (t.slot m).op = .piece
          { start := p.lba, count := p.count, retries := tk.retries, alternate := tk.alternate } 1)
    ∧ (∀ (x : TargetIx) (n : LaneIx) (i : Nat) (o : WriteOrder) (u : SegmentUse) (tk : Take) (error : Bool) (s : State),
    s.link.stale = false → (s.target x).op = .writePiece n i → (s.target x).fifos[n] = [o] → o.withdrawn = true →
    s.segment o.segment = .sending u 1 → u.owner = n → heldSegments s n = 1 → s.staging.waiting = [] →
    s.take? n = some tk → tk.state = .stopping ∨ tk.state = .draining → tk.reading = .none → tk.chunkRead = none →
    tk.recopyList = [] → (∀ e f, tk.file? e = some f → f.progress = .finished) →
    (∀ y, y ≠ x → (s.target y).fifos[n] = []) → (∀ o ∈ s.verify.queue, o.lane ≠ n) →
    (∀ y v, s.active y = some v → v.lane ≠ n) →
    ∃ t tk', exec (.writePieceComplete x false error) s = .next t ∧ t.take? n = some tk' ∧ tk'.state = .closed
      ∧ tk'.outcome = some (if tk.state = .draining then .complete else if tk.halting then .halted else .stopped)
      ∧ (t.target x).fifos[n] = [] ∧ t.segment o.segment = .free
      ∧ t.attention.latched.getLsbD (condLaneDone n) = true)

/-- A readback read that ends: a first error is repeated and counted; a read that is not the copy's last folds
its file bytes and makes the next ready; the last one records the readback digest and gives VERIFIED exactly
when it equals the source digest in A, B and L, and else MISMATCH where the copy may not be recopied; where it may be,
under RECOPY, not recopied before and its file not DAMAGED, the copy is RECOPY_WAIT and its pair stands at the tail of
the take's recopy list; a stopped verification ends without a result. A late completion is ignored (log 3). That data
of any length are cut or filled to the sectors asked for is the model's choice (log 14), that the count of readback
repeats stays at its largest value its reading (log 35). -/
def Obligations.ReadbackReadsEnd : Prop :=
  ∀ (x : TargetIx) (v : Verification) (rep : Bool) (data : List Byte) (tk : Take) (f : FileEntry) (a : Allocation)
      (s : State), s.atRest = true → s.link.stale = false → (s.target x).op = .readback rep → s.active x = some v →
    s.take? v.lane = some tk → tk.file? v.entry = some f → (f.copy x).allocation = some a →
    let y := s.target x
    let c := f.copy x
    let ps := f.drivePieces a y.unit v.chunk
    let free := s.setTarget x { y with op := .none }
    (∀ error, exec (.readbackReadComplete x true error data) s = .next s)
    ∧ (rep = false → exec (.readbackReadComplete x false true data) s = .next (s.setTarget x { y with
        op := .readback true, readbackRepeats := min (y.readbackRepeats + 1) (2 ^ 32 - 1) }).choosePath)
    ∧ (v.stop = true → s.laneState v.lane ≠ some .aborting → s.laneState v.lane ≠ some .interrupted →
        s.laneState v.lane ≠ some .stopping → s.laneState v.lane ≠ some .draining →
        exec (.readbackReadComplete x false false data) s = .next (free.setActive x none).conclude)
    ∧ (v.stop = false → c.state = .verifying → ∀ p, ps[v.piece]? = some p →
      let d := v.digest.fold ((fitSectors p.count data).take (fileBytesOf f.length p.sector p.count))
      (v.piece + 1 < ps.length → exec (.readbackReadComplete x false false data) s
        = .next (free.setActive x (some { v with digest := d, piece := v.piece + 1, read := .ready })).conclude)
      ∧ (ps.length ≤ v.piece + 1 → v.chunk + 1 < f.chunksTotal → exec (.readbackReadComplete x false false data) s
        = .next (free.setActive x
            (some { v with digest := d, chunk := v.chunk + 1, piece := 0, read := .ready })).conclude)
      ∧ (ps.length ≤ v.piece + 1 → f.chunksTotal ≤ v.chunk + 1 → ∀ src, f.source = some src →
        let withCopy (t : Take) (st : CopyState) : State := (free.setActive x none).setLane v.lane (some
          (t.modifyFile v.entry fun f =>
            { f with copies := f.copies.set x.val { c with state := st, readback := some d } x.isLt }))
        ((∃ z, z ≠ x ∧ (f.copy z).state.terminal tk.verify = false) →
          (d.a = src.a ∧ d.b = src.b ∧ d.len = src.len →
            exec (.readbackReadComplete x false false data) s = .next (withCopy tk .verified).conclude)
          ∧ (¬ (d.a = src.a ∧ d.b = src.b ∧ d.len = src.len) →
              tk.mismatch = .record ∨ c.recopied = true ∨ f.condition = .damaged →
            exec (.readbackReadComplete x false false data) s = .next (withCopy tk .mismatch).conclude))
        ∧ (¬ (d.a = src.a ∧ d.b = src.b ∧ d.len = src.len) →
            tk.mismatch = .recopy → c.recopied = false → f.condition ≠ .damaged →
          let listed : Take := { tk with recopyList := tk.recopyList ++ [(v.entry, x)] }
          (tk.state = .suspended ∨ tk.state = .waiting ∨ tk.state = .interrupted →
            exec (.readbackReadComplete x false false data) s = .next (withCopy listed .recopyWait).conclude)
          ∧ (tk.state = .running → tk.reading ≠ .none →
            exec (.readbackReadComplete x false false data) s
              = .next (withCopy { listed with headHold := .none } .recopyWait).conclude))))

/-- A host operation that the drive completes is answered and the channel chooses again: with the sectors read,
with the sector count written, or with TARGET_FAULT and class ERROR, the target staying ONLINE. A late completion is
ignored (R115; that the command says so itself is log 3's reading). -/
def Obligations.HostOperationsAreAnswered : Prop :=
  ∀ (x : TargetIx) (h : HostOp) (data : List Byte) (s : State), s.link.stale = false → (s.target x).op = .host h →
    let free := s.setTarget x { s.target x with op := .none }
    (∀ error, exec (.hostOpComplete x true error data) s = .next s)
    ∧ exec (.hostOpComplete x false true data) s = .next ((free.answer .targetFault [0]).conclude)
    ∧ (∀ lba count, h = .read lba count → data.length = count * 512 →
        exec (.hostOpComplete x false false data) s = .next ((free.answer .ok data).conclude))
    ∧ (∀ lba count bytes, h = .write lba count bytes →
        exec (.hostOpComplete x false false data) s = .next ((free.answer .ok (le 1 count)).conclude))

/-! ### Arbiter and verify unit -/

/-- The arbiter's choice at a free channel in ONLINE: the waiting host operation; else the holder with work
below its quota; else the first candidate with work in ring order after the holder; else the holder alone, its
count up to the quota; else none. -/
def Obligations.ArbiterChoosesByTheRing : Prop :=
  ∀ (t : TargetIx) (s : State), (s.target t).state = .online → (s.target t).op = .none →
    (∀ h, (s.target t).waitingHost = some h →
      s.arbitrate t = s.setTarget t { s.target t with op := .host h, waitingHost := none })
    ∧ ((s.target t).waitingHost = none →
      (∀ h, (s.target t).holder = some h → s.hasWork t h = true → (s.target t).grantCount < (s.target t).quota →
        s.arbitrate t = s.grantTo t h ((s.target t).grantCount + 1))
      ∧ (∀ c, s.hasWork t c = true → (s.target t).holder ≠ some c →
          (∀ h, (s.target t).holder = some h → s.hasWork t h = true → (s.target t).quota ≤ (s.target t).grantCount) →
          (∀ d, s.hasWork t d = true → (s.target t).holder ≠ some d →
            ringDistance (s.target t).holder c ≤ ringDistance (s.target t).holder d) →
        s.arbitrate t = s.grantTo t c 1)
      ∧ (∀ h, (s.target t).holder = some h → s.hasWork t h = true → (s.target t).grantCount = (s.target t).quota →
          (∀ d, s.hasWork t d = true → d = h) → s.arbitrate t = s.grantTo t h (s.target t).quota)
      ∧ ((∀ d, s.hasWork t d = false) → s.arbitrate t = s))

/-- In every step the verify unit and the recopy lists agree with the copy records, as `State.VerifyOk` says, where the
staging buffer is in order. Each target that is ONLINE without an active verification starts the oldest order queued
for it, at chunk 0 with its digest at the start and its read ready; the others are not touched, and active
verifications hold different buffers if they did. -/
def Obligations.OldestVerifyOrdersStart : Prop :=
  (∀ (s t : State), s.StagingOk → s.VerifyOk → step s = .next t → t.VerifyOk)
    ∧ ∀ (s : State),
    (∀ x, (s.target x).state ≠ .online ∨ s.active x ≠ none ∨ (∀ o ∈ s.verify.queue, o.target ≠ x) →
      s.startVerifications.active x = s.active x)
    ∧ (∀ x o, (s.target x).state = .online → s.active x = none →
        s.verify.queue.find? (fun o => o.target = x) = some o →
      (∃ b, s.startVerifications.active x = some
        { lane := o.lane, entry := o.entry, buffer := b, chunk := 0, piece := 0, read := .ready
          digest := { a := 0, b := 0, len := 0 }, stop := false })
      ∧ (∀ c, s.copy? o.lane o.entry x = some c →
          s.startVerifications.copy? o.lane o.entry x = some { c with state := .verifying }))
    ∧ (s.BuffersDiffer → s.startVerifications.BuffersDiffer)

/-! ### Sectors and digests -/

/-- The pieces of a chunk on the card and on a drive cover exactly its sectors, in order and without gaps, each
sector at the address its runs give it. -/
def Obligations.PiecesCoverTheChunk : Prop :=
  ∀ (f : FileEntry) (c : Nat), c < f.chunksTotal →
    ((f.runs.map Extent.len).sum = f.sectors →
      ((f.pieces c).map Piece.count).sum = f.chunkEnd c - 256 * c
      ∧ (∀ i p, (f.pieces c)[i]? = some p →
          p.sector = 256 * c + (((f.pieces c).take i).map Piece.count).sum ∧ 1 ≤ p.count ∧ p.count ≤ 256
          ∧ ∀ j, j < p.count → placeOf f.runs (p.sector + j) = some (p.lba + j)))
    ∧ (∀ (a : Allocation) (unit : Nat), 0 < unit → f.sectors ≤ unitsOf a.runs * unit →
      ((f.drivePieces a unit c).map Piece.count).sum = f.chunkEnd c - 256 * c
      ∧ (∀ i p, (f.drivePieces a unit c)[i]? = some p →
          p.sector = 256 * c + (((f.drivePieces a unit c).take i).map Piece.count).sum ∧ 1 ≤ p.count ∧ p.count ≤ 256
          ∧ ∀ j, j < p.count → ∃ u, placeOf a.runs ((p.sector + j) / unit) = some u
              ∧ p.lba + j = u * unit + (p.sector + j) % unit))

/-- The digest of bytes is the sum of their words, the sum of the words weighted by their distance from the end,
and their number; sums stay below M; and folding in two parts, the first of whole words, gives the digest of the
whole. A change of one word to one of another residue changes A, and so the digest; the exchange of two words of
different residues changes B when their distance is not a multiple of M. -/
def Obligations.DigestWeighsWordsAndSeesChanges : Prop :=
  (∀ (d : Digest) (w : Nat), (d.foldWord w).a = (d.a + w % 4294967291) % 4294967291
      ∧ (d.foldWord w).b = (d.b + (d.foldWord w).a) % 4294967291 ∧ (d.foldWord w).len = d.len)
    ∧ (∀ (d : Digest) (xs ys : List Byte),
    ((Digest.start.fold xs).a = (wordsOf xs).sum % 4294967291
      ∧ (Digest.start.fold xs).b
          = (((wordsOf xs).zipIdx.map fun p => ((wordsOf xs).length - p.2) * p.1).sum) % 4294967291
      ∧ (Digest.start.fold xs).len = xs.length)
    ∧ (d.a < 4294967291 → d.b < 4294967291 → (d.fold xs).a < 4294967291 ∧ (d.fold xs).b < 4294967291)
    ∧ (xs.length % 4 = 0 → (d.fold xs).fold ys = d.fold (xs ++ ys)))
    ∧ (∀ (ws : List Nat) (i j v w : Nat), ws[i]? = some v →
    (w % 4294967291 ≠ v % 4294967291 →
      ((ws.set i w).foldl Digest.foldWord Digest.start).a ≠ (ws.foldl Digest.foldWord Digest.start).a)
    ∧ (ws[j]? = some w → w % 4294967291 ≠ v % 4294967291 → i < j → (j - i) % 4294967291 ≠ 0 →
      (((ws.set i w).set j v).foldl Digest.foldWord Digest.start).b
        ≠ (ws.foldl Digest.foldWord Digest.start).b))

/-! ### What every step keeps -/

/-- Every step keeps the panel line, the levels' latches and the pending-notice flag in order. -/
def Obligations.EveryStepKeepsAttentionInOrder : Prop :=
  ∀ (s t : State), s.AttentionOk → step s = .next t → t.AttentionOk

/-- Every step leaves each level condition asserted exactly while its owner's state holds. -/
def Obligations.EveryStepKeepsLevelsTrue : Prop :=
  ∀ (s t : State), s.LevelsOk → step s = .next t → t.LevelsOk

/-- Every step keeps the take contexts within their ranges; the entry store's account: 8192 entries, free or
held, no take with more than 4096; and the staging buffer's account: a SENDING segment's count is the number of orders
that name it, each of its owner's, a lane holds at most its window, no segment is FREE while a lane waits for one, and
a lane that is IDLE, OPEN or CLOSED holds none. -/
def Obligations.EveryStepKeepsTakesAndEntryStore : Prop :=
  (∀ (s t : State), s.StoreOk → step s = .next t → t.StoreOk)
    ∧ (∀ (s t : State), s.TakesOk → step s = .next t → t.TakesOk)
    ∧ (∀ (s t : State), s.StagingOk → step s = .next t → t.StagingOk)

/-- Every step keeps the slot and target records as their tables have them, and, with them, the message link's
order. That transfers which wait are taken in the very step that frees the pipe is the model's choice (log 7), and so
is it that a stale request's reply, once composed, is dropped at once (log 27). -/
def Obligations.EveryStepKeepsPortsAndLinkInOrder : Prop :=
  (∀ (s t : State), s.PortsOk → step s = .next t → t.PortsOk)
    ∧ (∀ (s t : State), s.PortsOk → s.LinkOk → step s = .next t → t.LinkOk)

/-- Every step leaves no choice of the verify unit or of an arbiter open. The model's reading of when they
choose (log 8). -/
def Obligations.EveryStepLeavesNoChoiceOpen : Prop :=
  ∀ (s t : State), s.atRest = true → step s = .next t → t.atRest = true

/-- All of it holds right after reset. -/
def Obligations.ResetIsInOrder : Prop :=
  State.reset.AttentionOk ∧ State.reset.LevelsOk ∧ State.reset.StoreOk ∧ State.reset.TakesOk ∧ State.reset.PortsOk
    ∧ State.reset.LinkOk ∧ State.reset.OutOfServiceOk ∧ State.reset.SpaceOk ∧ State.reset.StagingOk
    ∧ State.reset.VerifyOk ∧ State.reset.atRest = true
end

