-- ==== Sys2Proof/Laws/State.lean ====
section
/-! SUPPORT. What reading a part of State gives after an update of State: one lemma for each field and each update,
true by unfolding, so that no later proof unfolds a record update. -/

namespace Sys2Proof.Machine

/-! ### A slot is replaced -/

section
variable (s : State) (n m : LaneIx) (x : Slot) (f : Slot → Slot)

@[simp] theorem setSlot_link : (s.setSlot n x).link = s.link := rfl
@[simp] theorem setSlot_attention : (s.setSlot n x).attention = s.attention := rfl
@[simp] theorem setSlot_freeEntries : (s.setSlot n x).freeEntries = s.freeEntries := rfl
@[simp] theorem setSlot_lanes : (s.setSlot n x).lanes = s.lanes := rfl
@[simp] theorem setSlot_staging : (s.setSlot n x).staging = s.staging := rfl
@[simp] theorem setSlot_targets : (s.setSlot n x).targets = s.targets := rfl
@[simp] theorem setSlot_pools : (s.setSlot n x).pools = s.pools := rfl
@[simp] theorem setSlot_verify : (s.setSlot n x).verify = s.verify := rfl
@[simp] theorem setSlot_freeReads : (s.setSlot n x).freeReads = s.freeReads := rfl
@[simp] theorem setSlot_pending : (s.setSlot n x).pending = s.pending := rfl
@[simp] theorem setSlot_target (t : TargetIx) : (s.setSlot n x).target t = s.target t := rfl
@[simp] theorem setSlot_pool (t : TargetIx) : (s.setSlot n x).pool t = s.pool t := rfl
@[simp] theorem setSlot_segment (g : SegmentIx) : (s.setSlot n x).segment g = s.segment g := rfl
@[simp] theorem setSlot_active (t : TargetIx) : (s.setSlot n x).active t = s.active t := rfl
@[simp] theorem setSlot_take : (s.setSlot n x).take? m = s.take? m := rfl
@[simp] theorem setSlot_laneState : (s.setSlot n x).laneState m = s.laneState m := rfl

theorem slot_setSlot : (s.setSlot n x).slot m = if m = n then x else s.slot m := by
  simp only [State.slot, State.setSlot, Fin.getElem_fin, Vector.getElem_set, Fin.ext_iff, eq_comm]

@[simp] theorem slot_setSlot_same : (s.setSlot n x).slot n = x := by simp [slot_setSlot]
theorem slot_setSlot_ne (h : m ≠ n) : (s.setSlot n x).slot m = s.slot m := by simp [slot_setSlot, h]

theorem modifySlot_eq : s.modifySlot n f = s.setSlot n (f (s.slot n)) := rfl

/-- Replacing a slot by itself changes nothing. -/
@[simp] theorem setSlot_slot : s.setSlot n (s.slot n) = s := by
  simp [State.setSlot, State.slot]

@[simp] theorem setSlot_setSlot (y : Slot) : (s.setSlot n x).setSlot n y = s.setSlot n y := by
  simp [State.setSlot]
end

/-! ### A target is replaced -/

section
variable (s : State) (t u : TargetIx) (x : Target) (f : Target → Target)

@[simp] theorem setTarget_link : (s.setTarget t x).link = s.link := rfl
@[simp] theorem setTarget_attention : (s.setTarget t x).attention = s.attention := rfl
@[simp] theorem setTarget_freeEntries : (s.setTarget t x).freeEntries = s.freeEntries := rfl
@[simp] theorem setTarget_lanes : (s.setTarget t x).lanes = s.lanes := rfl
@[simp] theorem setTarget_staging : (s.setTarget t x).staging = s.staging := rfl
@[simp] theorem setTarget_slots : (s.setTarget t x).slots = s.slots := rfl
@[simp] theorem setTarget_pools : (s.setTarget t x).pools = s.pools := rfl
@[simp] theorem setTarget_verify : (s.setTarget t x).verify = s.verify := rfl
@[simp] theorem setTarget_freeReads : (s.setTarget t x).freeReads = s.freeReads := rfl
@[simp] theorem setTarget_pending : (s.setTarget t x).pending = s.pending := rfl
@[simp] theorem setTarget_slot (n : LaneIx) : (s.setTarget t x).slot n = s.slot n := rfl
@[simp] theorem setTarget_pool : (s.setTarget t x).pool u = s.pool u := rfl
@[simp] theorem setTarget_segment (g : SegmentIx) : (s.setTarget t x).segment g = s.segment g := rfl
@[simp] theorem setTarget_active : (s.setTarget t x).active u = s.active u := rfl
@[simp] theorem setTarget_take (n : LaneIx) : (s.setTarget t x).take? n = s.take? n := rfl
@[simp] theorem setTarget_laneState (n : LaneIx) : (s.setTarget t x).laneState n = s.laneState n := rfl

theorem target_setTarget : (s.setTarget t x).target u = if u = t then x else s.target u := by
  simp only [State.target, State.setTarget, Fin.getElem_fin, Vector.getElem_set, Fin.ext_iff, eq_comm]

@[simp] theorem target_setTarget_same : (s.setTarget t x).target t = x := by simp [target_setTarget]
theorem target_setTarget_ne (h : u ≠ t) : (s.setTarget t x).target u = s.target u := by
  simp [target_setTarget, h]

theorem modifyTarget_eq : s.modifyTarget t f = s.setTarget t (f (s.target t)) := rfl

/-- Replacing a target by itself changes nothing. -/
@[simp] theorem setTarget_target : s.setTarget t (s.target t) = s := by
  simp [State.setTarget, State.target]

@[simp] theorem setTarget_setTarget (y : Target) : (s.setTarget t x).setTarget t y = s.setTarget t y := by
  simp [State.setTarget]
end

/-! ### A pool is replaced -/

section
variable (s : State) (t u : TargetIx) (x : Pool) (f : Pool → Pool)

@[simp] theorem setPool_link : (s.setPool t x).link = s.link := rfl
@[simp] theorem setPool_attention : (s.setPool t x).attention = s.attention := rfl
@[simp] theorem setPool_freeEntries : (s.setPool t x).freeEntries = s.freeEntries := rfl
@[simp] theorem setPool_lanes : (s.setPool t x).lanes = s.lanes := rfl
@[simp] theorem setPool_staging : (s.setPool t x).staging = s.staging := rfl
@[simp] theorem setPool_slots : (s.setPool t x).slots = s.slots := rfl
@[simp] theorem setPool_targets : (s.setPool t x).targets = s.targets := rfl
@[simp] theorem setPool_verify : (s.setPool t x).verify = s.verify := rfl
@[simp] theorem setPool_freeReads : (s.setPool t x).freeReads = s.freeReads := rfl
@[simp] theorem setPool_pending : (s.setPool t x).pending = s.pending := rfl
@[simp] theorem setPool_slot (n : LaneIx) : (s.setPool t x).slot n = s.slot n := rfl
@[simp] theorem setPool_target : (s.setPool t x).target u = s.target u := rfl
@[simp] theorem setPool_segment (g : SegmentIx) : (s.setPool t x).segment g = s.segment g := rfl
@[simp] theorem setPool_active : (s.setPool t x).active u = s.active u := rfl
@[simp] theorem setPool_take (n : LaneIx) : (s.setPool t x).take? n = s.take? n := rfl
@[simp] theorem setPool_laneState (n : LaneIx) : (s.setPool t x).laneState n = s.laneState n := rfl

theorem pool_setPool : (s.setPool t x).pool u = if u = t then x else s.pool u := by
  simp only [State.pool, State.setPool, Fin.getElem_fin, Vector.getElem_set, Fin.ext_iff, eq_comm]

@[simp] theorem pool_setPool_same : (s.setPool t x).pool t = x := by simp [pool_setPool]
theorem pool_setPool_ne (h : u ≠ t) : (s.setPool t x).pool u = s.pool u := by simp [pool_setPool, h]

theorem modifyPool_eq : s.modifyPool t f = s.setPool t (f (s.pool t)) := rfl

@[simp] theorem setPool_pool : s.setPool t (s.pool t) = s := by
  simp [State.setPool, State.pool]
end

/-! ### A segment is replaced -/

section
variable (s : State) (g h : SegmentIx) (x : Segment)

@[simp] theorem setSegment_link : (s.setSegment g x).link = s.link := rfl
@[simp] theorem setSegment_attention : (s.setSegment g x).attention = s.attention := rfl
@[simp] theorem setSegment_freeEntries : (s.setSegment g x).freeEntries = s.freeEntries := rfl
@[simp] theorem setSegment_lanes : (s.setSegment g x).lanes = s.lanes := rfl
@[simp] theorem setSegment_waiting : (s.setSegment g x).staging.waiting = s.staging.waiting := rfl
@[simp] theorem setSegment_lastServed : (s.setSegment g x).staging.lastServed = s.staging.lastServed := rfl
@[simp] theorem setSegment_slots : (s.setSegment g x).slots = s.slots := rfl
@[simp] theorem setSegment_targets : (s.setSegment g x).targets = s.targets := rfl
@[simp] theorem setSegment_pools : (s.setSegment g x).pools = s.pools := rfl
@[simp] theorem setSegment_verify : (s.setSegment g x).verify = s.verify := rfl
@[simp] theorem setSegment_freeReads : (s.setSegment g x).freeReads = s.freeReads := rfl
@[simp] theorem setSegment_pending : (s.setSegment g x).pending = s.pending := rfl
@[simp] theorem setSegment_slot (n : LaneIx) : (s.setSegment g x).slot n = s.slot n := rfl
@[simp] theorem setSegment_target (t : TargetIx) : (s.setSegment g x).target t = s.target t := rfl
@[simp] theorem setSegment_pool (t : TargetIx) : (s.setSegment g x).pool t = s.pool t := rfl
@[simp] theorem setSegment_active (t : TargetIx) : (s.setSegment g x).active t = s.active t := rfl
@[simp] theorem setSegment_take (n : LaneIx) : (s.setSegment g x).take? n = s.take? n := rfl
@[simp] theorem setSegment_laneState (n : LaneIx) : (s.setSegment g x).laneState n = s.laneState n := rfl

theorem segment_setSegment : (s.setSegment g x).segment h = if h = g then x else s.segment h := by
  simp only [State.segment, State.setSegment, Fin.getElem_fin, Vector.getElem_set, Fin.ext_iff, eq_comm]

@[simp] theorem segment_setSegment_same : (s.setSegment g x).segment g = x := by simp [segment_setSegment]
theorem segment_setSegment_ne (ne : h ≠ g) : (s.setSegment g x).segment h = s.segment h := by
  simp [segment_setSegment, ne]
end

/-! ### A take context is replaced -/

section
variable (s : State) (n m : LaneIx) (x : Option Take) (f : Take → Take)

@[simp] theorem setLane_link : (s.setLane n x).link = s.link := rfl
@[simp] theorem setLane_attention : (s.setLane n x).attention = s.attention := rfl
@[simp] theorem setLane_freeEntries : (s.setLane n x).freeEntries = s.freeEntries := rfl
@[simp] theorem setLane_staging : (s.setLane n x).staging = s.staging := rfl
@[simp] theorem setLane_slots : (s.setLane n x).slots = s.slots := rfl
@[simp] theorem setLane_targets : (s.setLane n x).targets = s.targets := rfl
@[simp] theorem setLane_pools : (s.setLane n x).pools = s.pools := rfl
@[simp] theorem setLane_verify : (s.setLane n x).verify = s.verify := rfl
@[simp] theorem setLane_freeReads : (s.setLane n x).freeReads = s.freeReads := rfl
@[simp] theorem setLane_pending : (s.setLane n x).pending = s.pending := rfl
@[simp] theorem setLane_slot : (s.setLane n x).slot m = s.slot m := rfl
@[simp] theorem setLane_target (t : TargetIx) : (s.setLane n x).target t = s.target t := rfl
@[simp] theorem setLane_pool (t : TargetIx) : (s.setLane n x).pool t = s.pool t := rfl
@[simp] theorem setLane_segment (g : SegmentIx) : (s.setLane n x).segment g = s.segment g := rfl
@[simp] theorem setLane_active (t : TargetIx) : (s.setLane n x).active t = s.active t := rfl

theorem take_setLane : (s.setLane n x).take? m = if m = n then x else s.take? m := by
  simp only [State.take?, State.setLane, Fin.getElem_fin, Vector.getElem_set, Fin.ext_iff, eq_comm]

@[simp] theorem take_setLane_same : (s.setLane n x).take? n = x := by simp [take_setLane]
theorem take_setLane_ne (h : m ≠ n) : (s.setLane n x).take? m = s.take? m := by simp [take_setLane, h]
@[simp] theorem laneState_setLane_same : (s.setLane n x).laneState n = x.map Take.state := by
  simp [State.laneState]

theorem modifyTake_eq : s.modifyTake n f = s.setLane n ((s.take? n).map f) := rfl

theorem modifyTake_of_take {t : Take} (h : s.take? n = some t) : s.modifyTake n f = s.setLane n (some (f t)) := by
  simp [modifyTake_eq, h]

/-- Replacing a take by itself changes nothing. -/
@[simp] theorem setLane_take : s.setLane n (s.take? n) = s := by
  simp [State.setLane, State.take?]

/-- An IDLE lane has no take to change. -/
theorem modifyTake_of_idle (h : s.take? n = none) : s.modifyTake n f = s := by
  have h2 : s.setLane n none = s := h ▸ setLane_take s n
  rw [modifyTake_eq, h, Option.map_none, h2]

theorem take_modifyTake : (s.modifyTake n f).take? m = if m = n then (s.take? n).map f else s.take? m := by
  simp [modifyTake_eq, take_setLane]

@[simp] theorem setLane_setLane (y : Option Take) : (s.setLane n x).setLane n y = s.setLane n y := by
  simp [State.setLane]

@[simp] theorem modifyTake_link : (s.modifyTake n f).link = s.link := rfl
@[simp] theorem modifyTake_attention : (s.modifyTake n f).attention = s.attention := rfl
@[simp] theorem modifyTake_freeEntries : (s.modifyTake n f).freeEntries = s.freeEntries := rfl
@[simp] theorem modifyTake_staging : (s.modifyTake n f).staging = s.staging := rfl
@[simp] theorem modifyTake_slots : (s.modifyTake n f).slots = s.slots := rfl
@[simp] theorem modifyTake_targets : (s.modifyTake n f).targets = s.targets := rfl
@[simp] theorem modifyTake_pools : (s.modifyTake n f).pools = s.pools := rfl
@[simp] theorem modifyTake_verify : (s.modifyTake n f).verify = s.verify := rfl
@[simp] theorem modifyTake_freeReads : (s.modifyTake n f).freeReads = s.freeReads := rfl
@[simp] theorem modifyTake_pending : (s.modifyTake n f).pending = s.pending := rfl
@[simp] theorem modifyTake_slot : (s.modifyTake n f).slot m = s.slot m := rfl
@[simp] theorem modifyTake_target (t : TargetIx) : (s.modifyTake n f).target t = s.target t := rfl
@[simp] theorem modifyTake_pool (t : TargetIx) : (s.modifyTake n f).pool t = s.pool t := rfl
@[simp] theorem modifyTake_segment (g : SegmentIx) : (s.modifyTake n f).segment g = s.segment g := rfl
@[simp] theorem modifyTake_active (t : TargetIx) : (s.modifyTake n f).active t = s.active t := rfl
end

/-! ### An active verification is replaced -/

section
variable (s : State) (t u : TargetIx) (x : Option Verification)

@[simp] theorem setActive_link : (s.setActive t x).link = s.link := rfl
@[simp] theorem setActive_attention : (s.setActive t x).attention = s.attention := rfl
@[simp] theorem setActive_freeEntries : (s.setActive t x).freeEntries = s.freeEntries := rfl
@[simp] theorem setActive_lanes : (s.setActive t x).lanes = s.lanes := rfl
@[simp] theorem setActive_staging : (s.setActive t x).staging = s.staging := rfl
@[simp] theorem setActive_slots : (s.setActive t x).slots = s.slots := rfl
@[simp] theorem setActive_targets : (s.setActive t x).targets = s.targets := rfl
@[simp] theorem setActive_pools : (s.setActive t x).pools = s.pools := rfl
@[simp] theorem setActive_queue : (s.setActive t x).verify.queue = s.verify.queue := rfl
@[simp] theorem setActive_freeReads : (s.setActive t x).freeReads = s.freeReads := rfl
@[simp] theorem setActive_pending : (s.setActive t x).pending = s.pending := rfl
@[simp] theorem setActive_slot (n : LaneIx) : (s.setActive t x).slot n = s.slot n := rfl
@[simp] theorem setActive_target : (s.setActive t x).target u = s.target u := rfl
@[simp] theorem setActive_pool : (s.setActive t x).pool u = s.pool u := rfl
@[simp] theorem setActive_segment (g : SegmentIx) : (s.setActive t x).segment g = s.segment g := rfl
@[simp] theorem setActive_take (n : LaneIx) : (s.setActive t x).take? n = s.take? n := rfl
@[simp] theorem setActive_laneState (n : LaneIx) : (s.setActive t x).laneState n = s.laneState n := rfl

theorem active_setActive : (s.setActive t x).active u = if u = t then x else s.active u := by
  simp only [State.active, State.setActive, Fin.getElem_fin, Vector.getElem_set, Fin.ext_iff, eq_comm]

@[simp] theorem active_setActive_same : (s.setActive t x).active t = x := by simp [active_setActive]
theorem active_setActive_ne (h : u ≠ t) : (s.setActive t x).active u = s.active u := by
  simp [active_setActive, h]
end

/-! ### Copy records and files -/

@[simp] theorem copy_modifyCopy_same (f : FileEntry) (t : TargetIx) (g : CopyRecord → CopyRecord) :
    (f.modifyCopy t g).copy t = g (f.copy t) := by
  simp [FileEntry.modifyCopy, FileEntry.copy]

theorem copy_modifyCopy_ne (f : FileEntry) {t u : TargetIx} (h : u ≠ t) (g : CopyRecord → CopyRecord) :
    (f.modifyCopy t g).copy u = f.copy u := by
  have : t.val ≠ u.val := fun e => h (Fin.ext e.symm)
  simp [FileEntry.modifyCopy, FileEntry.copy, this]

@[simp] theorem modifyFile_entries_length (t : Take) (e : Nat) (f : FileEntry → FileEntry) :
    (t.modifyFile e f).entries.length = t.entries.length := by
  simp [Take.modifyFile]

theorem file_modifyFile (t : Take) (e d : Nat) (f : FileEntry → FileEntry) :
    (t.modifyFile e f).file? d = if d = e then (t.file? d).map f else t.file? d := by
  by_cases h : d = e
  · subst h
    simp only [Take.file?, Take.modifyFile, List.getElem?_modify, if_true]
    cases h2 : t.entries[d]? with
    | none => simp
    | some x => cases x <;> simp [Entry.mapFile, Entry.file?]
  · have h' : ¬ e = d := fun h2 => h h2.symm
    simp only [Take.file?, Take.modifyFile, List.getElem?_modify, h, h', if_false]
    cases h2 : t.entries[d]? <;> simp

@[simp] theorem file_modifyFile_same (t : Take) (e : Nat) (f : FileEntry → FileEntry) :
    (t.modifyFile e f).file? e = (t.file? e).map f := by
  simp [file_modifyFile]

end Sys2Proof.Machine
end

