-- ==== Sys2Proof/Laws/Settle.lean ====
section
/-! SUPPORT. What ends a step: the follow-on actions one by one, the choices of the verify unit, the arbiters and
the outgoing path in a state where no choice is open, and a request that enters service at once. -/

namespace Sys2Proof.Machine

/-! ### Follow-on actions -/

@[simp] theorem settle_nil (k : Nat) (s : State) : settle k [] s = s := by cases k <;> rfl

theorem settle_cons (k : Nat) (t : Task) (ts : List Task) (s : State) :
    settle (k + 1) (t :: ts) s = settle k ((doTask s t).2 ++ ts) (doTask s t).1 := rfl

@[simp] theorem settled_nil (s : State) : settled (s, []) = s := by simp [settled]

/-- With follow-on actions left, the first is taken and its own come before the rest. -/
theorem settled_cons (t : Task) (ts : List Task) (s : State) :
    settled (s, t :: ts) = settle (2 ^ 64 - 1) ((doTask s t).2 ++ ts) (doTask s t).1 := by
  have h : Config.settleFuel = (2 ^ 64 - 1) + 1 := rfl
  simp only [settled, h, settle_cons]

/-- A relation that each follow-on action keeps, and that composes, is kept by all of them together. -/
theorem settle_keeps {R : State → State → Prop} (refl : ∀ s, R s s) (trans : ∀ {a b c}, R a b → R b c → R a c)
    (one : ∀ s t, R s (doTask s t).1) : ∀ (k : Nat) (ts : List Task) (s : State), R s (settle k ts s)
  | k, [], s => by simpa using refl s
  | 0, t :: ts, s => by
      have replies : ∀ (ts : List Task) (s : State), R s (repliesOnly ts s) := by
        intro ts
        induction ts with
        | nil => exact refl
        | cons t ts ih =>
          intro s
          cases t with
          | takeReply n c st b => exact trans (one s (.takeReply n c st b)) (ih _)
          | _ => exact ih s
      exact replies _ s
  | k + 1, t :: ts, s => by
      rw [settle_cons]
      exact trans (one s t) (settle_keeps refl trans one k _ _)

theorem settled_keeps {R : State → State → Prop} (refl : ∀ s, R s s) (trans : ∀ {a b c}, R a b → R b c → R a c)
    (one : ∀ s t, R s (doTask s t).1) (w : Work) : R w.1 (settled w) :=
  settle_keeps refl trans one _ _ _

/-! ### The outgoing path -/

section
variable (s : State)

theorem choosePath_of_busy (h : s.link.outgoing ≠ none) : s.choosePath = s := by
  simp [State.choosePath, h]

theorem choosePath_of_unconfigured (h : s.link.configured = false) : s.choosePath = s := by
  simp [State.choosePath, h]

/-- What the choice of the path can do: only the attention unit's gained set and sequence number, the pending-notice
flag and the frame being sent change (R185, R186). -/
theorem choosePath_frame : ∃ a p o, s.choosePath = { s with
    attention := a, link := { s.link with pendingNotice := p, outgoing := o } } := by
  unfold State.choosePath
  split
  · split
    · exact ⟨s.attention, s.link.pendingNotice, _, rfl⟩
    · split
      · exact ⟨s.attention, s.link.pendingNotice, _, rfl⟩
      · split
        · exact ⟨_, _, _, rfl⟩
        · exact ⟨_, _, _, rfl⟩
  · exact ⟨_, _, _, rfl⟩

@[simp] theorem choosePath_targets : s.choosePath.targets = s.targets := by
  obtain ⟨a, p, o, h⟩ := choosePath_frame s; rw [h]
@[simp] theorem choosePath_slots : s.choosePath.slots = s.slots := by
  obtain ⟨a, p, o, h⟩ := choosePath_frame s; rw [h]
@[simp] theorem choosePath_lanes : s.choosePath.lanes = s.lanes := by
  obtain ⟨a, p, o, h⟩ := choosePath_frame s; rw [h]
@[simp] theorem choosePath_pools : s.choosePath.pools = s.pools := by
  obtain ⟨a, p, o, h⟩ := choosePath_frame s; rw [h]
@[simp] theorem choosePath_staging : s.choosePath.staging = s.staging := by
  obtain ⟨a, p, o, h⟩ := choosePath_frame s; rw [h]
@[simp] theorem choosePath_verify : s.choosePath.verify = s.verify := by
  obtain ⟨a, p, o, h⟩ := choosePath_frame s; rw [h]
@[simp] theorem choosePath_pending : s.choosePath.pending = s.pending := by
  obtain ⟨a, p, o, h⟩ := choosePath_frame s; rw [h]
@[simp] theorem choosePath_freeReads : s.choosePath.freeReads = s.freeReads := by
  obtain ⟨a, p, o, h⟩ := choosePath_frame s; rw [h]
@[simp] theorem choosePath_freeEntries : s.choosePath.freeEntries = s.freeEntries := by
  obtain ⟨a, p, o, h⟩ := choosePath_frame s; rw [h]
@[simp] theorem choosePath_inService : s.choosePath.link.inService = s.link.inService := by
  obtain ⟨a, p, o, h⟩ := choosePath_frame s; rw [h]
@[simp] theorem choosePath_queue : s.choosePath.link.queue = s.link.queue := by
  obtain ⟨a, p, o, h⟩ := choosePath_frame s; rw [h]
@[simp] theorem choosePath_overrun : s.choosePath.link.overrun = s.link.overrun := by
  obtain ⟨a, p, o, h⟩ := choosePath_frame s; rw [h]
@[simp] theorem choosePath_configured : s.choosePath.link.configured = s.link.configured := by
  obtain ⟨a, p, o, h⟩ := choosePath_frame s; rw [h]
@[simp] theorem choosePath_stale : s.choosePath.link.stale = s.link.stale := by
  obtain ⟨a, p, o, h⟩ := choosePath_frame s; rw [h]
@[simp] theorem choosePath_outPipe : s.choosePath.link.outPipe = s.link.outPipe := by
  obtain ⟨a, p, o, h⟩ := choosePath_frame s; rw [h]
@[simp] theorem choosePath_composed : s.choosePath.link.composed = s.link.composed := by
  simp [Link.composed]
@[simp] theorem choosePath_take (n : LaneIx) : s.choosePath.take? n = s.take? n := by
  simp [State.take?]
@[simp] theorem choosePath_slot (n : LaneIx) : s.choosePath.slot n = s.slot n := by
  simp [State.slot]
@[simp] theorem choosePath_target (t : TargetIx) : s.choosePath.target t = s.target t := by
  simp [State.target]
@[simp] theorem choosePath_pool (t : TargetIx) : s.choosePath.pool t = s.pool t := by
  simp [State.pool]
@[simp] theorem choosePath_active (t : TargetIx) : s.choosePath.active t = s.active t := by
  simp [State.active]
@[simp] theorem choosePath_segment (g : SegmentIx) : s.choosePath.segment g = s.segment g := by
  simp [State.segment]
@[simp] theorem choosePath_latched : s.choosePath.attention.latched = s.attention.latched := by
  unfold State.choosePath; split
  · split
    · rfl
    · split
      · rfl
      · split <;> rfl
  · rfl
@[simp] theorem choosePath_asserted : s.choosePath.attention.asserted = s.attention.asserted := by
  unfold State.choosePath; split
  · split
    · rfl
    · split
      · rfl
      · split <;> rfl
  · rfl
end

/-! ### No choice is open -/

/-- Whether a choice is open depends on the target ports and the verify unit only. -/
theorem atRest_congr {s t : State} (ht : t.targets = s.targets) (hv : t.verify = s.verify) : t.atRest = s.atRest := by
  have target : ∀ x, t.target x = s.target x := fun x => by simp [State.target, ht]
  have active : ∀ x, t.active x = s.active x := fun x => by simp [State.active, hv]
  have work : ∀ x c, t.hasWork x c = s.hasWork x c := by
    intro x c; cases c <;> simp [State.hasWork, target, active]
  have rest : t.targetAtRest = s.targetAtRest := by
    funext x; simp [State.targetAtRest, target, work]
  simp [State.atRest, hv, State.orderQualifies, target, active, rest]

/-- No order qualifies: no verification starts. -/
theorem startVerifications_of_atRest {s : State} (h : s.atRest = true) : s.startVerifications = s := by
  have hq : ∀ o ∈ s.verify.queue, s.orderQualifies o = false := by
    simp only [State.atRest, Bool.and_eq_true, List.all_eq_true, Bool.not_eq_true'] at h
    exact h.1
  have fold : ∀ q : List VerifyOrder, (∀ o ∈ q, s.orderQualifies o = false) →
      q.foldl (fun s o => if s.orderQualifies o then s.startVerification o else s) s = s := by
    intro q
    induction q with
    | nil => intro _; rfl
    | cons o q ih =>
      intro h
      simp only [List.foldl_cons, h o (List.mem_cons_self ..), Bool.false_eq_true, if_false]
      exact ih fun o' m => h o' (List.mem_cons_of_mem _ m)
  exact fold _ hq

theorem hasWork_false_of_targetAtRest {s : State} {t : TargetIx} (h : s.targetAtRest t = true)
    (on : (s.target t).state = .online) (free : (s.target t).op = .none) :
    (s.target t).waitingHost = none ∧ ∀ c, s.hasWork t c = false := by
  simp only [State.targetAtRest, on, free, bne_self_eq_false, Bool.false_or, Bool.and_eq_true,
    Option.isNone_iff_eq_none, List.all_eq_true, Bool.not_eq_true'] at h
  refine ⟨h.1, fun c => h.2 c ?_⟩
  cases c with
  | lane n => simp [ring, allLanes]
  | verifier => simp [ring]

/-- An arbiter with no choice to make changes nothing. -/
theorem arbitrate_of_rest {s : State} {t : TargetIx} (h : s.targetAtRest t = true) : s.arbitrate t = s := by
  unfold State.arbitrate
  by_cases c : (s.target t).state = .online ∧ (s.target t).op = .none
  · rw [if_pos c]
    obtain ⟨hw, work⟩ := hasWork_false_of_targetAtRest h c.1 c.2
    have nobody : ∀ l : List Candidate, l.find? (fun _ => false) = none :=
      fun l => List.find?_eq_none.2 (by simp)
    simp only [hw, State.chooseCandidate, work]
    cases (s.target t).holder <;> simp [nobody]
  · exact if_neg c

theorem arbitrateAll_of_atRest {s : State} (h : s.atRest = true) : s.arbitrateAll = s := by
  have ht : ∀ t, s.targetAtRest t = true := by
    simp only [State.atRest, Bool.and_eq_true, List.all_eq_true] at h
    exact fun t => h.2 t (List.mem_finRange t)
  have fold : ∀ l : List TargetIx, l.foldl State.arbitrate s = s := by
    intro l
    induction l with
    | nil => rfl
    | cons t l ih => rw [List.foldl_cons, arbitrate_of_rest (ht t), ih]
  exact fold _

/-- With no choice open a step ends with the path's choice alone. -/
theorem conclude_of_atRest {s : State} (h : s.atRest = true) : s.conclude = s.choosePath := by
  rw [State.conclude, startVerifications_of_atRest h, arbitrateAll_of_atRest h]

/-- Only a stale request's composed reply is discarded. -/
theorem discardStale_of_fresh {s : State} (h : s.link.stale = false) : s.discardStale = (s, []) := by
  simp [State.discardStale, h]

theorem discardStale_of_awaiting {s : State} (h : s.link.composed = none) : s.discardStale = (s, []) := by
  simp [State.discardStale, h]

/-- A step without follow-on actions and without a stale reply. -/
theorem finish_of_fresh {s : State} (h : s.link.stale = false) : finish (s, []) = s.conclude := by
  simp [finish, discardStale_of_fresh h]

/-- A step without follow-on actions, stale reply and open choices. -/
theorem finish_of_rest {s : State} (h : s.link.stale = false) (r : s.atRest = true) :
    finish (s, []) = s.choosePath := by
  rw [finish_of_fresh h, conclude_of_atRest r]

/-- A step whose follow-on actions give u, without a stale reply. -/
theorem finish_tasks {w : Work} {u : State} (h : settled w = u) (fresh : u.link.stale = false) :
    finish w = u.conclude := by
  rw [finish, h, discardStale_of_fresh fresh, settled_nil]

/-! ### Rest kept by small changes -/

theorem atRest_iff (s : State) : s.atRest = true
    ↔ (∀ o ∈ s.verify.queue, s.orderQualifies o = false) ∧ ∀ t, s.targetAtRest t = true := by
  simp [State.atRest, allTargets]

theorem atRest_beginService (s : State) (kind : Byte) (tag : BitVec 16) :
    (s.beginService kind tag).atRest = s.atRest := atRest_congr rfl rfl

theorem atRest_setSlot (s : State) (n : LaneIx) (x : Slot) : (s.setSlot n x).atRest = s.atRest := atRest_congr rfl rfl

theorem atRest_setLane (s : State) (n : LaneIx) (x : Option Take) : (s.setLane n x).atRest = s.atRest :=
  atRest_congr rfl rfl

theorem atRest_setPool (s : State) (t : TargetIx) (x : Pool) : (s.setPool t x).atRest = s.atRest := atRest_congr rfl rfl

theorem atRest_setSegment (s : State) (g : SegmentIx) (x : Segment) : (s.setSegment g x).atRest = s.atRest :=
  atRest_congr rfl rfl

/-- A target takes a record of the same state whose channel is busy, or that is not ONLINE. -/
theorem atRest_setTarget {s : State} (h : s.atRest = true) (t : TargetIx) (x : Target)
    (hs : x.state = (s.target t).state) (ho : x.op ≠ .none ∨ x.state ≠ .online) : (s.setTarget t x).atRest = true := by
  rw [atRest_iff] at h ⊢
  refine ⟨fun o m => ?_, fun u => ?_⟩
  · have k := h.1 o m
    simp only [State.orderQualifies, setTarget_active] at k ⊢
    rw [target_setTarget]
    split
    · rename_i e
      rw [hs, ← e]
      exact k
    · exact k
  · by_cases e : u = t
    · subst e
      simp only [State.targetAtRest, target_setTarget_same]
      rcases ho with ho | ho <;> simp [ho]
    · have w : ∀ c, (s.setTarget t x).hasWork u c = s.hasWork u c := by
        intro c
        cases c <;> simp [State.hasWork, target_setTarget, e]
      simpa [State.targetAtRest, target_setTarget, e, w] using h.2 u

theorem answerClamped_stale (s : State) (c : Bool) (st : Status) (b : List Byte) :
    (s.answerClamped c st b).link.stale = s.link.stale := by
  unfold State.answerClamped
  split <;> rfl

/-! ### Numbers and condition bits -/

theorem laneOf_none {x : Byte} (h : 8 ≤ x.toNat) : laneOf x = none := by
  simp [laneOf]
  omega

theorem targetOf_none {x : Byte} (h : 4 ≤ x.toNat) : targetOf x = none := by
  simp [targetOf]
  omega

theorem getLsbD_condBit {c d : Nat} (h : c < 78) : (condBit c).getLsbD d = decide (d = c) := by
  simp only [condBit, BitVec.getLsbD_twoPow]
  by_cases e : d = c
  · subst e
    simp [h]
  · simp [e]
    omega

/-! ### A request that enters service at once -/

theorem listening_iff (s : State) : s.listening = true ↔ s.link.configured = true ∧ s.link.overrun = none
    ∧ s.link.inService = none ∧ s.link.queue = [] ∧ s.link.stale = false := by
  simp [State.listening, and_assoc]

/-- A listening part serves a request in the same step. -/
theorem submit_of_listening (tag : BitVec 16) (r : Request) {s : State} (h : s.listening = true) :
    submit tag r s = finish (s.enterRequest tag r) := by
  obtain ⟨hc, ho, hi, hq, -⟩ := (listening_iff s).1 h
  simp [submit, Link.pipeHeld, Link.idle, hc, ho, hi, hq]

/-- A request that is answered at once, with what else it changed: `f` changes nothing of the link and leaves no
choice open. -/
theorem finish_answered {s u : State} {kind : Byte} {tag : BitVec 16} {c : Bool} {st : Status} {body : List Byte}
    (link : u.link = (s.beginService kind tag).link) (stale : s.link.stale = false) (rest : u.atRest = true) :
    finish (u.answerClamped c st body, [])
      = ({ u with link := s.link } : State).replied kind tag c st body := by
  have e : u.answerClamped c st body = { ({ u with link := s.link } : State) with link := { s.link with
      inService := some { kind := kind, tag := tag, reply := some (replyFrame kind tag c st body) } } } := by
    simp [State.answerClamped, link, State.beginService]
  have r := (atRest_congr (s := u) (t := { ({ u with link := s.link } : State) with link := { s.link with
    inService := some { kind := kind, tag := tag, reply := some (replyFrame kind tag c st body) } } }) rfl rfl).trans rest
  rw [e, finish_of_rest (s := { ({ u with link := s.link } : State) with link := { s.link with
    inService := some { kind := kind, tag := tag, reply := some (replyFrame kind tag c st body) } } }) stale r]
  rfl

/-- A request answered at once that changed nothing. -/
theorem finish_refused {s : State} (h : s.listening = true) (rest : s.atRest = true) (kind : Byte)
    (tag : BitVec 16) (c : Bool) (st : Status) (body : List Byte) :
    finish ((s.beginService kind tag).answerClamped c st body, []) = s.replied kind tag c st body :=
  finish_answered (s := s) rfl ((listening_iff s).1 h).2.2.2.2 ((atRest_congr (s := s) rfl rfl).trans rest)

/-- The reply of a take request without other follow-on actions before it. -/
theorem finish_takeReply {s u : State} {kind : Byte} {tag : BitVec 16} (n : LaneIx) {c : Bool} {st : Status}
    {body : List Byte} (link : u.link = (s.beginService kind tag).link) (stale : s.link.stale = false)
    (rest : u.atRest = true) :
    finish (u, [.takeReply n c st body])
      = ({ u with link := s.link } : State).replied kind tag c st (laneStateCode (u.laneState n) :: body) := by
  have e : settled (u, [.takeReply n c st body]) = u.answerTake n c st body := by
    simp [settled_cons, doTask]
  rw [← finish_answered link stale rest]
  simp [finish, e, State.answerTake]

end Sys2Proof.Machine
end

