-- ==== Sys2Proof/Laws/Frame.lean ====
section
/-! SUPPORT. What the follow-on actions of a step can change: `LaneFrame s t` says all that stays. Every operation of
the lanes, the staging buffer and the pools that an action uses has it, so every action has it, and so have all
actions of a step together. -/

namespace Sys2Proof.Machine

theorem Take.Kept.refl (a : Take) : a.Kept a := ⟨rfl, rfl, rfl, rfl, rfl, rfl, rfl, rfl, rfl, rfl, rfl, rfl⟩

theorem Take.Kept.trans {a b c : Take} (h : a.Kept b) (k : b.Kept c) : a.Kept c :=
  ⟨k.label.trans h.label, k.targets.trans h.targets, k.k.trans h.k, k.verify.trans h.verify,
    k.policy.trans h.policy, k.mismatch.trans h.mismatch, k.retries.trans h.retries,
    k.alternate.trans h.alternate, k.window.trans h.window, k.snapshot.trans h.snapshot,
    k.entries.trans h.entries, k.listEnded.trans h.listEnded⟩

theorem keptTake_refl : ∀ x, keptTake x x
  | none => rfl
  | some a => ⟨a, rfl, .refl a⟩

theorem keptTake_trans : ∀ {x y z}, keptTake x y → keptTake y z → keptTake x z
  | none, _, _, h, k => by rw [show _ = none from h] at k; exact k
  | some _, _, _, ⟨_, h, k⟩, l => by
      subst h
      obtain ⟨c, e, m⟩ := l
      exact ⟨c, e, k.trans m⟩

theorem keptTake_map {f : Take → Take} (h : ∀ a : Take, a.Kept (f a)) : ∀ x : Option Take, keptTake x (x.map f)
  | none => rfl
  | some a => ⟨f a, rfl, h a⟩

/-- From s to t only these have changed: the reply of the request in service and the pending-notice flag; latches,
levels, gained set and panel line; the working state of takes; segments and waiting lanes; a slot's lane piece; the
write orders in a target's FIFOs; the pools. -/
structure LaneFrame (s t : State) : Prop where
  pending : t.pending = s.pending
  freeReads : t.freeReads = s.freeReads
  freeEntries : t.freeEntries = s.freeEntries
  verify : t.verify = s.verify
  link : t.link = { s.link with inService := t.link.inService, pendingNotice := t.link.pendingNotice }
  service : t.link.inService.map (fun v => (v.kind, v.tag)) = s.link.inService.map fun v => (v.kind, v.tag)
  noticeEnable : t.attention.noticeEnable = s.attention.noticeEnable
  panelEnable : t.attention.panelEnable = s.attention.panelEnable
  sequence : t.attention.sequence = s.attention.sequence
  takes : ∀ n, keptTake (s.take? n) (t.take? n)
  slots : ∀ n, t.slot n = { s.slot n with op := (t.slot n).op, waitingPiece := (t.slot n).waitingPiece }
  targets : ∀ x, t.target x = { s.target x with fifos := (t.target x).fifos }

theorem LaneFrame.refl (s : State) : LaneFrame s s :=
  ⟨rfl, rfl, rfl, rfl, rfl, rfl, rfl, rfl, rfl, fun _ => keptTake_refl _, fun _ => rfl, fun _ => rfl⟩

theorem LaneFrame.trans {a b c : State} (h : LaneFrame a b) (k : LaneFrame b c) : LaneFrame a c where
  pending := k.pending.trans h.pending
  freeReads := k.freeReads.trans h.freeReads
  freeEntries := k.freeEntries.trans h.freeEntries
  verify := k.verify.trans h.verify
  link := by have h1 := h.link; have h2 := k.link; rw [h1] at h2; exact h2
  service := k.service.trans h.service
  noticeEnable := k.noticeEnable.trans h.noticeEnable
  panelEnable := k.panelEnable.trans h.panelEnable
  sequence := k.sequence.trans h.sequence
  takes n := keptTake_trans (h.takes n) (k.takes n)
  slots n := by have h1 := h.slots n; have h2 := k.slots n; rw [h1] at h2; exact h2
  targets x := by have h1 := h.targets x; have h2 := k.targets x; rw [h1] at h2; exact h2

/-! ### The parts an action changes -/

/-- An operation that changes only the takes, each as `keptTake` allows, segments, waiting lanes and pools. -/
theorem LaneFrame.of_lanes {s t : State} (link : t.link = s.link) (att : t.attention = s.attention)
    (fe : t.freeEntries = s.freeEntries) (fr : t.freeReads = s.freeReads) (pe : t.pending = s.pending)
    (ve : t.verify = s.verify) (sl : t.slots = s.slots) (ta : t.targets = s.targets)
    (takes : ∀ n, keptTake (s.take? n) (t.take? n)) : LaneFrame s t where
  pending := pe
  freeReads := fr
  freeEntries := fe
  verify := ve
  link := by rw [link]
  service := by rw [link]
  noticeEnable := by rw [att]
  panelEnable := by rw [att]
  sequence := by rw [att]
  takes := takes
  slots n := by simp only [State.slot, sl]
  targets x := by simp only [State.target, ta]

theorem frame_modifyTake (s : State) (n : LaneIx) {f : Take → Take} (h : ∀ a : Take, a.Kept (f a)) :
    LaneFrame s (s.modifyTake n f) :=
  .of_lanes rfl rfl rfl rfl rfl rfl rfl rfl fun m => by
    rw [take_modifyTake]
    split
    · subst_vars; exact keptTake_map h _
    · exact keptTake_refl _

theorem kept_modifyFile (e : Nat) (f : FileEntry → FileEntry) (a : Take) : a.Kept (a.modifyFile e f) :=
  ⟨rfl, rfl, rfl, rfl, rfl, rfl, rfl, rfl, rfl, rfl, by simp, rfl⟩

theorem frame_modifyFile (s : State) (n : LaneIx) (e : Nat) (f : FileEntry → FileEntry) :
    LaneFrame s (s.modifyFile n e f) := frame_modifyTake s n (kept_modifyFile e f)

theorem frame_modifyCopy (s : State) (n : LaneIx) (e : Nat) (t : TargetIx) (g : CopyRecord → CopyRecord) :
    LaneFrame s (s.modifyCopy n e t g) := frame_modifyFile s n e _

/-- One more change of a take, of a file, of a copy. -/
theorem LaneFrame.modifyTake {s t : State} (h : LaneFrame s t) {n : LaneIx} {f : Take → Take}
    (k : ∀ a : Take, a.Kept (f a)) : LaneFrame s (t.modifyTake n f) := h.trans (frame_modifyTake t n k)

theorem LaneFrame.modifyFile {s t : State} (h : LaneFrame s t) {n : LaneIx} {e : Nat}
    {f : FileEntry → FileEntry} : LaneFrame s (t.modifyFile n e f) := h.trans (frame_modifyFile t n e f)

theorem LaneFrame.modifyCopy {s t : State} (h : LaneFrame s t) {n : LaneIx} {e : Nat} {x : TargetIx}
    {g : CopyRecord → CopyRecord} : LaneFrame s (t.modifyCopy n e x g) := h.trans (frame_modifyCopy t n e x g)

/-- A take changes only in its working state. -/
theorem Take.Kept.same {a b : Take} (h : b = { a with
      state := b.state, waitReason := b.waitReason, headHold := b.headHold, head := b.head, halting := b.halting,
      reading := b.reading, nextChunk := b.nextChunk, chunkRead := b.chunkRead, recopyDigest := b.recopyDigest,
      recopyList := b.recopyList, counters := b.counters, outcome := b.outcome, cleared := b.cleared }) :
    a.Kept b := by
  rw [h]
  exact ⟨rfl, rfl, rfl, rfl, rfl, rfl, rfl, rfl, rfl, rfl, rfl, rfl⟩

theorem frame_setSegment (s : State) (g : SegmentIx) (x : Segment) : LaneFrame s (s.setSegment g x) :=
  .of_lanes rfl rfl rfl rfl rfl rfl rfl rfl fun _ => keptTake_refl _

theorem frame_staging (s : State) (x : Staging) : LaneFrame s { s with staging := x } :=
  .of_lanes rfl rfl rfl rfl rfl rfl rfl rfl fun _ => keptTake_refl _

theorem frame_setPool (s : State) (t : TargetIx) (x : Pool) : LaneFrame s (s.setPool t x) :=
  .of_lanes rfl rfl rfl rfl rfl rfl rfl rfl fun _ => keptTake_refl _

theorem frame_modifyPool (s : State) (t : TargetIx) (f : Pool → Pool) : LaneFrame s (s.modifyPool t f) :=
  frame_setPool s t _

/-- A target's FIFOs change. -/
theorem frame_fifos (s : State) (t : TargetIx) (f : Target → Vector (List WriteOrder) 8) :
    LaneFrame s (s.modifyTarget t fun x => { x with fifos := f x }) where
  pending := rfl
  freeReads := rfl
  freeEntries := rfl
  verify := rfl
  link := rfl
  service := rfl
  noticeEnable := rfl
  panelEnable := rfl
  sequence := rfl
  takes _ := keptTake_refl _
  slots _ := rfl
  targets x := by
    simp only [modifyTarget_eq, target_setTarget]
    split
    · subst_vars; rfl
    · rfl

/-- A slot's lane piece changes. -/
theorem frame_piece (s : State) (n : LaneIx) (f : Slot → Slot)
    (h : ∀ x, f x = { x with op := (f x).op, waitingPiece := (f x).waitingPiece }) :
    LaneFrame s (s.modifySlot n f) where
  pending := rfl
  freeReads := rfl
  freeEntries := rfl
  verify := rfl
  link := rfl
  service := rfl
  noticeEnable := rfl
  panelEnable := rfl
  sequence := rfl
  takes _ := keptTake_refl _
  slots m := by
    simp only [modifySlot_eq, slot_setSlot]
    split
    · subst_vars; exact h _
    · rfl
  targets _ := rfl

/-- Latches, levels, the gained set, the panel line and the pending-notice flag change. -/
theorem LaneFrame.of_attention {s t : State} {a : Attention} {p : Bool}
    (h : t = { s with attention := a, link := { s.link with pendingNotice := p } })
    (ne : a.noticeEnable = s.attention.noticeEnable) (pe : a.panelEnable = s.attention.panelEnable)
    (sq : a.sequence = s.attention.sequence) : LaneFrame s t := by
  subst h
  exact ⟨rfl, rfl, rfl, rfl, rfl, rfl, ne, pe, sq, fun _ => keptTake_refl _, fun _ => rfl, fun _ => rfl⟩

theorem frame_gain (s : State) (c : CondSet) : LaneFrame s (s.gain c) := by
  unfold State.gain
  split
  · exact .refl s
  · exact .of_attention rfl rfl rfl rfl

theorem frame_attention (s : State) (a : Attention) (ne : a.noticeEnable = s.attention.noticeEnable)
    (pe : a.panelEnable = s.attention.panelEnable) (sq : a.sequence = s.attention.sequence) :
    LaneFrame s { s with attention := a } :=
  .of_attention (p := s.link.pendingNotice) rfl ne pe sq

theorem frame_latch (s : State) (c : Nat) : LaneFrame s (s.latch c) := by
  unfold State.latch
  split
  · exact .refl s
  · exact (frame_attention s ({ s.attention with latched := s.attention.latched ||| condBit c }.evalPanel)
      rfl rfl rfl).trans (frame_gain _ _)

theorem frame_rise (s : State) (c : Nat) : LaneFrame s (s.rise c) :=
  (frame_attention s { s.attention with asserted := s.attention.asserted ||| condBit c } rfl rfl rfl).trans
    (frame_latch _ c)

theorem frame_fall (s : State) (c : Nat) : LaneFrame s (s.fall c) :=
  frame_attention s { s.attention with asserted := s.attention.asserted &&& ~~~ (condBit c) } rfl rfl rfl

theorem frame_answerClamped (s : State) (c : Bool) (st : Status) (b : List Byte) :
    LaneFrame s (s.answerClamped c st b) := by
  unfold State.answerClamped
  split
  · exact .refl s
  · rename_i sv h
    exact ⟨rfl, rfl, rfl, rfl, rfl, by simp [h], rfl, rfl, rfl, fun _ => keptTake_refl _, fun _ => rfl, fun _ => rfl⟩

theorem LaneFrame.latch {s t : State} (h : LaneFrame s t) {c : Nat} : LaneFrame s (t.latch c) :=
  h.trans (frame_latch t c)

/-! ### Lane states, waiting lanes, short lists -/

theorem kept_inState (st : TakeState) (a : Take) : a.Kept (a.inState st) :=
  ⟨rfl, rfl, rfl, rfl, rfl, rfl, rfl, rfl, rfl, rfl, rfl, rfl⟩

theorem frame_enter (s : State) (n : LaneIx) (st : TakeState) : LaneFrame s (s.enter n st) := by
  have h (u : State) (k : LaneFrame s u) : LaneFrame s (match laneLevel n st with
      | some c => (u.modifyTake n (·.inState st)).rise c
      | none => u.modifyTake n (·.inState st)) := by
    have m := k.trans (frame_modifyTake u n (kept_inState st))
    cases laneLevel n st with
    | none => exact m
    | some c => exact m.trans (frame_rise _ c)
  unfold State.enter
  cases (s.laneState n).bind (laneLevel n) with
  | none => exact h s (.refl s)
  | some c => exact h (s.fall c) (frame_fall s c)

theorem LaneFrame.enter {s t : State} (h : LaneFrame s t) {n : LaneIx} {st : TakeState} :
    LaneFrame s (t.enter n st) := h.trans (frame_enter t n st)

theorem frame_enterWaiting (s : State) (n : LaneIx) (r : WaitReason) : LaneFrame s (s.enterWaiting n r) :=
  (frame_enter s n _).trans
    (frame_modifyTake _ n fun _ => ⟨rfl, rfl, rfl, rfl, rfl, rfl, rfl, rfl, rfl, rfl, rfl, rfl⟩)

theorem frame_setHold (s : State) (n : LaneIx) (h : HeadHold) : LaneFrame s (s.setHold n h) :=
  frame_modifyTake s n fun _ => ⟨rfl, rfl, rfl, rfl, rfl, rfl, rfl, rfl, rfl, rfl, rfl, rfl⟩

theorem frame_joinWaiting (s : State) (n : LaneIx) : LaneFrame s (s.joinWaiting n) := by
  unfold State.joinWaiting
  split
  · exact .refl s
  · have h := frame_staging s { s.staging with waiting := s.staging.waiting ++ [n] }
    simp only
    split
    · exact h.trans (frame_rise _ _)
    · exact h

theorem frame_leaveWaiting (s : State) (n : LaneIx) : LaneFrame s (s.leaveWaiting n) := by
  unfold State.leaveWaiting
  split
  · have h := frame_staging s { s.staging with waiting := s.staging.waiting.erase n }
    simp only
    split
    · exact h.trans (frame_fall _ _)
    · exact h
  · exact .refl s

theorem frame_joinShort (s : State) (t : TargetIx) (n : LaneIx) : LaneFrame s (s.joinShort t n) := by
  unfold State.joinShort
  split
  · exact .refl s
  · have h := frame_modifyPool s t fun p => { p with short := p.short ++ [n] }
    simp only
    split
    · exact h.trans (frame_rise _ _)
    · exact h

theorem frame_leaveShort (s : State) (t : TargetIx) (n : LaneIx) : LaneFrame s (s.leaveShort t n) := by
  unfold State.leaveShort
  split
  · have h := frame_modifyPool s t fun p => { p with short := (s.pool t).short.erase n }
    simp only
    split
    · exact h.trans (frame_fall _ _)
    · exact h
  · exact .refl s

/-- An operation done for each member of a list. -/
theorem frame_foldl {α : Type} {f : State → α → State} (h : ∀ s x, LaneFrame s (f s x)) :
    ∀ (xs : List α) (s : State), LaneFrame s (xs.foldl f s)
  | [], s => .refl s
  | x :: xs, s => (h s x).trans (frame_foldl h xs _)

theorem frame_forEach {α : Type} {f : α → State → Work} (h : ∀ x s, LaneFrame s (f x s).1) (xs : List α) (s : State) :
    LaneFrame s (forEach xs f s).1 := by
  have fold : ∀ (xs : List α) (w : Work), LaneFrame w.1 (xs.foldl (fun w x => w.andThen (f x)) w).1 := by
    intro xs
    induction xs with
    | nil => exact fun w => .refl w.1
    | cons x xs ih => exact fun w => (h x w.1).trans (ih (w.andThen (f x)))
  exact fold xs (s, [])

theorem frame_leaveAllShort (s : State) (n : LaneIx) : LaneFrame s (s.leaveAllShort n) :=
  frame_foldl (fun s t => frame_leaveShort s t n) _ s

/-! ### Pools -/

theorem frame_giveBack (s : State) (n : LaneIx) (e : Nat) (t : TargetIx) : LaneFrame s (s.giveBack n e t) := by
  unfold State.giveBack
  split
  · exact .refl s
  · simp only
    split
    · exact (frame_modifyPool _ _ _).trans (frame_modifyCopy _ _ _ _ _)
    · exact frame_modifyCopy _ _ _ _ _

theorem frame_unallocate (s : State) (n : LaneIx) (e : Nat) : LaneFrame s (s.unallocate n e) := by
  unfold State.unallocate
  exact ((frame_foldl (fun s x => frame_giveBack s n e x) _ s).trans
    (frame_foldl (fun s x => frame_modifyCopy s n e x _) _ _)).trans (frame_modifyFile _ _ _ _)

theorem frame_dropAllocating (s : State) (n : LaneIx) : LaneFrame s (s.dropAllocating n) := by
  unfold State.dropAllocating
  simp only
  split
  · exact (frame_unallocate _ _ _).trans (frame_leaveAllShort _ _)
  · exact frame_leaveAllShort _ _

theorem frame_askPool (s : State) (n : LaneIx) (e : Nat) (t : TargetIx) : LaneFrame s (s.askPool n e t) := by
  unfold State.askPool
  split
  · exact .refl s
  · split
    · exact ((frame_modifyPool _ _ _).trans (frame_modifyCopy _ _ _ _ _)).trans (frame_leaveShort _ _ _)
    · exact frame_joinShort _ _ _

/-! ### Card port and staging buffer -/

theorem frame_beginPiece (s : State) (n : LaneIx) (r : CardRead) : LaneFrame s (s.beginPiece n r).1 := by
  unfold State.beginPiece
  split
  · exact .refl s
  · exact frame_piece s n (fun x => { x with op := .piece r 1 }) fun _ => rfl

theorem frame_offerPiece (s : State) (n : LaneIx) (r : CardRead) : LaneFrame s (s.offerPiece n r).1 := by
  unfold State.offerPiece
  split
  · exact frame_beginPiece s n r
  · exact frame_piece s n (fun x => { x with waitingPiece := some r }) fun _ => rfl

theorem frame_handPiece (s : State) (n : LaneIx) : LaneFrame s (s.handPiece n).1 := by
  unfold State.handPiece
  split
  · exact .refl s
  · split
    · exact .refl s
    · split
      · exact .refl s
      · exact frame_offerPiece s n _

theorem frame_beginRead (s : State) (n : LaneIx) (g : SegmentIx) : LaneFrame s (s.beginRead n g).1 := by
  unfold State.beginRead
  split
  · exact .refl s
  · split
    · exact .refl s
    · exact (frame_setSegment s g _).trans
        (frame_modifyTake _ n fun _ => ⟨rfl, rfl, rfl, rfl, rfl, rfl, rfl, rfl, rfl, rfl, rfl, rfl⟩)

theorem frame_tryRead (s : State) (n : LaneIx) : LaneFrame s (s.tryRead n).1 := by
  unfold State.tryRead
  split
  · split
    · exact frame_beginRead s n _
    · simp only
      split
      · exact (frame_joinWaiting s n).trans (frame_enterWaiting _ _ _)
      · exact frame_joinWaiting s n
  · exact .refl s

theorem frame_handOn (s : State) (g : SegmentIx) : LaneFrame s (s.handOn g).1 := by
  unfold State.handOn
  split
  · exact .refl s
  · rename_i m _
    have h := ((frame_leaveWaiting s m).trans
      (frame_staging _ { (s.leaveWaiting m).staging with lastServed := m })).trans (frame_beginRead _ m g)
    simp only
    split
    · exact h.trans (frame_enter _ _ _)
    · exact h

theorem frame_freeSegment (s : State) (g : SegmentIx) : LaneFrame s (s.freeSegment g).1 := by
  unfold State.freeSegment
  split
  · exact .refl s
  · exact (frame_setSegment s g .free).trans (frame_handOn _ g)

theorem frame_countDown (s : State) (g : SegmentIx) : LaneFrame s (s.countDown g).1 := by
  unfold State.countDown
  split
  · exact frame_setSegment s g _
  · exact .refl s
  · exact .refl s

theorem frame_withdrawAt (s : State) (n : LaneIx) (t : TargetIx) (p : WriteOrder → Bool) :
    LaneFrame s (s.withdrawAt n t p).1 := by
  unfold State.withdrawAt
  exact (frame_fifos s t _).trans (frame_forEach (fun (o : WriteOrder) s => frame_countDown s o.segment) _ _)

theorem frame_withdraw (s : State) (n : LaneIx) (p : WriteOrder → Bool) : LaneFrame s (s.withdraw n p).1 :=
  frame_forEach (fun t s => frame_withdrawAt s n t p) _ s

/-! ### Lanes -/

theorem kept_judged (o : TakeOutcome) (a : Take) : a.Kept (a.judged o) :=
  ⟨rfl, rfl, rfl, rfl, rfl, rfl, rfl, rfl, rfl, rfl, by simp [Take.judged], rfl⟩

theorem frame_closeTake (s : State) (n : LaneIx) (o : TakeOutcome) : LaneFrame s (s.closeTake n o) :=
  ((frame_modifyTake s n (kept_judged o)).trans (frame_enter _ _ _)).trans (frame_latch _ _)

theorem frame_finishFile (s : State) (n : LaneIx) (e : Nat) : LaneFrame s (s.finishFile n e) :=
  (frame_modifyFile s n e _).trans
    (frame_modifyTake _ n fun _ => ⟨rfl, rfl, rfl, rfl, rfl, rfl, rfl, rfl, rfl, rfl, rfl, rfl⟩)

theorem frame_finishIf (s : State) (n : LaneIx) (e : Nat) : LaneFrame s (s.finishIf n e) := by
  unfold State.finishIf
  split
  · exact frame_finishFile s n e
  · exact .refl s

theorem frame_testFinish (s : State) (n : LaneIx) (e : Nat) : LaneFrame s (s.testFinish n e).1 := by
  unfold State.testFinish
  split
  · exact frame_finishFile s n e
  · exact .refl s

theorem frame_endReading (s : State) (n : LaneIx) : LaneFrame s (s.endReading n) :=
  frame_modifyTake s n fun _ => ⟨rfl, rfl, rfl, rfl, rfl, rfl, rfl, rfl, rfl, rfl, rfl, rfl⟩

theorem frame_interrupt (s : State) (n : LaneIx) : LaneFrame s (s.interrupt n) :=
  ((frame_dropAllocating s n).trans (frame_leaveWaiting _ _)).trans (frame_enter _ _ _)

theorem frame_enterRunning (s : State) (n : LaneIx) : LaneFrame s (s.enterRunning n).1 :=
  frame_enter s n .running

theorem frame_endWait (s : State) (n : LaneIx) : LaneFrame s (s.endWait n).1 := by
  unfold State.endWait
  split
  · exact frame_enterRunning s n
  · exact .refl s

theorem frame_beginFile (s : State) (n : LaneIx) (e : Nat) (on : List TargetIx) :
    LaneFrame s (s.beginFile n e on).1 := by
  have k : ∀ (s : State) (f : Take → Take), (∀ a : Take, a.Kept (f a)) → LaneFrame s (s.modifyTake n f) :=
    fun s f h => frame_modifyTake s n h
  have fold : ∀ (s : State) (g : CopyRecord → CopyRecord),
      LaneFrame s (on.foldl (fun s x => s.modifyCopy n e x g) s) :=
    fun s g => frame_foldl (fun s x => frame_modifyCopy s n e x g) _ s
  unfold State.beginFile
  split
  · simp only
    split
    · exact (((fold _ _).trans (fold _ _)).trans (frame_modifyFile _ _ _ _)).trans
        (k _ _ fun _ => ⟨rfl, rfl, rfl, rfl, rfl, rfl, rfl, rfl, rfl, rfl, rfl, rfl⟩)
    · exact ((fold _ _).trans (frame_modifyFile _ _ _ _)).trans
        (k _ _ fun _ => ⟨rfl, rfl, rfl, rfl, rfl, rfl, rfl, rfl, rfl, rfl, rfl, rfl⟩)
  · exact .refl s

theorem frame_allocateFile (s : State) (n : LaneIx) (e : Nat) (on : List TargetIx) :
    LaneFrame s (s.allocateFile n e on).1 := by
  unfold State.allocateFile
  simp only
  split
  · exact (frame_foldl (fun s x => frame_askPool s n e x) _ s).trans (frame_enterWaiting _ _ _)
  · exact (frame_foldl (fun s x => frame_askPool s n e x) _ s).trans (frame_beginFile _ _ _ _)

theorem frame_startFile (s : State) (n : LaneIx) (e : Nat) : LaneFrame s (s.startFile n e).1 := by
  unfold State.startFile
  split
  · simp only
    split
    · split
      · exact ((frame_unallocate s n e).trans (frame_leaveAllShort _ _)).trans (frame_enterWaiting _ _ _)
      · exact (frame_foldl (fun s x => ((frame_giveBack s n e x).trans (frame_modifyCopy _ _ _ _ _)).trans
          (frame_leaveShort _ _ _)) _ s).trans (frame_allocateFile _ _ _ _)
    · split
      · exact .refl s
      · split
        · exact (frame_leaveAllShort s n).trans (frame_enterWaiting _ _ _)
        · exact ((frame_modifyFile s n e _).trans
            (frame_foldl (fun s x => frame_modifyCopy s n e x _) _ _)).trans (frame_allocateFile _ _ _ _)
  · exact .refl s

theorem frame_beginRecopy (s : State) (n : LaneIx) (e : Nat) (x : TargetIx) :
    LaneFrame s (s.beginRecopy n e x).1 := by
  unfold State.beginRecopy
  exact ((LaneFrame.refl s).modifyTake fun _ => .same rfl).modifyCopy

theorem frame_recopyLeft (s : State) (n : LaneIx) : LaneFrame s (s.recopyLeft n).1 := by
  unfold State.recopyLeft
  split
  · exact .refl s
  · split
    · exact .refl s
    · exact .refl s
    · split
      · exact .refl s
      · have h := (frame_endReading s n).trans (frame_leaveWaiting _ n)
        simp only
        split
        · exact h.trans (frame_enterRunning _ _)
        · exact h

theorem frame_workHead (s : State) (n : LaneIx) : LaneFrame s (s.workHead n).1 := by
  unfold State.workHead
  cases s.take? n with
  | none => exact .refl s
  | some t =>
    simp only
    by_cases h1 : t.state ≠ .running
    · rw [if_pos h1]; exact .refl s
    rw [if_neg h1]
    by_cases h2 : t.reading ≠ .none
    · rw [if_pos h2]; exact frame_setHold s n .none
    rw [if_neg h2]
    cases t.recopyList with
    | cons p _ =>
      simp only
      cases s.cardAtHand n with
      | true => exact frame_beginRecopy s n p.1 p.2
      | false => exact frame_interrupt s n
    | nil =>
      simp only
      cases t.entries[t.head]? with
      | none =>
        simp only
        cases t.listEnded with
        | true => exact frame_setHold s n .none
        | false => exact frame_enter s n .starved
      | some en =>
        cases en with
        | file _ =>
          simp only
          cases s.cardAtHand n with
          | false => exact frame_interrupt s n
          | true =>
            simp only [Bool.not_true, Bool.false_eq_true, if_false]
            by_cases h3 : Config.fileDepth ≤ t.depth
            · rw [if_pos h3]; exact frame_setHold s n .depth
            · rw [if_neg h3]; exact (frame_setHold s n .none).trans (frame_startFile _ n t.head)
        | mark k _ =>
          simp only
          cases t.earlierFinished with
          | true =>
            rw [if_pos rfl]
            refine LaneFrame.latch (.modifyTake (.refl s) ?_)
            exact fun _ => ⟨rfl, rfl, rfl, rfl, rfl, rfl, rfl, rfl, rfl, rfl, by simp, rfl⟩
          | false => exact frame_setHold s n .mark
        | pause _ =>
          simp only
          cases t.earlierFinished with
          | true =>
            rw [if_pos rfl]
            show LaneFrame s (State.enter (s.modifyTake n _) n .suspended)
            refine LaneFrame.enter (.modifyTake (.refl s) ?_)
            exact fun _ => ⟨rfl, rfl, rfl, rfl, rfl, rfl, rfl, rfl, rfl, rfl, by simp, rfl⟩
          | false => exact frame_setHold s n .pause
        | endOfList => exact (LaneFrame.refl s).enter.trans (frame_setHold _ n .endOfList)

theorem frame_closeIfClear (s : State) (n : LaneIx) (o : TakeOutcome) : LaneFrame s (s.closeIfClear n o).1 := by
  unfold State.closeIfClear
  split
  · exact frame_closeTake _ _ _
  · exact .refl s

theorem frame_testDone (s : State) (n : LaneIx) (t : Take) : LaneFrame s (s.testDone n t).1 := by
  unfold State.testDone
  split
  · exact frame_closeIfClear _ _ _
  · exact .refl s

theorem frame_serveOrClose (s : State) (n : LaneIx) (t : Take) : LaneFrame s (s.serveOrClose n t).1 := by
  unfold State.serveOrClose
  by_cases h1 : t.reading ≠ .none
  · rw [if_pos h1]; exact .refl s
  rw [if_neg h1]
  cases t.recopyList with
  | cons p rest =>
    simp only
    cases s.cardAtHand n with
    | true => exact frame_beginRecopy s n p.1 p.2
    | false =>
      simp only [Bool.false_eq_true, if_false]
      by_cases h2 : t.state = .draining
      · rw [if_pos h2]; exact frame_interrupt s n
      · rw [if_neg h2]; exact ((LaneFrame.refl s).modifyTake fun _ => .same rfl).modifyCopy
  | nil =>
    simp only
    cases t.filesDone with
    | true => exact frame_closeIfClear s n t.closingOutcome
    | false => exact .refl s

theorem frame_testInterrupted (s : State) (n : LaneIx) (t : Take) : LaneFrame s (s.testInterrupted n t).1 := by
  unfold State.testInterrupted
  split
  · exact .refl s
  · exact frame_enterRunning s n

theorem frame_goOn (s : State) (n : LaneIx) : LaneFrame s (s.goOn n).1 := by
  unfold State.goOn
  cases s.take? n with
  | none => exact .refl s
  | some t =>
    simp only
    cases t.state with
    | running => exact .refl s
    | stopping => exact frame_serveOrClose s n t
    | draining => exact frame_serveOrClose s n t
    | interrupted => exact frame_testInterrupted s n t
    | aborting => exact frame_closeIfClear s n .aborted
    | opened => exact .refl s
    | starved => exact .refl s
    | waiting => exact .refl s
    | suspended => exact .refl s
    | closed => exact .refl s

theorem frame_laneTests (s : State) (n : LaneIx) : LaneFrame s (s.laneTests n).1 := by
  unfold State.laneTests
  cases s.take? n with
  | none => exact .refl s
  | some t =>
    simp only
    cases t.state with
    | interrupted => exact frame_testInterrupted s n t
    | aborting => exact frame_closeIfClear s n .aborted
    | opened => exact .refl s
    | running => exact .refl s
    | starved => exact .refl s
    | waiting => exact .refl s
    | suspended => exact .refl s
    | stopping => exact frame_testDone s n t
    | draining => exact frame_testDone s n t
    | closed => exact .refl s

theorem frame_enterStopping (s : State) (n : LaneIx) : LaneFrame s (s.enterStopping n).1 := by
  show LaneFrame s (State.enter (s.dropAllocating n) n .stopping)
  exact (frame_dropAllocating s n).enter

theorem frame_cutFile (s : State) (n : LaneIx) (e : Nat) : LaneFrame s (s.cutFile n e) :=
  (frame_modifyFile s n e _).trans
    (frame_modifyTake _ n fun _ => ⟨rfl, rfl, rfl, rfl, rfl, rfl, rfl, rfl, rfl, rfl, rfl, rfl⟩)

theorem frame_countChunkRead (s : State) (n : LaneIx) : LaneFrame s (s.countChunkRead n) :=
  frame_modifyTake s n fun _ => ⟨rfl, rfl, rfl, rfl, rfl, rfl, rfl, rfl, rfl, rfl, rfl, rfl⟩

/-! ### The chunk read -/

theorem frame_storePiece (s : State) (g : SegmentIx) (b : List Byte) : LaneFrame s (s.storePiece g b) := by
  unfold State.storePiece
  split
  · exact frame_setSegment _ _ _
  · exact .refl s
  · exact .refl s

theorem frame_foldPass (s : State) (n : LaneIx) (u : SegmentUse) (b : List Byte) : LaneFrame s (s.foldPass n u b) := by
  unfold State.foldPass
  split
  · exact frame_modifyFile _ _ _ _
  · exact frame_modifyTake s n fun _ => ⟨rfl, rfl, rfl, rfl, rfl, rfl, rfl, rfl, rfl, rfl, rfl, rfl⟩

theorem frame_countCorrected (s : State) (n : LaneIx) (u : SegmentUse) : LaneFrame s (s.countCorrected n u) := by
  have h : LaneFrame s (s.modifyTake n fun t =>
      { t with counters := { t.counters with corrected := satInc t.counters.corrected } }) :=
    frame_modifyTake s n fun _ => ⟨rfl, rfl, rfl, rfl, rfl, rfl, rfl, rfl, rfl, rfl, rfl, rfl⟩
  unfold State.countCorrected
  simp only
  split
  · exact h
  · exact h.trans (frame_modifyFile _ _ _ _)

theorem frame_damage (s : State) (n : LaneIx) (e : Nat) : LaneFrame s (s.damage n e) := by
  unfold State.damage
  cases s.file? n e with
  | none => exact .refl s
  | some f =>
    simp only
    by_cases h : f.condition = .clean ∨ f.condition = .corrected
    · rw [if_pos h]
      cases f.damageCounted with
      | true => exact ((LaneFrame.refl s).modifyFile).trans (frame_latch _ _)
      | false => exact ((LaneFrame.refl s).modifyFile.modifyTake fun _ => .same rfl).trans (frame_latch _ _)
    · rw [if_neg h]; exact .refl s

theorem frame_placeOrder (s : State) (n : LaneIx) (f : FileEntry) (u : SegmentUse) (g : SegmentIx) (x : TargetIx) :
    LaneFrame s (s.placeOrder n f u g x) := by
  unfold State.placeOrder
  exact frame_fifos s x fun y => y.fifos.set n.val _ n.isLt

theorem frame_fanOut (s : State) (n : LaneIx) (t : Take) (f : FileEntry) (u : SegmentUse) (g : SegmentIx) :
    LaneFrame s (s.fanOut n t f u g).1 :=
  (frame_foldl (fun s x => frame_placeOrder s n f u g x) _ s).trans (frame_setSegment _ _ _)

theorem frame_compareRecopy (s : State) (n : LaneIx) (e : Nat) (x : TargetIx) :
    LaneFrame s (s.compareRecopy n e x).1 := by
  have h (b : Bool) (f : FileEntry) : LaneFrame s (if (f.copy x).state = .writing ∧ b = false then
      (s.modifyCopy n e x (CopyRecord.fail .sourceUnstable)).withdrawAt n x fun o => o.entry == e
    else (s, [])).1 := by
    split
    · exact (LaneFrame.refl s).modifyCopy.trans (frame_withdrawAt _ n x _)
    · exact .refl s
  unfold State.compareRecopy
  split
  · exact h _ _
  · exact .refl s

theorem LaneFrame.endReading {s t : State} (h : LaneFrame s t) {n : LaneIx} : LaneFrame s (t.endReading n) :=
  h.trans (frame_endReading t n)

theorem frame_chunkGood (s : State) (n : LaneIx) (g : SegmentIx) (u : SegmentUse) :
    LaneFrame s (s.chunkGood n g u).1 := by
  have h4 (w : State) (h : LaneFrame s w) (t : Take) (f : FileEntry) :
      LaneFrame s ((w.fanOut n t f u g).1.modifyTake n fun t => { t with nextChunk := u.chunk + 1 }) :=
    (h.trans (frame_fanOut w n t f u g)).modifyTake fun _ => .same rfl
  unfold State.chunkGood
  cases hp : u.pass with
  | none =>
    have h2 : LaneFrame s ((s.countChunkRead n).modifyFile n u.entry fun f =>
        { f with chunksRead := f.chunksRead + 1 }) := (frame_countChunkRead s n).modifyFile
    simp only
    split
    · split
      · exact (h4 _ h2 _ _).modifyFile.endReading
      · exact h4 _ h2 _ _
    · exact h2
  | some x =>
    have h2 := frame_countChunkRead s n
    simp only
    split
    · split
      · exact ((h4 _ h2 _ _).trans (frame_compareRecopy _ n u.entry x)).endReading
      · split
        · exact h4 _ h2 _ _
        · exact (h4 _ h2 _ _).endReading
    · exact h2

theorem frame_pieceDone (s : State) (n : LaneIx) (g : SegmentIx) (rest : List Piece) :
    LaneFrame s (s.pieceDone n g rest).1 := by
  unfold State.pieceDone
  split
  · split
    · exact frame_chunkGood _ _ _ _
    · exact .refl s
  · exact frame_modifyTake s n fun _ => ⟨rfl, rfl, rfl, rfl, rfl, rfl, rfl, rfl, rfl, rfl, rfl, rfl⟩

theorem frame_haltTake (s : State) (n : LaneIx) : LaneFrame s (s.haltTake n).1 := by
  have h : LaneFrame s (s.modifyTake n fun t => { t with halting := true }) :=
    frame_modifyTake s n fun _ => ⟨rfl, rfl, rfl, rfl, rfl, rfl, rfl, rfl, rfl, rfl, rfl, rfl⟩
  unfold State.haltTake
  simp only
  split
  · exact h.trans (frame_enterStopping _ _)
  · exact h.trans (frame_enterStopping _ _)
  · exact h.trans (frame_enterStopping _ _)
  · exact h

theorem frame_fileUnreadable (s : State) (n : LaneIx) (e : Nat) (g : SegmentIx) :
    LaneFrame s (s.fileUnreadable n e g).1 := by
  have drop (w : State) (h : LaneFrame s w) : LaneFrame s ((w.withdraw n fun o => o.entry == e).1.finishIf n e) :=
    (h.trans (frame_withdraw w n _)).trans (frame_finishIf _ n e)
  unfold State.fileUnreadable
  simp only
  split
  · apply LaneFrame.trans ?_ (frame_haltTake _ n)
    apply drop
    apply LaneFrame.latch
    apply LaneFrame.modifyTake
    · exact (frame_countChunkRead s n).modifyFile
    · exact fun _ => .same rfl
  · dsimp only
    apply drop
    apply LaneFrame.latch
    apply LaneFrame.modifyTake
    · exact (frame_countChunkRead s n).modifyFile
    · exact fun _ => .same rfl

theorem frame_recopyFailed (s : State) (n : LaneIx) (e : Nat) (x : TargetIx) (g : SegmentIx) :
    LaneFrame s (s.recopyFailed n e x g).1 := by
  have h := (frame_countChunkRead s n).trans (frame_endReading _ n)
  unfold State.recopyFailed
  simp only
  split
  · exact (h.trans (frame_modifyCopy _ _ _ _ _)).trans (frame_withdrawAt _ _ _ _)
  · exact h

theorem frame_countDelivered (s : State) (n : LaneIx) (u : SegmentUse) (len : Nat) (p : Piece) (cls : ResultClass) :
    LaneFrame s (s.countDelivered n u len p cls) := by
  have h := frame_modifyTake s n (f := fun t => { t with counters := { t.counters with
      bytesRead := satAdd 64 t.counters.bytesRead (fileBytesOf len p.sector p.count) } })
    fun _ => ⟨rfl, rfl, rfl, rfl, rfl, rfl, rfl, rfl, rfl, rfl, rfl, rfl⟩
  unfold State.countDelivered
  simp only
  split
  · exact h.trans (frame_countCorrected _ _ _)
  · exact h

theorem frame_deliverPiece (s : State) (n : LaneIx) (g : SegmentIx) (u : SegmentUse) (len : Nat) (p : Piece)
    (rest : List Piece) (cls : ResultClass) (data : List Byte) :
    LaneFrame s (s.deliverPiece n g u len p rest cls data).1 := by
  have h := (frame_storePiece s g (fitSectors p.count data)).trans (frame_foldPass _ n u
      ((fitSectors p.count data).take (fileBytesOf len p.sector p.count)))
  exact (h.trans (frame_countDelivered _ n u len p cls)).trans (frame_pieceDone _ _ _ _)

theorem frame_discardPiece (s : State) (n : LaneIx) (g : SegmentIx) (u : SegmentUse) (p : Piece) (cls : ResultClass) :
    LaneFrame s (s.discardPiece n g u p cls).1 := by
  unfold State.discardPiece
  simp only
  repeat' split
  · exact frame_countChunkRead s n
  · exact (frame_countDelivered s n u _ p cls).trans (frame_countChunkRead _ n)
  · exact frame_countChunkRead s n

theorem frame_fillPiece (s : State) (n : LaneIx) (g : SegmentIx) (u : SegmentUse) (len : Nat) (p : Piece)
    (rest : List Piece) : LaneFrame s (s.fillPiece n g u len p rest).1 :=
  (((frame_storePiece s g _).trans (frame_foldPass _ _ _ _)).trans (frame_damage _ _ _)).trans
    (frame_pieceDone _ _ _ _)

theorem frame_pieceEnded (s : State) (n : LaneIx) (cls : ResultClass) (data : List Byte) :
    LaneFrame s (s.pieceEnded n cls data).1 := by
  unfold State.pieceEnded
  cases s.take? n with
  | none => exact .refl s
  | some t =>
    simp only
    cases t.chunkRead with
    | none => exact .refl s
    | some cr =>
      simp only
      split
      · rename_i u discard p rest _ _
        by_cases h1 : discard = true
        · rw [if_pos h1]; exact frame_discardPiece s n cr.segment u p cls
        rw [if_neg h1]
        by_cases h2 : cls = .aborted
        · rw [if_pos h2]; exact frame_countChunkRead s n
        rw [if_neg h2]
        cases t.file? u.entry with
        | none => exact frame_countChunkRead s n
        | some f =>
          simp only
          by_cases h3 : cls.delivers = true
          · rw [if_pos h3]; exact frame_deliverPiece s n cr.segment u f.length p rest cls data
          rw [if_neg h3]
          cases u.pass with
          | some x => exact frame_recopyFailed s n u.entry x cr.segment
          | none =>
            simp only
            by_cases h4 : t.policy = .fill
            · rw [if_pos h4]; exact frame_fillPiece s n cr.segment u f.length p rest
            · rw [if_neg h4]; exact frame_fileUnreadable s n u.entry cr.segment
      · exact .refl s

/-! ### All follow-on actions -/

/-- What one follow-on action can do. -/
theorem frame_doTask (s : State) : ∀ t : Task, LaneFrame s (doTask s t).1
  | .workHead n => frame_workHead s n
  | .goOn n => frame_goOn s n
  | .tryRead n => frame_tryRead s n
  | .testFinish n e => frame_testFinish s n e
  | .freeSegment g => frame_freeSegment s g
  | .handPiece n => frame_handPiece s n
  | .pieceEnded n cls data => frame_pieceEnded s n cls data
  | .endWait n => frame_endWait s n
  | .recopyLeft n => frame_recopyLeft s n
  | .laneTests n => frame_laneTests s n
  | .takeReply _ c st _ => frame_answerClamped s c st _

/-- What the follow-on actions of a step can do together. -/
theorem frame_settled (w : Work) : LaneFrame w.1 (settled w) :=
  settled_keeps LaneFrame.refl LaneFrame.trans frame_doTask w

end Sys2Proof.Machine
end

