-- ==== Sys2Proof/Laws/Ends.lean ====
section
/-! SUPPORT. What the end of a step can change: `ChoiceFrame s t` says all that stays when verifications start and the
arbiters choose; `conclude_frame` adds the outgoing path's choice. And what closing a lane and freeing a segment can
answer. -/

namespace Sys2Proof.Machine

/-- From s to t only copies of takes, the verify unit, and each target's operation, holder, grant count and waiting
host operation have changed. -/
structure ChoiceFrame (s t : State) : Prop where
  rest : t = { s with lanes := t.lanes, targets := t.targets, verify := t.verify }
  takes : ∀ n, keptTake (s.take? n) (t.take? n)
  states : ∀ n, t.laneState n = s.laneState n
  targets : ∀ x, t.target x = { s.target x with
    op := (t.target x).op, holder := (t.target x).holder, grantCount := (t.target x).grantCount
    waitingHost := (t.target x).waitingHost }

theorem ChoiceFrame.refl (s : State) : ChoiceFrame s s :=
  ⟨rfl, fun _ => keptTake_refl _, fun _ => rfl, fun _ => rfl⟩

theorem ChoiceFrame.trans {a b c : State} (h : ChoiceFrame a b) (k : ChoiceFrame b c) : ChoiceFrame a c where
  rest := by have h1 := h.rest; have h2 := k.rest; rw [h1] at h2; exact h2
  takes n := keptTake_trans (h.takes n) (k.takes n)
  states n := (k.states n).trans (h.states n)
  targets x := by have h1 := h.targets x; have h2 := k.targets x; rw [h1] at h2; exact h2

theorem choice_modifyTarget (s : State) (t : TargetIx) (f : Target → Target)
    (h : ∀ x, f x = { x with
      op := (f x).op, holder := (f x).holder, grantCount := (f x).grantCount, waitingHost := (f x).waitingHost }) :
    ChoiceFrame s (s.modifyTarget t f) where
  rest := rfl
  takes _ := keptTake_refl _
  states _ := rfl
  targets x := by
    simp only [modifyTarget_eq, target_setTarget]
    split
    · subst_vars; exact h _
    · rfl

theorem choice_setActive (s : State) (t : TargetIx) (v : Option Verification) : ChoiceFrame s (s.setActive t v) :=
  ⟨rfl, fun _ => keptTake_refl _, fun _ => rfl, fun _ => rfl⟩

theorem choice_grantTo (s : State) (t : TargetIx) (c : Candidate) (k : Nat) : ChoiceFrame s (s.grantTo t c k) := by
  have h1 := choice_modifyTarget s t (fun x => { x with holder := some c, grantCount := k }) fun _ => rfl
  unfold State.grantTo
  cases c with
  | lane n => exact h1.trans (choice_modifyTarget _ t (fun x => { x with op := .writePiece n 0 }) fun _ => rfl)
  | verifier =>
    have h2 := h1.trans (choice_modifyTarget _ t (fun x => { x with op := .readback false }) fun _ => rfl)
    simp only
    split
    · exact h2
    · exact h2.trans (choice_setActive _ _ _)

theorem choice_chooseCandidate (s : State) (t : TargetIx) : ChoiceFrame s (s.chooseCandidate t) := by
  unfold State.chooseCandidate
  simp only
  repeat' split
  all_goals first
    | exact choice_grantTo _ _ _ _
    | exact .refl s

theorem choice_arbitrate (s : State) (t : TargetIx) : ChoiceFrame s (s.arbitrate t) := by
  unfold State.arbitrate
  simp only
  split
  · split
    · exact choice_modifyTarget s t (fun x => { x with op := .host _, waitingHost := none }) fun _ => rfl
    · exact choice_chooseCandidate s t
  · exact .refl s

theorem choice_foldl {α : Type} {f : State → α → State} (h : ∀ s x, ChoiceFrame s (f s x)) :
    ∀ (xs : List α) (s : State), ChoiceFrame s (xs.foldl f s)
  | [], s => .refl s
  | x :: xs, s => (h s x).trans (choice_foldl h xs _)

/-- What the arbiters can change. -/
theorem choice_arbitrateAll (s : State) : ChoiceFrame s s.arbitrateAll := choice_foldl choice_arbitrate allTargets s

theorem choice_modifyCopy (s : State) (n : LaneIx) (e : Nat) (t : TargetIx) (g : CopyRecord → CopyRecord) :
    ChoiceFrame s (s.modifyCopy n e t g) where
  rest := rfl
  takes := (frame_modifyCopy s n e t g).takes
  states m := by
    unfold State.modifyCopy State.modifyFile State.laneState
    rw [take_modifyTake]
    split
    · rename_i h
      rw [h]
      cases s.take? n <;> rfl
    · rfl
  targets _ := rfl

theorem choice_startVerification (s : State) (o : VerifyOrder) : ChoiceFrame s (s.startVerification o) := by
  have h1 : ChoiceFrame s { s with verify := { s.verify with queue := s.verify.queue.erase o } } :=
    ⟨rfl, fun _ => keptTake_refl _, fun _ => rfl, fun _ => rfl⟩
  exact (h1.trans (choice_setActive _ _ _)).trans (choice_modifyCopy _ _ _ _ _)

/-- What the verify unit's start of verifications can change. -/
theorem choice_startVerifications (s : State) : ChoiceFrame s s.startVerifications :=
  choice_foldl (fun s o => by
    split
    · exact choice_startVerification s o
    · exact .refl s) _ s

/-- What the end of a step can change, but for the outgoing path's own choice. -/
theorem conclude_frame (s : State) : ∃ t, ChoiceFrame s t ∧ s.conclude = t.choosePath :=
  ⟨_, (choice_startVerifications s).trans (choice_arbitrateAll _), rfl⟩

/-! ### The end of a lane's work and of a segment's use (R19, R38, R53) -/

/-- A lane with nothing left in the part: no chunk read, no segment, no write order, no verify order and no active
verification. -/
theorem laneClear_iff (s : State) (n : LaneIx) : s.laneClear n = true ↔
    (∀ t, s.take? n = some t → t.chunkRead = none) ∧ heldSegments s n = 0
      ∧ (∀ x : TargetIx, (s.target x).fifos[n] = []) ∧ (∀ o ∈ s.verify.queue, o.lane ≠ n)
      ∧ ∀ x v, s.active x = some v → v.lane ≠ n := by
  have all (p : TargetIx → Bool) : allTargets.all p = true ↔ ∀ x, p x = true := by
    simp [allTargets, List.all_eq_true]
  simp only [State.laneClear, Bool.and_eq_true, Option.isNone_iff_eq_none, Option.bind_eq_none_iff, decide_eq_true_eq,
    all, List.isEmpty_iff, List.all_eq_true, bne_iff_ne, ne_eq, Option.map_eq_some_iff, not_exists, not_and, and_assoc]

theorem closeIfClear_of_clear {s : State} {n : LaneIx} (o : TakeOutcome) (h : s.laneClear n = true) :
    s.closeIfClear n o = (s.closeTake n o, []) := by rw [State.closeIfClear, if_pos h]

theorem closeIfClear_of_left {s : State} {n : LaneIx} (o : TakeOutcome) (h : s.laneClear n = false) :
    s.closeIfClear n o = (s, []) := by rw [State.closeIfClear, if_neg (by simp [h])]

/-- A segment whose use goes on is not freed. -/
theorem freeSegment_of_used {s : State} {g : SegmentIx} (h : s.endedUse g = none) : s.freeSegment g = (s, []) := by
  rw [State.freeSegment, h]

/-- A segment whose use has ended, with no lane waiting: it is FREE, and its lane's tests follow. -/
theorem freeSegment_of_ended {s : State} {g : SegmentIx} {n : LaneIx} (h : s.endedUse g = some n)
    (w : s.staging.nextWaiting = none) : s.freeSegment g = (s.setSegment g .free, [.tryRead n, .laneTests n]) := by
  have k : (s.setSegment g .free).staging.nextWaiting = none := w
  simp [State.freeSegment, h, State.handOn, k, Work.addTasks]

/-- The modes of the two identify attempts: normal, then careful (R70). -/
theorem careful_identify {x : Slot} (h : x.op = .identify) : x.careful = (x.identifyAttempt == 2) := by
  simp [Slot.careful, h]

end Sys2Proof.Machine
end

