-- ==== Sys2Proof/Laws/PerInstr.lean ====
section
/-! SUPPORT. The per-command family `Carries`: a request command carries a request of a kind of the table of 11.6,
and is well-formed as syntax exactly when that request is; an event carries none. -/

namespace Sys2Proof.Laws

open Sys2Proof.Machine

/-- The kind of every request stands in the table of 11.6. -/
theorem kindKnown (r : Request) : requestKind r ∈ requestKinds := by
  cases r <;> simp [requestKind, requestKinds]

namespace Carries

/-- The request a command carries, if any, is of a kind the part knows, and is well-formed as the command is. -/
def Statement (i : Instr) : Prop :=
  match i.request? with
  | some (_, r) => i.wf = r.wf ∧ requestKind r ∈ requestKinds
  | none => ∀ r : Request, i.request?.map Prod.snd ≠ some r

theorem powerOn : Statement (.powerOn) := nofun

theorem linkReset : Statement (.linkReset) := nofun

theorem linkConfigured : Statement (.linkConfigured) := nofun

theorem frameArrival (transfer : List Byte) : Statement (.frameArrival transfer) := nofun

theorem frameSent : Statement (.frameSent) := nofun

theorem identify (tag : BitVec 16) : Statement (.identify tag) := ⟨rfl, kindKnown _⟩

theorem resetPart (tag : BitVec 16) : Statement (.resetPart tag) := ⟨rfl, kindKnown _⟩

theorem readAttention (tag : BitVec 16) : Statement (.readAttention tag) := ⟨rfl, kindKnown _⟩

theorem clearAttention (tag : BitVec 16) (conds : BitVec 80) :
    Statement (.clearAttention tag conds) := ⟨rfl, kindKnown _⟩

theorem setAttentionEnables (tag : BitVec 16) (notice : BitVec 80) (noticeFlag : Byte) (panel : BitVec 80)
    (panelFlag : Byte) :
    Statement (.setAttentionEnables tag notice noticeFlag panel panelFlag) := ⟨rfl, kindKnown _⟩

theorem slotStatus (tag : BitVec 16) (slot : Byte) : Statement (.slotStatus tag slot) := ⟨rfl, kindKnown _⟩

theorem peekCard (tag : BitVec 16) (slot : Byte) (start : BitVec 32) (count retries alternate : Byte) :
    Statement (.peekCard tag slot start count retries alternate) := ⟨rfl, kindKnown _⟩

theorem holdSlot (tag : BitVec 16) (slot : Byte) : Statement (.holdSlot tag slot) := ⟨rfl, kindKnown _⟩

theorem freeSlot (tag : BitVec 16) (slot : Byte) : Statement (.freeSlot tag slot) := ⟨rfl, kindKnown _⟩

theorem targetStatus (tag : BitVec 16) (target : Byte) : Statement (.targetStatus tag target) := ⟨rfl, kindKnown _⟩

theorem configureTarget (tag : BitVec 16) (target : Byte) (unit : BitVec 16) (quota : Byte) :
    Statement (.configureTarget tag target unit quota) := ⟨rfl, kindKnown _⟩

theorem takeTargetOffline (tag : BitVec 16) (target : Byte) :
    Statement (.takeTargetOffline tag target) := ⟨rfl, kindKnown _⟩

theorem bringTargetOnline (tag : BitVec 16) (target : Byte) :
    Statement (.bringTargetOnline tag target) := ⟨rfl, kindKnown _⟩

theorem readTarget (tag : BitVec 16) (target : Byte) (start : BitVec 32) (count : Byte) :
    Statement (.readTarget tag target start count) := ⟨rfl, kindKnown _⟩

theorem writeTarget (tag : BitVec 16) (target : Byte) (start : BitVec 32) (count : Byte) (data : List Byte) :
    Statement (.writeTarget tag target start count data) := ⟨rfl, kindKnown _⟩

theorem grantSpace (tag : BitVec 16) (target : Byte) (runs : List UnitRunArg) :
    Statement (.grantSpace tag target runs) := ⟨rfl, kindKnown _⟩

theorem clearPool (tag : BitVec 16) (target : Byte) : Statement (.clearPool tag target) := ⟨rfl, kindKnown _⟩

theorem readPool (tag : BitVec 16) (target : Byte) : Statement (.readPool tag target) := ⟨rfl, kindKnown _⟩

theorem openTake (tag : BitVec 16) (lane : Byte) (label : BitVec 16)
    (targets k verify policy mismatch retries alternate window : Byte) :
    Statement (.openTake tag lane label targets k verify policy mismatch retries alternate window) := ⟨rfl, kindKnown _⟩

theorem appendEntries (tag : BitVec 16) (lane : Byte) (entries : List EntryArg) :
    Statement (.appendEntries tag lane entries) := ⟨rfl, kindKnown _⟩

theorem startTake (tag : BitVec 16) (lane : Byte) : Statement (.startTake tag lane) := ⟨rfl, kindKnown _⟩

theorem suspendTake (tag : BitVec 16) (lane : Byte) : Statement (.suspendTake tag lane) := ⟨rfl, kindKnown _⟩

theorem resumeTake (tag : BitVec 16) (lane : Byte) : Statement (.resumeTake tag lane) := ⟨rfl, kindKnown _⟩

theorem stopTake (tag : BitVec 16) (lane : Byte) : Statement (.stopTake tag lane) := ⟨rfl, kindKnown _⟩

theorem abortTake (tag : BitVec 16) (lane : Byte) : Statement (.abortTake tag lane) := ⟨rfl, kindKnown _⟩

theorem adjustTake (tag : BitVec 16) (lane k remove : Byte) :
    Statement (.adjustTake tag lane k remove) := ⟨rfl, kindKnown _⟩

theorem takeStatus (tag : BitVec 16) (lane : Byte) : Statement (.takeStatus tag lane) := ⟨rfl, kindKnown _⟩

theorem releaseTake (tag : BitVec 16) (lane reclaim : Byte) :
    Statement (.releaseTake tag lane reclaim) := ⟨rfl, kindKnown _⟩

theorem readManifest (tag : BitVec 16) (lane : Byte) (first : BitVec 16) (count : Byte) :
    Statement (.readManifest tag lane first count) := ⟨rfl, kindKnown _⟩

theorem readAllocation (tag : BitVec 16) (lane : Byte) (index : BitVec 16) (target : Byte) :
    Statement (.readAllocation tag lane index target) := ⟨rfl, kindKnown _⟩

theorem cardInsertion (slot : LaneIx) : Statement (.cardInsertion slot) := nofun

theorem cardRemoval (slot : LaneIx) : Statement (.cardRemoval slot) := nofun

theorem settleTimerExpiry (slot : LaneIx) : Statement (.settleTimerExpiry slot) := nofun

theorem identifyAttemptAnswer (slot : LaneIx) (late : Bool) (answer : CardAnswer) :
    Statement (.identifyAttemptAnswer slot late answer) := nofun

theorem cardAttemptTimeout (slot : LaneIx) : Statement (.cardAttemptTimeout slot) := nofun

theorem cardAttemptComplete (slot : LaneIx) (late : Bool) (cls : CardClass) (data : List Byte) :
    Statement (.cardAttemptComplete slot late cls data) := nofun

theorem driveLinkUp (target : TargetIx) : Statement (.driveLinkUp target) := nofun

theorem driveLinkLoss (target : TargetIx) : Statement (.driveLinkLoss target) := nofun

theorem driveIdentifyAnswer (target : TargetIx) (late : Bool) (answer : DriveAnswer) :
    Statement (.driveIdentifyAnswer target late answer) := nofun

theorem deviceOpTimeout (target : TargetIx) : Statement (.deviceOpTimeout target) := nofun

theorem writePieceComplete (target : TargetIx) (late error : Bool) :
    Statement (.writePieceComplete target late error) := nofun

theorem readbackReadComplete (target : TargetIx) (late error : Bool) (data : List Byte) :
    Statement (.readbackReadComplete target late error data) := nofun

theorem hostOpComplete (target : TargetIx) (late error : Bool) (data : List Byte) :
    Statement (.hostOpComplete target late error data) := nofun

end Carries

end Sys2Proof.Laws
end

