-- ==== Sys2Proof/Tests/Slice0.lean ====
section
/-! SUPPORT. Our own tests: an ill-formed term for each check of WellFormed, the manual's worked cases, one or two
small steps for each command, and for every statement with hypotheses a state that meets them. Expected values come
from the rules and worked cases named in each docstring. -/

namespace Sys2Proof.Tests

set_option Elab.async false

open Sys2Proof.Machine

/-! ### Small states -/

/-- What a command's next state shows. -/
def look {α : Type} (o : Host.Outcome State Fault Refusal) (f : State → α) : Option α :=
  match o with
  | .next t => some (f t)
  | .fault _ => none
  | .refused _ => none

/-- Kind, status and body of the frame being sent. -/
def sent (s : State) : Option (Byte × Status × List Byte) :=
  s.link.outgoing.map fun p => (p.2.kind, p.2.status, p.2.body)

/-- The body of the frame being sent, if its status is OK. -/
def okBody (s : State) : Option (List Byte) :=
  s.link.outgoing.bind fun p => if p.2.status = .ok then some p.2.body else none

/-- Status and first byte of the frame being sent. -/
def answered (s : State) : Option (Status × Option Byte) :=
  s.link.outgoing.map fun p => (p.2.status, p.2.body.head?)

/-- A configured link and nothing else. -/
def idle : State := { State.reset with link := { Link.reset with configured := true } }

def card : CardIdentity := { serial := 7, sectors := 1000 }

/-- A slot with a card in a state. -/
def cardIn (st : SlotState) : Slot :=
  { Slot.reset with
    state := st, present := true, detect := true, settleRunning := st == .settling
    identity := if st = .ready then some card else none
    identifyAttempt := if st = .identifying then 1 else 0
    op := if st = .identifying then .identify else .none }

/-- The state with slot 0 in a slot state, its card present. -/
def slotIs (st : SlotState) (s : State := idle) : State := s.setSlot 0 (cardIn st)

def drive : DriveIdentity := { serial := 9, capacity := 100000 }

/-- A target in a state, its drive attached once, of unit 128. -/
def driveIn (st : TargetState) : Target :=
  { Target.reset with
    state := st, link := st != .absent, identity := if st = .absent then none else some drive, generation := 1
    unit := 128, faultReason := if st = .faulted then some .write else none
    op := if st = .attaching then .identify else .none }

/-- The state with target 0 in a target state; in FAULTED its level is asserted. -/
def targetIs (st : TargetState) (s : State := idle) : State :=
  let s := s.setTarget 0 (driveIn st)
  if st = .faulted then s.rise (condTargetFault 0) else s

/-- A take for target 0 alone, K 1, verify on, policy SKIP, window 8. -/
def fresh : Take := Take.create 0x55 1 1 true .skip .recopy 0 false 8

/-- The fresh take in a state of its life. -/
def takeIn (st : TakeState) : Take :=
  { fresh with
    state := st, snapshot := if st = .opened then none else some card
    waitReason := if st = .waiting then some .targets else none
    outcome := if st = .closed then some .complete else none
    cleared := if st = .closed then some true else none }

/-- The state with lane 0's take in a state. -/
def laneIs (st : TakeState) (s : State := idle) : State := s.setLane 0 (some (takeIn st))

/-- A file of 600 bytes: two sectors at card LBA 10. -/
def file : FileEntry :=
  { fileId := 1, length := 600, runs := [⟨10, 2⟩], progress := .pending, condition := .clean, chunksRead := 0
    correctedCount := 0, running := Digest.start, source := none, copies := Vector.replicate 4 CopyRecord.fresh
    damageCounted := false, goodFile := none }

/-- The file with the copy at target 0 in a copy state over one unit. -/
def fileWith (st : CopyState) (f : FileEntry := file) : FileEntry :=
  f.modifyCopy 0 fun c => { c with state := st, allocation := some { runs := [⟨5, 1⟩], generation := 1 } }

/-- Slot 0 READY, target 0 ONLINE with ten free units. -/
def cart : State := (targetIs .online (slotIs .ready)).setPool 0 { Pool.reset with runs := [⟨40, 10⟩] }

/-- The cart with an OPEN take that holds the file. -/
def loaded : State := cart.setLane 0 (some { fresh with entries := [.file file] })

/-- The cart with its file MOVING, its chunk read of one piece at the card port. -/
def moving : State :=
  ((cart.setLane 0 (some { takeIn .running with
      entries := [.file { fileWith .writing with progress := .moving }], head := 1, reading := .file 0
      chunkRead := some { segment := 0, pieces := [⟨0, 10, 2⟩] } })).setSegment 0
    (.filling { owner := 0, entry := 0, chunk := 0, pass := none, data := [] } false)).setSlot 0
    { cardIn .ready with op := .piece { start := 10, count := 2, retries := 0, alternate := false } 1 }

/-- The file read, its one write order's piece in progress at target 0. -/
def writing : State :=
  (((cart.setLane 0 (some { takeIn .running with
      entries := [.file { fileWith .writing with
        progress := .draining, chunksRead := 1, source := some { a := 1, b := 2, len := 600 } }], head := 1 })).setSegment 0
    (.sending { owner := 0, entry := 0, chunk := 0, pass := none, data := [] } 1)).setTarget 0
    { driveIn .online with
      op := .writePiece 0 0, holder := some (.lane 0), grantCount := 1
      fifos := (Vector.replicate 8 []).set 0
        [{ entry := 0, chunk := 0, segment := 0, pieces := [⟨640, 2⟩], errors := 0, withdrawn := false }] })

/-- The copy written, its only readback read in progress at target 0. -/
def verifying : State :=
  (cart.setLane 0 (some { takeIn .running with
      entries := [.file { fileWith .verifying with
        progress := .draining, chunksRead := 1, source := some { a := 0, b := 0, len := 600 } }], head := 1
      listEnded := false })).setTarget 0
    { driveIn .online with op := .readback false, holder := some .verifier, grantCount := 1 }
  |>.setActive 0 (some { lane := 0, entry := 0, buffer := 0, chunk := 0, piece := 0, read := .granted
                         digest := Digest.start, stop := false })

/-! ### WellFormed refuses -/

theorem test_wf_too_many_runs : (EntryArg.file 1 512 (List.replicate 256 ⟨0, 1⟩)).wf = false := by decide +kernel

theorem test_wf_too_many_entries :
    (Instr.appendEntries 1 0 (List.replicate 256 .pause)).wf = false := by decide +kernel

theorem test_wf_entry_inside_batch :
    (Instr.appendEntries 1 0 [.file 1 512 (List.replicate 256 ⟨0, 1⟩)]).wf = false := by decide +kernel

theorem test_wf_batch_longer_than_body :
    (Instr.appendEntries 1 0 (List.replicate 4 (.file 1 512 (List.replicate 255 ⟨0, 1⟩)))).wf = false := by
  decide +kernel

theorem test_wf_too_many_unit_runs :
    (Instr.grantSpace 1 0 (List.replicate 256 ⟨0, 1⟩)).wf = false := by decide +kernel

theorem test_wf_write_longer_than_body :
    (Instr.writeTarget 1 0 0 8 (List.replicate 4595 0)).wf = false := by decide +kernel

theorem test_wf_part_of_a_sector : (Instr.cardAttemptComplete 0 false .ok [1]).wf = false := by decide +kernel

theorem test_wf_more_than_a_chunk :
    (Instr.cardAttemptComplete 0 false .ok (List.replicate (257 * 512) 0)).wf = false := by decide +kernel

theorem test_wf_failed_attempt_with_data :
    (Instr.cardAttemptComplete 0 false .badBlock (List.replicate 512 0)).wf = false := by decide +kernel

theorem test_wf_failed_readback_with_data :
    (Instr.readbackReadComplete 0 false true (List.replicate 512 0)).wf = false := by decide +kernel

theorem test_wf_failed_host_read_with_data :
    (Instr.hostOpComplete 0 false true (List.replicate 512 0)).wf = false := by decide +kernel

/-! ### Worked cases of the manual -/

/-- 3.6, the six-byte file. -/
theorem test_digest_six_bytes :
    Digest.start.fold [1, 2, 3, 4, 5, 6] = { a := 67307526, b := 134613511, len := 6 } := by decide +kernel

/-- 3.6, wrap at the modulus. -/
theorem test_digest_wraps :
    Digest.start.fold [0xFA, 0xFF, 0xFF, 0xFF, 0xFF, 0xFF, 0xFF, 0xFF, 5, 0] = { a := 8, b := 10, len := 10 } := by
  decide +kernel

/-- 7.6, files P, Q and R of a fragmented pool, and the single run behind eight single units. -/
theorem test_pool_supplies :
    supply 5 [⟨40, 1⟩, ⟨50, 1⟩, ⟨60, 1⟩, ⟨70, 1⟩, ⟨80, 1⟩, ⟨90, 1⟩, ⟨100, 1⟩, ⟨110, 1⟩, ⟨200, 20⟩]
        = some ([⟨40, 1⟩, ⟨50, 1⟩, ⟨60, 1⟩, ⟨70, 1⟩, ⟨80, 1⟩], [⟨90, 1⟩, ⟨100, 1⟩, ⟨110, 1⟩, ⟨200, 20⟩])
      ∧ supply 10 [⟨90, 1⟩, ⟨100, 1⟩, ⟨110, 1⟩, ⟨200, 20⟩]
        = some ([⟨90, 1⟩, ⟨100, 1⟩, ⟨110, 1⟩, ⟨200, 7⟩], [⟨207, 13⟩])
      ∧ supply 16 [⟨207, 13⟩] = none
      ∧ supply 12 [⟨10, 1⟩, ⟨12, 1⟩, ⟨14, 1⟩, ⟨16, 1⟩, ⟨18, 1⟩, ⟨20, 1⟩, ⟨22, 1⟩, ⟨24, 1⟩, ⟨40, 30⟩]
        = some ([⟨40, 12⟩], [⟨10, 1⟩, ⟨12, 1⟩, ⟨14, 1⟩, ⟨16, 1⟩, ⟨18, 1⟩, ⟨20, 1⟩, ⟨22, 1⟩, ⟨24, 1⟩, ⟨52, 18⟩]) := by
  decide +kernel

/-- 7.6, the grant that merges. -/
theorem test_pool_merges : insertRun ⟨220, 10⟩ [⟨207, 13⟩] = [⟨207, 23⟩] := by decide +kernel

/-- 7.6, the device pieces of file P over two runs. -/
theorem test_device_pieces :
    (List.range 3).map (({ file with length := 300000, runs := [⟨0, 586⟩] } : FileEntry).devicePieces
        { runs := [⟨10, 3⟩, ⟨20, 2⟩], generation := 1 } 128)
      = [[⟨1280, 256⟩], [⟨1536, 128⟩, ⟨2560, 128⟩], [⟨2688, 74⟩]] := by decide +kernel

/-- 10.1: the condition numbers the manual spells out. -/
theorem test_condition_numbers :
    [condLaneWaiting 3, condSlotReady 3, condPoolShort 1, condLaneDone 3, condTargetAttached 2, condLinkOverrun]
      = [19, 54, 69, 18, 70, 77] := by decide +kernel

/-! ### Link events -/

/-- R189: a slot with a card settles, a target with its link up attaches, the rest is as after reset. -/
theorem test_powerOn_resets_and_detects :
    look (exec .powerOn ({ slotIs .ready (targetIs .offline) with freeEntries := 3 })) (fun t =>
        ((t.slot 0).state, (t.target 0).state, (t.target 0).op, t.freeEntries, t.link.configured))
      = some (.settling, .attaching, .identify, 8192, false) := by decide +kernel

/-- R187: waiting frames are lost, the request in service goes on stale. -/
theorem test_linkReset_drops_frames :
    look (exec .linkReset { idle with link := { idle.link with
        inService := some { kind := 0x21, tag := 1, reply := none }, queue := [frameOf []] } }) (fun t =>
        (t.link.configured, t.link.stale, t.link.queue.length, t.link.inService.isSome))
      = some (false, true, 0, true) := by decide +kernel

theorem test_linkConfigured_configures :
    look (exec .linkConfigured State.reset) (fun t => t.link.configured) = some true := by decide +kernel

/-- 11.6: the frame of READ ATTENTION with tag 0x1234, byte by byte. -/
theorem test_frameArrival_read_attention :
    look (exec (.frameArrival [0x6C, 0x10, 0, 0, 0x34, 0x12, 0, 0]) idle) (fun t =>
        t.link.outgoing.map fun p => (p.2.kind, p.2.flags, p.2.status, p.2.tag, p.2.body.length))
      = some (some (0x10, 1, .ok, 0x1234, 53)) := by decide +kernel

/-- R180: a wrong marker is BAD_FRAME. -/
theorem test_frameArrival_bad_marker :
    look (exec (.frameArrival [0x6D, 0x10, 0, 0, 0x34, 0x12, 0, 0]) idle) sent = some (some (0x10, .badFrame, [])) := by
  decide +kernel

/-- R183: the reply sent, the first waiting frame enters service. -/
theorem test_frameSent_serves_next :
    look (exec .frameSent { idle with link := { idle.link with
        inService := some { kind := 0x10, tag := 1, reply := some (replyFrame 0x10 1 false .ok []) }
        queue := [frameOf [0x6C, 0x41, 0, 0, 2, 0, 1, 0, 3]]
        outgoing := some (.reply, replyFrame 0x10 1 false .ok []) } }) (fun t => (sent t, t.link.queue.length))
      = some (some (0x41, .ok, [0, 0, 0, 0, 0]), 0) := by decide +kernel

/-- R188: RESET PART takes effect when its reply has been sent; link configured is kept. -/
theorem test_frameSent_resets_part :
    look (exec .frameSent { idle with
        freeEntries := 5
        link := { idle.link with
          inService := some { kind := 0x02, tag := 1, reply := some (replyFrame 0x02 1 false .ok []) }
          outgoing := some (.reply, replyFrame 0x02 1 false .ok []) } }) (fun t => (t.freeEntries, t.link.configured))
      = some (8192, true) := by decide +kernel

/-! ### Part and attention requests -/

/-- R190: the capability record begins with the part's name and number. -/
theorem test_identify_names_the_part :
    look (exec (.identify 1) idle) (fun t => (sent t).map fun p => p.2.2.take 5)
      = some (some [0x57, 0x4D, 0x00, 0x84, 1]) := by decide +kernel

theorem test_resetPart_answers_first :
    look (exec (.resetPart 1) { idle with freeEntries := 5 }) (fun t => (sent t, t.freeEntries))
      = some (some (0x02, .ok, []), 5) := by decide +kernel

theorem test_readAttention_reports_latches :
    look (exec (.readAttention 1) (idle.latch 0)) (fun t => (sent t).map fun p => p.2.2.take 2)
      = some (some [1, 0]) := by decide +kernel

/-- 10.6, step 6: 54 is cleared, 19 and 69 are held. -/
theorem test_clearAttention_holds_levels :
    look (exec (.clearAttention 1 (2 ^ 19 + 2 ^ 54 + 2 ^ 69)) (((idle.latch 54).rise 19).rise 69)) (fun t =>
        (t.attention.latched, (sent t).map fun p => p.2.2))
      = some (2 ^ 19 + 2 ^ 69, some (le 10 (2 ^ 54) ++ le 10 (2 ^ 19 + 2 ^ 69) ++ le 10 (2 ^ 19 + 2 ^ 69))) := by
  decide +kernel

/-- 10.6, step 2: condition 54 is gained through its enable. -/
theorem test_setAttentionEnables_gains :
    look (exec (.setAttentionEnables 1 (2 ^ 18 + 2 ^ 19 + 2 ^ 54 + 2 ^ 69) 1 (2 ^ 65 + 2 ^ 68 + 2 ^ 69) 1)
        (((idle.latch 54).latch 64).latch 67)) (fun t =>
        (t.attention.gained, t.link.pendingNotice, t.attention.panelLine))
      = some (2 ^ 54, true, false) := by decide +kernel

/-- R174: a set that names condition 78 is refused. -/
theorem test_setAttentionEnables_refuses_78 :
    look (exec (.setAttentionEnables 1 (2 ^ 78) 0 0 0) idle) sent = some (some (0x12, .badField, [])) := by
  decide +kernel

/-! ### Slot requests -/

theorem test_slotStatus_ready :
    look (exec (.slotStatus 1 0) (slotIs .ready)) (fun t => (sent t).map fun p => p.2.2.take 2)
      = some (some [3, 1]) := by decide +kernel

/-- R79: a peek at an idle port is the operation in flight; its reply is still to come. -/
theorem test_peekCard_begins :
    look (exec (.peekCard 1 0 999 1 3 0) (slotIs .ready)) (fun t => ((t.slot 0).op, sent t))
      = some (.peek { read := { start := 999, count := 1, retries := 4, alternate := false }, clamped := true } 1,
          none) := by decide +kernel

/-- R83: the range ends above the card's 1000 sectors. -/
theorem test_peekCard_out_of_range :
    look (exec (.peekCard 1 0 999 2 0 0) (slotIs .ready)) sent = some (some (0x21, .outOfRange, [])) := by
  decide +kernel

theorem test_holdSlot_removes_power :
    look (exec (.holdSlot 1 0) (slotIs .ready)) (fun t => ((t.slot 0).state, (t.slot 0).identity, okBody t))
      = some (.held, none, some [5, 1]) := by decide +kernel

/-- R85: refused while the lane runs. -/
theorem test_holdSlot_refused_in_running :
    look (exec (.holdSlot 1 0) (laneIs .running (slotIs .ready))) sent = some (some (0x22, .wrongState, [])) := by
  decide +kernel

theorem test_freeSlot_settles :
    look (exec (.freeSlot 1 0) (slotIs .held)) (fun t => ((t.slot 0).state, sent t))
      = some (.settling, some (0x23, .ok, [1])) := by decide +kernel

/-! ### Target and pool requests -/

theorem test_targetStatus_online :
    look (exec (.targetStatus 1 0) (targetIs .online)) answered = some (some (.ok, some 2)) := by decide +kernel

/-- R125: unit and quota are clamped, and the reply says so. -/
theorem test_configureTarget_clamps :
    look (exec (.configureTarget 1 0 1000 0) (targetIs .online)) (fun t =>
        ((t.target 0).unit, (t.target 0).quota, t.link.outgoing.map fun p => (p.2.flags, p.2.body)))
      = some (2048, 1, some (5, [0, 8, 1])) := by decide +kernel

/-- R125: the unit stays while the pool holds a run. -/
theorem test_configureTarget_refused :
    look (exec (.configureTarget 1 0 512 9) cart) (fun t => ((t.target 0).quota, sent t))
      = some (4, some (0x31, .wrongState, [])) := by decide +kernel

theorem test_takeTargetOffline_online :
    look (exec (.takeTargetOffline 1 0) (targetIs .online)) (fun t => ((t.target 0).state, sent t))
      = some (.offline, some (0x32, .ok, [4])) := by decide +kernel

/-- R127: the fault's level falls, its latch stays. -/
theorem test_bringTargetOnline_ends_fault :
    look (exec (.bringTargetOnline 1 0) (targetIs .faulted)) (fun t =>
        ((t.target 0).state, t.attention.asserted.getLsbD 65, t.attention.latched.getLsbD 65))
      = some (.attaching, false, true) := by decide +kernel

theorem test_readTarget_granted :
    look (exec (.readTarget 1 0 0 8) (targetIs .online)) (fun t => ((t.target 0).op, sent t))
      = some (.host (.read 0 8), none) := by decide +kernel

/-- R129: a write that meets a free run of the pool: unit 40 begins at sector 5120. -/
theorem test_writeTarget_pool_region :
    look (exec (.writeTarget 1 0 5119 2 (List.replicate 1024 0)) cart) sent = some (some (0x35, .poolRegion, [])) := by
  decide +kernel

theorem test_writeTarget_granted :
    look (exec (.writeTarget 1 0 5119 1 (List.replicate 512 0)) cart) (fun t =>
        (t.target 0).op == .host (.write 5119 1 (List.replicate 512 0))) = some true := by decide +kernel

/-- R134: granted runs merge, and the reply gives free units and runs. -/
theorem test_grantSpace_merges :
    look (exec (.grantSpace 1 0 [⟨50, 5⟩]) cart) (fun t => ((t.pool 0).runs, sent t))
      = some ([⟨40, 15⟩], some (0x40, .ok, [15, 0, 0, 0, 1])) := by decide +kernel

/-- R133: a run that meets a free run is refused. -/
theorem test_grantSpace_overlap :
    look (exec (.grantSpace 1 0 [⟨49, 5⟩]) cart) (fun t => ((t.pool 0).runs, answered t))
      = some ([⟨40, 10⟩], some (.overlap, some 0)) := by decide +kernel

theorem test_clearPool_empties :
    look (exec (.clearPool 1 0) cart) (fun t => ((t.pool 0).runs, sent t))
      = some ([], some (0x41, .ok, [1, 10, 0, 0, 0])) := by decide +kernel

theorem test_readPool_reports_unit :
    look (exec (.readPool 1 0) cart) (fun t => (sent t).map fun p => (p.2.1, p.2.2.take 2))
      = some (some (.ok, [128, 0])) := by decide +kernel

/-! ### Take requests -/

/-- R21: a window of 0 becomes 8, three retries become 4, and the reply says so. -/
theorem test_openTake_clamps :
    look (exec (.openTake 1 0 5 3 2 1 0 1 3 0 0) idle) (fun t =>
        (t.laneState 0, t.link.outgoing.map fun p => (p.2.flags, p.2.body)))
      = some (some .opened, some (5, [1, 8, 4])) := by decide +kernel

/-- R21: K above the number of targets is refused. -/
theorem test_openTake_k_too_high :
    look (exec (.openTake 1 0 5 3 3 1 0 1 0 0 8) idle) (fun t => (t.laneState 0, sent t))
      = some (none, some (0x50, .badField, [0])) := by decide +kernel

/-- R22: the batch leaves the store's free count. -/
theorem test_appendEntries_adds :
    look (exec (.appendEntries 1 0 [.file 1 600 [⟨10, 2⟩], .endOfList]) (laneIs .opened)) (fun t =>
        (t.freeEntries, (t.take? 0).map fun k => (k.entries.length, k.listEnded), okBody t))
      = some (8190, some (2, true), some [1, 0, 0, 2]) := by decide +kernel

/-- R22: END before the last place is refused. -/
theorem test_appendEntries_end_inside :
    look (exec (.appendEntries 1 0 [.endOfList, .pause]) (laneIs .opened)) sent
      = some (some (0x51, .badField, [1])) := by decide +kernel

/-- R7, R36, R137: the file is allocated five units below, moves, and its first piece is at the card. -/
theorem test_startTake_moves_the_file :
    look (exec (.startTake 1 0) loaded) (fun t =>
        (t.laneState 0, (t.slot 0).op, (t.pool 0).runs, ((t.copy? 0 0 0).map CopyRecord.state)))
      = some (some .running, .piece { start := 10, count := 2, retries := 0, alternate := false } 1, [⟨41, 9⟩],
          some .writing) := by decide +kernel

/-- R23: no card in the slot. -/
theorem test_startTake_no_card :
    look (exec (.startTake 1 0) (laneIs .opened)) sent = some (some (0x52, .noCard, [1])) := by decide +kernel

theorem test_suspendTake_running :
    look (exec (.suspendTake 1 0) (laneIs .running)) (fun t => (t.laneState 0, t.attention.asserted.getLsbD 2, okBody t))
      = some (some .suspended, true, some [5]) := by decide +kernel

/-- R25: a SUSPENDED lane with nothing at its head is STARVED. -/
theorem test_resumeTake_starves :
    look (exec (.resumeTake 1 0) (laneIs .suspended)) sent = some (some (0x54, .ok, [3, 0, 0, 0])) := by decide +kernel

/-- R103: another card in the slot. -/
theorem test_resumeTake_mismatch :
    look (exec (.resumeTake 1 0) ((slotIs .ready).setLane 0
        (some { takeIn .interrupted with snapshot := some { serial := 8, sectors := 1000 } }))) answered
      = some (some (.cardMismatch, some 8)) := by decide +kernel

/-- R15, R19: nothing left to do, the lane closes STOPPED. -/
theorem test_stopTake_closes :
    look (exec (.stopTake 1 0) (laneIs .running)) (fun t =>
        ((t.take? 0).map fun k => (k.state, k.outcome, k.cleared), t.attention.latched.getLsbD 0))
      = some (some (.closed, some .stopped, some false), true) := by decide +kernel

/-- R18, R53: the chunk read in flight is discarded at its end; the lane stays in ABORTING until then. -/
theorem test_abortTake_waits_for_the_piece :
    look (exec (.abortTake 1 0) moving) (fun t =>
        (t.laneState 0, (t.copy? 0 0 0).map (fun c => (c.state, c.reason)), (t.file? 0 0).map FileEntry.condition))
      = some (some .aborting, some (.failed, some .aborted), some .cut) := by decide +kernel

theorem test_abortTake_open_closes :
    look (exec (.abortTake 1 0) (laneIs .opened)) (fun t => (t.take? 0).bind Take.outcome)
      = some (some .aborted) := by decide +kernel

/-- R28: the last target may not go. -/
theorem test_adjustTake_refuses_last_target :
    look (exec (.adjustTake 1 0 0 1) (laneIs .opened)) sent = some (some (0x57, .badField, [1])) := by decide +kernel

theorem test_adjustTake_lowers_k :
    look (exec (.adjustTake 1 0 1 2) (idle.setLane 0 (some { fresh with targets := 7, k := 2 }))) (fun t =>
        ((t.take? 0).map fun k => (k.targets, k.k), sent t))
      = some (some (5, 1), some (0x57, .ok, [1, 5, 1])) := by decide +kernel

/-- R29: label first, then the lane state. -/
theorem test_takeStatus_open :
    look (exec (.takeStatus 1 0) (laneIs .opened)) (fun t => (sent t).map fun p => p.2.2.take 4)
      = some (some [1, 0x55, 0, 1]) := by decide +kernel

/-- R30, R141: the failed copy's unit goes back, the lane is IDLE. -/
theorem test_releaseTake_reclaims :
    look (exec (.releaseTake 1 0 1) (cart.setLane 0 (some { takeIn .closed with entries := [.file (fileWith .failed)] })))
        (fun t => (t.laneState 0, (t.pool 0).runs, okBody t))
      = some (none, [⟨5, 1⟩, ⟨40, 10⟩], some [0, 0, 1, 1, 0, 0, 0, 0, 0]) := by decide +kernel

/-- R164, R191: the results stand behind their number, and a MARK takes 4 bytes; outcome, cleared and files good come
last, absent before CLOSED. -/
theorem test_readManifest_mark :
    look (exec (.readManifest 1 0 0 1) (idle.setLane 0 (some { fresh with entries := [.mark 0x0305 true] }))) okBody
      = some (some [1, 0x55, 0, 1, 0, 0, 0, 1, 2, 1, 5, 3, 0, 0, 0, 0, 0, 0, 0, 0, 0]) := by decide +kernel

/-- R164: for a CLOSED take outcome COMPLETE, cleared yes and files good follow the results. -/
theorem test_readManifest_closed :
    look (exec (.readManifest 1 0 0 1) (idle.setLane 0 (some { takeIn .closed with entries := [.endOfList] }))) okBody
      = some (some [10, 0x55, 0, 1, 0, 0, 0, 1, 4, 1, 0, 1, 1, 1, 0, 0, 0, 0]) := by decide +kernel

/-- R165: unit 5 of 128 sectors begins at LBA 640. -/
theorem test_readAllocation_maps_units :
    look (exec (.readAllocation 1 0 0 0) (cart.setLane 0 (some { takeIn .closed with entries := [.file (fileWith .verified)] })))
        (fun t => (sent t).map fun p => p.2.2.drop (p.2.2.length - 16))
      = some (some [5, 0, 0, 0, 1, 0, 0, 0, 128, 2, 0, 0, 128, 0, 0, 0]) := by decide +kernel

/-! ### Card events -/

theorem test_cardInsertion_settles :
    look (exec (.cardInsertion 0) idle) (fun t => ((t.slot 0).state, (t.slot 0).settleRunning))
      = some (.settling, true) := by decide +kernel

/-- R96: the file being read is cut, the lane is INTERRUPTED. -/
theorem test_cardRemoval_cuts :
    look (exec (.cardRemoval 0) moving) (fun t =>
        (t.laneState 0, (t.file? 0 0).map FileEntry.condition, (t.slot 0).state, t.attention.latched.getLsbD 49))
      = some (some .interrupted, some .cut, .empty, true) := by decide +kernel

theorem test_settleTimerExpiry_identifies :
    look (exec (.settleTimerExpiry 0) (slotIs .settling)) (fun t => ((t.slot 0).state, (t.slot 0).identifyAttempt))
      = some (.identifying, 1) := by decide +kernel

theorem test_identifyAttemptAnswer_ready :
    look (exec (.identifyAttemptAnswer 0 false (.identity 7 1000)) (slotIs .identifying)) (fun t =>
        ((t.slot 0).state, (t.slot 0).identity, t.attention.latched.getLsbD 48))
      = some (.ready, some card, true) := by decide +kernel

/-- R70: the first attempt's failure is followed by the second. -/
theorem test_cardAttemptTimeout_identify :
    look (exec (.cardAttemptTimeout 0) (slotIs .identifying)) (fun t => ((t.slot 0).state, (t.slot 0).identifyAttempt))
      = some (.identifying, 2) := by decide +kernel

/-- R41, R43, R45, R117: the chunk's last piece ends good, its order is placed and granted at once. -/
theorem test_cardAttemptComplete_writes :
    look (exec (.cardAttemptComplete 0 false .ok (List.replicate 1024 0)) moving) (fun t =>
        ((t.target 0).op, (t.file? 0 0).map fun f => (f.progress, f.source),
          (t.take? 0).map fun k => (k.counters.bytesRead, k.counters.chunksRead)))
      = some (.writePiece 0 0, some (.draining, some { a := 0, b := 0, len := 600 }), some (600, 1)) := by
  decide +kernel

/-- R92: under SKIP the failed piece makes the file UNREADABLE. -/
theorem test_cardAttemptComplete_unreadable :
    look (exec (.cardAttemptComplete 0 false .badBlock []) moving) (fun t =>
        ((t.file? 0 0).map fun f => (f.condition, f.progress), (t.copy? 0 0 0).map fun c => (c.state, c.reason)))
      = some (some (.unreadable, .finished), some (.failed, some .source)) := by decide +kernel

/-! ### Drive events -/

theorem test_driveLinkUp_attaches :
    look (exec (.driveLinkUp 0) idle) (fun t => ((t.target 0).state, (t.target 0).op)) = some (.attaching, .identify) := by
  decide +kernel

/-- R112: the copy being written fails with ABSENT, the pool is emptied. -/
theorem test_driveLinkLoss_fails_copies :
    look (exec (.driveLinkLoss 0) writing) (fun t =>
        ((t.target 0).state, (t.copy? 0 0 0).map (fun c => (c.state, c.reason)), (t.pool 0).runs))
      = some (.absent, some (.failed, some .absent), []) := by decide +kernel

/-- R110, R111: a different drive raises the generation and empties the pool. -/
theorem test_driveIdentifyAnswer_new_drive :
    look (exec (.driveIdentifyAnswer 0 false (.identity 10 100000)) (targetIs .attaching cart)) (fun t =>
        ((t.target 0).state, (t.target 0).generation, (t.pool 0).runs, t.attention.latched.getLsbD 64))
      = some (.online, 2, [], true) := by decide +kernel

theorem test_deviceOpTimeout_faults :
    look (exec (.deviceOpTimeout 0) writing) (fun t =>
        ((t.target 0).state, (t.target 0).faultReason, (t.copy? 0 0 0).map (fun c => (c.state, c.reason))))
      = some (.faulted, some .timeout, some (.failed, some .fault)) := by decide +kernel

/-- R47, R145, R146: the copy's last chunk is written, and its verification starts and is granted. -/
theorem test_writePieceComplete_verifies :
    look (exec (.writePieceComplete 0 false false) writing) (fun t =>
        ((t.copy? 0 0 0).map (fun c => (c.state, c.chunksWritten)), t.segment 0, (t.target 0).op))
      = some (some (.verifying, 1), .free, .readback false) := by decide +kernel

/-- R120: the first error repeats the piece. -/
theorem test_writePieceComplete_repeats :
    look (exec (.writePieceComplete 0 false true) writing) (fun t => ((t.target 0).op, (t.target 0).writeRepeats))
      = some (.writePiece 0 0, 1) := by decide +kernel

/-- R150: an equal digest makes the copy VERIFIED and finishes the file. -/
theorem test_readbackReadComplete_verified :
    look (exec (.readbackReadComplete 0 false false (List.replicate 1024 0)) verifying) (fun t =>
        ((t.copy? 0 0 0).map CopyRecord.state, (t.file? 0 0).map FileEntry.progress))
      = some (some .verified, some .finished) := by decide +kernel

/-- R152, R153: under RECOPY a different digest sends the copy back to be read again. -/
theorem test_readbackReadComplete_recopies :
    look (exec (.readbackReadComplete 0 false false (1 :: List.replicate 1023 0)) verifying) (fun t =>
        ((t.copy? 0 0 0).map (fun c => (c.state, c.recopied)), (t.take? 0).map Take.reading))
      = some (some (.writing, true), some (.recopy 0 0)) := by decide +kernel

theorem test_hostOpComplete_answers :
    look (exec (.hostOpComplete 0 false false (List.replicate 512 3)) { idle.setTarget 0
        { driveIn .online with op := .host (.read 4 1) } with
          link := { idle.link with inService := some { kind := 0x34, tag := 1, reply := none } } }) (fun t =>
        ((t.target 0).op, sent t == some (0x34, .ok, List.replicate 512 3)))
      = some (.none, true) := by decide +kernel

/-- The queue: the command in front is taken, the rest waits. -/
theorem test_step_takes_the_front :
    look (step { idle with pending := [.cardInsertion 0, .cardRemoval 0] }) (fun t => ((t.slot 0).state, t.pending))
      = some (.settling, [.cardRemoval 0]) := by decide +kernel

/-- No word spells a command. -/
theorem test_decode_spells_none : decodeTableWord 16 5 = none := rfl


/-! ### Witnesses: for each statement with hypotheses, states and operands that meet them -/

/-- What `look` sees is the next state's. -/
theorem look_some {α : Type} {o : Host.Outcome State Fault Refusal} {f : State → α} {v : α} (h : look o f = some v) :
    ∃ t, o = .next t ∧ f t = v := by
  cases o with
  | next t => exact ⟨t, rfl, Option.some.inj h⟩
  | fault r => nomatch r
  | refused r => cases h

/-- One segment keeps its account: SENDING with as many orders outstanding as name it. -/
def accounted (s : State) (g : SegmentIx) : Bool :=
  match s.segment g with
  | .sending _ k => k == s.ordersNaming g
  | .filling _ _ => true
  | .free => true

/-- A segment is SENDING for a lane. -/
def sendsFor (s : State) (n : LaneIx) (g : SegmentIx) : Bool :=
  match s.segment g with
  | .sending u _ => u.owner == n
  | .filling _ _ => false
  | .free => false

/-- A lane's chunk read in flight fills a segment of its own. -/
def fillsOwn (s : State) (n : LaneIx) : Bool :=
  match (s.take? n).bind Take.chunkRead with
  | none => true
  | some cr => match s.segment cr.segment with
    | .filling u _ => u.owner == n
    | .sending _ _ => false
    | .free => false

/-- A lane holds at most its window, and nothing while it rests. -/
def holdsWithin (s : State) (n : LaneIx) : Bool :=
  match s.take? n with
  | none => heldSegments s n == 0
  | some t => decide (heldSegments s n ≤ t.window)
      && (!(t.state == .opened || t.state == .closed) || heldSegments s n == 0)

/-- The staging buffer is in order where no lane waits, by checks that can be run. -/
theorem stagingOk_of {s : State} (w : s.staging.waiting = []) (a : ∀ g, accounted s g = true)
    (o : ∀ (x : TargetIx) (n : LaneIx), ∀ o ∈ (s.target x).fifos[n], sendsFor s n o.segment = true)
    (d : ∀ (x : TargetIx) (n : LaneIx), (((s.target x).fifos[n]).map WriteOrder.segment).Nodup)
    (f : ∀ n, fillsOwn s n = true) (h : ∀ n, holdsWithin s n = true) : s.StagingOk where
  outstanding g u k e := by have := a g; simp only [accounted, e] at this; simpa using this
  orders x n q m := by
    have := o x n q m
    cases e : s.segment q.segment <;> simp [sendsFor, e] at this
    exact ⟨_, _, rfl, this⟩
  once := d
  reads n t cr e c := by
    have := f n
    simp only [fillsOwn, e, Option.bind_some, c] at this
    cases g : s.segment cr.segment <;> simp [g] at this
    exact ⟨_, _, rfl, this⟩
  window n t e := by have := h n; simp [holdsWithin, e] at this; exact this.1
  noneFree k := absurd w k
  inOnce := by rw [w]; exact List.nodup_nil
  waiting n m := by rw [w] at m; cases m
  resting n r := by
    have := h n
    unfold State.resting State.laneState at r
    cases e : s.take? n with
    | none => simpa [holdsWithin, e] using this
    | some t =>
      simp only [holdsWithin, e, Bool.and_eq_true, decide_eq_true_eq] at this
      rw [e] at r
      rcases r with r | r | r <;> simp at r <;> simpa [r] using this.2

theorem witness_StepTakesTheFrontCommand :
    ({ idle with pending := [.frameSent, .linkReset] }).pending = .frameSent :: [.linkReset] ∧ idle.pending = [] :=
  ⟨rfl, rfl⟩

theorem witness_FrameOfARequestIsReadBack :
    (Request.grantSpace 3 (List.replicate 8 ⟨0, 1⟩)).wf = true ∧ shapeRefusal (.grantSpace 3 []) = some .badField
      ∧ (Request.grantSpace 3 []).wf = true ∧ (Request.writeTarget 3 0 8 (List.replicate 4594 0)).wf = true := by
  decide +kernel

theorem witness_AcceptedFrameIsTheFrameOfItsRequest :
    parseRequest (frameOf [0x6C, 0x53, 0, 0, 0xFF, 0xFF, 1, 0, 7]) = .ok (.suspendTake 7) := by decide +kernel

theorem witness_RequestIsTheArrivalOfItsFrame :
    (Instr.suspendTake 9 7).request? = some (9, .suspendTake 7) ∧ (Request.suspendTake 7).wf = true := by decide +kernel

/-- The link with a request in service, its reply to come, and k frames waiting. -/
def busy (k : Nat) : State :=
  { idle with link := { idle.link with
      inService := some { kind := 0x21, tag := 1, reply := none }, queue := List.replicate k (frameOf []) } }

/-- The link with a composed reply being sent. -/
def replying : State :=
  { idle with link := { idle.link with
      inService := some { kind := 0x10, tag := 1, reply := some (replyFrame 0x10 1 false .ok []) }
      outgoing := some (.reply, replyFrame 0x10 1 false .ok []) } }

theorem witness_ArrivingFramesAreRefusedQueuedOrDiscarded :
    idle.listening = true ∧ idle.atRest = true
      ∧ (frameOf [0x6C, 0x10, 0, 0, 0, 0, 1]).headerOk = false
      ∧ (frameOf (List.replicate 4609 0x6C)).headerOk = false
      ∧ ((frameOf [0x6C, 0x99, 0, 0, 0, 0, 0, 0]).headerOk = true
          ∧ (frameOf [0x6C, 0x99, 0, 0, 0, 0, 0, 0]).kind ∉ requestKinds)
      ∧ (let f := frameOf [0x6C, 0x53, 0, 0, 1, 0, 2, 0, 7, 9];
          f.headerOk = true ∧ f.kind ∈ requestKinds ∧ parseRequest f = .error .badFrame ∧ idle.refusedBody f = [0])
      ∧ (let f := frameOf [0x6C, 0x53, 0, 0, 1, 0, 2, 0, 8, 9];
          parseRequest f = .error .badFrame ∧ idle.refusedBody f = [])
      ∧ ((busy 3).atRest = true ∧ (busy 3).link.stale = false ∧ (busy 3).link.configured = true
          ∧ (busy 3).link.overrun = none ∧ (busy 3).link.inService ≠ none ∧ (busy 3).link.queue.length < 4)
      ∧ ((busy 4).atRest = true ∧ (busy 4).link.overrun = none ∧ (busy 4).link.inService ≠ none
          ∧ 4 ≤ (busy 4).link.queue.length)
      ∧ (State.reset.atRest = true ∧ State.reset.link.stale = false ∧ State.reset.link.configured = false) := by
  decide +kernel

theorem witness_PathSendsOverrunThenReplyThenNotice :
    replying.link.outgoing ≠ none ∧ State.reset.link.configured = false
      ∧ (let s := { replying with link := { replying.link with
            outgoing := none, overrun := some (overrunReply (frameOf [])), pendingNotice := true } };
          s.link.configured = true ∧ s.link.outgoing = none ∧ s.link.overrun = some (overrunReply (frameOf [])))
      ∧ (let s := { replying with link := { replying.link with outgoing := none } };
          s.link.overrun = none ∧ s.link.composed = some (replyFrame 0x10 1 false .ok []))
      ∧ (let s := { idle with link := { idle.link with pendingNotice := true } };
          s.link.overrun = none ∧ s.link.composed = none ∧ s.link.pendingNotice = true)
      ∧ (idle.link.overrun = none ∧ idle.link.composed = none ∧ idle.link.pendingNotice = false) := by decide +kernel

theorem witness_SentFrameFreesThePathAndServesTheNext :
    (idle.atRest = true ∧ idle.link.outPipe = [] ∧ idle.link.outgoing = none)
      ∧ (let s := { idle with link := { idle.link with outgoing := some (.notice 1, noticeFrame 1 1 1) } };
          s.atRest = true ∧ s.link.outgoing = some (.notice 1, noticeFrame 1 1 1) ∧ s.link.stale = false)
      ∧ (let s := { busy 4 with link := { (busy 4).link with
            overrun := some (overrunReply (frameOf [])), outgoing := some (.overrun, overrunReply (frameOf [])) } };
          s.atRest = true ∧ s.link.outPipe = [] ∧ s.link.stale = false)
      ∧ (replying.atRest = true ∧ replying.link.outPipe = [] ∧ replying.link.queue = []
          ∧ (replyFrame 0x10 1 false .ok []).isReset = false)
      ∧ (let s := { replying with link := { replying.link with queue := [frameOf []] } };
          s.atRest = true ∧ s.link.queue = frameOf [] :: [])
      ∧ parseRequest (frameOf []) = .error .badFrame
      ∧ (let g := frameOf [0x6C, 0x53, 0, 0, 0xFF, 0xFF, 1, 0, 7];
          (∀ rest ∈ [[], List.replicate 3 g],
            let s := { replying with link := { replying.link with queue := g :: rest } };
            s.atRest = true ∧ s.link.outPipe = [] ∧ s.link.configured = true ∧ s.link.overrun = none)
          ∧ parseRequest g = .ok (.suspendTake 7)
          ∧ (Instr.suspendTake 0xFFFF 7).request? = some (g.tag, .suspendTake 7)) := by decide +kernel

theorem witness_PowerOnAndResetPartResetEveryBlock :
    let f := replyFrame 0x02 1 false .ok []
    let s := { idle with link := { idle.link with
      inService := some { kind := 0x02, tag := 1, reply := some f }, outgoing := some (.reply, f) } }
    s.link.outgoing = some (.reply, f) ∧ f.kind = 0x02 ∧ f.status = .ok ∧ s.link.outPipe = [] := by decide +kernel

theorem witness_LinkResetAndConfigurationKeepTheRest :
    (replying.atRest = true ∧ ∀ r, replying.link.outgoing = some (.reply, r) → replying.link.composed = some r)
      ∧ (idle.atRest = true ∧ idle.link.outPipe = [] ∧ idle.link.configured = true)
      ∧ (let s := { busy 0 with link := { (busy 0).link with configured := false, stale := true } };
          s.atRest = true ∧ s.link.outPipe = [] ∧ s.link.configured = false
            ∧ (s.link.stale = true → s.link.composed = none)) := by
  refine ⟨⟨by decide +kernel, ?_⟩, by decide +kernel, by decide +kernel⟩
  intro r h
  cases h
  rfl

theorem witness_PartAndStatusRequestsReport :
    (slotIs .settling).listening = true ∧ (slotIs .settling).atRest = true ∧ laneOf 0 = some 0 ∧ laneOf 7 = some 7
      ∧ targetOf 3 = some 3 := by decide +kernel

theorem witness_ReadAttentionReportsAndChangesNothing :
    (idle.latch 5).listening = true ∧ (idle.latch 5).atRest = true := by decide +kernel

theorem witness_ManifestRequestsReportTheTake :
    let s := laneIs .closed
    s.listening = true ∧ s.atRest = true ∧ laneOf 0 = some 0 ∧ s.take? 0 = some (takeIn .closed)
      ∧ idle.take? 7 = none := by decide +kernel

theorem witness_NumbersOutOfRangeAreRefused :
    idle.listening = true ∧ idle.atRest = true ∧ 8 ≤ (8 : Byte).toNat ∧ 4 ≤ (4 : Byte).toNat := by decide +kernel

theorem witness_RefusedRequestsChangeNothing :
    (Instr.clearPool 1 4).request? = some (1, .clearPool 4) ∧ idle.listening = true ∧ idle.atRest = true
      ∧ ∃ t f, exec (.clearPool 1 4) idle = .next t ∧ t.link.composed = some f ∧ f.status ≠ .ok := by
  refine ⟨rfl, by decide +kernel, by decide +kernel, ?_⟩
  obtain ⟨t, h, k⟩ := look_some (f := fun t => t.link.composed) (v := some (replyFrame 0x41 1 false .badField []))
    (show look (exec (.clearPool 1 4) idle) _ = _ by decide +kernel)
  exact ⟨t, _, h, k, by decide⟩

theorem witness_ClearAttentionHoldsAssertedLevels :
    let s := ((idle.latch 54).rise 19).rise 69
    s.listening = true ∧ s.atRest = true ∧ (∀ c, s.attention.asserted.getLsbD c = true → isLevel c = true)
      ∧ 2 ^ 78 ≤ (BitVec.ofNat 80 (2 ^ 78)).toNat ∧ (BitVec.ofNat 80 (2 ^ 78 - 1)).toNat < 2 ^ 78 := by
  refine ⟨by decide +kernel, by decide +kernel, ?_, by decide +kernel, by decide +kernel⟩
  intro c h
  by_cases hc : c < 78
  · revert h
    revert c
    decide +kernel
  · rw [BitVec.getLsbD_of_ge _ _ (by omega)] at h
    cases h

theorem witness_SetAttentionEnablesGainsLatchedConditions :
    (idle.latch 54).listening = true ∧ (idle.latch 54).atRest = true ∧ 2 ≤ (2 : Byte).toNat ∧ (1 : Byte).toNat < 2
      ∧ 2 ^ 78 ≤ (BitVec.ofNat 80 (2 ^ 78)).toNat ∧ (BitVec.ofNat 80 (2 ^ 78 - 1)).toNat < 2 ^ 78 := by decide +kernel

theorem witness_LatchesSetOnceAndOutliveTheirLevels :
    (idle.latch 77).attention.latched.getLsbD 77 = true ∧ idle.attention.latched.getLsbD 0 = false := by decide +kernel

theorem witness_PeekCardIsCheckedThenOffered :
    (∀ st, (slotIs st).listening = true ∧ (slotIs st).atRest = true ∧ ((slotIs st).slot 0).state = st)
      ∧ 8 < (9 : Byte).toNat ∧ (8 : Byte).toNat ≤ 8 ∧ 2 ≤ (2 : Byte).toNat
      ∧ ((slotIs .ready).slot 0).identity = some card
      ∧ card.sectors.toNat < (993 : BitVec 32).toNat + (8 : Byte).toNat
      ∧ (992 : BitVec 32).toNat + (8 : Byte).toNat ≤ card.sectors.toNat := by
  refine ⟨fun st => by cases st <;> decide +kernel, by decide +kernel⟩

theorem witness_SlotsAreHeldAndFreed :
    (let s := laneIs .running (slotIs .ready);
      s.listening = true ∧ s.atRest = true ∧ s.laneState 0 ≠ none ∧ s.laneState 0 ≠ some .opened
        ∧ s.laneState 0 ≠ some .closed)
      ∧ ((slotIs .held).listening = true ∧ (slotIs .held).atRest = true ∧ (slotIs .held).laneState 0 = none
        ∧ ((slotIs .held).slot 0).state = .held ∧ ((slotIs .held).slot 0).present = true)
      ∧ ((slotIs .ready).slot 0).state ≠ .held
      ∧ (let s := idle.setSlot 0 { Slot.reset with state := .held };
        s.listening = true ∧ s.atRest = true ∧ (s.slot 0).state = .held ∧ (s.slot 0).present = false) := by
  decide +kernel

/-- The take of lane 0 is the only one. -/
theorem takesOk_of {s : State} {t : Take} (h0 : s.take? 0 = some t) (h : ∀ n, n ≠ 0 → s.take? n = none) (k : t.Ok) :
    s.TakesOk := by
  intro n u hu
  by_cases hn : n = 0
  · subst hn
    rw [h0] at hu
    cases hu
    exact k
  · rw [h n hn] at hu
    cases hu

theorem takeOk_closed : (takeIn .closed).Ok := by constructor <;> decide +kernel

theorem takeOk_running : (takeIn .running).Ok := by constructor <;> decide +kernel

theorem witness_LampFollowsSlotTakeAndCard :
    (∀ st, ((slotIs st).slot 0).state = st)
      ∧ (slotIs .ready).laneState 0 = none ∧ (laneIs .running).laneState 0 = some .running
      ∧ (let s := laneIs .closed (slotIs .ready);
        s.TakesOk ∧ lamp s 0 = .green ∧ s.take? 0 = some (takeIn .closed) ∧ (takeIn .closed).snapshot = some card
          ∧ (s.slot 0).identity = some card)
      ∧ (let s := laneIs .closed (slotIs .held);
        (s.slot 0).identity ≠ (takeIn .closed).snapshot) := by
  refine ⟨fun st => by cases st <;> decide +kernel, by decide +kernel, by decide +kernel, ⟨?_, by decide +kernel⟩,
    by decide +kernel⟩
  exact takesOk_of rfl (by decide +kernel) takeOk_closed

/-- With no take anywhere there is no file. -/
theorem no_file {s : State} (h : ∀ n, s.take? n = none) (n : LaneIx) (e : Nat) : s.file? n e = none := by
  simp [State.file?, h n]

theorem witness_ConfigureTargetClampsAndGuardsTheUnit :
    (cart.listening = true ∧ cart.atRest = true ∧ targetOf 0 = some 0 ∧ (cart.pool 0).runs ≠ []
        ∧ (512 : Nat) ≠ (cart.target 0).unit)
      ∧ (let s := targetIs .online;
        s.listening = true ∧ s.atRest = true ∧ ¬ ((s.pool 0).runs ≠ [] ∨ ∃ n e f, s.file? n e = some f
          ∧ (f.copy 0).allocation ≠ none))
      ∧ (cart.target 0).unit = 128 := by
  refine ⟨by decide +kernel, ⟨by decide +kernel, by decide +kernel, ?_⟩, by decide +kernel⟩
  rintro (h | ⟨n, e, f, h, -⟩)
  · exact h (by decide +kernel)
  · rw [no_file (by decide +kernel)] at h
    cases h

theorem witness_TargetsLeaveAndReenterService :
    ∀ st, (targetIs st).listening = true ∧ (targetIs st).atRest = true ∧ targetOf 0 = some 0
      ∧ ((targetIs st).target 0).state = st := by
  intro st
  cases st <;> decide +kernel

theorem witness_HostOperationsAreCheckedThenGranted :
    (∀ st, (targetIs st).listening = true ∧ (targetIs st).atRest = true ∧ ((targetIs st).target 0).state = st)
      ∧ 8 < (9 : Byte).toNat ∧ (8 : Byte).toNat ≤ 8
      ∧ drive.capacity.toNat < (99993 : BitVec 32).toNat + (8 : Byte).toNat
      ∧ (99992 : BitVec 32).toNat + (8 : Byte).toNat ≤ drive.capacity.toNat
      ∧ 0 < (cart.target 0).unit ∧ (∀ r ∈ cart.recordedRuns 0, 1 ≤ r.len)
      ∧ (cart.target 0).state = .online ∧ (cart.target 0).identity = some drive
      ∧ (∃ b, 5119 ≤ b ∧ b < 5119 + 2 ∧ 40 * (cart.target 0).unit ≤ b ∧ b < (40 + 10) * (cart.target 0).unit)
      ∧ (∃ n tk e f a r, writing.take? n = some tk ∧ tk.file? e = some f ∧ (f.copy 0).allocation = some a ∧ r ∈ a.runs
          ∧ (f.progress = .allocating ∨ (f.copy 0).state.terminal tk.verify = false)
          ∧ ∃ b, 639 ≤ b ∧ b < 639 + 2 ∧ r.start * (writing.target 0).unit ≤ b
            ∧ b < (r.start + r.len) * (writing.target 0).unit)
      ∧ (writing.listening = true ∧ writing.atRest = true)
      ∧ ¬ ∃ n tk e f a, cart.take? n = some tk ∧ tk.file? e = some f ∧ (f.copy 0).allocation = some a := by
  refine ⟨fun st => by cases st <;> decide +kernel, by decide +kernel, by decide +kernel, by decide +kernel,
    by decide +kernel, by decide +kernel, by decide +kernel, by decide +kernel, by decide +kernel,
    ⟨5120, by decide +kernel⟩, ⟨0, _, 0, _, _, ⟨5, 1⟩, rfl, rfl, rfl, by decide +kernel, by decide +kernel, 640,
      by decide +kernel⟩, by decide +kernel, ?_⟩
  rintro ⟨n, tk, e, f, a, h, -⟩
  have k : ∀ n, cart.take? n = none := by decide +kernel
  rw [k n] at h
  cases h

/-- The verification of `verifying`, its read repeated. -/
def rereading : State :=
  verifying.modifyTarget 0 fun x => { x with op := .readback true }

/-- The write order of `writing`, with its one error. -/
def writingAgain : State :=
  writing.modifyTarget 0 fun x => { x with fifos := x.fifos.map fun q => q.map fun o => { o with errors := 1 } }

theorem witness_TargetsLeaveOnline :
    ((writing.target 0).state = .online ∧ writing.link.stale = false ∧ writing.listening = true
        ∧ writing.atRest = true ∧ targetOf 0 = some 0 ∧ (writing.target 0).link = true
        ∧ (writing.target 0).op ≠ .none ∧ (writing.target 0).op ≠ .identify)
      ∧ (∃ o, (writingAgain.target 0).state = .online ∧ writingAgain.link.stale = false
        ∧ (writingAgain.target 0).op = .writePiece 0 0 ∧ (writingAgain.target 0).fifos[(0 : LaneIx)] = [o]
        ∧ o.withdrawn = false ∧ o.errors ≠ 0)
      ∧ (∃ v, (rereading.target 0).state = .online ∧ rereading.link.stale = false
        ∧ (rereading.target 0).op = .readback true ∧ rereading.active 0 = some v)
      ∧ (let s := (busy 0).setTarget 0 { driveIn .online with op := .host (.read 4 1) };
        (s.target 0).state = .online ∧ s.link.stale = false ∧ (s.target 0).op = .host (.read 4 1)
          ∧ (s.target 0).waitingHost = none ∧ (s.target 0).link = true
          ∧ s.link.inService = some { kind := 0x21, tag := 1, reply := none })
      ∧ (let s := { writingAgain with link := (busy 0).link }.modifyTarget 0 fun x =>
          { x with waitingHost := some (.read 4 1) };
        (s.target 0).state = .online ∧ s.link.stale = false ∧ (s.target 0).waitingHost ≠ none
          ∧ (s.target 0).op = .writePiece 0 0) :=
  ⟨by decide +kernel, ⟨{ entry := 0, chunk := 0, segment := 0, pieces := [⟨640, 2⟩], errors := 1, withdrawn := false },
    by decide +kernel, by decide +kernel, by decide +kernel, by decide +kernel, by decide +kernel, by decide +kernel⟩,
    ⟨_, by decide +kernel, by decide +kernel, by decide +kernel, rfl⟩, by decide +kernel, by decide +kernel⟩

/-- A state whose next step is a next state. -/
theorem stepsOn (s : State) (h : s.pending = []) : step s = .next s := by
  unfold step
  rw [h]

theorem witness_NothingIsLeftAtATargetOutOfService :
    (targetIs .faulted).OutOfServiceOk ∧ step (targetIs .faulted) = .next (targetIs .faulted) := by
  have none_ : ∀ n, (targetIs .faulted).take? n = none := by decide +kernel
  refine ⟨⟨?_, ?_, ?_, ?_, ?_⟩, stepsOn _ (by decide +kernel)⟩
  · decide +kernel
  · intro x n e c _ h
    simp [State.copy?, no_file none_] at h
  · intro x n t e _ h
    rw [none_ n] at h
    cases h
  · decide +kernel
  · decide +kernel

theorem witness_GrantIsAcceptedExactlyWhenItsRunsAreFree :
    (∀ r ∈ cart.recordedRuns 0, 1 ≤ r.len) ∧ cart.grantRefusal 0 [⟨50, 731⟩] = none
      ∧ cart.grantRefusal 0 [⟨50, 732⟩] = some (.outOfRange, [0]) := by decide +kernel

theorem witness_GrantAndClearChangeThePool :
    targetOf 0 = some 0 ∧ cart.listening = true ∧ cart.atRest = true
      ∧ cart.grantRefusal 0 [⟨49, 1⟩] = some (.overlap, [0])
      ∧ cart.grantRefusal 0 [⟨50, 731⟩] = none ∧ (cart.pool 0).short = [] := by decide +kernel

theorem witness_RunsMergeAndSupplyFromTheLowEnd :
    orderedRuns [⟨40, 1⟩, ⟨50, 20⟩] ∧ 1 ≤ (⟨41, 9⟩ : Extent).len
      ∧ (∀ h ∈ ([⟨40, 1⟩, ⟨50, 20⟩] : List Extent), 41 + 9 ≤ h.start ∨ h.start + h.len ≤ 41)
      ∧ supply 21 [⟨40, 1⟩, ⟨50, 20⟩] = some ([⟨40, 1⟩, ⟨50, 20⟩], [])
      ∧ supply 22 [⟨40, 1⟩, ⟨50, 20⟩] = none ∧ 21 ≤ unitsOf (([⟨40, 1⟩, ⟨50, 20⟩] : List Extent).take 8)
      ∧ (let runs : List Extent := [⟨10, 1⟩, ⟨12, 1⟩, ⟨14, 1⟩, ⟨16, 1⟩, ⟨18, 1⟩, ⟨20, 1⟩, ⟨22, 1⟩, ⟨24, 1⟩, ⟨40, 12⟩,
          ⟨90, 99⟩]
        orderedRuns runs ∧ unitsOf (runs.take 8) < 9 ∧ supply 9 runs = some ([⟨40, 9⟩], runs.set 8 ⟨49, 3⟩)
          ∧ supply 12 runs = some ([⟨40, 12⟩], runs.eraseIdx 8))
      ∧ cart.SpaceOk ∧ step cart = .next cart := by
  unfold orderedRuns
  refine ⟨by decide +kernel, by decide +kernel, by decide +kernel, by decide +kernel, by decide +kernel,
    by decide +kernel, by decide +kernel, ⟨?_, by decide +kernel, by decide +kernel⟩, stepsOn _ (by decide +kernel)⟩
  unfold orderedRuns
  decide +kernel

theorem witness_OpenTakeCreatesTheContext :
    (idle.listening = true ∧ idle.atRest = true ∧ laneOf 7 = some 7 ∧ idle.take? 7 = none)
      ∧ ((laneIs .closed).listening = true ∧ (laneIs .closed).atRest = true
        ∧ (laneIs .closed).take? 0 = some (takeIn .closed))
      ∧ 16 ≤ (16 : Byte).toNat ∧ (15 : Byte).toNat < 16 ∧ setSize ((15 : Byte).setWidth 4) < (5 : Byte).toNat
      ∧ (4 : Byte).toNat ≤ setSize ((15 : Byte).setWidth 4) ∧ (1 : Byte).toNat < 2 ∧ 3 ≤ (3 : Byte).toNat
      ∧ ReadPolicy.halt.code = 2 ∧ MismatchResponse.recopy.code = 1 := by decide +kernel

theorem witness_BatchesAreCheckedWhole :
    appendRefusal fresh 2 [.file { file with length := 2 ^ 40 - 1, runs := List.replicate 16 ⟨0, 2 ^ 27⟩ }, .endOfList]
        = none
      ∧ appendRefusal fresh 1 [.file file, .endOfList] = some (.noEntries, [])
      ∧ appendRefusal { fresh with entries := List.replicate 4096 (.pause false) } 5 [.endOfList]
        = some (.takeFull, []) := by decide +kernel

/-- A take with a file of two sectors whose reading has ended and whose copy is still being written; the next entry,
if any, is at its head. -/
def behind (st : TakeState) (files : Nat) (s : State := cart) : State :=
  s.setLane 0 (some { takeIn st with
    entries := List.replicate files (.file { fileWith .writing with progress := .draining, chunksRead := 1 })
    head := files })

theorem witness_AppendEntriesAddsTheWholeBatch :
    (idle.listening = true ∧ idle.atRest = true ∧ laneOf 0 = some 0
        ∧ shapeRefusal (.appendEntries 0 (List.replicate 16 .pause)) = none ∧ idle.take? 0 = none)
      ∧ (∀ st, (laneIs st).listening = true ∧ (laneIs st).atRest = true ∧ (laneIs st).take? 0 = some (takeIn st)
        ∧ (takeIn st).state = st ∧ (takeIn st).listEnded = false)
      ∧ (moving.listening = true ∧ moving.atRest = true
        ∧ (moving.take? 0).map (fun t => (t.state, t.reading, t.headHold, t.listEnded))
          = some (.running, .file 0, .none, false))
      ∧ appendRefusal (takeIn .suspended) 8192 [.endOfList] = none
      ∧ appendRefusal (takeIn .suspended) 8192 [] = some (.badField, [])
      ∧ (∀ st files, st ∈ [TakeState.running, .starved, .interrupted] → files ∈ [0, 1, 2] →
        let s := behind st files
        s.listening = true ∧ s.atRest = true ∧ s.cardAtHand 0 = true
          ∧ (s.take? 0).map (fun t => (t.state, t.head, t.entries.length)) = some (st, files, files)
          ∧ (s.take? 0).map (fun t => (t.reading, t.recopyList)) = some (.none, [])
          ∧ (∀ es ∈ [[Entry.pause false], [.endOfList], [.file file]],
            (s.take? 0).map (fun t => appendRefusal t 8192 es) = some none)
          ∧ (s.take? 0).map (fun t =>
              let t' : Take := { t with entries := t.entries ++ [.pause false] }
              let ended : Take := { t with entries := t.entries ++ [.endOfList], listEnded := true }
              (t'.earlierFinished, t'.depth, t'.needsCard, ended.needsCard)) = some (files == 0, files, true, false))
      ∧ (behind .starved 0).laneClear 0 = true
      ∧ (let s := behind .starved 1 (targetIs .offline (slotIs .ready));
        s.listening = true ∧ s.atRest = true ∧ s.cardAtHand 0 = true ∧ (∀ t, (0 : LaneIx) ∉ (s.pool t).short)
          ∧ (s.take? 0).map (fun t => ((s.liveTargets t).length, t.k)) = some (0, 1)) := by
  refine ⟨by decide +kernel, fun st => by cases st <;> decide +kernel, by decide +kernel, by decide +kernel,
    by decide +kernel, ?_, by decide +kernel, by decide +kernel⟩
  intro st files h k
  simp only [List.mem_cons, List.not_mem_nil, or_false] at h k
  rcases h with rfl | rfl | rfl <;> rcases k with rfl | rfl | rfl <;> decide +kernel

theorem witness_StartTakeTakesTheSnapshotAndWorksTheHead :
    (idle.listening = true ∧ idle.atRest = true ∧ laneOf 0 = some 0 ∧ idle.laneState 0 ≠ some .opened)
      ∧ (∀ st, let s := laneIs .opened (slotIs st);
        s.listening = true ∧ s.atRest = true ∧ s.take? 0 = some (takeIn .opened) ∧ (s.slot 0).state = st)
      ∧ ((takeIn .opened).entries = [] ∧ (takeIn .opened).listEnded = false ∧ (takeIn .opened).reading = .none
        ∧ (takeIn .opened).recopyList = [])
      ∧ [Entry.file { file with runs := [⟨999, 2⟩] }].findIdx? (Entry.beyond card.sectors.toNat) = some 0
      ∧ [Entry.file { file with runs := [⟨998, 2⟩] }].findIdx? (Entry.beyond card.sectors.toNat) = none
      ∧ (let t : Take := { fresh with entries := [.file file] };
        let s := (slotIs .ready).setLane 0 (some t);
        s.listening = true ∧ s.atRest = true ∧ s.take? 0 = some t ∧ file.progress = .pending
          ∧ ({ t with snapshot := some card, head := 0, waitReason := none } : Take).depth < 2
          ∧ (s.liveTargets t).length < t.k ∧ ∀ x, (0 : LaneIx) ∉ (s.pool x).short)
      ∧ (∀ es ∈ [[Entry.endOfList], [.mark 7 false], [.pause false, .file file]],
        let s := (slotIs .ready).setLane 0 (some { fresh with entries := es });
        s.listening = true ∧ s.atRest = true ∧ (s.slot 0).identity = some card ∧ s.laneClear 0 = true
          ∧ es.findIdx? (Entry.beyond card.sectors.toNat) = none ∧ fresh.state = .opened ∧ fresh.listEnded = false) := by
  refine ⟨by decide +kernel, fun st => by cases st <;> decide +kernel, by decide +kernel, by decide +kernel,
    by decide +kernel, by decide +kernel, by decide +kernel⟩

theorem witness_FirstFileStartsMoving :
    let tk : Take := { fresh with entries := [.file file] }
    loaded.listening = true ∧ loaded.atRest = true ∧ laneOf 0 = some 0 ∧ loaded.take? 0 = some tk ∧ tk.state = .opened
      ∧ tk.reading = .none ∧ tk.recopyList = [] ∧ tk.chunkRead = none ∧ tk.targets = 1#4 <<< (0 : TargetIx).val
      ∧ tk.k = 1 ∧ (loaded.slot 0).state = .ready ∧ (loaded.slot 0).identity = some card ∧ (loaded.slot 0).op = .none
      ∧ tk.entries.findIdx? (Entry.beyond card.sectors.toNat) = none ∧ tk.entries[0]? = some (.file file)
      ∧ ({ tk with head := 0 } : Take).depth < 2 ∧ file.progress = .pending ∧ file.runs ≠ [] ∧ 0 < file.chunksTotal
      ∧ (file.copy 0).allocation = none ∧ file.pieces 0 = ⟨0, 10, 2⟩ :: [] ∧ 10 + 2 ≤ card.sectors.toNat
      ∧ (loaded.target 0).state = .online ∧ (∀ t, (0 : LaneIx) ∉ (loaded.pool t).short)
      ∧ supply (unitsFor file.length (loaded.target 0).unit) (loaded.pool 0).runs = some ([⟨40, 1⟩], [⟨41, 9⟩])
      ∧ 0 ∉ loaded.staging.waiting ∧ heldSegments loaded 0 < tk.window ∧ loaded.firstFree ≠ none := by
  decide +kernel

theorem witness_SuspendTakeHoldsTheLane :
    (∀ st, (laneIs st).listening = true ∧ (laneIs st).atRest = true ∧ (laneIs st).take? 0 = some (takeIn st)
        ∧ (takeIn st).state = st ∧ (laneIs st).laneState 0 = some st)
      ∧ laneOf 0 = some 0
      ∧ idle.laneState 0 ∉ [some .running, some .starved, some .waiting, some .suspended] := by
  refine ⟨fun st => by cases st <;> decide +kernel, by decide +kernel, by decide +kernel⟩

/-- An INTERRUPTED take with the file cut, its card in the slot and its drive ONLINE. -/
def interrupted : State :=
  cart.setLane 0 (some { takeIn .interrupted with
    entries := [.file { fileWith .writing with progress := .draining, condition := .cut }], head := 1 })

/-- A take whose file's copy waits for a recopy. -/
def toRecopy (st : TakeState) (s : State := cart) : State :=
  s.setLane 0 (some { takeIn st with
    entries := [.file { fileWith .recopyWait with
      progress := .draining, chunksRead := 1, source := some { a := 1, b := 2, len := 600 } }]
    head := 1, recopyList := [(0, 0)] })

theorem witness_ResumeTakeGoesOnOrRestarts :
    (∀ st, (laneIs st).listening = true ∧ (laneIs st).atRest = true ∧ (laneIs st).laneState 0 = some st
        ∧ (laneIs st).take? 0 = some (takeIn st) ∧ (takeIn st).state = st)
      ∧ (let t : Take := { takeIn .suspended with
            reading := .file 0, chunkRead := some { segment := 0, pieces := [⟨0, 10, 2⟩] } };
        let s := moving.setLane 0 (some t);
        s.listening = true ∧ s.atRest = true ∧ s.take? 0 = some t ∧ t.reading ≠ .none ∧ t.chunkRead ≠ none)
      ∧ ((takeIn .suspended).reading = .none ∧ (takeIn .suspended).recopyList = []
        ∧ (takeIn .suspended).entries.length ≤ (takeIn .suspended).head ∧ (takeIn .suspended).listEnded = false)
      ∧ (∀ st, let s := laneIs .interrupted (slotIs st);
        s.listening = true ∧ s.atRest = true ∧ s.take? 0 = some (takeIn .interrupted) ∧ (s.slot 0).state = st)
      ∧ ((takeIn .interrupted).snapshot = some card ∧ (takeIn .interrupted).cutEntry = none
        ∧ (takeIn .interrupted).reading = .none ∧ (takeIn .interrupted).entries.length ≤ (takeIn .interrupted).head)
      ∧ card ≠ { serial := 7, sectors := 1001 }
      ∧ (let s := toRecopy .suspended (targetIs .online);
        s.listening = true ∧ s.atRest = true ∧ s.cardAtHand 0 = false ∧ 0 ∉ s.staging.waiting
          ∧ (∀ t, (0 : LaneIx) ∉ (s.pool t).short)
          ∧ (s.take? 0).map (fun t => (t.reading, t.recopyList, t.allocatingFile)) = some (.none, [(0, 0)], none))
      ∧ (let s := toRecopy .suspended;
        s.listening = true ∧ s.atRest = true ∧ (s.slot 0).state = .ready ∧ (s.slot 0).identity = some card
          ∧ (s.slot 0).op = .none ∧ 0 ∉ s.staging.waiting ∧ heldSegments s 0 < 8 ∧ s.firstFree ≠ none
          ∧ (s.take? 0).map (fun t => (t.state, t.reading, t.chunkRead)) = some (.suspended, .none, none)
          ∧ (s.take? 0).map (fun t => (t.recopyList, t.snapshot, t.window)) = some ([(0, 0)], some card, 8)
          ∧ (s.file? 0 0).map (fun f => (f.chunksTotal, f.pieces 0)) = some (1, [⟨0, 10, 2⟩])
          ∧ 10 + 2 ≤ card.sectors.toNat)
      ∧ ∃ tk f, interrupted.listening = true ∧ interrupted.atRest = true ∧ interrupted.take? 0 = some tk
        ∧ tk.state = .interrupted ∧ tk.chunkRead = none ∧ (interrupted.slot 0).state = .ready
        ∧ (interrupted.slot 0).identity = some card ∧ tk.snapshot = some card ∧ tk.cutEntry = some 0
        ∧ tk.file? 0 = some f ∧ ∀ p ∈ f.pieces 0, p.lba + p.count ≤ card.sectors.toNat := by
  refine ⟨fun st => by cases st <;> decide +kernel, by decide +kernel, by decide +kernel,
    fun st => by cases st <;> decide +kernel, by decide +kernel, by decide +kernel, by decide +kernel,
    by decide +kernel, ⟨_, _, by decide +kernel, by decide +kernel, rfl, by decide +kernel, by decide +kernel,
      by decide +kernel, by decide +kernel, by decide +kernel, by decide +kernel, rfl, by decide +kernel⟩⟩

theorem witness_StopTakeFinishesWhatHasStarted :
    (∀ st, (laneIs st).listening = true ∧ (laneIs st).atRest = true ∧ (laneIs st).laneState 0 = some st
        ∧ (laneIs st).take? 0 = some (takeIn st) ∧ (takeIn st).allocatingFile = none ∧ (takeIn st).reading = .none
        ∧ (takeIn st).recopyList = [] ∧ (laneIs st).laneClear 0 = true ∧ ∀ x, (0 : LaneIx) ∉ ((laneIs st).pool x).short)
      ∧ (∀ e f, (takeIn .running).file? e = some f → f.progress = .pending ∨ f.progress = .finished)
      ∧ idle.laneState 0 = none
      ∧ (∃ tk, moving.listening = true ∧ moving.atRest = true ∧ moving.take? 0 = some tk ∧ tk.state = .running
        ∧ tk.allocatingFile = none ∧ (∀ x, (0 : LaneIx) ∉ (moving.pool x).short) ∧ tk.reading ≠ .none
        ∧ tk.chunkRead ≠ none)
      ∧ ∀ s ∈ [interrupted, toRecopy .interrupted], s.listening = true ∧ s.atRest = true
        ∧ (∀ x, (0 : LaneIx) ∉ (s.pool x).short)
        ∧ (s.take? 0).map (fun t => (t.state, t.reading, t.allocatingFile)) = some (.interrupted, .none, none) := by
  refine ⟨fun st => by cases st <;> decide +kernel, ?_, by decide +kernel,
    ⟨_, by decide +kernel, by decide +kernel, rfl, by decide +kernel, by decide +kernel, by decide +kernel,
      by decide +kernel, by decide +kernel⟩, by decide +kernel⟩
  intro e f h
  simp [Take.file?, takeIn, fresh, Take.create] at h

/-- A RUNNING take whose first file is finished and whose second has not started; its target is OFFLINE. -/
def drained : State :=
  (targetIs .offline (slotIs .ready)).setLane 0 (some { takeIn .running with
    entries := [.file { fileWith .failed with progress := .finished, chunksRead := 1 }, .file file], head := 1
    headHold := .none, waitReason := none })

theorem witness_AbortTakeEndsTheTake :
    (∀ st, (laneIs st).listening = true ∧ (laneIs st).atRest = true ∧ (laneIs st).laneState 0 = some st
        ∧ (laneIs st).take? 0 = some (takeIn st) ∧ (takeIn st).chunkRead = none)
      ∧ idle.laneState 0 = none
      ∧ ∃ tk, drained.listening = true ∧ drained.atRest = true ∧ drained.take? 0 = some tk ∧ tk.state = .running
        ∧ tk.chunkRead = none ∧ heldSegments drained 0 = 0
        ∧ (∀ y : TargetIx, ((drained.target y).fifos[(0 : LaneIx)]) = [])
        ∧ ∀ y v, drained.active y = some v → v.lane ≠ 0 := by
  refine ⟨fun st => by cases st <;> decide +kernel, by decide +kernel,
    ⟨_, by decide +kernel, by decide +kernel, rfl, by decide +kernel, by decide +kernel, by decide +kernel,
      by decide +kernel, ?_⟩⟩
  have h : ∀ y, drained.active y = none := by decide +kernel
  intro y v k
  rw [h y] at k
  cases k

theorem witness_AdjustTakeLowersTheDemands :
    (∀ st, (laneIs st).listening = true ∧ (laneIs st).atRest = true ∧ (laneIs st).laneState 0 = some st
        ∧ (laneIs st).take? 0 = some (takeIn st) ∧ (takeIn st).state = st)
      ∧ (let t : Take := { takeIn .running with targets := 7, k := 2 };
        let s := idle.setLane 0 (some t);
        s.listening = true ∧ s.atRest = true ∧ s.take? 0 = some t ∧ t.k < (3 : Byte).toNat ∧ (2 : Byte).toNat ≤ t.k
          ∧ t.targets &&& ~~~ ((1 : Byte).setWidth 4) ≠ 0
          ∧ (2 : Byte).toNat ≤ setSize (t.targets &&& ~~~ ((1 : Byte).setWidth 4))
          ∧ setSize (t.targets &&& ~~~ ((3 : Byte).setWidth 4)) < 2)
      ∧ 16 ≤ (16 : Byte).toNat ∧ (15 : Byte).toNat < 16
      ∧ (let s := writing.modifyTake 0 fun t => { t with targets := 3 };
        s.listening = true ∧ s.atRest = true ∧ (s.take? 0).map Take.targets = some 3
          ∧ (3 : TargetSet).getLsbD (0 : TargetIx).val = true ∧ (1 : Byte).getLsbD (0 : TargetIx).val = true
          ∧ (1 : Byte).toNat < 16 ∧ setSize ((3 : TargetSet) &&& ~~~ ((1 : Byte).setWidth 4)) = 1
          ∧ (s.file? 0 0).map FileEntry.progress = some .draining ∧ (s.pool 0).short.Nodup)
      ∧ (let t : Take := { takeIn .waiting with targets := 3, waitReason := some (.pool 0), entries := [.file file] };
        let s := (cart.setLane 0 (some t)).setPool 0 { Pool.reset with short := [0] };
        s.listening = true ∧ s.atRest = true ∧ s.take? 0 = some t ∧ t.state = .waiting ∧ t.waitReason = some (.pool 0)
          ∧ t.reading = .none ∧ t.entries.length ≤ 4096 ∧ s.StagingOk ∧ s.staging.waiting = [])
      ∧ (let t : Take := { takeIn .waiting with targets := 3, k := 2, entries := [.file file] };
        let s := (targetIs .online (slotIs .ready)).setLane 0 (some t);
        s.listening = true ∧ s.atRest = true ∧ s.take? 0 = some t ∧ t.waitReason = some .targets
          ∧ t.targets &&& (0 : Byte).setWidth 4 = 0 ∧ s.liveTargets t = [0] ∧ t.entries[t.head]? = some (.file file)
          ∧ file.progress = .pending ∧ (file.copy 0).allocation = none ∧ t.reading = .none ∧ t.recopyList = []
          ∧ t.depth < 2 ∧ s.cardAtHand 0 = true ∧ t.entries.length ≤ 4096
          ∧ supply (unitsFor file.length (s.target 0).unit) (s.pool 0).runs = none ∧ (s.pool 0).short = []) := by
  refine ⟨fun st => by cases st <;> decide +kernel, by decide +kernel, by decide +kernel, by decide +kernel,
    by decide +kernel, ⟨by decide +kernel, by decide +kernel, by decide +kernel, by decide +kernel, by decide +kernel,
      by decide +kernel, by decide +kernel, ?_, by decide +kernel⟩, by decide +kernel⟩
  exact stagingOk_of (by decide +kernel) (by decide +kernel) (by decide +kernel) (by decide +kernel) (by decide +kernel)
    (by decide +kernel)

theorem witness_ReleaseTakeFreesTheLane :
    (idle.listening = true ∧ idle.atRest = true ∧ laneOf 7 = some 7 ∧ idle.laneState 7 ≠ some .closed)
      ∧ (let t : Take := { takeIn .closed with entries := [.file (fileWith .failed)] };
        let s := cart.setLane 0 (some t);
        s.listening = true ∧ s.atRest = true ∧ s.take? 0 = some t ∧ t.state = .closed ∧ t.outcome = some .complete
          ∧ t.cleared = some true ∧ t.reclaimable = [(0, { runs := [⟨5, 1⟩], generation := 1 })])
      ∧ 2 ≤ (2 : Byte).toNat ∧ (1 : Byte).toNat < 2 := by decide +kernel

theorem witness_TakeRequestsLeaveTheRestOfThePartAlone :
    (Instr.startTake 1 0).request? = some (1, .startTake 0) ∧ isTakeKind (requestKind (.startTake 0)) = true
      ∧ loaded.listening = true ∧ (requestBody (.startTake 0)).head?.bind laneOf ≠ some 1
      ∧ ∃ t, exec (.startTake 1 0) loaded = .next t := by
  refine ⟨rfl, by decide +kernel, by decide +kernel, by decide +kernel, ?_⟩
  obtain ⟨t, h, -⟩ := look_some (f := fun t => t.laneState 0) (v := some .running)
    (show look (exec (.startTake 1 0) loaded) _ = _ by decide +kernel)
  exact ⟨t, h⟩

theorem witness_CardsComeAndGo :
    (∀ st, let s := slotIs st;
        s.atRest = true ∧ s.link.stale = false ∧ (s.slot 0).detect = true ∧ (s.slot 0).state = st
          ∧ (s.slot 0).hasPiece = false ∧ s.laneState 0 = none ∧ (s.slot 0).waitingPeek = none)
      ∧ (idle.atRest = true ∧ (idle.slot 7).detect = false ∧ (idle.slot 7).state = .empty)
      ∧ (let s := idle.setSlot 0 { Slot.reset with state := .held };
        s.atRest = true ∧ (s.slot 0).detect = false ∧ (s.slot 0).state = .held)
      ∧ (let p : Peek := { read := { start := 0, count := 8, retries := 0, alternate := false }, clamped := false };
        let s := (busy 0).setSlot 0 { cardIn .ready with op := .peek p 1 };
        s.atRest = true ∧ s.link.stale = false ∧ (s.slot 0).hasPiece = false ∧ (s.slot 0).op = .peek p 1)
      ∧ ∀ r ∈ [Reading.file 0, .recopy 0 0],
        let f : FileEntry := { fileWith .writing with progress := if r = .file 0 then .moving else .draining };
        let t : Take := { takeIn .running with entries := [.file f], head := 1, reading := r };
        let s := cart.setLane 0 (some t);
        s.atRest = true ∧ s.link.stale = false ∧ (s.slot 0).detect = true ∧ (s.slot 0).state = .ready
          ∧ (s.slot 0).hasPiece = false ∧ s.take? 0 = some t ∧ t.state = .running ∧ t.reading = r
          ∧ t.chunkRead = none ∧ t.file? 0 = some f ∧ f.allTerminal t.verify = false ∧ t.allocatingFile = none
          ∧ (f.copy 0).state = .writing ∧ ∀ y : TargetIx, ((s.target y).fifos[(0 : LaneIx)]) = [] := by
  refine ⟨fun st => by cases st <;> decide +kernel, by decide +kernel, by decide +kernel, by decide +kernel,
    by decide +kernel⟩

theorem witness_CardsSettleAndAreIdentified :
    (∀ st, (slotIs st).atRest = true ∧ (slotIs st).link.stale = false ∧ ((slotIs st).slot 0).state = st)
      ∧ ((slotIs .settling).slot 0).settleRunning = true ∧ ((slotIs .identifying).slot 0).op = .identify
      ∧ (1 : BitVec 32) ≠ 0
      ∧ ∀ k ∈ [1, 2], let s := idle.setSlot 0 { cardIn .identifying with identifyAttempt := k };
        s.atRest = true ∧ s.link.stale = false ∧ (s.slot 0).state = .identifying ∧ (s.slot 0).op = .identify
          ∧ (s.slot 0).identifyAttempt = k := by
  refine ⟨fun st => by cases st <;> decide +kernel, by decide +kernel, by decide +kernel, by decide +kernel,
    by decide +kernel⟩

/-- A peek with two retries in flight, its request in service, a piece waiting behind it. -/
def peeking (k : Nat) (waits : Bool) : State :=
  (busy 0).setSlot 0 { cardIn .ready with
    op := .peek { read := { start := 0, count := 8, retries := 2, alternate := false }, clamped := false } k
    waitingPiece := if waits then some { start := 998, count := 2, retries := 0, alternate := false } else none }

theorem witness_AttemptsAreRetriedAndPeeksAnswered :
    (∀ k ∈ [1, 2], ∀ alternate, let s := idle.setSlot 0 { cardIn .ready with
          op := .piece { start := 0, count := 8, retries := 2, alternate := alternate } k };
        s.atRest = true ∧ s.link.stale = false ∧ s.laneState 0 ≠ some .aborting ∧ k < 1 + 2)
      ∧ (∀ w, (peeking 3 w).atRest = true ∧ (peeking 3 w).link.stale = false
        ∧ (peeking 3 w).link.inService = some { kind := 0x21, tag := 1, reply := none } ∧ 1 + 2 ≤ 3)
      ∧ ((peeking 2 false).slot 0).waitingPiece = none ∧ 2 < 1 + 2
      ∧ ∀ r, ((peeking 3 true).slot 0).waitingPiece = some r →
        ∃ i, ((peeking 3 true).slot 0).identity = some i ∧ r.start + r.count ≤ i.sectors.toNat := by
  refine ⟨by decide +kernel, by decide +kernel, by decide +kernel, by decide +kernel, ?_⟩
  intro r h
  cases h
  exact ⟨card, by decide +kernel, by decide +kernel⟩

theorem witness_PiecesAreDeliveredOrFilled :
    (∀ c ∈ [SourceCondition.clean, .damaged],
      let u : SegmentUse := { owner := 0, entry := 0, chunk := 0, pass := none, data := [] }
      let f : FileEntry := { fileWith .writing with
        progress := .moving, runs := [⟨10, 1⟩, ⟨999, 1⟩], condition := c, damageCounted := c == .damaged }
      let t : Take := { takeIn .running with
        entries := [.file f], head := 1, reading := .file 0, policy := .fill
        chunkRead := some { segment := 0, pieces := ⟨0, 10, 1⟩ :: ⟨1, 999, 1⟩ :: [] } }
      let s := (moving.setLane 0 (some t)).setSlot 0 { cardIn .ready with
        op := .piece { start := 10, count := 1, retries := 0, alternate := false } 1 }
      s.atRest = true ∧ s.link.stale = false ∧ s.take? 0 = some t ∧ s.segment 0 = .filling u false ∧ u.pass = none
        ∧ t.file? u.entry = some f ∧ (s.slot 0).waitingPeek = none ∧ (s.slot 0).identity = some card
        ∧ 999 + 1 ≤ card.sectors.toNat ∧ t.policy = .fill ∧ f.condition = c)
      ∧ (∀ data counted, (counted = true → failsPiece 0 ⟨10, 1, 0, false⟩ 1 (.cardAttemptTimeout 0) counted)
        ∧ (counted = false → failsPiece 0 ⟨10, 1, 0, false⟩ 1 (.cardAttemptComplete 0 false .outOfRange data) counted))
      ∧ ∀ policy ∈ [ReadPolicy.skip, .halt, .fill], ∀ pass ∈ [none, some (0 : TargetIx)],
        let s := (moving.setSegment 0 (.filling { owner := 0, entry := 0, chunk := 0, pass := pass, data := [] }
          false)).modifyTake 0 fun t =>
            { t with policy := policy, reading := if pass = none then .file 0 else .recopy 0 0 }
        s.atRest = true ∧ s.link.stale = false ∧ s.StagingOk ∧ s.staging.waiting = []
          ∧ (s.take? 0).map (fun t => (t.state, t.recopyList, t.policy)) = some (.running, [], policy)
          ∧ (s.take? 0).map (fun t => (t.listEnded, t.head, t.entries.length)) = some (false, 1, 1)
          ∧ (s.take? 0).map Take.chunkRead = some (some { segment := 0, pieces := ⟨0, 10, 2⟩ :: [] })
          ∧ s.segment 0 = .filling { owner := 0, entry := 0, chunk := 0, pass := pass, data := [] } false
          ∧ (s.file? 0 0).isSome = true ∧ (s.slot 0).waitingPeek = none
          ∧ (s.slot 0).op = .piece { start := 10, count := 2, retries := 0, alternate := false } 1 := by
  refine ⟨by decide +kernel, ?_, ?_⟩
  · intro data counted
    exact ⟨fun h => .inr (.inr ⟨by decide, .inr rfl, h⟩), fun h => .inr (.inl ⟨⟨data, rfl⟩, h⟩)⟩
  · intro policy hp pass hq
    simp only [List.mem_cons, List.not_mem_nil, or_false] at hp hq
    refine ⟨?_, ?_, ?_, ?_⟩
    · rcases hp with rfl | rfl | rfl <;> rcases hq with rfl | rfl <;> decide +kernel
    · rcases hp with rfl | rfl | rfl <;> rcases hq with rfl | rfl <;> decide +kernel
    · refine stagingOk_of ?_ ?_ ?_ ?_ ?_ ?_ <;>
        (rcases hp with rfl | rfl | rfl <;> rcases hq with rfl | rfl <;> decide +kernel)
    · rcases hp with rfl | rfl | rfl <;> rcases hq with rfl | rfl <;> decide +kernel

theorem witness_ChunksFanOutToEveryWritingCopy :
    (∀ bytes ∈ [300000, 131072],
      let f : FileEntry := { fileWith .writing with
        length := bytes, runs := [⟨0, (bytes + 511) / 512⟩], progress := .moving, source := some Digest.start }
      let t : Take := { takeIn .running with entries := [.file f] }
      (cart.setLane 0 (some t)).take? 0 = some t ∧ t.file? 0 = some f
        ∧ (if bytes = 300000 then 0 + 1 < f.chunksTotal else f.chunksTotal ≤ 0 + 1)
        ∧ (targetsOf t.targets).filter (fun (x : TargetIx) => (f.copy x).state == CopyState.writing) = [0]
        ∧ (f.copy 0).state = .writing ∧ f.source = some Digest.start)
      ∧ (let d := Digest.start.fold [1]; ¬ (d.a = Digest.start.a ∧ d.b = Digest.start.b ∧ d.len = Digest.start.len)) := by
  decide +kernel

theorem witness_DrivesAttachAndDetach :
    (∀ st, (targetIs st).atRest = true ∧ (targetIs st).link.stale = false ∧ ((targetIs st).target 0).state = st
        ∧ (st ≠ .absent → ((targetIs st).target 0).link = true))
      ∧ ((targetIs .absent).target 0).link = false ∧ ((targetIs .attaching).target 0).op = .identify
      ∧ (1 : BitVec 64) ≠ 0 ∧ ∀ n, (targetIs .attaching).waitsForTarget 0 n = false := by
  refine ⟨fun st => by cases st <;> decide +kernel, by decide +kernel, by decide +kernel, by decide +kernel,
    by decide +kernel⟩

/-- `writing` with one more order of the segment outstanding, its order and the file's copy as given. -/
def writingShared (o : WriteOrder → WriteOrder) (f : FileEntry → FileEntry) : State :=
  ((writing.setSegment 0 (.sending { owner := 0, entry := 0, chunk := 0, pass := none, data := [] } 2)).modifyTarget 0
    fun x => { x with fifos := x.fifos.map fun q => q.map o }).modifyFile 0 0 f

/-- Every segment is SENDING; lanes 2 and 7 wait for one, lane 2 with its file's chunk 0 to read; lane 7 was served
last. Lane 0 is SUSPENDED, its last write piece in progress. -/
def handing : State :=
  let t : Take := { takeIn .waiting with
    waitReason := some .segments, entries := [.file { fileWith .writing with progress := .moving }], head := 1
    reading := .file 0 }
  let s := ((writing.modifyTake 0 fun t => { t with state := .suspended }).setLane 2 (some t)).setSlot 2 (cardIn .ready)
  { s with staging :=
    { segments := Vector.replicate 128 (.sending { owner := 0, entry := 0, chunk := 0, pass := none, data := [] } 1)
      waiting := [7, 2], lastServed := 7 } }

/-- A take with nothing left but a withdrawn order whose piece is in progress. -/
def closing (st : TakeState) : State :=
  (writing.modifyTarget 0 fun x => { x with fifos := x.fifos.map fun q => q.map fun o =>
    { o with withdrawn := true } }).setLane 0 (some { takeIn st with
      entries := [.file { fileWith .failed with progress := .finished, chunksRead := 1 }], head := 1 })

theorem witness_WritePiecesEnd :
    let s := writingShared id id
    let d := writingShared (fun o => { o with withdrawn := true }) id
    let m := writingShared (fun o => { o with pieces := [⟨640, 1⟩, ⟨641, 1⟩] }) id
    let c := writingShared id (fun f => { f with length := 300000 })
    let e := writingShared id fun f => f.modifyCopy 0 fun c => { c with state := .failed, reason := some .source }
    (∀ x ∈ [s, d, m, c, e], x.atRest = true ∧ x.link.stale = false ∧ (x.target 0).op = .writePiece 0 0
        ∧ x.segment 0 = .sending { owner := 0, entry := 0, chunk := 0, pass := none, data := [] } (0 + 2)
        ∧ x.laneState 0 = some .running)
      ∧ (s.target 0).fifos[(0 : LaneIx)]
        = [{ entry := 0, chunk := 0, segment := 0, pieces := [⟨640, 2⟩], errors := 0, withdrawn := false }]
      ∧ ((d.target 0).fifos[(0 : LaneIx)]).map WriteOrder.withdrawn = [true]
      ∧ ((m.target 0).fifos[(0 : LaneIx)]).map (fun o => o.pieces.length) = [0 + 1 + 1]
      ∧ (s.file? 0 0).map (fun f => ((f.copy 0).state, (f.copy 0).chunksWritten + 1 = f.chunksTotal))
        = some (.writing, True)
      ∧ (s.take? 0).map Take.verify = some true
      ∧ (c.file? 0 0).map (fun f => decide ((f.copy 0).chunksWritten + 1 = f.chunksTotal)) = some false
      ∧ (e.file? 0 0).map (fun f => (f.copy 0).state) = some .failed
      ∧ (handing.link.stale = false ∧ (handing.target 0).op = .writePiece 0 0
        ∧ ((handing.target 0).fifos[(0 : LaneIx)]).map (fun o => (o.segment, o.withdrawn, o.pieces.length))
          = [((0 : SegmentIx), false, 1)]
        ∧ handing.segment 0 = .sending { owner := 0, entry := 0, chunk := 0, pass := none, data := [] } 1
        ∧ handing.laneState 0 = some .suspended ∧ handing.staging.waiting.Nodup
        ∧ (∀ j ∈ handing.staging.waiting, ((2 : LaneIx).val + 7 - handing.staging.lastServed.val) % 8
            ≤ (j.val + 7 - handing.staging.lastServed.val) % 8)
        ∧ (handing.take? 2).map (fun t => (t.state, t.waitReason)) = some (.waiting, some .segments)
        ∧ (handing.take? 2).map (fun t => (t.reading, t.nextChunk)) = some (.file 0, 0)
        ∧ (handing.file? 2 0).map (fun f => f.pieces 0) = some (⟨0, 10, 2⟩ :: [])
        ∧ (handing.slot 2).op = .none ∧ (handing.slot 2).identity = some card ∧ 10 + 2 ≤ card.sectors.toNat)
      ∧ ∀ st ∈ [TakeState.stopping, .draining],
        (closing st).link.stale = false ∧ ((closing st).target 0).op = .writePiece 0 0
          ∧ (((closing st).target 0).fifos[(0 : LaneIx)]).map (fun o => (o.segment, o.withdrawn))
            = [((0 : SegmentIx), true)]
          ∧ (closing st).segment 0 = .sending { owner := 0, entry := 0, chunk := 0, pass := none, data := [] } 1
          ∧ heldSegments (closing st) 0 = 1 ∧ (closing st).staging.waiting = []
          ∧ ((closing st).take? 0).map (fun t => (t.state, t.reading, t.chunkRead)) = some (st, .none, none)
          ∧ ((closing st).take? 0).map (fun t => (t.recopyList, t.filesDone)) = some ([], true)
          ∧ (∀ y : TargetIx, y ≠ 0 → ((closing st).target y).fifos[(0 : LaneIx)] = [])
          ∧ (closing st).verify.queue = [] ∧ ∀ y, (closing st).active y = none := by
  refine ⟨by decide +kernel, by decide +kernel, by decide +kernel, by decide +kernel, ?_, by decide +kernel,
    by decide +kernel, by decide +kernel, by decide +kernel, by decide +kernel⟩
  have h : (((writingShared id id).file? 0 0).map fun f =>
      ((f.copy 0).state, decide ((f.copy 0).chunksWritten + 1 = f.chunksTotal))) = some (.writing, true) := by
    decide +kernel
  cases k : (writingShared id id).file? 0 0 with
  | none => rw [k] at h; cases h
  | some f =>
    rw [k] at h
    simp only [Option.map_some, Option.some.injEq, Prod.mk.injEq, decide_eq_true_eq] at h
    simp only [Option.map_some, Option.some.injEq, Prod.mk.injEq, eq_iff_iff, iff_true]
    exact h

/-- `verifying` for a file of the given length, on two targets, the other copy still being written. -/
def verifyingOf (length : Nat) (source : Digest) (v : Verification → Verification) : State :=
  let s := (verifying.modifyTake 0 fun t => { t with targets := 3 }).modifyFile 0 0 fun f =>
    ({ f with length := length, source := some source }).modifyCopy 1 fun c => { c with state := .writing }
  s.setActive 0 ((s.active 0).map v)

theorem witness_ReadbackReadsEnd :
    let s := verifyingOf 600 { a := 0, b := 0, len := 600 } id
    let r := rereading
    let p := verifyingOf 600 Digest.start fun v => { v with stop := true }
    let c := verifyingOf 300000 Digest.start id
    let w := verifyingOf 600 { a := 1, b := 0, len := 600 } id
    (∀ x ∈ [s, p, c, w], x.atRest = true ∧ x.link.stale = false ∧ (x.target 0).op = .readback false
        ∧ x.laneState 0 = some .running)
      ∧ (r.target 0).op = .readback true
      ∧ (∃ v tk f a, s.active 0 = some v ∧ s.take? v.lane = some tk ∧ tk.file? v.entry = some f
        ∧ (f.copy 0).allocation = some a ∧ v.stop = false ∧ (f.copy 0).state = .verifying
        ∧ (f.drivePieces a (s.target 0).unit v.chunk)[v.piece]? = some ⟨0, 640, 2⟩
        ∧ (f.drivePieces a (s.target 0).unit v.chunk).length ≤ v.piece + 1 ∧ f.chunksTotal ≤ v.chunk + 1
        ∧ (∃ z, z ≠ (0 : TargetIx) ∧ (f.copy z).state.terminal tk.verify = false)
        ∧ f.source = some { a := 0, b := 0, len := 600 })
      ∧ (∃ v, p.active 0 = some v ∧ v.stop = true)
      ∧ (∃ v tk f, c.active 0 = some v ∧ c.take? v.lane = some tk ∧ tk.file? v.entry = some f
        ∧ v.chunk + 1 < f.chunksTotal)
      ∧ (w.take? 0).map Take.mismatch = some .recopy
      ∧ (w.file? 0 0).map (fun f => ((f.copy 0).recopied, f.condition, f.source))
        = some (false, .clean, some { a := 1, b := 0, len := 600 })
      ∧ ((w.modifyTake 0 fun t => { t with state := .suspended }).laneState 0 = some .suspended)
      ∧ ((w.modifyTake 0 fun t => { t with reading := .file 0 }).take? 0).map Take.reading = some (.file 0) := by
  refine ⟨by decide +kernel, by decide +kernel, ⟨_, _, _, _, rfl, rfl, rfl, rfl, by decide +kernel, by decide +kernel,
    by decide +kernel, by decide +kernel, by decide +kernel, ⟨1, by decide +kernel, by decide +kernel⟩, rfl⟩,
    ⟨_, rfl, by decide +kernel⟩, ⟨_, _, _, rfl, rfl, rfl, by decide +kernel⟩, by decide +kernel, by decide +kernel,
    by decide +kernel, by decide +kernel⟩

theorem witness_HostOperationsAreAnswered :
    let s := (busy 0).setTarget 0 { driveIn .online with op := .host (.read 99999 1) }
    s.link.stale = false ∧ (s.target 0).op = .host (.read 99999 1)
      ∧ (List.replicate 512 (0 : Byte)).length = 1 * 512 := by decide +kernel

/-- Target 0 free, with orders of the lanes given, a holder and its count. -/
def contended (lanes : List LaneIx) (holder : Option Candidate) (count : Nat) : State :=
  targetIs .online |>.modifyTarget 0 fun x =>
    { x with
      holder := holder, grantCount := count, quota := 2
      fifos := Vector.ofFn fun n : LaneIx => if n ∈ lanes then
        [{ entry := 0, chunk := 0, segment := 0, pieces := [⟨640, 2⟩], errors := 0, withdrawn := false }] else [] }

/-- The choices of 6.8: the holder below its quota, the ring after it, the lone holder, and nobody. -/
theorem witness_ArbiterChoosesByTheRing :
    (∀ s ∈ [contended [2, 5] (some (.lane 2)) 1, contended [2, 5] (some (.lane 2)) 2, contended [2] (some (.lane 2)) 2,
        contended [] none 0], (s.target 0).state = .online ∧ (s.target 0).op = .none
          ∧ (s.target 0).waitingHost = none)
      ∧ (let s := contended [2, 5] (some (.lane 2)) 1;
        s.hasWork 0 (.lane 2) = true ∧ (s.target 0).grantCount < (s.target 0).quota)
      ∧ (let s := contended [2, 5] (some (.lane 2)) 2;
        s.hasWork 0 (.lane 5) = true ∧ s.hasWork 0 (.lane 0) = false ∧ s.hasWork 0 .verifier = false
          ∧ (s.target 0).quota ≤ (s.target 0).grantCount
          ∧ ringDistance (some (.lane 2)) (.lane 5) = 2 ∧ ringDistance (some (.lane 2)) (.lane 2) = 8)
      ∧ (let s := contended [2] (some (.lane 2)) 2;
        s.hasWork 0 (.lane 2) = true ∧ (s.target 0).grantCount = (s.target 0).quota
          ∧ ∀ n, s.hasWork 0 (.lane n) = true → n = 2)
      ∧ (let s := contended [] none 0;
        (∀ n, s.hasWork 0 (.lane n) = false) ∧ s.hasWork 0 .verifier = false)
      ∧ ((targetIs .online).setTarget 0 { driveIn .online with waitingHost := some (.read 0 1) }).target 0
        = { driveIn .online with waitingHost := some (.read 0 1) } := by decide +kernel

/-- The staging buffer of `verifying` is in order. -/
theorem verifying_stagingOk : verifying.StagingOk :=
  stagingOk_of (by decide +kernel) (by decide +kernel) (by decide +kernel) (by decide +kernel) (by decide +kernel)
    (by decide +kernel)

/-- The only file of `verifying` is entry 0 of lane 0. -/
theorem verifying_file {n : LaneIx} {e : Nat} (h : ¬ (n = 0 ∧ e = 0)) : verifying.file? n e = none := by
  have none_ : ∀ m, m ≠ 0 → verifying.take? m = none := by decide +kernel
  by_cases hn : n = 0
  · subst hn
    have he : e ≠ 0 := fun k => h ⟨rfl, k⟩
    obtain ⟨k, rfl⟩ := Nat.exists_eq_succ_of_ne_zero he
    rfl
  · simp [State.file?, none_ n hn]

theorem verifying_copy {n : LaneIx} {e : Nat} (x : TargetIx) (h : ¬ (n = 0 ∧ e = 0)) : verifying.copy? n e x = none := by
  simp [State.copy?, verifying_file h]

theorem verifying_verifyOk : verifying.VerifyOk := by
  have active : ∀ x, x ≠ 0 → verifying.active x = none := by decide +kernel
  refine ⟨by decide +kernel, ?_, ?_, ?_, ?_, ?_⟩
  · intro n e x
    by_cases h : n = 0 ∧ e = 0
    · obtain ⟨rfl, rfl⟩ := h
      revert x
      decide +kernel
    · rw [verifying_copy x h]
      exact iff_of_false (fun k => nomatch k) (fun k => nomatch k)
  · intro n e x
    by_cases hx : x = 0
    · subst hx
      by_cases h : n = 0 ∧ e = 0
      · obtain ⟨rfl, rfl⟩ := h
        exact iff_of_true ⟨_, rfl, rfl, rfl, rfl⟩ (by decide +kernel)
      · rw [verifying_copy 0 h]
        refine iff_of_false ?_ (fun k => nomatch k)
        rintro ⟨v, hv, rfl, rfl, -⟩
        have : v.lane = 0 ∧ v.entry = 0 := by cases hv; exact ⟨rfl, rfl⟩
        exact h this
    · refine iff_of_false ?_ ?_
      · rintro ⟨v, hv, -⟩
        rw [active x hx] at hv
        cases hv
      · by_cases h : n = 0 ∧ e = 0
        · obtain ⟨rfl, rfl⟩ := h
          revert x
          decide +kernel
        · rw [verifying_copy x h]
          exact fun k => nomatch k
  · intro n t h
    have e : t.recopyList = [] := by
      have k : ∀ n, (verifying.take? n).map Take.recopyList = none ∨ (verifying.take? n).map Take.recopyList = some [] := by
        decide +kernel
      simpa [h] using k n
    rw [e]
    exact ⟨List.nodup_nil, fun p m => nomatch m⟩
  · intro n e f h p x
    by_cases k : n = 0 ∧ e = 0
    · obtain ⟨rfl, rfl⟩ := k
      have d : (verifying.file? 0 0).map FileEntry.progress = some .draining := by decide +kernel
      rw [h] at d
      simp only [Option.map_some, Option.some.injEq] at d
      rw [d] at p
      rcases p with p | p <;> cases p
    · rw [verifying_file k] at h
      cases h
  · intro n r
    constructor
    · intro o m
      cases m
    intro x v hv
    by_cases hx : x = 0
    · subst hx
      have hv0 : v.lane = 0 := by cases hv; rfl
      rw [hv0]
      rintro rfl
      revert r
      unfold State.resting
      decide +kernel
    · rw [active x hx] at hv
      cases hv

theorem witness_OldestVerifyOrdersStart :
    let o : VerifyOrder := { lane := 0, entry := 0, target := 0 }
    let s := { writing with verify := { writing.verify with queue := [o, { o with entry := 1 }] } }
    ((s.target 0).state = .online ∧ s.active 0 = none
        ∧ s.verify.queue.find? (fun o => o.target = 0) = some o ∧ (s.copy? 0 0 0).isSome = true)
      ∧ (s.target 1).state ≠ .online ∧ verifying.active 0 ≠ none
      ∧ verifying.BuffersDiffer ∧ verifying.StagingOk ∧ verifying.VerifyOk ∧ step verifying = .next verifying := by
  refine ⟨by decide +kernel, by decide +kernel, by decide +kernel, ?_, verifying_stagingOk, verifying_verifyOk,
    stepsOn _ (by decide +kernel)⟩
  have h : ∀ x, x ≠ 0 → verifying.active x = none := by decide +kernel
  intro x y v w hv hw _
  have hx : x = 0 := Classical.byContradiction fun k => by rw [h x k] at hv; cases hv
  have hy : y = 0 := Classical.byContradiction fun k => by rw [h y k] at hw; cases hw
  rw [hx, hy]

theorem witness_PiecesCoverTheChunk :
    let f : FileEntry := { file with length := 300000, runs := [⟨40000, 200⟩, ⟨51200, 386⟩] }
    (f.runs.map Extent.len).sum = f.sectors ∧ 2 < f.chunksTotal
      ∧ f.sectors ≤ unitsOf ([⟨10, 3⟩, ⟨20, 2⟩] : List Extent) * 128 := by decide +kernel

theorem witness_DigestWeighsWordsAndSeesChanges :
    (0 : Nat) < 4294967291 ∧ ([1, 2, 3, 4] : List Byte).length % 4 = 0 ∧ ([1541, 7] : List Nat)[0]? = some 1541
      ∧ ([1541, 7] : List Nat)[1]? = some 7 ∧ 7 % 4294967291 ≠ 1541 % 4294967291 ∧ (1 - 0) % 4294967291 ≠ 0 := by
  decide +kernel

/-- A lane WAITING, a target FAULTED and a slot READY, with their levels and latches as the rules have them. -/
def lively : State :=
  (targetIs .faulted ((laneIs .waiting (slotIs .ready (idle.rise (condLaneWaiting 0))))))

theorem witness_EveryStepKeepsAttentionInOrder : lively.AttentionOk ∧ step lively = .next lively := by
  refine ⟨⟨by decide +kernel, by decide +kernel, by decide +kernel, by decide +kernel, ?_⟩, stepsOn _ (by decide +kernel)⟩
  intro g f h
  have k : lively.link.outgoing = none := by decide +kernel
  rw [k] at h
  cases h

theorem witness_EveryStepKeepsLevelsTrue : lively.LevelsOk ∧ step lively = .next lively := by
  refine ⟨?_, stepsOn _ (by decide +kernel)⟩
  constructor <;> decide +kernel

theorem witness_EveryStepKeepsTakesAndEntryStore :
    ({ loaded with freeEntries := 8191 }).StoreOk ∧ (laneIs .running).TakesOk
      ∧ step (laneIs .running) = .next (laneIs .running) ∧ writing.StagingOk ∧ step writing = .next writing := by
  refine ⟨?_, takesOk_of rfl (by decide +kernel) takeOk_running, stepsOn _ (by decide +kernel), ?_,
    stepsOn _ (by decide +kernel)⟩
  · constructor <;> decide +kernel
  · exact stagingOk_of (by decide +kernel) (by decide +kernel) (by decide +kernel) (by decide +kernel)
      (by decide +kernel) (by decide +kernel)

theorem witness_EveryStepKeepsPortsAndLinkInOrder :
    lively.PortsOk ∧ lively.LinkOk ∧ step lively = .next lively := by
  have out : lively.link.outgoing = none := by decide +kernel
  refine ⟨⟨?_, ?_⟩, ?_, stepsOn _ (by decide +kernel)⟩
  · intro n
    have h : lively.slot n = cardIn .ready ∨ lively.slot n = Slot.reset := by revert n; decide +kernel
    rcases h with h | h <;> rw [h] <;> constructor <;> decide +kernel
  · intro t
    have h : lively.target t = driveIn .faulted ∨ lively.target t = Target.reset := by revert t; decide +kernel
    have none_ : lively.active t = none := by revert t; decide +kernel
    have runs : (lively.pool t).runs.length ≤ Config.poolRuns := by revert t; decide +kernel
    refine ⟨?_, ?_, ?_, ?_, ?_, ?_, ?_, ?_, ?_, ?_, runs⟩
    all_goals first
      | (rcases h with h | h <;> rw [h] <;> decide +kernel)
      | (intro n i k; rcases h with h | h <;> rw [h] at k <;> cases k)
      | (constructor
         · rintro ⟨r, k⟩; rcases h with h | h <;> rw [h] at k <;> cases k
         · rintro ⟨v, k, -⟩; rw [none_] at k; cases k)
  · refine ⟨by decide +kernel, by decide +kernel, by decide +kernel, ?_, ?_, by decide +kernel, by decide +kernel,
      by decide +kernel, by decide +kernel⟩
    all_goals
      intro r h
      rw [out] at h
      cases h

theorem witness_EveryStepLeavesNoChoiceOpen : moving.atRest = true ∧ step moving = .next moving :=
  ⟨by decide +kernel, stepsOn _ (by decide +kernel)⟩

end Sys2Proof.Tests
end

