-- ==== Sys2Proof/Proofs/Levels.lean ====
section
/-! SUPPORT. The level conditions as a type (`Level`), so that "each level is asserted exactly while its owner's state
holds" is one statement about one bit, and what the operations that move levels do to the asserted set. -/

namespace Sys2Proof.Machine

/-- The level conditions, each with its owner (R169). -/
inductive Level where
  | waiting (n : LaneIx)
  | suspended (n : LaneIx)
  | starved (n : LaneIx)
  | fault (t : TargetIx)
  | short (t : TargetIx)
  | dry
deriving DecidableEq

/-- The condition number of a level. -/
def Level.cond : Level → Nat
  | .waiting n => condLaneWaiting n
  | .suspended n => condLaneSuspended n
  | .starved n => condLaneStarved n
  | .fault t => condTargetFault t
  | .short t => condPoolShort t
  | .dry => condStagingDry

/-- The level's owner stands in the state the level reports. -/
def State.holds (s : State) : Level → Prop
  | .waiting n => s.laneState n = some .waiting
  | .suspended n => s.laneState n = some .suspended
  | .starved n => s.laneState n = some .starved
  | .fault t => (s.target t).state = .faulted
  | .short t => (s.pool t).short ≠ []
  | .dry => s.staging.waiting ≠ []

/-- The level is asserted. -/
def State.asserts (s : State) (v : Level) : Bool := s.attention.asserted.getLsbD v.cond

/-- The level a lane asserts in a state. -/
def Level.ofLane (n : LaneIx) : TakeState → Option Level
  | .waiting => some (.waiting n)
  | .suspended => some (.suspended n)
  | .starved => some (.starved n)
  | _ => none

theorem levelsOk_iff (s : State) : s.LevelsOk ↔ ∀ v : Level, s.asserts v = true ↔ s.holds v := by
  constructor
  · intro h v
    cases v with
    | waiting n => exact h.waiting n
    | suspended n => exact h.suspended n
    | starved n => exact h.starved n
    | fault t => exact h.fault t
    | short t => exact h.short t
    | dry => exact h.dry
  · exact fun h => ⟨fun n => h (.waiting n), fun n => h (.suspended n), fun n => h (.starved n), fun t => h (.fault t),
      fun t => h (.short t), h .dry⟩

theorem Level.cond_lt (v : Level) : v.cond < 78 := by
  cases v <;> simp only [cond, condLaneWaiting, condLaneSuspended, condLaneStarved, condTargetFault, condPoolShort,
    condStagingDry] <;> omega

/-- Different levels have different condition numbers. -/
theorem Level.cond_inj {v w : Level} : v.cond = w.cond ↔ v = w := by
  refine ⟨fun h => ?_, congrArg _⟩
  cases v <;> cases w <;> simp only [cond, condLaneWaiting, condLaneSuspended, condLaneStarved, condTargetFault,
    condPoolShort, condStagingDry] at h <;> simp only [reduceCtorEq, waiting.injEq, suspended.injEq, starved.injEq,
    fault.injEq, short.injEq, Fin.ext_iff] <;> omega

theorem laneLevel_eq (n : LaneIx) (st : TakeState) : laneLevel n st = (Level.ofLane n st).map Level.cond := by
  cases st <;> rfl

/-! ### The asserted set after each operation of the attention unit -/

@[simp] theorem asserted_gain (s : State) (c : CondSet) : (s.gain c).attention.asserted = s.attention.asserted := by
  unfold State.gain; split <;> rfl

@[simp] theorem asserted_latch (s : State) (c : Nat) : (s.latch c).attention.asserted = s.attention.asserted := by
  unfold State.latch
  split
  · rfl
  · simp [Attention.evalPanel]

theorem asserts_congr {s t : State} (h : t.attention.asserted = s.attention.asserted) (v : Level) :
    t.asserts v = s.asserts v := by simp [State.asserts, h]

theorem asserts_rise (s : State) (v w : Level) : (s.rise v.cond).asserts w = (s.asserts w || decide (w = v)) := by
  simp [State.asserts, State.rise, getLsbD_condBit v.cond_lt, Level.cond_inj]

theorem asserts_fall (s : State) (v w : Level) : (s.fall v.cond).asserts w = (s.asserts w && !decide (w = v)) := by
  simp only [State.asserts, State.fall, BitVec.getLsbD_and, BitVec.getLsbD_not, getLsbD_condBit v.cond_lt, w.cond_lt,
    Level.cond_inj, decide_true, Bool.true_and]

/-! ### Levels that rise and fall with their owner -/

/-- No level and no owner's state has changed. -/
theorem levels_same {s t : State} (a : t.attention.asserted = s.attention.asserted) (h : ∀ v, t.holds v ↔ s.holds v)
    (k : s.LevelsOk) : t.LevelsOk := by
  rw [levelsOk_iff] at k ⊢
  exact fun v => by rw [asserts_congr a, k v, h v]

/-- A level rises as its owner's state begins. -/
theorem levels_rise {s t : State} (w : Level) (h : ∀ v, t.holds v ↔ s.holds v ∨ v = w) (k : s.LevelsOk)
    (a : t.attention.asserted = (s.rise w.cond).attention.asserted) : t.LevelsOk := by
  rw [levelsOk_iff] at k ⊢
  exact fun v => by rw [asserts_congr a, asserts_rise, h v, ← k v]; simp

/-- A level falls as its owner's state ends. -/
theorem levels_fall {s t : State} (w : Level) (h : ∀ v, t.holds v ↔ s.holds v ∧ v ≠ w) (k : s.LevelsOk)
    (a : t.attention.asserted = (s.fall w.cond).attention.asserted) : t.LevelsOk := by
  rw [levelsOk_iff] at k ⊢
  exact fun v => by rw [asserts_congr a, asserts_fall, h v, ← k v]; simp

/-! ### What rises, falls and latches leave of the rest -/

/-- Only the attention unit and the pending-notice flag differ. -/
def AttentionOnly (s t : State) : Prop :=
  t = { s with attention := t.attention, link := { s.link with pendingNotice := t.link.pendingNotice } }

theorem AttentionOnly.refl (s : State) : AttentionOnly s s := rfl

theorem AttentionOnly.trans {a b c : State} (h : AttentionOnly a b) (k : AttentionOnly b c) : AttentionOnly a c := by
  unfold AttentionOnly at *
  rw [h] at k
  exact k

theorem attentionOnly_attention (s : State) (a : Attention) : AttentionOnly s { s with attention := a } := rfl

theorem attentionOnly_gain (s : State) (c : CondSet) : AttentionOnly s (s.gain c) := by
  unfold State.gain
  split <;> exact rfl

theorem attentionOnly_latch (s : State) (c : Nat) : AttentionOnly s (s.latch c) := by
  unfold State.latch
  split
  · exact rfl
  · exact (attentionOnly_attention s _).trans (attentionOnly_gain _ _)

theorem attentionOnly_rise (s : State) (c : Nat) : AttentionOnly s (s.rise c) :=
  (attentionOnly_attention s { s.attention with asserted := s.attention.asserted ||| condBit c }).trans
    (attentionOnly_latch _ _)

theorem attentionOnly_fall (s : State) (c : Nat) : AttentionOnly s (s.fall c) := rfl

section
variable {s t : State} (h : AttentionOnly s t)
include h

theorem AttentionOnly.lanes : t.lanes = s.lanes := by rw [h]
theorem AttentionOnly.staging : t.staging = s.staging := by rw [h]
theorem AttentionOnly.slots : t.slots = s.slots := by rw [h]
theorem AttentionOnly.targets : t.targets = s.targets := by rw [h]
theorem AttentionOnly.pools : t.pools = s.pools := by rw [h]
theorem AttentionOnly.verify : t.verify = s.verify := by rw [h]
theorem AttentionOnly.freeEntries : t.freeEntries = s.freeEntries := by rw [h]
theorem AttentionOnly.freeReads : t.freeReads = s.freeReads := by rw [h]
theorem AttentionOnly.pending : t.pending = s.pending := by rw [h]
theorem AttentionOnly.stale : t.link.stale = s.link.stale := by rw [h]
theorem AttentionOnly.inService : t.link.inService = s.link.inService := by rw [h]
end

section
variable (s : State) (c : Nat)

@[simp] theorem latch_lanes : (s.latch c).lanes = s.lanes := (attentionOnly_latch s c).lanes
@[simp] theorem latch_staging : (s.latch c).staging = s.staging := (attentionOnly_latch s c).staging
@[simp] theorem latch_slots : (s.latch c).slots = s.slots := (attentionOnly_latch s c).slots
@[simp] theorem latch_targets : (s.latch c).targets = s.targets := (attentionOnly_latch s c).targets
@[simp] theorem latch_pools : (s.latch c).pools = s.pools := (attentionOnly_latch s c).pools
@[simp] theorem latch_verify : (s.latch c).verify = s.verify := (attentionOnly_latch s c).verify
@[simp] theorem latch_freeEntries : (s.latch c).freeEntries = s.freeEntries := (attentionOnly_latch s c).freeEntries
@[simp] theorem rise_lanes : (s.rise c).lanes = s.lanes := (attentionOnly_rise s c).lanes
@[simp] theorem rise_staging : (s.rise c).staging = s.staging := (attentionOnly_rise s c).staging
@[simp] theorem rise_slots : (s.rise c).slots = s.slots := (attentionOnly_rise s c).slots
@[simp] theorem rise_targets : (s.rise c).targets = s.targets := (attentionOnly_rise s c).targets
@[simp] theorem rise_pools : (s.rise c).pools = s.pools := (attentionOnly_rise s c).pools
@[simp] theorem rise_verify : (s.rise c).verify = s.verify := (attentionOnly_rise s c).verify
@[simp] theorem rise_freeEntries : (s.rise c).freeEntries = s.freeEntries := (attentionOnly_rise s c).freeEntries
@[simp] theorem fall_lanes : (s.fall c).lanes = s.lanes := rfl
@[simp] theorem fall_staging : (s.fall c).staging = s.staging := rfl
@[simp] theorem fall_slots : (s.fall c).slots = s.slots := rfl
@[simp] theorem fall_targets : (s.fall c).targets = s.targets := rfl
@[simp] theorem fall_pools : (s.fall c).pools = s.pools := rfl
@[simp] theorem fall_verify : (s.fall c).verify = s.verify := rfl
@[simp] theorem fall_freeEntries : (s.fall c).freeEntries = s.freeEntries := rfl
@[simp] theorem latch_take (n : LaneIx) : (s.latch c).take? n = s.take? n := by simp [State.take?]
@[simp] theorem rise_take (n : LaneIx) : (s.rise c).take? n = s.take? n := by simp [State.take?]
@[simp] theorem fall_take (n : LaneIx) : (s.fall c).take? n = s.take? n := rfl
@[simp] theorem latch_pool (t : TargetIx) : (s.latch c).pool t = s.pool t := by simp [State.pool]
@[simp] theorem rise_pool (t : TargetIx) : (s.rise c).pool t = s.pool t := by simp [State.pool]
@[simp] theorem fall_pool (t : TargetIx) : (s.fall c).pool t = s.pool t := rfl
@[simp] theorem latch_target (t : TargetIx) : (s.latch c).target t = s.target t := by simp [State.target]
@[simp] theorem rise_target (t : TargetIx) : (s.rise c).target t = s.target t := by simp [State.target]
@[simp] theorem fall_target (t : TargetIx) : (s.fall c).target t = s.target t := rfl
@[simp] theorem latch_slot (n : LaneIx) : (s.latch c).slot n = s.slot n := by simp [State.slot]
@[simp] theorem rise_slot (n : LaneIx) : (s.rise c).slot n = s.slot n := by simp [State.slot]
@[simp] theorem fall_slot (n : LaneIx) : (s.fall c).slot n = s.slot n := rfl
@[simp] theorem latch_segment (g : SegmentIx) : (s.latch c).segment g = s.segment g := by simp [State.segment]
@[simp] theorem rise_segment (g : SegmentIx) : (s.rise c).segment g = s.segment g := by simp [State.segment]
@[simp] theorem fall_segment (g : SegmentIx) : (s.fall c).segment g = s.segment g := rfl
end

/-! ### The entry of a lane into a state -/

/-- The take contexts after an entry. -/
theorem lanes_enter (s : State) (n : LaneIx) (st : TakeState) :
    (s.enter n st).lanes = (s.modifyTake n (·.inState st)).lanes := by
  unfold State.enter
  cases (s.laneState n).bind (laneLevel n) <;> cases laneLevel n st <;>
    simp [State.modifyTake, State.setLane, State.take?]

theorem take_enter (s : State) (n m : LaneIx) (st : TakeState) :
    (s.enter n st).take? m = if m = n then (s.take? n).map (·.inState st) else s.take? m := by
  have h : (s.enter n st).take? m = (s.modifyTake n (·.inState st)).take? m := by simp only [State.take?, lanes_enter]
  rw [h, take_modifyTake]

/-- An entry changes only the lane's take, the attention unit and the pending-notice flag. -/
theorem enter_rest (s : State) (n : LaneIx) (st : TakeState) :
    AttentionOnly (s.modifyTake n (·.inState st)) (s.enter n st) := by
  unfold State.enter
  cases (s.laneState n).bind (laneLevel n) <;> cases laneLevel n st
  · exact rfl
  · exact attentionOnly_rise _ _
  · exact rfl
  · rename_i c d
    exact (attentionOnly_attention (s.modifyTake n (·.inState st)) (s.fall c).attention).trans (attentionOnly_rise _ _)

section
variable (s : State) (n : LaneIx) (st : TakeState)

@[simp] theorem enter_staging : (s.enter n st).staging = s.staging := (enter_rest s n st).staging
@[simp] theorem enter_slots : (s.enter n st).slots = s.slots := (enter_rest s n st).slots
@[simp] theorem enter_targets : (s.enter n st).targets = s.targets := (enter_rest s n st).targets
@[simp] theorem enter_pools : (s.enter n st).pools = s.pools := (enter_rest s n st).pools
@[simp] theorem enter_verify : (s.enter n st).verify = s.verify := (enter_rest s n st).verify
@[simp] theorem enter_freeEntries : (s.enter n st).freeEntries = s.freeEntries := (enter_rest s n st).freeEntries
@[simp] theorem enter_slot (m : LaneIx) : (s.enter n st).slot m = s.slot m := by simp [State.slot]
@[simp] theorem enter_target (t : TargetIx) : (s.enter n st).target t = s.target t := by simp [State.target]
@[simp] theorem enter_pool (t : TargetIx) : (s.enter n st).pool t = s.pool t := by simp [State.pool]
@[simp] theorem enter_segment (g : SegmentIx) : (s.enter n st).segment g = s.segment g := by simp [State.segment]
@[simp] theorem enter_active (t : TargetIx) : (s.enter n st).active t = s.active t := by simp [State.active]
end

/-- The level left falls, the level entered rises. -/
theorem asserts_enter (s : State) (n : LaneIx) (st : TakeState) (v : Level) : (s.enter n st).asserts v
    = (s.asserts v && !decide ((s.laneState n).bind (Level.ofLane n) = some v) || decide (Level.ofLane n st = some v)) := by
  have old : (s.laneState n).bind (laneLevel n) = ((s.laneState n).bind (Level.ofLane n)).map Level.cond := by
    cases s.laneState n with
    | none => rfl
    | some a => exact laneLevel_eq n a
  unfold State.enter
  rw [old, laneLevel_eq]
  have fallen (u : State) (w : Level) : ((u.fall w.cond).modifyTake n (·.inState st)).asserts v
      = (u.asserts v && !decide (v = w)) := asserts_fall u w v
  cases (s.laneState n).bind (Level.ofLane n) <;> cases Level.ofLane n st <;>
    simp [asserts_rise, fallen, eq_comm] <;> rfl

end Sys2Proof.Machine
end

