-- ==== Sys2Proof/Proofs/Accounts.lean ====
section
/-! SUPPORT. What an operation keeps of the part's accounts: the levels, the ranges of the take contexts, the entry
store and the staging buffer (`Keeps`). An operation that leaves alone what the four speak of is `Quiet`, and keeps
them all. -/

namespace Sys2Proof.Machine

variable {given : Prop}

/-! ### What the accounts speak of -/

/-- The fields of a take context that the accounts speak of. -/
structure TakeContext where
  state : TakeState
  waitReason : Option WaitReason
  headHold : HeadHold
  targets : TargetSet
  k : Nat
  retries : Nat
  window : Nat
  snapshot : Option CardIdentity
  outcome : Option TakeOutcome
  cleared : Option Bool
  chunkRead : Option ChunkRead
  reading : Reading
  entries : Nat

def Take.context (t : Take) : TakeContext :=
  { state := t.state, waitReason := t.waitReason, headHold := t.headHold, targets := t.targets, k := t.k
    retries := t.retries, window := t.window, snapshot := t.snapshot, outcome := t.outcome, cleared := t.cleared
    chunkRead := t.chunkRead, reading := t.reading, entries := t.entries.length }

/-- The context of a lane's take. -/
def State.context? (s : State) (n : LaneIx) : Option TakeContext := (s.take? n).map Take.context

/-- The segments that the write orders of a lane name at a target, in order. -/
def State.orderSegments (s : State) (x : TargetIx) (n : LaneIx) : List SegmentIx :=
  ((s.target x).fifos[n]).map WriteOrder.segment

/-- From s to t nothing has changed that the accounts speak of. -/
structure Quiet (s t : State) : Prop where
  asserted : t.attention.asserted = s.attention.asserted
  freeEntries : t.freeEntries = s.freeEntries
  contexts : ∀ n, t.context? n = s.context? n
  staging : t.staging = s.staging
  states : ∀ x, (t.target x).state = (s.target x).state
  orders : ∀ x n, t.orderSegments x n = s.orderSegments x n
  shorts : ∀ x, (t.pool x).short = (s.pool x).short

theorem Quiet.refl (s : State) : Quiet s s := ⟨rfl, rfl, fun _ => rfl, rfl, fun _ => rfl, fun _ _ => rfl, fun _ => rfl⟩

theorem Quiet.trans {a b c : State} (h : Quiet a b) (k : Quiet b c) : Quiet a c :=
  ⟨k.asserted.trans h.asserted, k.freeEntries.trans h.freeEntries, fun n => (k.contexts n).trans (h.contexts n),
    k.staging.trans h.staging, fun x => (k.states x).trans (h.states x), fun x n => (k.orders x n).trans (h.orders x n),
    fun x => (k.shorts x).trans (h.shorts x)⟩

/-- A take of one state is a take of the other with the same context. -/
theorem take_of_context {s t : State} {n : LaneIx} (h : t.context? n = s.context? n) {a : Take}
    (k : t.take? n = some a) : ∃ b, s.take? n = some b ∧ a.context = b.context := by
  rw [State.context?, State.context?, k, Option.map_some, eq_comm, Option.map_eq_some_iff] at h
  obtain ⟨b, e, c⟩ := h
  exact ⟨b, e, c.symm⟩

theorem laneState_of_context {s t : State} {n : LaneIx} (h : t.context? n = s.context? n) :
    t.laneState n = s.laneState n := by
  have k (u : State) : u.laneState n = (u.context? n).map TakeContext.state := by
    simp [State.laneState, State.context?, Take.context, Function.comp_def]
  rw [k, k, h]

theorem entriesHeld_of_context {s t : State} {n : LaneIx} (h : t.context? n = s.context? n) :
    t.entriesHeld n = s.entriesHeld n := by
  have k (u : State) : u.entriesHeld n = ((u.context? n).map TakeContext.entries).getD 0 := by
    simp [State.entriesHeld, State.context?, Take.context, Function.comp_def]
  rw [k, k, h]

/-- Whether a take is in order depends on its context only. -/
theorem takeOk_of_context {a b : Take} (h : a.context = b.context) (k : b.Ok) : a.Ok := by
  simp only [Take.context, TakeContext.mk.injEq] at h
  obtain ⟨state, wait, hold, targets, kk, retries, window, snapshot, outcome, cleared, -⟩ := h
  constructor
  · rw [kk]; exact k.kLow
  · rw [kk, targets]; exact k.kHigh
  · rw [window]; exact k.window
  · rw [retries]; exact k.retries
  · rw [wait, state]; exact k.waitReason
  · rw [hold, state]; exact k.headHold
  · rw [state, snapshot]; exact k.snapshot
  · rw [outcome, state]; exact k.outcome
  · rw [cleared, state]; exact k.cleared
  · rw [cleared, outcome]; exact k.clearance

/-! ### The staging buffer's account with orders owed -/

/-- The orders that name a segment, counted over the segments the FIFOs name. -/
theorem ordersNaming_eq (s : State) (g : SegmentIx) :
    s.ordersNaming g = ∑ x, ∑ n, (s.orderSegments x n).count g := by
  simp only [State.ordersNaming, State.orderSegments, Fin.sum_univ_def, allTargets, allLanes, List.count,
    List.countP_map]
  rfl

/-- The account of the staging buffer while the orders of a list of segments have left their FIFOs and are not
counted down yet. -/
structure State.Owing (s : State) (l : List SegmentIx) : Prop where
  outstanding : ∀ g u k, s.segment g = .sending u k → k = ∑ x, ∑ n, (s.orderSegments x n).count g + l.count g
  owed : ∀ g ∈ l, ∃ u k, s.segment g = .sending u k
  orders : ∀ x n, ∀ g ∈ s.orderSegments x n, ∃ u k, s.segment g = .sending u k ∧ u.owner = n
  once : ∀ x n, (s.orderSegments x n).Nodup
  reads : ∀ n t cr, s.take? n = some t → t.chunkRead = some cr → ∃ u d, s.segment cr.segment = .filling u d ∧ u.owner = n
  window : ∀ n t, s.take? n = some t → heldSegments s n ≤ t.window
  noneFree : s.staging.waiting ≠ [] → ∀ g, s.segment g ≠ .free
  inOnce : s.staging.waiting.Nodup
  waiting : ∀ n ∈ s.staging.waiting, ∃ t, s.take? n = some t ∧ t.chunkRead = none ∧ t.reading ≠ .none
    ∧ heldSegments s n < t.window
    ∧ (t.state = .waiting ∧ t.waitReason = some .segments ∨ t.state = .stopping ∨ t.state = .draining)
  resting : ∀ n, s.resting n → heldSegments s n = 0

/-- The account is in order when nothing is owed. -/
theorem stagingOk_iff (s : State) : s.StagingOk ↔ s.Owing [] := by
  constructor
  · intro h
    refine ⟨fun g u k e => ?_, by simp, fun x n g m => ?_, h.once, h.reads, h.window, h.noneFree, h.inOnce, h.waiting,
      h.resting⟩
    · simpa [← ordersNaming_eq] using h.outstanding g u k e
    · obtain ⟨o, mem, rfl⟩ := List.mem_map.1 m
      exact h.orders x n o mem
  · intro h
    refine ⟨fun g u k e => ?_, fun x n o m => h.orders x n o.segment (List.mem_map_of_mem m), h.once, h.reads, h.window,
      h.noneFree, h.inOnce, h.waiting, h.resting⟩
    simpa [← ordersNaming_eq] using h.outstanding g u k e

theorem heldSegments_of_staging {s t : State} (h : t.staging = s.staging) (n : LaneIx) :
    heldSegments t n = heldSegments s n := by simp [heldSegments, h]

theorem segment_of_staging {s t : State} (h : t.staging = s.staging) (g : SegmentIx) : t.segment g = s.segment g := by
  simp [State.segment, h]

theorem resting_of_context {s t : State} {n : LaneIx} (h : t.context? n = s.context? n) : t.resting n ↔ s.resting n := by
  simp [State.resting, laneState_of_context h]

/-- The staging buffer's account speaks of the take contexts, the staging buffer and the orders' segments only. -/
theorem State.Owing.of_same {s t : State} {l : List SegmentIx} (k : s.Owing l)
    (contexts : ∀ n, t.context? n = s.context? n) (staging : t.staging = s.staging)
    (orders : ∀ x n, t.orderSegments x n = s.orderSegments x n) : t.Owing l := by
  have seg := segment_of_staging staging
  have held := heldSegments_of_staging staging
  refine ⟨?_, ?_, ?_, ?_, ?_, ?_, ?_, ?_, ?_, ?_⟩
  · intro g u c e
    simpa only [orders] using k.outstanding g u c ((seg g).symm.trans e)
  · exact fun g m => by simpa only [seg] using k.owed g m
  · exact fun x n g m => by simpa only [seg] using k.orders x n g (orders x n ▸ m)
  · exact fun x n => orders x n ▸ k.once x n
  · intro n t cr e c
    obtain ⟨b, e', ctx⟩ := take_of_context (contexts n) e
    simpa only [seg] using k.reads n b cr e' ((congrArg TakeContext.chunkRead ctx).symm.trans c)
  · intro n t e
    obtain ⟨b, e', ctx⟩ := take_of_context (contexts n) e
    have w : t.window = b.window := congrArg TakeContext.window ctx
    rw [held, w]
    exact k.window n b e'
  · exact fun w g => by simpa only [seg] using k.noneFree (by rwa [← staging]) g
  · exact staging ▸ k.inOnce
  · intro n m
    obtain ⟨b, e, read, going, room, st⟩ := k.waiting n (staging ▸ m)
    obtain ⟨a, e', ctx⟩ := take_of_context (contexts n).symm e
    simp only [Take.context, TakeContext.mk.injEq] at ctx
    obtain ⟨state, wait, -, -, -, -, window, -, -, -, chunk, reading, -⟩ := ctx
    exact ⟨a, e', chunk ▸ read, reading ▸ going, by rw [held, ← window]; exact room, by rw [← state, ← wait]; exact st⟩
  · exact fun n r => by rw [held]; exact k.resting n ((resting_of_context (contexts n)).1 r)

theorem stagingOk_of_same {s t : State} (contexts : ∀ n, t.context? n = s.context? n) (staging : t.staging = s.staging)
    (orders : ∀ x n, t.orderSegments x n = s.orderSegments x n) (k : s.StagingOk) : t.StagingOk :=
  (stagingOk_iff t).2 (((stagingOk_iff s).1 k).of_same contexts staging orders)

/-! ### Keeping the accounts -/

/-- An operation keeps the levels true, the takes in range, and the accounts of the entry store and, given a fact, of
the staging buffer. -/
structure Keeps (given : Prop) (s t : State) : Prop where
  levels : s.LevelsOk → t.LevelsOk
  takes : s.TakesOk → t.TakesOk
  store : s.StoreOk → t.StoreOk
  staging : given → s.StagingOk → t.StagingOk

theorem Keeps.refl (s : State) : Keeps given s s := ⟨id, id, id, fun _ => id⟩

theorem Keeps.trans {a b c : State} (h : Keeps given a b) (k : Keeps given b c) : Keeps given a c :=
  ⟨k.levels ∘ h.levels, k.takes ∘ h.takes, k.store ∘ h.store, fun g => k.staging g ∘ h.staging g⟩

/-- Facts that hold where the staging buffer's account is in order at the start may be used on the way. -/
theorem Keeps.of_given {s t : State} (h : Keeps s.StagingOk s t) : Keeps given s t :=
  ⟨h.levels, h.takes, h.store, fun _ k => h.staging k k⟩

theorem keeps_foldl {α : Type} {f : State → α → State} (h : ∀ s x, Keeps given s (f s x)) :
    ∀ (xs : List α) (s : State), Keeps given s (xs.foldl f s)
  | [], s => .refl s
  | x :: xs, s => (h s x).trans (keeps_foldl h xs _)

/-- The entry store's account is kept by what keeps the free count and each take's number of entries. -/
theorem storeOk_same {s t : State} (free : t.freeEntries = s.freeEntries)
    (held : ∀ n, t.entriesHeld n = s.entriesHeld n) (k : s.StoreOk) : t.StoreOk :=
  ⟨by rw [free, funext held]; exact k.total, fun n => by rw [held]; exact k.each n⟩

theorem LaneFrame.storeOk {s t : State} (h : LaneFrame s t) : s.StoreOk → t.StoreOk := by
  refine storeOk_same h.freeEntries fun n => ?_
  have k := h.takes n
  unfold State.entriesHeld
  cases e : s.take? n with
  | none => rw [e] at k; rw [show t.take? n = none from k]
  | some a =>
    rw [e] at k
    obtain ⟨b, e', kept⟩ := k
    simp [e', kept.entries]

theorem Quiet.holds {s t : State} (h : Quiet s t) (v : Level) : t.holds v ↔ s.holds v := by
  cases v <;> simp only [State.holds, laneState_of_context (h.contexts _), h.states, h.shorts, h.staging]

theorem Quiet.takesOk {s t : State} (h : ∀ n, t.context? n = s.context? n) (k : s.TakesOk) : t.TakesOk := by
  intro n a e
  obtain ⟨b, e', ctx⟩ := take_of_context (h n) e
  exact takeOk_of_context ctx (k n b e')

theorem Quiet.keeps {s t : State} (h : Quiet s t) : Keeps given s t where
  levels := levels_same h.asserted h.holds
  takes := Quiet.takesOk h.contexts
  store := storeOk_same h.freeEntries fun n => entriesHeld_of_context (h.contexts n)
  staging _ := stagingOk_of_same h.contexts h.staging h.orders

/-! ### Operations that are quiet -/

/-- What the accounts do not speak of may change: link, slots, verify unit, latches, the parts of targets and pools
beside states, FIFOs and short lists. -/
theorem Quiet.of_parts {s t : State} (asserted : t.attention.asserted = s.attention.asserted)
    (free : t.freeEntries = s.freeEntries) (lanes : t.lanes = s.lanes) (staging : t.staging = s.staging)
    (states : ∀ x, (t.target x).state = (s.target x).state) (fifos : ∀ x, (t.target x).fifos = (s.target x).fifos)
    (shorts : ∀ x, (t.pool x).short = (s.pool x).short) : Quiet s t :=
  ⟨asserted, free, fun n => by simp [State.context?, State.take?, lanes], staging, states,
    fun x n => by simp [State.orderSegments, fifos], shorts⟩

theorem quiet_link (s : State) (l : Link) : Quiet s { s with link := l } :=
  .of_parts rfl rfl rfl rfl (fun _ => rfl) (fun _ => rfl) fun _ => rfl

theorem quiet_setSlot (s : State) (n : LaneIx) (x : Slot) : Quiet s (s.setSlot n x) :=
  .of_parts rfl rfl rfl rfl (fun _ => rfl) (fun _ => rfl) fun _ => rfl

theorem quiet_verify (s : State) (v : VerifyUnit) : Quiet s { s with verify := v } :=
  .of_parts rfl rfl rfl rfl (fun _ => rfl) (fun _ => rfl) fun _ => rfl

theorem quiet_setActive (s : State) (x : TargetIx) (v : Option Verification) : Quiet s (s.setActive x v) :=
  quiet_verify s _

theorem quiet_latch (s : State) (c : Nat) : Quiet s (s.latch c) :=
  .of_parts (asserted_latch s c) (by simp) (by simp) (by simp) (by simp) (by simp) (by simp)

theorem quiet_attention (s : State) (a : Attention) (h : a.asserted = s.attention.asserted) :
    Quiet s { s with attention := a } := .of_parts h rfl rfl rfl (fun _ => rfl) (fun _ => rfl) fun _ => rfl

theorem quiet_answerClamped (s : State) (c : Bool) (st : Status) (b : List Byte) : Quiet s (s.answerClamped c st b) := by
  unfold State.answerClamped
  split
  · exact .refl s
  · exact quiet_link s _

theorem quiet_modifyTarget (s : State) (t : TargetIx) (f : Target → Target) (st : (f (s.target t)).state = (s.target t).state)
    (fifos : (f (s.target t)).fifos = (s.target t).fifos) : Quiet s (s.modifyTarget t f) := by
  refine .of_parts rfl rfl rfl rfl (fun x => ?_) (fun x => ?_) fun _ => rfl <;>
    rw [modifyTarget_eq, target_setTarget] <;> split <;> simp_all

theorem quiet_modifyPool (s : State) (t : TargetIx) (f : Pool → Pool) (h : (f (s.pool t)).short = (s.pool t).short) :
    Quiet s (s.modifyPool t f) := by
  refine .of_parts rfl rfl rfl rfl (fun _ => rfl) (fun _ => rfl) fun x => ?_
  rw [modifyPool_eq, pool_setPool]
  split <;> simp_all

theorem context_modifyTake (s : State) (n m : LaneIx) (f : Take → Take) : (s.modifyTake n f).context? m
    = if m = n then (s.take? n).map (fun t => (f t).context) else s.context? m := by
  unfold State.context?
  rw [take_modifyTake]
  split <;> simp [Function.comp_def]

theorem quiet_modifyTake (s : State) (n : LaneIx) {f : Take → Take} (h : ∀ t : Take, (f t).context = t.context) :
    Quiet s (s.modifyTake n f) := by
  refine ⟨rfl, rfl, fun m => ?_, rfl, fun _ => rfl, fun _ _ => rfl, fun _ => rfl⟩
  rw [context_modifyTake]
  split
  · subst_vars; simp only [h]; rfl
  · rfl

theorem quiet_modifyFile (s : State) (n : LaneIx) (e : Nat) (f : FileEntry → FileEntry) : Quiet s (s.modifyFile n e f) :=
  quiet_modifyTake s n fun t => by simp [Take.context, Take.modifyFile]

theorem quiet_modifyCopy (s : State) (n : LaneIx) (e : Nat) (x : TargetIx) (g : CopyRecord → CopyRecord) :
    Quiet s (s.modifyCopy n e x g) := quiet_modifyFile s n e _

end Sys2Proof.Machine
end

