-- ==== Sys2Proof/Proofs/LaneEntries.lean ====
section
/-! SUPPORT. The entry of a lane into a state, its head hold, its close, and the sets whose being non-empty is a level:
each keeps the accounts. -/

namespace Sys2Proof.Machine

variable {given : Prop}

/-! ### A lane's take changes: the staging buffer's account -/

theorem laneState_of_take {s : State} {n : LaneIx} {t : Take} (h : s.take? n = some t) : s.laneState n = some t.state := by
  simp [State.laneState, h]

theorem laneState_setLane (s : State) (n m : LaneIx) (x : Option Take) :
    (s.setLane n x).laneState m = if m = n then x.map Take.state else s.laneState m := by
  simp only [State.laneState, take_setLane]
  split <;> rfl

/-- A lane's take is replaced: what the account then asks of the new take. -/
theorem State.Owing.setLane {s : State} {l : List SegmentIx} {n : LaneIx} {b : Take} (k : s.Owing l)
    (reads : ∀ cr, b.chunkRead = some cr → ∃ u d, s.segment cr.segment = .filling u d ∧ u.owner = n)
    (window : heldSegments s n ≤ b.window)
    (waiting : n ∈ s.staging.waiting → b.chunkRead = none ∧ b.reading ≠ .none ∧ heldSegments s n < b.window
      ∧ (b.state = .waiting ∧ b.waitReason = some .segments ∨ b.state = .stopping ∨ b.state = .draining))
    (resting : b.state = .opened ∨ b.state = .closed → heldSegments s n = 0) : (s.setLane n (some b)).Owing l where
  outstanding := k.outstanding
  owed := k.owed
  orders := k.orders
  once := k.once
  reads m t cr e c := by
    rw [take_setLane] at e
    split at e
    · cases e; subst_vars; exact reads cr c
    · exact k.reads m t cr e c
  window m t e := by
    rw [take_setLane] at e
    split at e
    · cases e; subst_vars; exact window
    · exact k.window m t e
  noneFree := k.noneFree
  inOnce := k.inOnce
  waiting m w := by
    rw [take_setLane]
    split
    · subst_vars
      exact ⟨b, rfl, waiting w⟩
    · exact k.waiting m w
  resting m r := by
    simp only [State.resting, laneState_setLane] at r
    split at r
    · subst_vars
      exact resting (by simpa using r)
    · exact k.resting m r

/-- A lane that is not waiting for a segment changes in anything but its chunk read and its window. -/
theorem stagingOk_modifyTake {s : State} {n : LaneIx} {f : Take → Take}
    (chunk : ∀ t, s.take? n = some t → (f t).chunkRead = t.chunkRead ∨ (f t).chunkRead = none)
    (window : ∀ t : Take, (f t).window = t.window) (out : n ∉ s.staging.waiting)
    (resting : ∀ t, s.take? n = some t → (f t).state = .opened ∨ (f t).state = .closed → heldSegments s n = 0)
    (k : s.StagingOk) : (s.modifyTake n f).StagingOk := by
  cases e : s.take? n with
  | none => rwa [modifyTake_of_idle _ _ _ e]
  | some t =>
    rw [modifyTake_of_take _ _ _ e, stagingOk_iff]
    rw [stagingOk_iff] at k
    refine k.setLane (fun cr c => ?_) (by rw [window]; exact k.window n t e) (fun m => absurd m out) (resting t e)
    rcases chunk t e with h | h
    · exact k.reads n t cr e (h ▸ c)
    · rw [h] at c; cases c

/-- A lane's take changes in nothing the account speaks of. -/
theorem stagingOk_modifyTake_same {s : State} {n : LaneIx} {f : Take → Take}
    (chunk : ∀ t : Take, (f t).chunkRead = t.chunkRead) (window : ∀ t : Take, (f t).window = t.window)
    (reading : ∀ t : Take, (f t).reading = t.reading) (state : ∀ t : Take, (f t).state = t.state)
    (wait : ∀ t : Take, (f t).waitReason = t.waitReason) (k : s.StagingOk) : (s.modifyTake n f).StagingOk := by
  cases e : s.take? n with
  | none => rwa [modifyTake_of_idle _ _ _ e]
  | some t =>
    rw [modifyTake_of_take _ _ _ e, stagingOk_iff]
    rw [stagingOk_iff] at k
    refine k.setLane ?_ (by rw [window]; exact k.window n t e) ?_ ?_
    · exact fun cr c => k.reads n t cr e (chunk t ▸ c)
    · intro m
      obtain ⟨t', e', h⟩ := k.waiting n m
      obtain rfl : t' = t := by simpa [e] using e'.symm
      simpa [chunk, reading, window, state, wait] using h
    · exact fun r => k.resting n (by simpa [State.resting, laneState_of_take e, state] using r)

theorem takesOk_modifyTake {s : State} {n : LaneIx} {f : Take → Take}
    (h : ∀ t, s.take? n = some t → t.Ok → (f t).Ok) (k : s.TakesOk) : (s.modifyTake n f).TakesOk := by
  intro m t e
  rw [take_modifyTake] at e
  split at e
  · subst_vars
    obtain ⟨a, e', rfl⟩ := Option.map_eq_some_iff.1 e
    exact h a e' (k m a e')
  · exact k m t e

/-- A lane keeps its state. -/
theorem levelsOk_modifyTake {s : State} {n : LaneIx} {f : Take → Take} (h : ∀ t : Take, (f t).state = t.state)
    (k : s.LevelsOk) : (s.modifyTake n f).LevelsOk := by
  refine levels_same (s := s) rfl (fun v => ?_) k
  have lane (m : LaneIx) : (s.modifyTake n f).laneState m = s.laneState m := by
    simp only [State.laneState, take_modifyTake]
    split
    · subst_vars; cases s.take? m <;> simp [h]
    · rfl
  cases v <;> simp only [State.holds, lane] <;> exact Iff.rfl

/-- What only the attention unit's change leaves in order. -/
theorem AttentionOnly.same {s t : State} (h : AttentionOnly s t) :
    (∀ n, t.context? n = s.context? n) ∧ t.staging = s.staging ∧ ∀ x n, t.orderSegments x n = s.orderSegments x n :=
  ⟨fun n => by simp [State.context?, State.take?, h.lanes], h.staging,
    fun x n => by simp [State.orderSegments, State.target, h.targets]⟩

theorem AttentionOnly.stagingOk {s t : State} (h : AttentionOnly s t) (k : s.StagingOk) : t.StagingOk :=
  stagingOk_of_same h.same.1 h.same.2.1 h.same.2.2 k

theorem AttentionOnly.takesOk {s t : State} (h : AttentionOnly s t) (k : s.TakesOk) : t.TakesOk :=
  Quiet.takesOk h.same.1 k

/-! ### A lane enters a state -/

/-- The states an entry by `State.enter` alone leaves in order: an entry to WAITING names a reason beside it, an entry
to CLOSED is judged, and no lane goes back to OPEN. -/
def TakeState.underWay : TakeState → Bool
  | .opened => false
  | .waiting => false
  | .closed => false
  | _ => true

theorem holds_enter {s : State} {n : LaneIx} {t : Take} (h : s.take? n = some t) (st : TakeState) (v : Level) :
    (s.enter n st).holds v ↔ s.holds v ∧ (s.laneState n).bind (Level.ofLane n) ≠ some v ∨ Level.ofLane n st = some v := by
  have lane (m : LaneIx) : (s.enter n st).laneState m = if m = n then some st else s.laneState m := by
    simp only [State.laneState, take_enter, h]
    split <;> rfl
  have here : s.laneState n = some t.state := laneState_of_take h
  have level (a : TakeState) (m : LaneIx) (b : TakeState) (w : LaneIx → Level)
      (hw : ∀ c i, Level.ofLane n c = some (w i) ↔ n = i ∧ c = b) :
      (if m = n then some a else s.laneState m) = some b
        ↔ s.laneState m = some b ∧ Level.ofLane n t.state ≠ some (w m) ∨ Level.ofLane n a = some (w m) := by
    rw [Ne, hw, hw]
    by_cases e : m = n
    · subst e; simp [here]
    · simp [e, Ne.symm e]
  have ofLane (c : TakeState) (i : LaneIx) : (Level.ofLane n c = some (.waiting i) ↔ n = i ∧ c = .waiting)
      ∧ (Level.ofLane n c = some (.suspended i) ↔ n = i ∧ c = .suspended)
      ∧ (Level.ofLane n c = some (.starved i) ↔ n = i ∧ c = .starved) := by cases c <;> simp [Level.ofLane]
  have other (c : TakeState) : (∀ x, Level.ofLane n c ≠ some (.fault x)) ∧ (∀ x, Level.ofLane n c ≠ some (.short x))
      ∧ Level.ofLane n c ≠ some .dry := by cases c <;> simp [Level.ofLane]
  rw [here, Option.bind_some]
  cases v with
  | waiting m => simpa only [State.holds, lane] using level st m _ Level.waiting fun c i => (ofLane c i).1
  | suspended m => simpa only [State.holds, lane] using level st m _ Level.suspended fun c i => (ofLane c i).2.1
  | starved m => simpa only [State.holds, lane] using level st m _ Level.starved fun c i => (ofLane c i).2.2
  | fault x => simp [State.holds, other]
  | short x => simp [State.holds, other]
  | dry => simp [State.holds, other]

theorem levelsOk_enter {s : State} {n : LaneIx} {t : Take} (h : s.take? n = some t) (st : TakeState) (k : s.LevelsOk) :
    (s.enter n st).LevelsOk := by
  rw [levelsOk_iff] at k ⊢
  intro v
  rw [asserts_enter, holds_enter h, ← k v]
  simp

theorem takeOk_inState {t : Take} (k : t.Ok) (live : t.state ≠ .closed) {st : TakeState} (go : st.underWay = true) :
    (t.inState st).Ok where
  kLow := k.kLow
  kHigh := k.kHigh
  window := k.window
  retries := k.retries
  waitReason := by cases st <;> simp_all [Take.inState, TakeState.underWay]
  headHold := fun e => by simp only [Take.inState] at e ⊢; simp [e]
  snapshot := by cases st <;> simp_all [Take.inState, TakeState.underWay]
  outcome := by cases st <;> simp_all [Take.inState, TakeState.underWay, k.outcome]
  cleared := by cases st <;> simp_all [Take.inState, TakeState.underWay, k.cleared]
  clearance := k.clearance

theorem stagingOk_enter {s : State} {n : LaneIx} {st : TakeState} (go : st ≠ .opened ∧ st ≠ .closed)
    (out : n ∉ s.staging.waiting ∨ st = .stopping) (k : s.StagingOk) : (s.enter n st).StagingOk := by
  refine (enter_rest s n st).stagingOk ?_
  cases e : s.take? n with
  | none => rwa [modifyTake_of_idle _ _ _ e]
  | some t =>
    rw [modifyTake_of_take _ _ _ e, stagingOk_iff]
    rw [stagingOk_iff] at k
    refine k.setLane (fun cr c => k.reads n t cr e c) (k.window n t e) (fun m => ?_)
      (fun r => by simp [Take.inState, go] at r)
    obtain ⟨t', e', chunk, reading, room, -⟩ := k.waiting n m
    obtain rfl : t' = t := by simpa [e] using e'.symm
    exact ⟨chunk, reading, room, .inr (.inl (out.resolve_left (not_not_intro m)))⟩

theorem keeps_enter {s : State} {n : LaneIx} {t : Take} {st : TakeState} (h : s.take? n = some t)
    (live : t.state ≠ .closed) (go : st.underWay = true) (out : given → s.StagingOk → n ∉ s.staging.waiting ∨ st = .stopping) :
    Keeps given s (s.enter n st) where
  levels := levelsOk_enter h st
  takes k := (enter_rest s n st).takesOk (takesOk_modifyTake (fun a e ok => by
    obtain rfl : t = a := by simpa [h] using e
    exact takeOk_inState ok live go) k)
  store := (frame_enter s n st).storeOk
  staging g k := stagingOk_enter (by cases st <;> simp_all [TakeState.underWay]) (out g k) k

theorem takeOk_waiting {t : Take} (k : t.Ok) (live : t.state ≠ .closed) (r : WaitReason) :
    ({ t.inState .waiting with waitReason := some r } : Take).Ok where
  kLow := k.kLow
  kHigh := k.kHigh
  window := k.window
  retries := k.retries
  waitReason := by simp [Take.inState]
  headHold := fun _ => rfl
  snapshot := by simp [Take.inState]
  outcome := by simp [Take.inState, k.outcome, live]
  cleared := by simp [Take.inState, k.cleared, live]
  clearance := k.clearance

/-- The take contexts after an entry to WAITING. -/
theorem take_enterWaiting (s : State) (n m : LaneIx) (r : WaitReason) : (s.enterWaiting n r).take? m
    = if m = n then (s.take? n).map (fun t => { t.inState .waiting with waitReason := some r }) else s.take? m := by
  simp only [State.enterWaiting, take_modifyTake, take_enter, if_true]
  split <;> simp [Function.comp_def]

theorem takesOk_enterWaiting {s : State} {n : LaneIx} {t : Take} (h : s.take? n = some t) (live : t.state ≠ .closed)
    (r : WaitReason) (k : s.TakesOk) : (s.enterWaiting n r).TakesOk := by
  intro m a e
  rw [take_enterWaiting] at e
  split at e
  · subst_vars
    rw [h] at e
    cases e
    exact takeOk_waiting (k m t h) live r
  · exact k m a e

theorem levelsOk_enterWaiting {s : State} {n : LaneIx} {t : Take} (h : s.take? n = some t) (r : WaitReason)
    (k : s.LevelsOk) : (s.enterWaiting n r).LevelsOk :=
  levelsOk_modifyTake (fun _ => rfl) (levelsOk_enter h .waiting k)

theorem keeps_enterWaiting {s : State} {n : LaneIx} {t : Take} (h : s.take? n = some t) (live : t.state ≠ .closed)
    (r : WaitReason) (out : given → s.StagingOk → n ∉ s.staging.waiting) : Keeps given s (s.enterWaiting n r) where
  levels := levelsOk_enterWaiting h r
  takes := takesOk_enterWaiting h live r
  store := (frame_enterWaiting s n r).storeOk
  staging g k := by
    refine stagingOk_modifyTake (fun _ _ => .inl rfl) (fun _ => rfl) (by simpa using out g k) (fun a e rest => ?_)
      (stagingOk_enter (by simp) (.inl (out g k)) k)
    rw [take_enter, if_pos rfl, h] at e
    cases e
    simp [Take.inState] at rest

/-- The head hold changes where it may stand, or becomes none. -/
theorem keeps_setHold {s : State} {n : LaneIx} {t : Take} {x : HeadHold} (h : s.take? n = some t)
    (may : t.state.keepsHold = true ∨ x = .none) : Keeps given s (s.setHold n x) where
  levels := levelsOk_modifyTake fun _ => rfl
  takes := takesOk_modifyTake fun a e ok => by
    obtain rfl : t = a := by simpa [h] using e
    exact { ok with
      headHold := fun low => by
        rcases may with m | m
        · have : t.state.keepsHold = false := low
          simp [this] at m
        · exact m }
  store := (frame_setHold s n x).storeOk
  staging _ := stagingOk_modifyTake_same (fun _ => rfl) (fun _ => rfl) (fun _ => rfl) (fun _ => rfl) fun _ => rfl

/-! ### A lane closes -/

theorem takeOk_closed {t : Take} (k : t.Ok) (o : TakeOutcome) : ((t.judged o).inState .closed).Ok where
  kLow := k.kLow
  kHigh := k.kHigh
  window := k.window
  retries := k.retries
  waitReason := by simp [Take.inState]
  headHold := fun _ => rfl
  snapshot := by simp [Take.inState]
  outcome := by simp [Take.inState, Take.judged]
  cleared := by simp [Take.inState, Take.judged]
  clearance := by simp [Take.inState, Take.judged]; exact fun e _ => e

/-- The take contexts after a close. -/
theorem take_closeTake (s : State) (n m : LaneIx) (o : TakeOutcome) : (s.closeTake n o).take? m
    = if m = n then (s.take? n).map (fun t => (t.judged o).inState .closed) else s.take? m := by
  simp only [State.closeTake, latch_take, take_enter, take_modifyTake, if_true]
  split <;> simp [Function.comp_def]

theorem keeps_closeTake {s : State} {n : LaneIx} {t : Take} (h : s.take? n = some t) (o : TakeOutcome)
    (clear : given → s.StagingOk → n ∉ s.staging.waiting ∧ heldSegments s n = 0) : Keeps given s (s.closeTake n o) where
  levels k := by
    have e : (s.modifyTake n (·.judged o)).take? n = some (t.judged o) := by simp [take_modifyTake, h]
    exact ((quiet_latch _ _).keeps (given := True)).levels (levelsOk_enter e .closed (levelsOk_modifyTake (fun _ => rfl) k))
  takes k := by
    intro m a e
    rw [take_closeTake] at e
    split at e
    · subst_vars
      rw [h] at e
      cases e
      exact takeOk_closed (k m t h) o
    · exact k m a e
  store := (frame_closeTake s n o).storeOk
  staging g k := by
    obtain ⟨out, held⟩ := clear g k
    have judged := stagingOk_modifyTake (f := (·.judged o)) (fun _ _ => .inl rfl) (fun _ => rfl) out (fun _ _ _ => held) k
    refine ((quiet_latch _ _).keeps (given := True)).staging trivial ((enter_rest _ n .closed).stagingOk ?_)
    exact stagingOk_modifyTake (fun _ _ => .inl rfl) (fun _ => rfl) out (fun _ _ _ => held) judged

/-! ### The short lists and the waiting lanes -/

@[simp] theorem asserts_modifyPool (s : State) (t : TargetIx) (f : Pool → Pool) (v : Level) :
    (s.modifyPool t f).asserts v = s.asserts v := rfl

/-- A pool's short list changes, and its level with it. -/
theorem keeps_short {s u : State} (t : TargetIx) (short : List LaneIx)
    (rest : AttentionOnly (s.modifyPool t fun p => { p with short := short }) u)
    (levels : s.LevelsOk → ∀ v, u.asserts v = if v = .short t then decide (short ≠ []) else s.asserts v) : Keeps given s u where
  levels k := by
    have pool (x : TargetIx) : (u.pool x).short = if x = t then short else (s.pool x).short := by
      simp only [State.pool, rest.pools]
      show (State.pool (s.modifyPool t _) x).short = _
      rw [modifyPool_eq, pool_setPool]
      split <;> rfl
    have h := levels k
    rw [levelsOk_iff] at k ⊢
    intro v
    rw [h v]
    cases v with
    | short x => simp [State.holds, pool]; split <;> simp_all [k (.short x), State.holds]
    | _ =>
      simp only [reduceCtorEq, if_false, k]
      simp only [State.holds, State.laneState, State.take?, State.target, rest.lanes, rest.targets, rest.staging]
      exact Iff.rfl
  takes k := rest.takesOk (Quiet.takesOk (s := s) (fun _ => rfl) k)
  store := storeOk_same rest.freeEntries fun n => entriesHeld_of_context (rest.same.1 n)
  staging _ k := rest.stagingOk (stagingOk_of_same (s := s) (fun _ => rfl) rfl (fun _ _ => rfl) k)

theorem keeps_joinShort (s : State) (t : TargetIx) (n : LaneIx) : Keeps given s (s.joinShort t n) := by
  unfold State.joinShort
  split
  · exact .refl s
  · simp only [List.isEmpty_iff]
    split
    · refine keeps_short t ((s.pool t).short ++ [n]) (attentionOnly_rise _ _) fun _ v => ?_
      rw [show condPoolShort t = (Level.short t).cond from rfl, asserts_rise]
      by_cases e : v = .short t <;> simp [e]
    · rename_i ne
      refine keeps_short t ((s.pool t).short ++ [n]) (.refl _) fun k v => ?_
      by_cases e : v = .short t
      · simpa [e] using ((levelsOk_iff s).1 k (.short t)).2 ne
      · simp [e]

theorem keeps_leaveShort (s : State) (t : TargetIx) (n : LaneIx) : Keeps given s (s.leaveShort t n) := by
  unfold State.leaveShort
  split
  · simp only [List.isEmpty_iff]
    split
    · rename_i empty
      refine keeps_short t ((s.pool t).short.erase n) (attentionOnly_fall _ _) fun _ v => ?_
      rw [show condPoolShort t = (Level.short t).cond from rfl, asserts_fall]
      by_cases e : v = .short t <;> simp [e, empty]
    · rename_i mem ne
      refine keeps_short t ((s.pool t).short.erase n) (.refl _) fun k v => ?_
      by_cases e : v = .short t
      · subst e
        have some_ : (s.pool t).short ≠ [] := fun e => by simp [e] at mem
        simpa [ne] using ((levelsOk_iff s).1 k (.short t)).2 some_
      · simp [e]
  · exact .refl s

end Sys2Proof.Machine
end

