-- ==== Sys2Proof/Proofs/StagingAccount.lean ====
section
/-! SUPPORT. The operations of the staging buffer keep its account: waiting lanes, segments claimed, filled, sent,
counted down and freed, write orders placed and withdrawn. -/

namespace Sys2Proof.Machine

variable {given : Prop}

/-! ### Small facts -/

/-- Keeping the accounts, for an operation that leaves levels, takes and waiting lanes alone. -/
theorem Keeps.of_buffer {s t : State} (asserted : t.attention.asserted = s.attention.asserted)
    (free : t.freeEntries = s.freeEntries) (contexts : ∀ n, t.context? n = s.context? n)
    (waiting : t.staging.waiting = s.staging.waiting) (states : ∀ x, (t.target x).state = (s.target x).state)
    (shorts : ∀ x, (t.pool x).short = (s.pool x).short) (staging : given → s.StagingOk → t.StagingOk) : Keeps given s t where
  levels := levels_same asserted fun v => by
    cases v <;> simp only [State.holds, laneState_of_context (contexts _), states, shorts, waiting]
  takes := Quiet.takesOk contexts
  store := storeOk_same free fun n => entriesHeld_of_context (contexts n)
  staging := staging

theorem forEach_state {α : Type} (f : α → State → Work) (xs : List α) (s : State) :
    (forEach xs f s).1 = xs.foldl (fun s x => (f x s).1) s := by
  have fold : ∀ (xs : List α) (w : Work),
      (xs.foldl (fun w x => w.andThen (f x)) w).1 = xs.foldl (fun s x => (f x s).1) w.1 := by
    intro xs
    induction xs with
    | nil => exact fun _ => rfl
    | cons x xs ih => exact fun w => ih (w.andThen (f x))
  exact fold xs (s, [])

/-- A lane's held segments after one segment has changed. -/
theorem heldSegments_setSegment (s : State) (g : SegmentIx) (x : Segment) (n : LaneIx) :
    heldSegments (s.setSegment g x) n + (if (s.segment g).owner? = some n then 1 else 0)
      = heldSegments s n + (if x.owner? = some n then 1 else 0) := by
  have lt : g.val < s.staging.segments.toList.length := by simp
  have here : s.staging.segments.toList[g.val]'lt = s.segment g := by simp [State.segment]
  have pos : (if (s.segment g).owner? = some n then 1 else 0) ≤ heldSegments s n := by
    split
    · rename_i h
      refine List.countP_pos_iff.2 ⟨s.segment g, ?_, by simpa using h⟩
      rw [← here]
      exact List.getElem_mem lt
    · exact Nat.zero_le _
  have set : heldSegments (s.setSegment g x) n = heldSegments s n - (if (s.segment g).owner? = some n then 1 else 0)
      + (if x.owner? = some n then 1 else 0) := by
    simp only [heldSegments, State.setSegment, Vector.toList_set]
    rw [List.countP_set lt, here]
    simp
  omega

theorem heldSegments_same {s : State} {g : SegmentIx} {x : Segment} (h : x.owner? = (s.segment g).owner?) (n : LaneIx) :
    heldSegments (s.setSegment g x) n = heldSegments s n := by
  have := heldSegments_setSegment s g x n
  rw [h] at this
  omega

/-! ### The set of waiting lanes -/

theorem leaveWaiting_waiting (s : State) (n : LaneIx) :
    (s.leaveWaiting n).staging.waiting = s.staging.waiting.erase n := by
  unfold State.leaveWaiting
  split
  · simp only
    split <;> rfl
  · rename_i h
    rw [List.erase_of_not_mem (by simpa using h)]

/-- Leaving the set changes nothing beside it and the attention unit. -/
theorem leaveWaiting_rest (s : State) (n : LaneIx) :
    AttentionOnly { s with staging := { s.staging with waiting := s.staging.waiting.erase n } } (s.leaveWaiting n) := by
  unfold State.leaveWaiting
  split
  · simp only
    split <;> exact rfl
  · rename_i h
    rw [List.erase_of_not_mem (by simpa using h)]
    exact rfl

theorem leaveWaiting_out {s : State} (k : s.StagingOk) (n : LaneIx) : n ∉ (s.leaveWaiting n).staging.waiting := by
  rw [leaveWaiting_waiting]
  exact k.inOnce.not_mem_erase

@[simp] theorem leaveWaiting_lanes (s : State) (n : LaneIx) : (s.leaveWaiting n).lanes = s.lanes :=
  (leaveWaiting_rest s n).lanes

@[simp] theorem leaveWaiting_take (s : State) (n m : LaneIx) : (s.leaveWaiting n).take? m = s.take? m := by
  simp [State.take?]

@[simp] theorem leaveWaiting_targets (s : State) (n : LaneIx) : (s.leaveWaiting n).targets = s.targets :=
  (leaveWaiting_rest s n).targets

@[simp] theorem leaveWaiting_segments (s : State) (n : LaneIx) :
    (s.leaveWaiting n).staging.segments = s.staging.segments := by rw [(leaveWaiting_rest s n).staging]

/-- The waiting lanes become a part of themselves; the account does not speak of the lane last served. -/
theorem State.Owing.fewerWaiting {s : State} {l : List SegmentIx} (k : s.Owing l) {w : List LaneIx}
    (sub : w.Sublist s.staging.waiting) (last : LaneIx) :
    ({ s with staging := { s.staging with waiting := w, lastServed := last } } : State).Owing l where
  outstanding := k.outstanding
  owed := k.owed
  orders := k.orders
  once := k.once
  reads := k.reads
  window := k.window
  noneFree ne := k.noneFree (fun e => ne (List.sublist_nil.1 (e ▸ sub)))
  inOnce := k.inOnce.sublist sub
  waiting m h := k.waiting m (sub.subset h)
  resting := k.resting

/-- A level that reports whether the waiting set has a member. -/
theorem levelsOk_dry {s u : State} {w : List LaneIx}
    (rest : AttentionOnly { s with staging := { s.staging with waiting := w } } u)
    (bits : ∀ v, u.asserts v = if v = .dry then decide (w ≠ []) else s.asserts v) (k : s.LevelsOk) : u.LevelsOk := by
  rw [levelsOk_iff] at k ⊢
  intro v
  rw [bits v]
  cases v with
  | dry => simp [State.holds, rest.staging]
  | _ =>
    simp only [reduceCtorEq, if_false, k]
    simp only [State.holds, State.laneState, State.take?, State.target, State.pool, rest.lanes, rest.targets, rest.pools]

theorem levelsOk_leaveWaiting {s : State} {n : LaneIx} (k : s.LevelsOk) : (s.leaveWaiting n).LevelsOk := by
  refine levelsOk_dry (leaveWaiting_rest s n) (fun v => ?_) k
  unfold State.leaveWaiting
  split
  · rename_i mem
    have some_ : s.asserts .dry = true := ((levelsOk_iff s).1 k .dry).2 fun e => by simp [e] at mem
    simp only [List.isEmpty_iff]
    split
    · rw [show condStagingDry = Level.dry.cond from rfl, asserts_fall]
      by_cases e : v = .dry <;> simp_all [State.asserts]
    · by_cases e : v = .dry <;> simp_all [State.asserts]
  · rename_i h
    rw [List.erase_of_not_mem (by simpa using h)]
    by_cases e : v = .dry
    · rw [if_pos e, e, Bool.eq_iff_iff, decide_eq_true_eq]
      exact (levelsOk_iff s).1 k .dry
    · rw [if_neg e]

theorem keeps_leaveWaiting (s : State) (n : LaneIx) : Keeps given s (s.leaveWaiting n) where
  levels := levelsOk_leaveWaiting
  takes k := (leaveWaiting_rest s n).takesOk (Quiet.takesOk (s := s) (fun _ => rfl) k)
  store := (frame_leaveWaiting s n).storeOk
  staging _ k := (leaveWaiting_rest s n).stagingOk ((stagingOk_iff _).2
    (((stagingOk_iff s).1 k).fewerWaiting List.erase_sublist s.staging.lastServed))

/-- Joining the set changes nothing beside it and the attention unit. -/
theorem joinWaiting_rest {s : State} {n : LaneIx} (out : n ∉ s.staging.waiting) :
    AttentionOnly { s with staging := { s.staging with waiting := s.staging.waiting ++ [n] } } (s.joinWaiting n) := by
  unfold State.joinWaiting
  rw [if_neg (by simpa using out)]
  simp only
  split
  · exact attentionOnly_rise _ _
  · exact rfl

@[simp] theorem joinWaiting_take (s : State) (n m : LaneIx) : (s.joinWaiting n).take? m = s.take? m := by
  by_cases out : n ∈ s.staging.waiting
  · rw [State.joinWaiting, if_pos (by simpa using out)]
  · simp [State.take?, (joinWaiting_rest out).lanes]

theorem levelsOk_joinWaiting {s : State} {n : LaneIx} (k : s.LevelsOk) : (s.joinWaiting n).LevelsOk := by
  by_cases out : n ∈ s.staging.waiting
  · rw [State.joinWaiting, if_pos (by simpa using out)]
    exact k
  · refine levelsOk_dry (joinWaiting_rest out) (fun v => ?_) k
    unfold State.joinWaiting
    rw [if_neg (by simpa using out)]
    simp only [List.isEmpty_iff]
    split
    · rw [show condStagingDry = Level.dry.cond from rfl, asserts_rise]
      by_cases e : v = .dry <;> simp [e, State.asserts]
    · rename_i ne
      have some_ : s.asserts .dry = true := ((levelsOk_iff s).1 k .dry).2 ne
      by_cases e : v = .dry <;> simp_all [State.asserts]

/-- A lane becomes a waiting lane: it reads, has no chunk read in flight and room in its window, and none is free. -/
theorem State.Owing.joins {s : State} {l : List SegmentIx} (k : s.Owing l) {n : LaneIx} {t : Take}
    (out : n ∉ s.staging.waiting) (none_ : ∀ g, s.segment g ≠ .free) (h : s.take? n = some t) (chunk : t.chunkRead = none)
    (reading : t.reading ≠ .none) (room : heldSegments s n < t.window)
    (st : t.state = .waiting ∧ t.waitReason = some .segments ∨ t.state = .stopping ∨ t.state = .draining) :
    ({ s with staging := { s.staging with waiting := s.staging.waiting ++ [n] } } : State).Owing l where
  outstanding := k.outstanding
  owed := k.owed
  orders := k.orders
  once := k.once
  reads := k.reads
  window := k.window
  noneFree _ := none_
  inOnce := List.nodup_append.2 ⟨k.inOnce, by simp, by rintro a ha b hb rfl; simp at hb; exact out (hb ▸ ha)⟩
  waiting m w := by
    rcases List.mem_append.1 w with w | w
    · exact k.waiting m w
    · obtain rfl : m = n := by simpa using w
      exact ⟨t, h, chunk, reading, room, st⟩
  resting := k.resting

/-! ### Segments -/

/-- One segment changes, and with it what is owed of it. -/
theorem State.Owing.setSegment {s : State} {l l' : List SegmentIx} (k : s.Owing l) {g : SegmentIx} {x : Segment}
    (debt : ∀ h, h ≠ g → l'.count h = l.count h)
    (sending : ∀ u c, x = .sending u c → c = ∑ y, ∑ n, (s.orderSegments y n).count g + l'.count g)
    (named : (g ∈ l' ∨ ∃ y n, g ∈ s.orderSegments y n) →
      ∃ u c v d, s.segment g = .sending u c ∧ x = .sending v d ∧ v.owner = u.owner)
    (read : ∀ n t cr, s.take? n = some t → t.chunkRead = some cr → cr.segment = g → ∃ u d, x = .filling u d ∧ u.owner = n)
    (held : ∀ n, heldSegments (s.setSegment g x) n ≤ heldSegments s n) (some_ : s.staging.waiting ≠ [] → x ≠ .free) :
    (s.setSegment g x).Owing l' where
  outstanding h u c e := by
    rw [segment_setSegment] at e
    split at e
    · subst_vars; exact sending u c rfl
    · rename_i ne
      rw [debt h ne]
      exact k.outstanding h u c e
  owed h m := by
    rw [segment_setSegment]
    split
    · subst_vars
      obtain ⟨u, c, v, d, -, e, -⟩ := named (.inl m)
      exact ⟨v, d, e⟩
    · rename_i ne
      exact k.owed h (List.count_pos_iff.1 (debt h ne ▸ List.count_pos_iff.2 m))
  orders y n h m := by
    rw [segment_setSegment]
    split
    · subst_vars
      obtain ⟨u, c, v, d, e, e', o⟩ := named (.inr ⟨y, n, m⟩)
      obtain ⟨u', c', e2, o'⟩ := k.orders y n h m
      rw [e] at e2
      cases e2
      exact ⟨v, d, e', o.trans o'⟩
    · exact k.orders y n h m
  once := k.once
  reads n t cr e c := by
    rw [segment_setSegment]
    split
    · exact read n t cr e c (by assumption)
    · exact k.reads n t cr e c
  window n t e := (held n).trans (k.window n t e)
  noneFree w h := by
    rw [segment_setSegment]
    split
    · exact some_ w
    · exact k.noneFree w h
  inOnce := k.inOnce
  waiting n w := by
    obtain ⟨t, e, chunk, reading, room, st⟩ := k.waiting n w
    exact ⟨t, e, chunk, reading, (held n).trans_lt room, st⟩
  resting n r := Nat.le_zero.1 ((held n).trans (k.resting n r).le)

/-- The data of a segment that is being filled, or its discard flag, changes. -/
theorem State.Owing.refill {s : State} {l : List SegmentIx} (k : s.Owing l) {g : SegmentIx} {u v : SegmentUse} {d d' : Bool}
    (h : s.segment g = .filling u d) (o : v.owner = u.owner) : (s.setSegment g (.filling v d')).Owing l := by
  refine k.setSegment (fun _ _ => rfl) (by simp) (fun named => ?_) (fun n t cr e c e' => ?_) (fun n => ?_) (by simp)
  · have : ∃ u c, s.segment g = .sending u c := by
      rcases named with m | ⟨y, n, m⟩
      · exact k.owed g m
      · obtain ⟨u, c, e, -⟩ := k.orders y n g m
        exact ⟨u, c, e⟩
    obtain ⟨u, c, e⟩ := this
    simp [h] at e
  · obtain ⟨u', d'', e2, o'⟩ := k.reads n t cr e c
    rw [e', h] at e2
    cases e2
    exact ⟨v, d', rfl, o.trans o'⟩
  · exact (heldSegments_same (by simp [h, Segment.owner?, Segment.use?, o]) n).le

theorem keeps_refill {s : State} {g : SegmentIx} {u v : SegmentUse} {d d' : Bool} (h : s.segment g = .filling u d)
    (o : v.owner = u.owner) : Keeps given s (s.setSegment g (.filling v d')) :=
  .of_buffer rfl rfl (fun _ => rfl) rfl (fun _ => rfl) (fun _ => rfl) fun _ k =>
    (stagingOk_iff _).2 (((stagingOk_iff s).1 k).refill h o)

/-- An order that is owed is counted down. -/
theorem State.Owing.countDown {s : State} {g : SegmentIx} {l : List SegmentIx} (k : s.Owing (g :: l)) :
    (s.countDown g).1.Owing l := by
  obtain ⟨u, c, e⟩ := k.owed g (List.mem_cons_self ..)
  have count := k.outstanding g u c e
  rw [List.count_cons_self] at count
  simp only [State.countDown, e]
  refine k.setSegment (fun h ne => ?_) (fun v d e' => ?_) (fun _ => ⟨u, c, u, _, e, rfl, rfl⟩) (fun n t cr e' ch eq => ?_)
    (fun n => (heldSegments_same (by simp [e, Segment.owner?, Segment.use?]) n).le) (by simp)
  · rw [List.count_cons_of_ne (Ne.symm ne)]
  · cases e'
    omega
  · obtain ⟨v, d, e2, -⟩ := k.reads n t cr e' ch
    rw [eq, e] at e2
    cases e2

end Sys2Proof.Machine
end

