-- ==== Sys2Proof/Proofs/StagingOps.lean ====
section
/-! SUPPORT. Write orders that leave and join FIFOs, and segments that are claimed, sent and freed: each operation of
the staging buffer keeps the accounts. -/

namespace Sys2Proof.Machine

variable {given : Prop}

/-! ### Write orders leave their FIFOs -/

/-- Orders leave the FIFOs of one target: what they named is owed. -/
theorem State.Owing.ordersLeave {s u : State} {l d : List SegmentIx} (k : s.Owing l) (x : TargetIx)
    (removed : LaneIx → List SegmentIx) (contexts : ∀ n, u.context? n = s.context? n) (staging : u.staging = s.staging)
    (there : ∀ n, (s.orderSegments x n).Perm (u.orderSegments x n ++ removed n))
    (elsewhere : ∀ y, y ≠ x → ∀ n, u.orderSegments y n = s.orderSegments y n)
    (debt : ∀ g, d.count g = ∑ n, (removed n).count g) : u.Owing (d ++ l) := by
  have seg := segment_of_staging staging
  have held := heldSegments_of_staging staging
  have sub (y : TargetIx) (n : LaneIx) : ∀ g ∈ u.orderSegments y n, g ∈ s.orderSegments y n := by
    by_cases e : y = x
    · subst e
      exact fun g m => (there n).mem_iff.2 (List.mem_append_left _ m)
    · simp [elsewhere y e n]
  have counts (g : SegmentIx) : ∑ y, ∑ n, (s.orderSegments y n).count g
      = ∑ y, ∑ n, (u.orderSegments y n).count g + d.count g := by
    rw [debt, ← Finset.add_sum_erase _ _ (Finset.mem_univ x), ← Finset.add_sum_erase Finset.univ
      (fun y => ∑ n, (u.orderSegments y n).count g) (Finset.mem_univ x)]
    have rest : ∑ y ∈ Finset.univ.erase x, ∑ n, (s.orderSegments y n).count g
        = ∑ y ∈ Finset.univ.erase x, ∑ n, (u.orderSegments y n).count g :=
      Finset.sum_congr rfl fun y m => Finset.sum_congr rfl fun n _ => by rw [elsewhere y (Finset.ne_of_mem_erase m) n]
    have here : ∑ n, (s.orderSegments x n).count g
        = ∑ n, (u.orderSegments x n).count g + ∑ n, (removed n).count g := by
      rw [← Finset.sum_add_distrib]
      exact Finset.sum_congr rfl fun n _ => by rw [(there n).count_eq, List.count_append]
    omega
  have base := k.of_same (t := { s with lanes := u.lanes, staging := u.staging })
    (fun n => (contexts n)) staging fun _ _ => rfl
  refine ⟨fun g v c e => ?_, fun g m => ?_, fun y n g m => ?_, fun y n => ?_, base.reads, base.window, base.noneFree,
    base.inOnce, base.waiting, base.resting⟩
  · have := k.outstanding g v c ((seg g).symm.trans e)
    rw [counts g] at this
    rw [List.count_append]
    omega
  · rw [seg]
    rcases List.mem_append.1 m with m | m
    · have pos := List.count_pos_iff.2 m
      rw [debt] at pos
      obtain ⟨n, -, h⟩ := Finset.exists_ne_zero_of_sum_ne_zero pos.ne'
      obtain ⟨v, c, e, -⟩ := k.orders x n g ((there n).mem_iff.2
        (List.mem_append_right _ (List.count_pos_iff.1 (Nat.pos_of_ne_zero h))))
      exact ⟨v, c, e⟩
    · exact k.owed g m
  · rw [seg]
    exact k.orders y n g (sub y n g m)
  · by_cases e : y = x
    · subst e
      exact ((there n).nodup_iff.1 (k.once y n)).of_append_left
    · rw [elsewhere y e n]
      exact k.once y n

/-- Every order that has left is counted down. -/
theorem State.Owing.countDowns {α : Type} (seg : α → SegmentIx) : ∀ (os : List α) {s : State} {l : List SegmentIx},
    s.Owing (os.map seg ++ l) → (forEach os (fun o s => s.countDown (seg o)) s).1.Owing l := by
  intro os
  simp only [forEach_state]
  induction os with
  | nil => exact fun k => k
  | cons o os ih => exact fun k => ih k.countDown

/-- Counting down changes the segments only. -/
theorem countDown_rest (s : State) (g : SegmentIx) : (s.countDown g).1
    = { s with staging := { s.staging with segments := (s.countDown g).1.staging.segments } } := by
  unfold State.countDown
  split <;> rfl

theorem countDowns_rest {α : Type} (seg : α → SegmentIx) (os : List α) (s : State) :
    (forEach os (fun o s => s.countDown (seg o)) s).1
      = { s with staging := { s.staging with
          segments := (forEach os (fun o s => s.countDown (seg o)) s).1.staging.segments } } := by
  simp only [forEach_state]
  induction os generalizing s with
  | nil => rfl
  | cons o os ih =>
    rw [List.foldl_cons, ih, countDown_rest s (seg o)]

/-- Keeping the accounts, for an operation that changes FIFOs, parts of targets no account speaks of, and segments. -/
theorem Keeps.of_orders {s t : State} (lanes : t.lanes = s.lanes) (att : t.attention = s.attention)
    (free : t.freeEntries = s.freeEntries) (pools : t.pools = s.pools)
    (states : ∀ x, (t.target x).state = (s.target x).state) (waiting : t.staging.waiting = s.staging.waiting)
    (staging : given → s.StagingOk → t.StagingOk) : Keeps given s t :=
  .of_buffer (by rw [att]) free (fun n => by simp [State.context?, State.take?, lanes]) waiting states
    (fun x => by simp [State.pool, pools]) staging

section
variable {α : Type} (seg : α → SegmentIx) (os : List α) (s : State)

@[simp] theorem countDowns_lanes : (forEach os (fun o s => s.countDown (seg o)) s).1.lanes = s.lanes := by
  rw [countDowns_rest]
@[simp] theorem countDowns_targets : (forEach os (fun o s => s.countDown (seg o)) s).1.targets = s.targets := by
  rw [countDowns_rest]
@[simp] theorem countDowns_attention : (forEach os (fun o s => s.countDown (seg o)) s).1.attention = s.attention := by
  rw [countDowns_rest]
@[simp] theorem countDowns_pools : (forEach os (fun o s => s.countDown (seg o)) s).1.pools = s.pools := by
  rw [countDowns_rest]
@[simp] theorem countDowns_freeEntries :
    (forEach os (fun o s => s.countDown (seg o)) s).1.freeEntries = s.freeEntries := by rw [countDowns_rest]
@[simp] theorem countDowns_waiting :
    (forEach os (fun o s => s.countDown (seg o)) s).1.staging.waiting = s.staging.waiting := by rw [countDowns_rest]
@[simp] theorem countDowns_target (x : TargetIx) :
    (forEach os (fun o s => s.countDown (seg o)) s).1.target x = s.target x := by simp [State.target]
end

/-- A write order is marked as withdrawn if it is one that a predicate names. -/
def WriteOrder.markIf (p : WriteOrder → Bool) (o : WriteOrder) : WriteOrder :=
  if p o then { o with withdrawn := true } else o

@[simp] theorem markIf_segment (p : WriteOrder → Bool) (o : WriteOrder) : (o.markIf p).segment = o.segment := by
  unfold WriteOrder.markIf
  split <;> rfl

/-- The operation writes a piece of an order of the lane. -/
def DeviceOp.writesFor (n : LaneIx) : DeviceOp → Bool
  | .writePiece m _ => m == n
  | _ => false

/-- What a withdrawal does: the order in progress, if any, is marked, and the queued ones leave and are counted down. -/
theorem withdrawAt_eq (s : State) (n : LaneIx) (t : TargetIx) (p : WriteOrder → Bool) :
    ∃ head queued, (s.target t).fifos[n] = head ++ queued
      ∧ ((∀ i, (s.target t).op ≠ .writePiece n i) → head = [])
      ∧ s.withdrawAt n t p = forEach (queued.filter p) (fun o s => s.countDown o.segment)
          (s.modifyTarget t fun x => { x with
            fifos := x.fifos.set n.val (head.map (·.markIf p) ++ queued.filter fun o => !p o) n.isLt }) := by
  refine ⟨if (s.target t).op.writesFor n then ((s.target t).fifos[n]).take 1 else [],
    if (s.target t).op.writesFor n then ((s.target t).fifos[n]).drop 1 else (s.target t).fifos[n], ?_, fun idle => ?_, rfl⟩
  · cases (s.target t).op.writesFor n
    · rfl
    · exact (List.take_append_drop 1 _).symm
  · have free : (s.target t).op.writesFor n = false := by
      cases e : (s.target t).op <;> simp only [DeviceOp.writesFor]
      rename_i m i
      exact beq_eq_false_iff_ne.2 fun h => idle i (by rw [e, h])
    rw [free]
    rfl

/-- Orders leave one FIFO, whatever else of the target changes but its state, and are counted down. -/
theorem keeps_dropOrders {s : State} {t : TargetIx} {n : LaneIx} {f : Target → Target} {kept gone : List WriteOrder}
    (state : (f (s.target t)).state = (s.target t).state)
    (fifos : (f (s.target t)).fifos = (s.target t).fifos.set n.val kept n.isLt)
    (leaving : (((s.target t).fifos[n]).map WriteOrder.segment).Perm
      (kept.map WriteOrder.segment ++ gone.map WriteOrder.segment)) :
    Keeps given s (forEach gone (fun (o : WriteOrder) s => s.countDown o.segment) (s.modifyTarget t f)).1 := by
  refine .of_orders (by simp; rfl) (by simp; rfl) (by simp; rfl) (by simp; rfl) (fun x => ?_) (by simp; rfl) fun _ k => ?_
  · rw [countDowns_target, modifyTarget_eq, target_setTarget]
    split <;> simp_all
  · refine (stagingOk_iff _).2 (State.Owing.countDowns WriteOrder.segment _ (State.Owing.ordersLeave
      ((stagingOk_iff s).1 k) t (fun m => if m = n then gone.map WriteOrder.segment else []) (fun _ => rfl) rfl
      (fun m => ?_) (fun y ne m => ?_) fun g => ?_))
    · simp only [State.orderSegments, modifyTarget_eq, target_setTarget_same, fifos, Fin.getElem_fin, Vector.getElem_set]
      by_cases e : m = n
      · subst e
        simpa using leaving
      · rw [if_neg (fun h => e (Fin.ext h.symm)), if_neg e, List.append_nil]
    · simp only [State.orderSegments, modifyTarget_eq, target_setTarget_ne _ _ _ _ ne]
    · simp [apply_ite (List.count g), Finset.sum_ite_eq']

/-- The orders of one lane that a predicate names are withdrawn. -/
theorem keeps_withdrawAt (s : State) (n : LaneIx) (t : TargetIx) (p : WriteOrder → Bool) :
    Keeps given s (s.withdrawAt n t p).1 := by
  obtain ⟨head, queued, parts, -, eq⟩ := withdrawAt_eq s n t p
  rw [eq]
  refine keeps_dropOrders rfl rfl ?_
  have leaving : (queued.map WriteOrder.segment).Perm ((queued.filter fun o => !p o).map WriteOrder.segment
      ++ (queued.filter p).map WriteOrder.segment) := by
    rw [← List.map_append]
    exact ((List.filter_append_perm p queued).symm.trans List.perm_append_comm).map _
  rw [parts, List.map_append, List.map_append, List.map_map, List.append_assoc]
  simp only [Function.comp_def, markIf_segment]
  exact leaving.append_left _

theorem keeps_forEach {α : Type} {f : α → State → Work} (h : ∀ x s, Keeps given s (f x s).1) (xs : List α) (s : State) :
    Keeps given s (forEach xs f s).1 := by
  rw [forEach_state]
  exact keeps_foldl (fun s x => h x s) xs s

theorem keeps_withdraw (s : State) (n : LaneIx) (p : WriteOrder → Bool) : Keeps given s (s.withdraw n p).1 :=
  keeps_forEach (fun t s => keeps_withdrawAt s n t p) _ s

/-! ### Write orders join FIFOs -/

/-- One order is placed: its segment joins the FIFO's. -/
theorem orderSegments_placeOrder (s : State) (n : LaneIx) (f : FileEntry) (u : SegmentUse) (g : SegmentIx)
    (x y : TargetIx) (m : LaneIx) : (s.placeOrder n f u g x).orderSegments y m
      = s.orderSegments y m ++ if y = x ∧ m = n then [g] else [] := by
  unfold State.placeOrder
  simp only [State.orderSegments, modifyTarget_eq, target_setTarget]
  by_cases e : y = x
  · subst e
    simp only [if_true, true_and, Fin.getElem_fin, Vector.getElem_set]
    by_cases e : m = n
    · subst e
      simp
    · rw [if_neg (fun h => e (Fin.ext h.symm)), if_neg e, List.append_nil]
  · simp [e]

/-- The orders of a chunk are placed. -/
theorem orderSegments_placeOrders (n : LaneIx) (f : FileEntry) (u : SegmentUse) (g : SegmentIx) (y : TargetIx)
    (m : LaneIx) : ∀ (xs : List TargetIx) (s : State), xs.Nodup →
      (xs.foldl (fun s x => s.placeOrder n f u g x) s).orderSegments y m
        = s.orderSegments y m ++ if y ∈ xs ∧ m = n then [g] else [] := by
  intro xs
  induction xs with
  | nil => simp
  | cons x xs ih =>
    intro s nd
    obtain ⟨out, nd⟩ := List.nodup_cons.1 nd
    rw [List.foldl_cons, ih _ nd, orderSegments_placeOrder]
    by_cases e : y = x
    · subst e
      simp [out]
    · simp [e]

theorem placeOrders_rest (n : LaneIx) (f : FileEntry) (u : SegmentUse) (g : SegmentIx) :
    ∀ (xs : List TargetIx) (s : State), xs.foldl (fun s x => s.placeOrder n f u g x) s
      = { s with targets := (xs.foldl (fun s x => s.placeOrder n f u g x) s).targets } := by
  intro xs
  induction xs with
  | nil => exact fun _ => rfl
  | cons x xs ih =>
    intro s
    rw [List.foldl_cons, ih]
    rfl

/-- The chunk's segment is SENDING once its orders stand in the FIFOs (R45). -/
theorem State.Owing.sends {s : State} (k : s.Owing []) {n : LaneIx} (f : FileEntry) {u : SegmentUse} {d : Bool}
    {g : SegmentIx} {xs : List TargetIx} (nd : xs.Nodup) (fill : s.segment g = .filling u d) (own : u.owner = n)
    (unread : ∀ m t cr, s.take? m = some t → t.chunkRead = some cr → cr.segment ≠ g) :
    ((xs.foldl (fun s x => s.placeOrder n f u g x) s).setSegment g (.sending u xs.length)).Owing [] := by
  have rest := placeOrders_rest n f u g xs s
  have orders := fun y m => orderSegments_placeOrders n f u g y m xs s nd
  generalize xs.foldl (fun s x => s.placeOrder n f u g x) s = v at rest orders ⊢
  have seg (h : SegmentIx) : v.segment h = s.segment h := by rw [rest]; rfl
  have takes (m : LaneIx) : v.take? m = s.take? m := by rw [rest]; rfl
  have waiting : v.staging.waiting = s.staging.waiting := by rw [rest]
  have held (m : LaneIx) : heldSegments (v.setSegment g (.sending u xs.length)) m = heldSegments s m :=
    (heldSegments_same (by simp [seg, fill, Segment.owner?, Segment.use?]) m).trans
      (heldSegments_of_staging (by rw [rest]) m)
  have fresh (y : TargetIx) (m : LaneIx) : g ∉ s.orderSegments y m := fun mem => by
    obtain ⟨u', c, e, -⟩ := k.orders y m g mem
    rw [fill] at e
    cases e
  have states (m : LaneIx) : v.laneState m = s.laneState m := by simp only [State.laneState, takes]
  refine ⟨fun h u' c e => ?_, by simp, fun y m h mem => ?_, fun y m => ?_, fun m t cr e c => ?_, fun m t e => ?_,
    fun w h => ?_, by simpa [waiting] using k.inOnce, fun m w => ?_, fun m r => ?_⟩
  · rw [segment_setSegment, seg] at e
    show c = ∑ y, ∑ m, (v.orderSegments y m).count h + 0
    simp only [orders, List.count_append, Finset.sum_add_distrib]
    split at e
    · cases e
      subst_vars
      have inner (y : TargetIx) : ∑ m, List.count h (if y ∈ xs ∧ m = u.owner then [h] else []) = if y ∈ xs then 1 else 0 := by
        by_cases e : y ∈ xs <;> simp [e, apply_ite (List.count h)]
      have zero : ∑ y, ∑ m, (s.orderSegments y m).count h = 0 :=
        Finset.sum_eq_zero fun y _ => Finset.sum_eq_zero fun m _ => List.count_eq_zero.2 (fresh y m)
      simp only [inner, zero]
      rw [Finset.sum_ite, Finset.sum_const_zero, Finset.sum_const, smul_eq_mul, mul_one, add_zero, zero_add, add_zero,
        ← List.toFinset_card_of_nodup nd]
      exact congrArg _ (by ext y; simp)
    · rename_i ne
      have zero : ∑ y, ∑ m, List.count h (if y ∈ xs ∧ m = n then [g] else []) = 0 :=
        Finset.sum_eq_zero fun y _ => Finset.sum_eq_zero fun m _ => by split <;> simp [Ne.symm ne]
      rw [zero]
      simpa using k.outstanding h u' c e
  · have mem' : h ∈ s.orderSegments y m ++ if y ∈ xs ∧ m = n then [g] else [] := orders y m ▸ mem
    rw [segment_setSegment, seg]
    rcases List.mem_append.1 mem' with old | new
    · have ne : h ≠ g := fun e => fresh y m (e ▸ old)
      rw [if_neg ne]
      exact k.orders y m h old
    · split at new
      · obtain rfl : h = g := by simpa using new
        rw [if_pos rfl]
        rename_i c
        exact ⟨u, _, rfl, own.trans c.2.symm⟩
      · cases new
  · show (v.orderSegments y m).Nodup
    rw [orders, List.nodup_append]
    refine ⟨k.once y m, by split <;> simp, ?_⟩
    rintro a ha b hb rfl
    split at hb
    · exact fresh y m (by simpa using List.mem_singleton.1 hb ▸ ha)
    · cases hb
  · rw [setSegment_take, takes] at e
    rw [segment_setSegment, if_neg (unread m t cr e c), seg]
    exact k.reads m t cr e c
  · rw [setSegment_take, takes] at e
    rw [held]
    exact k.window m t e
  · rw [segment_setSegment]
    split
    · simp
    · rw [seg]
      exact k.noneFree (by simpa [waiting] using w) h
  · obtain ⟨t, e, h⟩ := k.waiting m (by simpa [waiting] using w)
    exact ⟨t, by rw [setSegment_take, takes, e], by rw [held]; exact h⟩
  · rw [held]
    exact k.resting m (by simpa [State.resting, states] using r)

theorem orderTargets_nodup (t : Take) (f : FileEntry) (u : SegmentUse) : (orderTargets t f u).Nodup := by
  unfold orderTargets targetsOf allTargets
  refine List.Nodup.filter _ ?_
  split
  · exact (List.nodup_finRange 4).filter _
  · simp

theorem state_placeOrder (s : State) (n : LaneIx) (f : FileEntry) (u : SegmentUse) (g : SegmentIx) (x y : TargetIx) :
    ((s.placeOrder n f u g x).target y).state = (s.target y).state := by
  unfold State.placeOrder
  simp only [modifyTarget_eq, target_setTarget]
  split <;> simp_all

theorem keeps_fanOut (s : State) (n : LaneIx) (t : Take) (f : FileEntry) {u : SegmentUse} {g : SegmentIx}
    (fill : given → ∃ d, s.segment g = .filling u d) (own : given → u.owner = n)
    (unread : given → ∀ m t cr, s.take? m = some t → t.chunkRead = some cr → cr.segment ≠ g) :
    Keeps given s (s.fanOut n t f u g).1 := by
  have rest := placeOrders_rest n f u g (orderTargets t f u) s
  have states (x : TargetIx) : ∀ (xs : List TargetIx) (s : State),
      ((xs.foldl (fun s x => s.placeOrder n f u g x) s).target x).state = (s.target x).state := by
    intro xs
    induction xs with
    | nil => exact fun _ => rfl
    | cons y xs ih => exact fun s => (ih _).trans (state_placeOrder s n f u g y x)
  unfold State.fanOut
  refine .of_orders ?_ ?_ ?_ ?_ (fun x => states x _ s) ?_ fun given k => (stagingOk_iff _).2
    (((stagingOk_iff s).1 k).sends f (orderTargets_nodup t f u) (fill given).choose_spec (own given) (unread given))
  all_goals simp only [setSegment_lanes, setSegment_attention, setSegment_freeEntries, setSegment_pools,
    setSegment_waiting]; rw [rest]

end Sys2Proof.Machine
end

