-- ==== Sys2Proof/Proofs/Claims.lean ====
section
/-! SUPPORT. Segments are claimed for a chunk read, freed and handed on: each keeps the accounts. -/

namespace Sys2Proof.Machine

variable {given : Prop}

/-! ### A segment that nothing uses -/

/-- No order names the segment and no chunk read fills it. -/
def State.unused (s : State) (g : SegmentIx) : Prop :=
  (∀ x n, g ∉ s.orderSegments x n) ∧ ∀ n t cr, s.take? n = some t → t.chunkRead = some cr → cr.segment ≠ g

theorem unused_of_free {s : State} (k : s.StagingOk) {g : SegmentIx} (h : s.segment g = .free) : s.unused g := by
  rw [stagingOk_iff] at k
  constructor
  · intro x n m
    obtain ⟨u, c, e, -⟩ := k.orders x n g m
    simp [h] at e
  · rintro n t cr e c rfl
    obtain ⟨u, d, e', -⟩ := k.reads n t cr e c
    simp [h] at e'

/-- A segment whose use has ended: a SENDING one with no order outstanding, or a FILLING one that its owner reads into
no more. -/
theorem endedUse_some {s : State} {g : SegmentIx} {o : LaneIx} (h : s.endedUse g = some o) :
    (∃ u, s.segment g = .sending u 0 ∧ u.owner = o)
      ∨ ∃ u d, s.segment g = .filling u d ∧ u.owner = o
        ∧ ((s.take? o).bind Take.chunkRead).map ChunkRead.segment ≠ some g := by
  unfold State.endedUse at h
  split at h
  · cases h
  · rename_i u d e
    split at h
    · cases h
    · cases h
      exact .inr ⟨u, d, e, rfl, by assumption⟩
  · rename_i u c e
    split at h
    · cases h
      subst_vars
      exact .inl ⟨u, e, rfl⟩
    · cases h

theorem unused_of_ended {s : State} (k : s.StagingOk) {g : SegmentIx} {o : LaneIx} (h : s.endedUse g = some o) :
    s.unused g := by
  rw [stagingOk_iff] at k
  constructor
  · intro x n m
    obtain ⟨u, c, e, -⟩ := k.orders x n g m
    have done : c = 0 := by
      rcases endedUse_some h with ⟨v, e', -⟩ | ⟨v, d, e', -⟩ <;> rw [e'] at e <;> cases e
      rfl
    have sum := k.outstanding g u c e
    have pos : 0 < ∑ y, ∑ m, (s.orderSegments y m).count g :=
      (List.count_pos_iff.2 m).trans_le ((Finset.single_le_sum (f := fun m => (s.orderSegments x m).count g)
        (fun _ _ => Nat.zero_le _) (Finset.mem_univ n)).trans (Finset.single_le_sum
        (f := fun y => ∑ m, (s.orderSegments y m).count g) (fun _ _ => Nat.zero_le _) (Finset.mem_univ x)))
    omega
  · rintro n t cr e c rfl
    obtain ⟨u, d, e', own⟩ := k.reads n t cr e c
    rcases endedUse_some h with ⟨v, e2, -⟩ | ⟨v, d', e2, own', free⟩ <;> rw [e2] at e' <;> cases e'
    rw [← own', own, e] at free
    simp [c] at free

/-- A segment that nothing uses becomes FREE while no lane waits. -/
theorem State.Owing.frees {s : State} (k : s.Owing []) {g : SegmentIx} (un : s.unused g) (none_ : s.staging.waiting = []) :
    (s.setSegment g .free).Owing [] := by
  refine k.setSegment (fun _ _ => rfl) (by simp) (fun h => ?_) (fun n t cr e c e' => absurd e' (un.2 n t cr e c))
    (fun n => ?_) (by simp [none_])
  · rcases h with h | ⟨y, n, h⟩
    · cases h
    · exact absurd h (un.1 y n)
  · have := heldSegments_setSegment s g .free n
    simp only [Segment.owner?, Segment.use?, Option.map_none, reduceCtorEq, if_false] at this
    omega

/-- A lane claims a segment that nothing uses, and its chunk read begins. -/
theorem State.Owing.claims {s : State} (k : s.Owing []) {g : SegmentIx} (un : s.unused g) {n : LaneIx} {t b : Take}
    {u : SegmentUse} {ps : List Piece} (h : s.take? n = some t) (own : u.owner = n) (room : heldSegments s n < t.window)
    (out : n ∉ s.staging.waiting) (chunk : b.chunkRead = some { segment := g, pieces := ps }) (window : b.window = t.window)
    (go : b.state ≠ .opened ∧ b.state ≠ .closed) :
    ((s.setSegment g (.filling u false)).setLane n (some b)).Owing [] := by
  have held (m : LaneIx) : heldSegments (s.setSegment g (.filling u false)) m ≤ heldSegments s m + if m = n then 1 else 0 := by
    have := heldSegments_setSegment s g (.filling u false) m
    have own' : ((Segment.filling u false).owner? = some m) ↔ m = n := by
      simp [Segment.owner?, Segment.use?, own, eq_comm]
    simp only [own'] at this
    omega
  refine ⟨fun x v c e => ?_, by simp, fun x m y mem => ?_, k.once, fun m a cr e c => ?_, fun m a e => ?_, fun w x => ?_,
    k.inOnce, fun m w => ?_, fun m r => ?_⟩
  · rw [setLane_segment, segment_setSegment] at e
    split at e
    · cases e
    · exact k.outstanding x v c e
  · rw [setLane_segment, segment_setSegment, if_neg (fun e : y = g => un.1 x m (e ▸ mem))]
    exact k.orders x m y mem
  · rw [setLane_segment, segment_setSegment]
    rw [take_setLane] at e
    split at e
    · cases e
      rw [chunk] at c
      cases c
      subst_vars
      exact ⟨u, false, by simp, rfl⟩
    · rw [if_neg (un.2 m a cr e c)]
      exact k.reads m a cr e c
  · refine (held m).trans ?_
    rw [take_setLane] at e
    split at e
    · cases e
      subst_vars
      rw [if_pos rfl, window]
      exact room
    · rename_i ne
      rw [if_neg ne]
      exact k.window m a e
  · rw [setLane_segment, segment_setSegment]
    split
    · simp
    · exact k.noneFree w x
  · have ne : m ≠ n := fun e => out (e ▸ w)
    obtain ⟨a, e, ch, reading, less, st⟩ := k.waiting m w
    have := held m
    rw [if_neg ne] at this
    exact ⟨a, by rw [take_setLane_ne _ _ _ _ ne]; exact e, ch, reading, this.trans_lt less, st⟩
  · simp only [State.resting, laneState_setLane] at r
    split at r
    · simp [go] at r
    · rename_i ne
      have := held m
      rw [if_neg ne, k.resting m r] at this
      exact Nat.le_zero.1 this

/-! ### The chunk read begins -/

theorem nextUse_some {t : Take} {n : LaneIx} (h : t.reading ≠ .none) : ∃ u, t.nextUse n = some u ∧ u.owner = n := by
  cases e : t.reading with
  | none => exact absurd e h
  | file i => exact ⟨_, by simp only [Take.nextUse, e]; rfl, rfl⟩
  | recopy i x => exact ⟨_, by simp only [Take.nextUse, e]; rfl, rfl⟩

/-- What beginning a chunk read does. -/
theorem beginRead_eq {s : State} {n : LaneIx} {g : SegmentIx} {t : Take} {u : SegmentUse} (h : s.take? n = some t)
    (e : t.nextUse n = some u) : s.beginRead n g = ((s.setSegment g (.filling u false)).setLane n (some
      { t with chunkRead := some { segment := g, pieces := match t.file? u.entry with
                                      | some f => f.pieces u.chunk
                                      | none => [] } }), [.handPiece n]) := by
  unfold State.beginRead
  simp only [h, e]
  rw [modifyTake_of_take _ _ _ (t := t) (by simpa using h)] <;> rfl

theorem levelsOk_beginRead {s : State} {n : LaneIx} {g : SegmentIx} (k : s.LevelsOk) : (s.beginRead n g).1.LevelsOk := by
  unfold State.beginRead
  split
  · exact k
  · split
    · exact k
    · exact levelsOk_modifyTake (fun _ => rfl) (levels_same (s := s) rfl (fun v => by cases v <;> exact Iff.rfl) k)

theorem takesOk_beginRead {s : State} {n : LaneIx} {g : SegmentIx} (k : s.TakesOk) : (s.beginRead n g).1.TakesOk := by
  unfold State.beginRead
  split
  · exact k
  · split
    · exact k
    · exact takesOk_modifyTake (s := s.setSegment g _) (fun a _ ok => { ok with }) k

theorem mayRead_some {s : State} {n : LaneIx} (h : s.mayRead n = true) : ∃ t u, s.take? n = some t
    ∧ (t.state = .running ∨ t.state = .stopping ∨ t.state = .draining) ∧ t.nextUse n = some u ∧ u.owner = n
    ∧ t.reading ≠ .none ∧ t.chunkRead = none ∧ heldSegments s n < t.window ∧ n ∉ s.staging.waiting := by
  unfold State.mayRead at h
  cases e : s.take? n with
  | none => simp [e] at h
  | some t =>
    simp only [e, Bool.and_eq_true, Bool.or_eq_true, beq_iff_eq, Option.isNone_iff_eq_none, decide_eq_true_eq,
      Bool.not_eq_true', List.contains_eq_mem, decide_eq_false_iff_not] at h
    obtain ⟨⟨⟨⟨st, use⟩, chunk⟩, room⟩, out⟩ := h
    have reading : t.reading ≠ .none := fun e => by simp [Take.nextUse, e] at use
    obtain ⟨u, eu, own⟩ := nextUse_some (n := n) reading
    exact ⟨t, u, rfl, by tauto, eu, own, reading, chunk, room, out⟩

theorem firstFree_some {s : State} {g : SegmentIx} (h : s.firstFree = some g) : s.segment g = .free := by
  simpa using List.find?_some h

theorem firstFree_none {s : State} (h : s.firstFree = none) (g : SegmentIx) : s.segment g ≠ .free := by
  have := List.find?_eq_none.1 h g (List.mem_finRange g)
  simpa using this

/-- Only lanes, staging buffer and FIFOs count for the staging buffer's account. -/
theorem stagingOk_of_parts {s t : State} (lanes : t.lanes = s.lanes) (staging : t.staging = s.staging)
    (targets : t.targets = s.targets) (k : s.StagingOk) : t.StagingOk :=
  stagingOk_of_same (fun n => by simp [State.context?, State.take?, lanes]) staging
    (fun x n => by simp [State.orderSegments, State.target, targets]) k

theorem stagingOk_tryRead {s : State} (n : LaneIx) (k : s.StagingOk) : (s.tryRead n).1.StagingOk := by
  unfold State.tryRead
  split
  · rename_i may
    obtain ⟨t, u, h, st, eu, own, reading, chunk, room, out⟩ := mayRead_some may
    have k' := (stagingOk_iff s).1 k
    split
    · rename_i g free
      rw [beginRead_eq h eu]
      refine (stagingOk_iff _).2 (k'.claims (unused_of_free k (firstFree_some free)) h own room out rfl rfl ?_)
      rcases st with e | e | e <;> simp [e]
    · rename_i full
      have none_ := firstFree_none full
      simp only
      split
      · rename_i run
        -- the lane is in WAITING before it joins the set; the two orders give the same lanes and the same set
        have wait := (stagingOk_iff _).1 ((keeps_enterWaiting (given := True) h (by rcases st with e | e | e <;> simp [e]) .segments
          fun _ _ => out).staging trivial k)
        have seg (g : SegmentIx) : (s.enterWaiting n .segments).segment g ≠ .free := by
          simpa [State.enterWaiting] using none_ g
        have held : heldSegments (s.enterWaiting n .segments) n = heldSegments s n :=
          heldSegments_of_staging (by simp [State.enterWaiting]) n
        have joined := wait.joins (n := n) (t := { t.inState .waiting with waitReason := some .segments }) (by simpa [State.enterWaiting] using out) seg
          (by rw [take_enterWaiting, if_pos rfl, h, Option.map_some]) chunk reading (by rw [held]; exact room)
          (.inl ⟨rfl, rfl⟩)
        have rest := joinWaiting_rest out
        refine stagingOk_of_parts ?_ ?_ ?_ ((stagingOk_iff _).2 joined)
        · simp only [State.enterWaiting, State.modifyTake, State.setLane, State.take?, lanes_enter, rest.lanes]
        · simp [State.enterWaiting, rest.staging]
        · simp [State.enterWaiting, rest.targets]
      · rename_i notRun
        have st' : t.state = .stopping ∨ t.state = .draining := by
          rcases st with e | e | e
          · exact absurd (by rw [laneState_of_take h, e]) notRun
          · exact .inl e
          · exact .inr e
        exact (joinWaiting_rest out).stagingOk ((stagingOk_iff _).2 (k'.joins out none_ h chunk reading room (.inr st')))
  · exact k

theorem keeps_tryRead (s : State) (n : LaneIx) : Keeps given s (s.tryRead n).1 where
  levels k := by
    unfold State.tryRead
    split
    · rename_i may
      obtain ⟨t, u, h, -⟩ := mayRead_some may
      split
      · exact levelsOk_beginRead k
      · simp only
        split
        · exact levelsOk_enterWaiting (t := t) (by simpa using h) .segments (levelsOk_joinWaiting k)
        · exact levelsOk_joinWaiting k
    · exact k
  takes k := by
    unfold State.tryRead
    split
    · rename_i may
      obtain ⟨t, u, h, st, -, -, -, -, -, out⟩ := mayRead_some may
      have joined : (s.joinWaiting n).TakesOk := (joinWaiting_rest out).takesOk (Quiet.takesOk (s := s) (fun _ => rfl) k)
      split
      · exact takesOk_beginRead k
      · simp only
        split
        · exact takesOk_enterWaiting (t := t) (by simpa using h) (by rcases st with e | e | e <;> simp [e]) .segments joined
        · exact joined
    · exact k
  store := (frame_tryRead s n).storeOk
  staging _ := stagingOk_tryRead n

/-! ### Segments are freed and handed on -/

theorem nextWaiting_some {x : Staging} {m : LaneIx} (h : x.nextWaiting = some m) : m ∈ x.waiting := by
  simpa using List.find?_some h

/-- The round-robin order goes over every lane. -/
theorem nextWaiting_none {x : Staging} (h : x.nextWaiting = none) : x.waiting = [] := by
  refine List.eq_nil_iff_forall_not_mem.2 fun m mem => ?_
  have all := List.find?_eq_none.1 h m ?_
  · simp [mem] at all
  · refine List.mem_map.2 ⟨(m.val + 7 - x.lastServed.val) % 8, List.mem_range.2 (Nat.mod_lt _ (by decide)), Fin.ext ?_⟩
    simp only
    omega

/-- The state after a segment has been handed to a waiting lane: the lane has left the set, is RUNNING if it was
WAITING, and has begun its chunk read. -/
theorem handOn_eq {s : State} {g : SegmentIx} {m : LaneIx} {t : Take} {u : SegmentUse}
    (next : s.staging.nextWaiting = some m) (h : s.take? m = some t) (e : t.nextUse m = some u) :
    ∃ b, b.window = t.window ∧ (∃ ps, b.chunkRead = some { segment := g, pieces := ps })
      ∧ b.state = (if t.state = .waiting then .running else t.state)
      ∧ (s.handOn g).1.lanes = (s.setLane m (some b)).lanes ∧ (s.handOn g).1.targets = s.targets
      ∧ (s.handOn g).1.staging = { s.staging with
          segments := s.staging.segments.set g.val (.filling u false) g.isLt
          waiting := s.staging.waiting.erase m, lastServed := m } := by
  unfold State.handOn
  simp only [next]
  have h2 : ({ s.leaveWaiting m with staging := { (s.leaveWaiting m).staging with lastServed := m } } : State).take? m
      = some t := by simpa [State.take?] using h
  rw [beginRead_eq h2 e]
  simp only [laneState_setLane, if_true, Option.map_some, Option.some.injEq]
  generalize hb : ({ t with chunkRead := _ } : Take) = b
  have window : b.window = t.window := by rw [← hb]
  have read : ∃ ps, b.chunkRead = some { segment := g, pieces := ps } := by rw [← hb]; exact ⟨_, rfl⟩
  have state : b.state = t.state := by rw [← hb]
  split
  · exact ⟨b.inState .running, window, read, rfl,
      by simp [lanes_enter, State.modifyTake, State.setLane, State.take?, State.setSegment],
      by simp [State.setSegment], by simp [State.setSegment, leaveWaiting_waiting]⟩
  · exact ⟨b, window, read, state, by simp [State.setLane, State.setSegment], by simp [State.setSegment],
      by simp [State.setSegment, leaveWaiting_waiting]⟩

theorem stagingOk_freeSegment {s : State} (g : SegmentIx) (k : s.StagingOk) : (s.freeSegment g).1.StagingOk := by
  unfold State.freeSegment
  cases ended : s.endedUse g with
  | none => exact k
  | some o =>
    have un := unused_of_ended k ended
    have k' := (stagingOk_iff s).1 k
    simp only [Work.addTasks]
    cases next : s.staging.nextWaiting with
    | none =>
      have none_ := nextWaiting_none next
      have hand : (s.setSegment g .free).handOn g = (s.setSegment g .free, []) := by
        have : (s.setSegment g .free).staging.nextWaiting = none := next
        simp only [State.handOn, this]
      rw [hand]
      exact (stagingOk_iff _).2 (k'.frees un none_)
    | some m =>
      have mem := nextWaiting_some next
      obtain ⟨t, h, chunk, reading, room, st⟩ := k'.waiting m mem
      obtain ⟨u, eu, own⟩ := nextUse_some (n := m) reading
      obtain ⟨b, window, ⟨ps, read⟩, state, lanes, targets, staging⟩ :=
        handOn_eq (s := s.setSegment g .free) (g := g) next h eu
      have left := k'.fewerWaiting (w := s.staging.waiting.erase m) List.erase_sublist m
      have go : b.state ≠ .opened ∧ b.state ≠ .closed := by
        rw [state]
        rcases st with ⟨e, -⟩ | e | e <;> simp [e]
      refine stagingOk_of_parts ?_ ?_ ?_ ((stagingOk_iff _).2 (left.claims un h own room k.inOnce.not_mem_erase read window go))
      · rw [lanes]; rfl
      · rw [staging]
        simp [State.setSegment, State.setLane]
      · rw [targets]; rfl

theorem keeps_freeSegment (s : State) (g : SegmentIx) : Keeps given s (s.freeSegment g).1 where
  levels k := by
    unfold State.freeSegment
    cases s.endedUse g with
    | none => exact k
    | some o =>
      have free : (s.setSegment g .free).LevelsOk := levels_same (s := s) rfl (fun v => by cases v <;> exact Iff.rfl) k
      generalize s.setSegment g .free = v at free
      simp only [Work.addTasks, State.handOn]
      cases v.staging.nextWaiting with
      | none => exact free
      | some m =>
        have begun := levelsOk_beginRead (n := m) (g := g) (levels_same (s := v.leaveWaiting m)
          (t := { v.leaveWaiting m with staging := { (v.leaveWaiting m).staging with lastServed := m } }) rfl
          (fun w => by cases w <;> exact Iff.rfl) (levelsOk_leaveWaiting (n := m) free))
        simp only
        split
        · rename_i w
          obtain ⟨t, e, -⟩ := Option.map_eq_some_iff.1 w
          exact levelsOk_enter e .running begun
        · exact begun
  takes k := by
    unfold State.freeSegment
    cases s.endedUse g with
    | none => exact k
    | some o =>
      have free : (s.setSegment g .free).TakesOk := k
      generalize s.setSegment g .free = v at free
      simp only [Work.addTasks, State.handOn]
      cases v.staging.nextWaiting with
      | none => exact free
      | some m =>
        have left : (v.leaveWaiting m).TakesOk := (keeps_leaveWaiting (given := True) v m).takes free
        have begun := takesOk_beginRead (n := m) (g := g)
          (s := { v.leaveWaiting m with staging := { (v.leaveWaiting m).staging with lastServed := m } }) left
        simp only
        split
        · rename_i w
          obtain ⟨t, e, st⟩ := Option.map_eq_some_iff.1 w
          refine (enter_rest _ m .running).takesOk (takesOk_modifyTake (fun a e' ok => takeOk_inState ok ?_ rfl) begun)
          obtain rfl : t = a := Option.some.inj (e.symm.trans e')
          simp [st]
        · exact begun
  store := (frame_freeSegment s g).storeOk
  staging _ := stagingOk_freeSegment g

end Sys2Proof.Machine
end

