-- ==== Sys2Proof/Proofs/LaneAccounts.lean ====
section
/-! SUPPORT. The operations of the lanes and pools keep the accounts. -/

namespace Sys2Proof.Machine

variable {given : Prop}

/-! ### Operations that leave the lanes and the staging buffer alone -/

/-- An operation that keeps the accounts, the take contexts and the staging buffer. -/
structure Calm (s t : State) : Prop where
  keeps : Keeps True s t
  contexts : ∀ n, t.context? n = s.context? n
  staging : t.staging = s.staging

theorem Calm.refl (s : State) : Calm s s := ⟨.refl s, fun _ => rfl, rfl⟩

theorem Calm.trans {a b c : State} (h : Calm a b) (k : Calm b c) : Calm a c :=
  ⟨h.keeps.trans k.keeps, fun n => (k.contexts n).trans (h.contexts n), k.staging.trans h.staging⟩

theorem Calm.toKeeps {s t : State} (h : Calm s t) : Keeps given s t :=
  ⟨h.keeps.levels, h.keeps.takes, h.keeps.store, fun _ => h.keeps.staging trivial⟩

theorem Quiet.calm {s t : State} (h : Quiet s t) : Calm s t := ⟨h.keeps, h.contexts, h.staging⟩

theorem calm_foldl {α : Type} {f : State → α → State} (h : ∀ s x, Calm s (f s x)) :
    ∀ (xs : List α) (s : State), Calm s (xs.foldl f s)
  | [], s => .refl s
  | x :: xs, s => (h s x).trans (calm_foldl h xs _)

/-- A take stays, with its state, its reading and its chunk read. -/
theorem Calm.take {s t : State} (h : Calm s t) {n : LaneIx} {a : Take} (k : s.take? n = some a) :
    ∃ b, t.take? n = some b ∧ b.state = a.state ∧ b.reading = a.reading ∧ b.chunkRead = a.chunkRead := by
  obtain ⟨b, e, ctx⟩ := take_of_context (h.contexts n).symm k
  exact ⟨b, e, congrArg TakeContext.state ctx.symm, congrArg TakeContext.reading ctx.symm,
    congrArg TakeContext.chunkRead ctx.symm⟩

theorem Calm.out {s t : State} (h : Calm s t) {n : LaneIx} (k : n ∉ s.staging.waiting) : n ∉ t.staging.waiting :=
  h.staging ▸ k

theorem calm_modifyCopy (s : State) (n : LaneIx) (e : Nat) (x : TargetIx) (g : CopyRecord → CopyRecord) :
    Calm s (s.modifyCopy n e x g) := (quiet_modifyCopy s n e x g).calm

theorem calm_joinShort (s : State) (t : TargetIx) (n : LaneIx) : Calm s (s.joinShort t n) := by
  refine ⟨keeps_joinShort s t n, fun m => ?_, ?_⟩ <;> unfold State.joinShort <;> split
  · rfl
  · dsimp only
    split
    · simp only [State.context?, rise_take]; rfl
    · rfl
  · rfl
  · dsimp only
    split
    · rw [rise_staging]; rfl
    · rfl

theorem calm_leaveShort (s : State) (t : TargetIx) (n : LaneIx) : Calm s (s.leaveShort t n) := by
  refine ⟨keeps_leaveShort s t n, fun m => ?_, ?_⟩ <;> unfold State.leaveShort <;> split
  · dsimp only
    split <;> rfl
  · rfl
  · dsimp only
    split <;> rfl
  · rfl

theorem calm_leaveAllShort (s : State) (n : LaneIx) : Calm s (s.leaveAllShort n) :=
  calm_foldl (fun s t => calm_leaveShort s t n) _ s

theorem returnRuns_short (p : Pool) (rs : List Extent) : (p.returnRuns rs).short = p.short := by
  unfold Pool.returnRuns
  induction rs generalizing p with
  | nil => rfl
  | cons r rs ih =>
    rw [List.foldl_cons, ih]
    unfold Pool.returnRun
    dsimp only
    split <;> rfl

theorem calm_giveBack (s : State) (n : LaneIx) (e : Nat) (t : TargetIx) : Calm s (s.giveBack n e t) := by
  unfold State.giveBack
  split
  · exact .refl s
  · dsimp only
    split
    · exact (quiet_modifyPool s t _ (returnRuns_short _ _)).calm.trans (calm_modifyCopy _ n e t _)
    · exact calm_modifyCopy s n e t _

theorem calm_unallocate (s : State) (n : LaneIx) (e : Nat) : Calm s (s.unallocate n e) := by
  unfold State.unallocate
  exact ((calm_foldl (fun s x => calm_giveBack s n e x) _ s).trans
    (calm_foldl (fun s x => calm_modifyCopy s n e x _) _ _)).trans (quiet_modifyFile _ n e _).calm

theorem calm_dropAllocating (s : State) (n : LaneIx) : Calm s (s.dropAllocating n) := by
  unfold State.dropAllocating
  dsimp only
  split
  · exact (calm_unallocate _ _ _).trans (calm_leaveAllShort _ _)
  · exact calm_leaveAllShort _ _

theorem calm_askPool (s : State) (n : LaneIx) (e : Nat) (t : TargetIx) : Calm s (s.askPool n e t) := by
  unfold State.askPool
  split
  · exact .refl s
  · split
    · refine Calm.trans (Calm.trans (Quiet.calm ?_) (calm_modifyCopy _ n e t _)) (calm_leaveShort _ t n)
      exact quiet_modifyPool s t _ rfl
    · exact calm_joinShort s t n

/-! ### Lanes that are not waiting for a segment -/

/-- What a waiting lane's take says. -/
theorem waiting_take {s : State} (k : s.StagingOk) {n : LaneIx} {t : Take} (h : s.take? n = some t)
    (m : n ∈ s.staging.waiting) : t.chunkRead = none ∧ t.reading ≠ .none
      ∧ (t.state = .waiting ∧ t.waitReason = some .segments ∨ t.state = .stopping ∨ t.state = .draining) := by
  obtain ⟨a, e, chunk, reading, -, st⟩ := k.waiting n m
  obtain rfl : a = t := Option.some.inj (e.symm.trans h)
  exact ⟨chunk, reading, st⟩

/-- The states in which a lane may wait for a segment. -/
def TakeState.mayWait : TakeState → Bool
  | .waiting => true
  | .stopping => true
  | .draining => true
  | _ => false

theorem out_of_state {s : State} (k : s.StagingOk) {n : LaneIx} {t : Take} (h : s.take? n = some t)
    (st : t.state.mayWait = false) : n ∉ s.staging.waiting := fun m => by
  obtain ⟨-, -, ⟨e, -⟩ | e | e⟩ := waiting_take k h m <;> simp [e, TakeState.mayWait] at st

theorem out_of_reading {s : State} (k : s.StagingOk) {n : LaneIx} {t : Take} (h : s.take? n = some t)
    (r : t.reading = .none) : n ∉ s.staging.waiting := fun m => (waiting_take k h m).2.1 r

theorem out_of_chunk {s : State} (k : s.StagingOk) {n : LaneIx} {t : Take} (h : s.take? n = some t)
    (r : t.chunkRead ≠ none) : n ∉ s.staging.waiting := fun m => r (waiting_take k h m).1

/-- A change of a take's working state in which no chunk read begins. -/
structure WorkingChange (f : Take → Take) : Prop where
  kept : ∀ a : Take, a.Kept (f a)
  state : ∀ t : Take, (f t).state = t.state
  ok : ∀ t : Take, t.Ok → (f t).Ok
  chunk : ∀ t : Take, (f t).chunkRead = t.chunkRead ∨ (f t).chunkRead = none

/-- A lane that is not waiting changes the working state of its take. -/
theorem keeps_modifyTake {s : State} {n : LaneIx} {f : Take → Take} (w : WorkingChange f)
    (out : given → n ∉ s.staging.waiting) : Keeps given s (s.modifyTake n f) where
  levels := levelsOk_modifyTake w.state
  takes := takesOk_modifyTake fun t _ => w.ok t
  store := (frame_modifyTake s n w.kept).storeOk
  staging g k := stagingOk_modifyTake (fun t _ => w.chunk t) (fun t => (w.kept t).window) (out g)
    (fun t e r => k.resting n (by
      rw [State.resting, laneState_of_take e]
      simpa only [w.state, Option.some.injEq, reduceCtorEq, false_or] using r)) k

theorem Keeps.modifyFile {s t : State} (h : Keeps given s t) {n : LaneIx} {e : Nat} {f : FileEntry → FileEntry} :
    Keeps given s (t.modifyFile n e f) := h.trans (quiet_modifyFile t n e f).keeps

theorem Keeps.modifyCopy {s t : State} (h : Keeps given s t) {n : LaneIx} {e : Nat} {x : TargetIx}
    {g : CopyRecord → CopyRecord} : Keeps given s (t.modifyCopy n e x g) := h.modifyFile

theorem Keeps.latch {s t : State} (h : Keeps given s t) {c : Nat} : Keeps given s (t.latch c) :=
  h.trans (quiet_latch t c).keeps

/-- A lane enters RUNNING. -/
theorem keeps_enterRunning {s : State} {n : LaneIx} {t : Take} (h : s.take? n = some t) (live : t.state ≠ .closed)
    (out : given → n ∉ s.staging.waiting) : Keeps given s (s.enterRunning n).1 :=
  keeps_enter (st := .running) h live rfl fun g _ => .inl (out g)

/-- A lane enters INTERRUPTED. -/
theorem keeps_interrupt {s : State} {n : LaneIx} {t : Take} (h : s.take? n = some t) (live : t.state ≠ .closed) :
    Keeps given s (s.interrupt n) := by
  have drop := calm_dropAllocating s n
  obtain ⟨b, e, st, -⟩ := drop.take h
  have left : Keeps s.StagingOk s ((s.dropAllocating n).leaveWaiting n) := drop.toKeeps.trans (keeps_leaveWaiting _ n)
  refine Keeps.of_given (left.trans (keeps_enter (t := b) (by simpa using e) (by rwa [st]) rfl fun k _ => .inl ?_))
  exact leaveWaiting_out (drop.keeps.staging trivial k) n

theorem keeps_endWait (s : State) (n : LaneIx) : Keeps given s (s.endWait n).1 := by
  unfold State.endWait
  split
  · rename_i c
    obtain ⟨t, e, st⟩ := Option.map_eq_some_iff.1 c.1
    refine Keeps.of_given (keeps_enterRunning e (by simp [st]) fun k m => ?_)
    obtain ⟨-, -, ⟨-, r⟩ | r | r⟩ := waiting_take k e m
    · exact c.2 (by rw [e]; exact r)
    · simp [st] at r
    · simp [st] at r
  · exact .refl s

/-! ### File start and recopy start -/

/-- After quiet changes a lane that is not waiting changes its working state. -/
theorem Calm.modifyTake {s u : State} (c : Calm s u) {n : LaneIx} {f : Take → Take} (w : WorkingChange f)
    (out : given → n ∉ s.staging.waiting) : Keeps given s (u.modifyTake n f) :=
  c.toKeeps.trans (keeps_modifyTake w fun g => c.out (out g))

theorem keeps_beginFile {s : State} {n : LaneIx} (e : Nat) (on : List TargetIx) (out : given → n ∉ s.staging.waiting) :
    Keeps given s (s.beginFile n e on).1 := by
  have fold (s : State) (g : CopyRecord → CopyRecord) : Calm s (on.foldl (fun s x => s.modifyCopy n e x g) s) :=
    calm_foldl (fun s x => calm_modifyCopy s n e x g) _ s
  unfold State.beginFile
  split
  · dsimp only
    split
    · refine (((fold _ _).trans (fold _ _)).trans (quiet_modifyFile _ n e _).calm).modifyTake ?_ out
      exact ⟨fun _ => .same rfl, fun _ => rfl, fun _ ok => { ok with headHold := fun _ => rfl }, fun _ => .inl rfl⟩
    · refine ((fold _ _).trans (quiet_modifyFile _ n e _).calm).modifyTake ?_ out
      exact ⟨fun _ => .same rfl, fun _ => rfl, fun _ ok => { ok with headHold := fun _ => rfl }, fun _ => .inl rfl⟩
  · exact .refl s

theorem keeps_allocateFile {s : State} {n : LaneIx} {t : Take} (e : Nat) (on : List TargetIx) (h : s.take? n = some t)
    (live : t.state ≠ .closed) (out : given → n ∉ s.staging.waiting) : Keeps given s (s.allocateFile n e on).1 := by
  have asked (xs : List TargetIx) : Calm s (xs.foldl (fun s x => s.askPool n e x) s) :=
    calm_foldl (fun s x => calm_askPool s n e x) _ s
  unfold State.allocateFile
  dsimp only
  split
  · obtain ⟨b, e', st, -⟩ := (asked _).take h
    exact (asked _).toKeeps.trans (keeps_enterWaiting e' (by rwa [st]) _ fun g _ => (asked _).out (out g))
  · exact (asked _).toKeeps.trans (keeps_beginFile e on fun g => (asked _).out (out g))

/-- After quiet changes a lane enters WAITING. -/
theorem Calm.enterWaiting {s u : State} (c : Calm s u) {n : LaneIx} {t : Take} (h : s.take? n = some t)
    (live : t.state ≠ .closed) (r : WaitReason) (out : given → n ∉ s.staging.waiting) :
    Keeps given s (u.enterWaiting n r) := by
  obtain ⟨b, e', st, -⟩ := c.take h
  exact c.toKeeps.trans (keeps_enterWaiting e' (by rwa [st]) _ fun g _ => c.out (out g))

theorem Calm.allocateFile {s u : State} (c : Calm s u) {n : LaneIx} {t : Take} (e : Nat) (on : List TargetIx)
    (h : s.take? n = some t) (live : t.state ≠ .closed) (out : given → n ∉ s.staging.waiting) :
    Keeps given s (u.allocateFile n e on).1 := by
  obtain ⟨b, e', st, -⟩ := c.take h
  exact c.toKeeps.trans (keeps_allocateFile e on e' (by rwa [st]) fun g => c.out (out g))

theorem keeps_startFile {s : State} {n : LaneIx} {t : Take} (e : Nat) (h : s.take? n = some t) (live : t.state ≠ .closed)
    (out : given → n ∉ s.staging.waiting) : Keeps given s (s.startFile n e).1 := by
  unfold State.startFile
  split
  · dsimp only
    split
    · split
      · exact ((calm_unallocate s n e).trans (calm_leaveAllShort _ n)).enterWaiting h live _ out
      · refine Calm.allocateFile (calm_foldl (fun s x => ?_) _ s) e _ h live out
        exact ((calm_giveBack s n e x).trans (calm_modifyCopy _ n e x _)).trans (calm_leaveShort _ x n)
    · split
      · exact .refl s
      · split
        · exact (calm_leaveAllShort s n).enterWaiting h live _ out
        · refine Calm.allocateFile ((quiet_modifyFile s n e _).calm.trans (calm_foldl (fun s x => ?_) _ _)) e _ h live out
          exact calm_modifyCopy s n e x _
  · exact .refl s

theorem keeps_beginRecopy {s : State} {n : LaneIx} (e : Nat) (x : TargetIx) (out : given → n ∉ s.staging.waiting) :
    Keeps given s (s.beginRecopy n e x).1 := by
  unfold State.beginRecopy
  dsimp only
  refine Keeps.modifyCopy (keeps_modifyTake ?_ out)
  refine ⟨fun _ => .same rfl, fun _ => rfl, fun t ok => ?_, fun _ => .inl rfl⟩
  exact { ok with
    headHold := fun low => by
      have low' : t.state.keepsHold = false := low
      show (if t.state = .running then HeadHold.none else t.headHold) = .none
      split
      · rfl
      · exact ok.headHold low' }

/-! ### A lane's reading ends while it may be waiting -/

/-- The state with the waiting lanes replaced. -/
def State.withWaiting (s : State) (w : List LaneIx) : State := { s with staging := { s.staging with waiting := w } }

/-- A lane that leaves the waiting lanes at the end of an operation: for the staging buffer it is as if it had left
them at the start. -/
theorem keeps_leaving {s u : State} (n : LaneIx) (levels : s.LevelsOk → u.LevelsOk) (takes : s.TakesOk → u.TakesOk)
    (store : s.StoreOk → u.StoreOk) (staging : given → (s.withWaiting (s.staging.waiting.erase n)).StagingOk →
      n ∉ s.staging.waiting.erase n → (u.withWaiting (u.staging.waiting.erase n)).StagingOk) :
    Keeps given s (u.leaveWaiting n) where
  levels k := levelsOk_leaveWaiting (levels k)
  takes k := (keeps_leaveWaiting (given := True) u n).takes (takes k)
  store k := (keeps_leaveWaiting (given := True) u n).store (store k)
  staging g k := (leaveWaiting_rest u n).stagingOk (staging g ((stagingOk_iff _).2
    (((stagingOk_iff s).1 k).fewerWaiting List.erase_sublist s.staging.lastServed)) k.inOnce.not_mem_erase)

/-- The reading ends, and the lane leaves the waiting lanes. -/
theorem keeps_endReading_leave (s : State) (n : LaneIx) : Keeps given s ((s.endReading n).leaveWaiting n) := by
  refine keeps_leaving n (levelsOk_modifyTake fun _ => rfl) (takesOk_modifyTake fun _ _ ok => { ok with })
    (frame_endReading s n).storeOk fun _ k out => ?_
  exact stagingOk_modifyTake (s := s.withWaiting (s.staging.waiting.erase n)) (f := fun t => { t with reading := .none })
    (fun _ _ => .inl rfl) (fun _ => rfl) out (fun t e r => k.resting n (by
      rw [State.resting, laneState_of_take e]
      simpa using r)) k

theorem keeps_recopyLeft (s : State) (n : LaneIx) : Keeps given s (s.recopyLeft n).1 := by
  unfold State.recopyLeft
  cases h : s.take? n with
  | none => exact .refl s
  | some t =>
    dsimp only
    split
    · exact .refl s
    · exact .refl s
    · split
      · exact .refl s
      · split
        · rename_i w
          have left : Keeps s.StagingOk s ((s.endReading n).leaveWaiting n) := keeps_endReading_leave s n
          refine Keeps.of_given (left.trans (keeps_enterRunning (t := { t with reading := .none }) ?_ ?_ fun k => ?_))
          · simp [State.endReading, take_modifyTake, h]
          · simp [w]
          · rw [leaveWaiting_waiting]
            exact k.inOnce.not_mem_erase
        · exact keeps_endReading_leave s n

/-! ### The head -/

/-- A lane in RUNNING changes the working state of its take and enters another state. -/
theorem keeps_modifyTake_enter {s : State} {n : LaneIx} {t : Take} {f : Take → Take} {st : TakeState}
    (h : s.take? n = some t) (run : t.state = .running) (w : WorkingChange f) (go : st.underWay = true) :
    Keeps given s ((s.modifyTake n f).enter n st) := by
  have out (k : s.StagingOk) : n ∉ s.staging.waiting := out_of_state k h (by rw [run]; rfl)
  refine Keeps.of_given ((keeps_modifyTake w out).trans (keeps_enter (t := f t) ?_ ?_ go fun k _ => .inl (out k)))
  · rw [take_modifyTake, if_pos rfl, h, Option.map_some]
  · simp [w.state, run]

theorem keeps_workHead (s : State) (n : LaneIx) : Keeps given s (s.workHead n).1 := by
  unfold State.workHead
  cases h : s.take? n with
  | none => exact .refl s
  | some t =>
    dsimp only
    by_cases run : t.state ≠ .running
    · rw [if_pos run]; exact .refl s
    rw [if_neg run]
    have run : t.state = .running := not_not.1 run
    have live : t.state ≠ .closed := by simp [run]
    have out (k : s.StagingOk) : n ∉ s.staging.waiting := out_of_state k h (by rw [run]; rfl)
    have hold (x : HeadHold) : Keeps given s (s.setHold n x) := keeps_setHold h (.inl (by rw [run]; rfl))
    have enter {st : TakeState} (go : st.underWay = true) : Keeps given s (s.enter n st) :=
      keeps_enter h live go fun _ k => .inl (out k)
    by_cases reads : t.reading ≠ .none
    · rw [if_pos reads]; exact hold .none
    rw [if_neg reads]
    cases t.recopyList with
    | cons p _ =>
      dsimp only
      cases s.cardAtHand n with
      | true => rw [if_pos rfl]; exact Keeps.of_given (keeps_beginRecopy p.1 p.2 out)
      | false => simp only [Bool.false_eq_true, if_false]; exact keeps_interrupt h live
    | nil =>
      dsimp only
      cases t.entries[t.head]? with
      | none =>
        cases t.listEnded with
        | true => exact hold .none
        | false => exact enter (st := .starved) rfl
      | some en =>
        cases en with
        | file _ =>
          dsimp only
          cases s.cardAtHand n with
          | false => simp only [Bool.not_false, if_true]; exact keeps_interrupt h live
          | true =>
            simp only [Bool.not_true, Bool.false_eq_true, if_false]
            by_cases deep : Config.fileDepth ≤ t.depth
            · rw [if_pos deep]; exact hold .depth
            · rw [if_neg deep]
              have held : (s.setHold n .none).take? n = some { t with headHold := .none } := by
                simp [State.setHold, take_modifyTake, h]
              have holds : Keeps s.StagingOk s (s.setHold n .none) := keeps_setHold h (.inl (by rw [run]; rfl))
              exact Keeps.of_given (holds.trans (keeps_startFile t.head held live out))
        | mark k _ =>
          dsimp only
          cases t.earlierFinished with
          | true =>
            rw [if_pos rfl]
            have kept : ∀ a : Take, a.Kept
                { a with entries := a.entries.set a.head (.mark k true), head := a.head + 1, headHold := .none } :=
              fun _ => ⟨rfl, rfl, rfl, rfl, rfl, rfl, rfl, rfl, rfl, rfl, by simp, rfl⟩
            refine Keeps.of_given (Keeps.latch (keeps_modifyTake ?_ out))
            exact ⟨kept, fun _ => rfl, fun _ ok => { ok with headHold := fun _ => rfl }, fun _ => .inl rfl⟩
          | false => exact hold .mark
        | pause _ =>
          dsimp only
          cases t.earlierFinished with
          | true =>
            rw [if_pos rfl]
            have kept : ∀ a : Take, a.Kept { a with entries := a.entries.set a.head (.pause true), head := a.head + 1 } :=
              fun _ => ⟨rfl, rfl, rfl, rfl, rfl, rfl, rfl, rfl, rfl, rfl, by simp, rfl⟩
            refine keeps_modifyTake_enter (st := .suspended) h run ?_ rfl
            exact ⟨kept, fun _ => rfl, fun _ ok => { ok with }, fun _ => .inl rfl⟩
          | false => exact hold .pause
        | endOfList =>
          have drain : (s.enter n .draining).take? n = some (t.inState .draining) := by simp [take_enter, h]
          exact (enter rfl).trans (keeps_setHold drain (.inl rfl))

/-! ### Closing and going on -/

/-- A lane closes if nothing of it is left. -/
theorem keeps_closeIfClear {s : State} {n : LaneIx} {t : Take} (h : s.take? n = some t) (o : TakeOutcome)
    (out : s.StagingOk → n ∉ s.staging.waiting) : Keeps given s (s.closeIfClear n o).1 := by
  cases clear : s.laneClear n with
  | true =>
    rw [closeIfClear_of_clear o clear]
    exact keeps_closeTake h o fun _ k => ⟨out k, ((laneClear_iff s n).1 clear).2.1⟩
  | false =>
    rw [closeIfClear_of_left o clear]
    exact .refl s

theorem keeps_testDone {s : State} {n : LaneIx} {t : Take} (h : s.take? n = some t) :
    Keeps given s (s.testDone n t).1 := by
  unfold State.testDone
  split
  · rename_i c
    exact keeps_closeIfClear h _ fun k => out_of_reading k h c.1
  · exact .refl s

theorem keeps_serveOrClose {s : State} {n : LaneIx} {t : Take} (h : s.take? n = some t) :
    Keeps given s (s.serveOrClose n t).1 := by
  unfold State.serveOrClose
  by_cases reads : t.reading ≠ .none
  · rw [if_pos reads]; exact .refl s
  rw [if_neg reads]
  have out (k : s.StagingOk) : n ∉ s.staging.waiting := out_of_reading k h (not_not.1 reads)
  cases t.recopyList with
  | cons p rest =>
    dsimp only
    cases s.cardAtHand n with
    | true => rw [if_pos rfl]; exact Keeps.of_given (keeps_beginRecopy p.1 p.2 out)
    | false =>
      simp only [Bool.false_eq_true, if_false]
      by_cases drain : t.state = .draining
      · rw [if_pos drain]; dsimp only; exact keeps_interrupt h (by simp [drain])
      · rw [if_neg drain]
        refine Keeps.of_given (Keeps.modifyCopy (keeps_modifyTake ?_ out))
        exact ⟨fun _ => .same rfl, fun _ => rfl, fun _ ok => { ok with }, fun _ => .inl rfl⟩
  | nil =>
    dsimp only
    cases t.filesDone with
    | true => exact keeps_closeIfClear h _ out
    | false => exact .refl s

theorem keeps_testInterrupted {s : State} {n : LaneIx} {t : Take} (h : s.take? n = some t) (st : t.state = .interrupted) :
    Keeps given s (s.testInterrupted n t).1 := by
  unfold State.testInterrupted
  split
  · exact .refl s
  · exact Keeps.of_given (keeps_enterRunning h (by simp [st]) fun k => out_of_state k h (by rw [st]; rfl))

theorem keeps_goOn (s : State) (n : LaneIx) : Keeps given s (s.goOn n).1 := by
  unfold State.goOn
  cases h : s.take? n with
  | none => exact .refl s
  | some t =>
    dsimp only
    cases st : t.state with
    | stopping => exact keeps_serveOrClose h
    | draining => exact keeps_serveOrClose h
    | interrupted => exact keeps_testInterrupted h st
    | aborting => exact keeps_closeIfClear h .aborted fun k => out_of_state k h (by rw [st]; rfl)
    | running | opened | starved | waiting | suspended | closed => exact .refl s

theorem keeps_laneTests (s : State) (n : LaneIx) : Keeps given s (s.laneTests n).1 := by
  unfold State.laneTests
  cases h : s.take? n with
  | none => exact .refl s
  | some t =>
    dsimp only
    cases st : t.state with
    | interrupted => exact keeps_testInterrupted h st
    | aborting => exact keeps_closeIfClear h .aborted fun k => out_of_state k h (by rw [st]; rfl)
    | stopping => exact keeps_testDone h
    | draining => exact keeps_testDone h
    | running | opened | starved | waiting | suspended | closed => exact .refl s

/-- A lane enters STOPPING; one that waits for a segment goes on waiting. -/
theorem keeps_enterStopping {s : State} {n : LaneIx} {t : Take} (h : s.take? n = some t) (live : t.state ≠ .closed) :
    Keeps given s (s.enterStopping n).1 := by
  obtain ⟨b, e, st, -⟩ := (calm_dropAllocating s n).take h
  show Keeps given s ((s.dropAllocating n).enter n .stopping)
  exact (calm_dropAllocating s n).toKeeps.trans (keeps_enter (st := .stopping) e (by rwa [st]) rfl fun _ _ => .inr rfl)

theorem quiet_finishFile (s : State) (n : LaneIx) (e : Nat) : Quiet s (s.finishFile n e) :=
  (quiet_modifyFile s n e _).trans (quiet_modifyTake _ n fun _ => rfl)

theorem quiet_finishIf (s : State) (n : LaneIx) (e : Nat) : Quiet s (s.finishIf n e) := by
  unfold State.finishIf
  split
  · exact quiet_finishFile s n e
  · exact .refl s

theorem keeps_testFinish (s : State) (n : LaneIx) (e : Nat) : Keeps given s (s.testFinish n e).1 := by
  unfold State.testFinish
  split
  · exact (quiet_finishFile s n e).keeps
  · exact .refl s

end Sys2Proof.Machine
end

