-- ==== Sys2Proof/Proofs/ActionAccounts.lean ====
section
/-! SUPPORT. The chunk read's operations keep the accounts, and so does every follow-on action and all of them
together. -/

namespace Sys2Proof.Machine

variable {given : Prop}

/-! ### The waiting lanes are left alone -/

theorem withdrawAt_waiting (s : State) (n : LaneIx) (t : TargetIx) (p : WriteOrder → Bool) :
    (s.withdrawAt n t p).1.staging.waiting = s.staging.waiting := by
  obtain ⟨head, queued, -, -, eq⟩ := withdrawAt_eq s n t p
  rw [eq, countDowns_waiting]
  rfl

theorem withdraw_waiting (s : State) (n : LaneIx) (p : WriteOrder → Bool) :
    (s.withdraw n p).1.staging.waiting = s.staging.waiting := by
  unfold State.withdraw
  rw [forEach_state]
  generalize allTargets = ts
  induction ts generalizing s with
  | nil => rfl
  | cons t ts ih => rw [List.foldl_cons, ih, withdrawAt_waiting]

theorem fanOut_waiting (s : State) (n : LaneIx) (t : Take) (f : FileEntry) (u : SegmentUse) (g : SegmentIx) :
    (s.fanOut n t f u g).1.staging.waiting = s.staging.waiting := by
  unfold State.fanOut
  simp only [setSegment_waiting]
  rw [placeOrders_rest]

/-! ### Quiet operations of the chunk read -/

theorem quiet_foldPass (s : State) (n : LaneIx) (u : SegmentUse) (b : List Byte) : Quiet s (s.foldPass n u b) := by
  unfold State.foldPass
  split
  · exact quiet_modifyFile s n _ _
  · exact quiet_modifyTake s n fun _ => rfl

theorem quiet_countCorrected (s : State) (n : LaneIx) (u : SegmentUse) : Quiet s (s.countCorrected n u) := by
  have h : Quiet s (s.modifyTake n fun t =>
      { t with counters := { t.counters with corrected := satInc t.counters.corrected } }) :=
    quiet_modifyTake s n fun _ => rfl
  unfold State.countCorrected
  dsimp only
  split
  · exact h
  · exact h.trans (quiet_modifyFile _ n _ _)

theorem quiet_countDelivered (s : State) (n : LaneIx) (u : SegmentUse) (len : Nat) (p : Piece) (cls : ResultClass) :
    Quiet s (s.countDelivered n u len p cls) := by
  have h : Quiet s (s.modifyTake n fun t => { t with counters := { t.counters with
      bytesRead := satAdd 64 t.counters.bytesRead (fileBytesOf len p.sector p.count) } }) :=
    quiet_modifyTake s n fun _ => rfl
  unfold State.countDelivered
  dsimp only
  split
  · exact h.trans (quiet_countCorrected _ n u)
  · exact h

theorem quiet_damage (s : State) (n : LaneIx) (e : Nat) : Quiet s (s.damage n e) := by
  unfold State.damage
  cases s.file? n e with
  | none => exact .refl s
  | some f =>
    dsimp only
    split
    · split
      · exact (quiet_modifyFile s n e _).trans (quiet_latch _ _)
      · refine ((quiet_modifyFile s n e _).trans (quiet_modifyTake _ n ?_)).trans (quiet_latch _ _)
        exact fun _ => rfl
    · exact .refl s

/-! ### A lane that fills a segment -/

/-- Lane n, and no other, has a chunk read in flight into segment g, which it owns; it is not waiting for one. -/
structure State.fillsFor (s : State) (n : LaneIx) (g : SegmentIx) : Prop where
  read : ∃ t ps, s.take? n = some t ∧ t.chunkRead = some { segment := g, pieces := ps }
  filling : ∃ u d, s.segment g = .filling u d ∧ u.owner = n
  only : ∀ m t cr, s.take? m = some t → t.chunkRead = some cr → cr.segment = g → m = n
  out : n ∉ s.staging.waiting

theorem fillsFor_of_chunk {s : State} (k : s.StagingOk) {n : LaneIx} {t : Take} {cr : ChunkRead} (h : s.take? n = some t)
    (c : t.chunkRead = some cr) : s.fillsFor n cr.segment := by
  obtain ⟨u, d, e, own⟩ := k.reads n t cr h c
  refine ⟨⟨t, cr.pieces, h, c⟩, ⟨u, d, e, own⟩, fun m t' cr' h' c' same => ?_, out_of_chunk k h (by simp [c])⟩
  obtain ⟨v, d', e', own'⟩ := k.reads m t' cr' h' c'
  rw [same, e] at e'
  cases e'
  exact own'.symm.trans own

theorem State.fillsFor.quiet {s t : State} {n : LaneIx} {g : SegmentIx} (k : s.fillsFor n g) (h : Quiet s t) :
    t.fillsFor n g := by
  obtain ⟨a, ps, e, c⟩ := k.read
  obtain ⟨b, e', -, -, c'⟩ := h.calm.take e
  refine ⟨⟨b, ps, e', c'.trans c⟩, by simpa [segment_of_staging h.staging] using k.filling, fun m x cr hx cx same => ?_,
    h.staging ▸ k.out⟩
  obtain ⟨y, ey, ctx⟩ := take_of_context (h.contexts m) hx
  exact k.only m y cr ey ((congrArg TakeContext.chunkRead ctx).symm.trans cx) same

theorem keeps_storePiece (s : State) (g : SegmentIx) (b : List Byte) : Keeps given s (s.storePiece g b) := by
  unfold State.storePiece
  split
  · rename_i u d h
    exact keeps_refill h rfl
  · exact .refl s
  · exact .refl s

theorem State.fillsFor.storePiece {s : State} {n : LaneIx} {g : SegmentIx} (k : s.fillsFor n g) (b : List Byte) :
    (s.storePiece g b).fillsFor n g := by
  obtain ⟨u, d, e, own⟩ := k.filling
  simp only [State.storePiece, e]
  exact ⟨k.read, ⟨_, d, segment_setSegment_same _ _ _, own⟩, k.only, k.out⟩

theorem keeps_countChunkRead {s : State} {n : LaneIx} (out : given → n ∉ s.staging.waiting) :
    Keeps given s (s.countChunkRead n) := by
  refine keeps_modifyTake ?_ out
  exact ⟨fun _ => .same rfl, fun _ => rfl, fun _ ok => { ok with }, fun _ => .inr rfl⟩

theorem keeps_endReading {s : State} {n : LaneIx} (out : given → n ∉ s.staging.waiting) :
    Keeps given s (s.endReading n) := by
  refine keeps_modifyTake ?_ out
  exact ⟨fun _ => .same rfl, fun _ => rfl, fun _ ok => { ok with }, fun _ => .inl rfl⟩

theorem keeps_compareRecopy (s : State) (n : LaneIx) (e : Nat) (x : TargetIx) :
    Keeps given s (s.compareRecopy n e x).1 ∧ (s.compareRecopy n e x).1.staging.waiting = s.staging.waiting := by
  have h (b : Bool) (f : FileEntry) (out : State × List Task)
      (eq : out = if (f.copy x).state = .writing ∧ b = false then
        (s.modifyCopy n e x (CopyRecord.fail .sourceUnstable)).withdrawAt n x fun o => o.entry == e
      else (s, [])) : Keeps given s out.1 ∧ out.1.staging.waiting = s.staging.waiting := by
    subst eq
    split
    · exact ⟨(Keeps.modifyCopy (.refl s)).trans (keeps_withdrawAt _ n x _), withdrawAt_waiting _ n x _⟩
    · exact ⟨.refl s, rfl⟩
  unfold State.compareRecopy
  split
  · exact h _ _ _ rfl
  · exact ⟨.refl s, rfl⟩

/-- A chunk read that ends good: its segment is sent, or its lane's reading goes on or ends. -/
theorem keeps_chunkGood {s : State} {n : LaneIx} {g : SegmentIx} {u : SegmentUse} (k : given → s.fillsFor n g)
    (use : (s.segment g).use? = some u) : Keeps given s (s.chunkGood n g u).1 := by
  have out (g' : given) : n ∉ s.staging.waiting := (k g').out
  have counted : Keeps given s (s.countChunkRead n) := keeps_countChunkRead out
  have fill (g' : given) : (∃ d, s.segment g = .filling u d) ∧ u.owner = n := by
    obtain ⟨v, d, e, own⟩ := (k g').filling
    rw [e] at use
    cases use
    exact ⟨⟨d, e⟩, own⟩
  -- the state after the chunk has been counted and, for the file's own reading, its file's count raised
  have sent (s2 : State) (q : Quiet (s.countChunkRead n) s2) (t : Take) (f : FileEntry) :
      Keeps given s (s2.fanOut n t f u g).1 := by
    refine (counted.trans q.keeps).trans (keeps_fanOut s2 n t f (fun g' => ?_) (fun g' => (fill g').2) fun g' m a cr ha ca => ?_)
    · simpa [segment_of_staging q.staging, State.countChunkRead] using (fill g').1
    · obtain ⟨b, hb, ctx⟩ := take_of_context (q.contexts m) ha
      have cb : b.chunkRead = some cr := (congrArg TakeContext.chunkRead ctx).symm.trans ca
      unfold State.countChunkRead at hb
      rw [take_modifyTake] at hb
      split at hb
      · obtain ⟨c, -, rfl⟩ := Option.map_eq_some_iff.1 hb
        cases cb
      · exact fun same => absurd ((k g').only m b cr hb cb same) (by assumption)
  have waits (s2 : State) (q : Quiet (s.countChunkRead n) s2) (t : Take) (f : FileEntry) (g' : given) :
      n ∉ (s2.fanOut n t f u g).1.staging.waiting := by
    rw [fanOut_waiting, q.staging]
    exact out g'
  have next (s2 : State) (q : Quiet (s.countChunkRead n) s2) (t : Take) (f : FileEntry) :
      Keeps given s ((s2.fanOut n t f u g).1.modifyTake n fun t => { t with nextChunk := u.chunk + 1 }) := by
    refine (sent s2 q t f).trans (quiet_modifyTake _ n ?_).keeps
    exact fun _ => rfl
  unfold State.chunkGood
  cases pass : u.pass with
  | none =>
    have q : Quiet (s.countChunkRead n) ((s.countChunkRead n).modifyFile n u.entry fun f =>
      { f with chunksRead := f.chunksRead + 1 }) := quiet_modifyFile _ n _ _
    dsimp only
    split
    · split
      · exact (next _ q _ _).modifyFile.trans (keeps_endReading fun g' => waits _ q _ _ g')
      · exact next _ q _ _
    · exact counted.trans q.keeps
  | some x =>
    have q := Quiet.refl (s.countChunkRead n)
    dsimp only
    split
    · split
      · refine ((next _ q _ _).trans (keeps_compareRecopy _ n u.entry x).1).trans (keeps_endReading fun g' => ?_)
        rw [(keeps_compareRecopy (given := True) _ n u.entry x).2]
        exact waits _ q _ _ g'
      · split
        · exact next _ q _ _
        · exact (next _ q _ _).trans (keeps_endReading fun g' => waits _ q _ _ g')
    · exact counted

/-- The chunk read goes on with its next piece. -/
theorem keeps_nextPiece {s : State} {n : LaneIx} {g : SegmentIx} (k : given → s.fillsFor n g) (ps : List Piece) :
    Keeps given s (s.modifyTake n fun t => { t with chunkRead := some { segment := g, pieces := ps } }) where
  levels := levelsOk_modifyTake fun _ => rfl
  takes := takesOk_modifyTake fun _ _ ok => { ok with }
  store := (frame_modifyTake s n fun _ => .same rfl).storeOk
  staging given ok := by
    obtain ⟨⟨t, qs, h, c⟩, ⟨u, d, fill⟩, -, out⟩ := k given
    rw [modifyTake_of_take _ _ _ h, stagingOk_iff]
    rw [stagingOk_iff] at ok
    refine ok.setLane (fun cr e => ?_) (ok.window n t h) (fun m => absurd m out) fun r => ok.resting n ?_
    · cases e
      exact ⟨u, d, fill⟩
    · rw [State.resting, laneState_of_take h]
      simpa using r

theorem keeps_pieceDone {s : State} {n : LaneIx} {g : SegmentIx} (k : given → s.fillsFor n g) (rest : List Piece) :
    Keeps given s (s.pieceDone n g rest).1 := by
  unfold State.pieceDone
  cases rest with
  | nil =>
    dsimp only
    split
    · exact keeps_chunkGood k (by assumption)
    · exact .refl s
  | cons p ps => exact keeps_nextPiece k _

theorem keeps_haltTake (s : State) (n : LaneIx) : Keeps given s (s.haltTake n).1 := by
  have q : Quiet s (s.modifyTake n fun t => { t with halting := true }) := quiet_modifyTake s n fun _ => rfl
  have stop {st : TakeState} (live : st ≠ .closed)
      (h : (s.modifyTake n fun t => { t with halting := true }).laneState n = some st) :
      Keeps given s ((s.modifyTake n fun t => { t with halting := true }).enterStopping n).1 := by
    obtain ⟨t, e, st⟩ := Option.map_eq_some_iff.1 h
    exact q.keeps.trans (keeps_enterStopping e (by rwa [st]))
  unfold State.haltTake
  dsimp only
  split
  · exact stop (st := .running) (by simp) (by assumption)
  · exact stop (st := .suspended) (by simp) (by assumption)
  · exact stop (st := .draining) (by simp) (by assumption)
  · exact q.keeps

theorem keeps_fileUnreadable {s : State} {n : LaneIx} (out : given → n ∉ s.staging.waiting) (e : Nat) (g : SegmentIx) :
    Keeps given s (s.fileUnreadable n e g).1 := by
  have tail {u : State} (h : Keeps given s u) : Keeps given s ((u.withdraw n fun o => o.entry == e).1.finishIf n e) :=
    (h.trans (keeps_withdraw u n _)).trans (quiet_finishIf _ n e).keeps
  unfold State.fileUnreadable
  simp only
  split
  · refine Keeps.trans ?_ (keeps_haltTake _ n)
    refine tail (Keeps.latch ?_)
    refine Keeps.trans (keeps_countChunkRead out).modifyFile (keeps_modifyTake ?_ out)
    exact ⟨fun _ => .same rfl, fun _ => rfl, fun _ ok => { ok with }, fun _ => .inl rfl⟩
  · dsimp only
    refine tail (Keeps.latch ?_)
    refine Keeps.trans (keeps_countChunkRead out).modifyFile (keeps_modifyTake ?_ out)
    exact ⟨fun _ => .same rfl, fun _ => rfl, fun _ ok => { ok with }, fun _ => .inl rfl⟩

theorem keeps_recopyFailed {s : State} {n : LaneIx} (out : given → n ∉ s.staging.waiting) (e : Nat) (x : TargetIx)
    (g : SegmentIx) : Keeps given s (s.recopyFailed n e x g).1 := by
  have ended : Keeps given s ((s.countChunkRead n).endReading n) :=
    (keeps_countChunkRead out).trans (keeps_endReading out)
  unfold State.recopyFailed
  dsimp only
  split
  · exact ended.modifyCopy.trans (keeps_withdrawAt _ n x _)
  · exact ended

theorem keeps_discardPiece {s : State} {n : LaneIx} (out : given → n ∉ s.staging.waiting) (g : SegmentIx)
    (u : SegmentUse) (p : Piece) (cls : ResultClass) : Keeps given s (s.discardPiece n g u p cls).1 := by
  unfold State.discardPiece
  dsimp only
  split
  · exact keeps_countChunkRead out
  · split
    · have q := quiet_countDelivered s n u
      refine (q _ p cls).keeps.trans (keeps_countChunkRead fun g' => ?_)
      rw [(q _ p cls).staging]
      exact out g'
    · exact keeps_countChunkRead out

theorem keeps_deliverPiece {s : State} {n : LaneIx} {g : SegmentIx} (k : given → s.fillsFor n g) (u : SegmentUse)
    (len : Nat) (p : Piece) (rest : List Piece) (cls : ResultClass) (data : List Byte) :
    Keeps given s (s.deliverPiece n g u len p rest cls data).1 := by
  unfold State.deliverPiece
  dsimp only
  have q := (quiet_foldPass (s.storePiece g (fitSectors p.count data)) n u
    ((fitSectors p.count data).take (fileBytesOf len p.sector p.count))).trans (quiet_countDelivered _ n u len p cls)
  exact ((keeps_storePiece s g _).trans q.keeps).trans (keeps_pieceDone (fun g' => ((k g').storePiece _).quiet q) rest)

theorem keeps_fillPiece {s : State} {n : LaneIx} {g : SegmentIx} (k : given → s.fillsFor n g) (u : SegmentUse)
    (len : Nat) (p : Piece) (rest : List Piece) : Keeps given s (s.fillPiece n g u len p rest).1 := by
  unfold State.fillPiece
  dsimp only
  have q := (quiet_foldPass (s.storePiece g (zeroSectors p.count)) n u
    ((zeroSectors p.count).take (fileBytesOf len p.sector p.count))).trans (quiet_damage _ n u.entry)
  exact ((keeps_storePiece s g _).trans q.keeps).trans (keeps_pieceDone (fun g' => ((k g').storePiece _).quiet q) rest)

theorem keeps_pieceEnded (s : State) (n : LaneIx) (cls : ResultClass) (data : List Byte) :
    Keeps given s (s.pieceEnded n cls data).1 := by
  refine Keeps.of_given ?_
  unfold State.pieceEnded
  cases h : s.take? n with
  | none => exact .refl s
  | some t =>
    dsimp only
    cases c : t.chunkRead with
    | none => exact .refl s
    | some cr =>
      have fills (k : s.StagingOk) : s.fillsFor n cr.segment := fillsFor_of_chunk k h c
      have out (k : s.StagingOk) : n ∉ s.staging.waiting := (fills k).out
      dsimp only
      split
      · rename_i u discard p rest _ _
        by_cases h1 : discard = true
        · rw [if_pos h1]; exact keeps_discardPiece out cr.segment u p cls
        rw [if_neg h1]
        by_cases h2 : cls = .aborted
        · rw [if_pos h2]; exact keeps_countChunkRead out
        rw [if_neg h2]
        cases t.file? u.entry with
        | none => exact keeps_countChunkRead out
        | some f =>
          dsimp only
          by_cases h3 : cls.delivers = true
          · rw [if_pos h3]; exact keeps_deliverPiece fills u f.length p rest cls data
          rw [if_neg h3]
          cases u.pass with
          | some x => exact keeps_recopyFailed out u.entry x cr.segment
          | none =>
            dsimp only
            by_cases h4 : t.policy = .fill
            · rw [if_pos h4]; exact keeps_fillPiece fills u f.length p rest
            · rw [if_neg h4]; exact keeps_fileUnreadable out u.entry cr.segment
      · exact .refl s

/-! ### The card port -/

theorem quiet_beginPiece (s : State) (n : LaneIx) (r : CardRead) : Quiet s (s.beginPiece n r).1 := by
  unfold State.beginPiece
  split
  · exact .refl s
  · exact quiet_setSlot s n _

theorem quiet_offerPiece (s : State) (n : LaneIx) (r : CardRead) : Quiet s (s.offerPiece n r).1 := by
  unfold State.offerPiece
  split
  · exact quiet_beginPiece s n r
  · exact quiet_setSlot s n _

theorem quiet_handPiece (s : State) (n : LaneIx) : Quiet s (s.handPiece n).1 := by
  unfold State.handPiece
  split
  · exact .refl s
  · split
    · exact .refl s
    · split
      · exact .refl s
      · exact quiet_offerPiece s n _

/-! ### All follow-on actions -/

/-- Every follow-on action keeps the accounts. -/
theorem keeps_doTask (s : State) : ∀ t : Task, Keeps given s (doTask s t).1
  | .workHead n => keeps_workHead s n
  | .goOn n => keeps_goOn s n
  | .tryRead n => keeps_tryRead s n
  | .testFinish n e => keeps_testFinish s n e
  | .freeSegment g => keeps_freeSegment s g
  | .handPiece n => (quiet_handPiece s n).keeps
  | .pieceEnded n cls data => keeps_pieceEnded s n cls data
  | .endWait n => keeps_endWait s n
  | .recopyLeft n => keeps_recopyLeft s n
  | .laneTests n => keeps_laneTests s n
  | .takeReply _ c st _ => (quiet_answerClamped s c st _).keeps

/-- All follow-on actions of a step together keep the accounts. -/
theorem keeps_settled (w : Work) : Keeps given w.1 (settled w) := settled_keeps Keeps.refl Keeps.trans keeps_doTask w

end Sys2Proof.Machine
end

