-- ==== Sys2Proof/Proofs/AbortAccounts.lean ====
section
/-! SUPPORT. A lane whose reading is cut - by a removal or by an abort - keeps the accounts. It may be waiting for a
segment when the reading ends, and leaves the waiting lanes only after its orders have been withdrawn; what these do
does not depend on the waiting lanes. -/

namespace Sys2Proof.Machine

variable {given : Prop}

/-! ### Withdrawing does not look at the waiting lanes -/

theorem countDown_withWaiting (s : State) (w : List LaneIx) (g : SegmentIx) :
    ((s.withWaiting w).countDown g).1 = (s.countDown g).1.withWaiting w := by
  unfold State.countDown
  have same : (s.withWaiting w).segment g = s.segment g := rfl
  rw [same]
  cases s.segment g <;> rfl

/-- A change of the state that commutes with each operation of a list commutes with all of them. -/
theorem forEach_commutes {α : Type} {f : α → State → Work} {g : State → State}
    (h : ∀ x s, (f x (g s)).1 = g (f x s).1) (xs : List α) (s : State) :
    (forEach xs f (g s)).1 = g (forEach xs f s).1 := by
  simp only [forEach_state]
  induction xs generalizing s with
  | nil => rfl
  | cons x xs ih => rw [List.foldl_cons, h, ih]; rfl

theorem withdrawAt_withWaiting (s : State) (w : List LaneIx) (n : LaneIx) (t : TargetIx) (p : WriteOrder → Bool) :
    ((s.withWaiting w).withdrawAt n t p).1 = (s.withdrawAt n t p).1.withWaiting w := by
  unfold State.withdrawAt
  refine Eq.symm ?_
  exact (forEach_commutes (f := fun (o : WriteOrder) s => s.countDown o.segment) (g := (·.withWaiting w))
    (fun o s => countDown_withWaiting s w o.segment) _ _).symm

theorem withdraw_withWaiting (s : State) (w : List LaneIx) (n : LaneIx) (p : WriteOrder → Bool) :
    ((s.withWaiting w).withdraw n p).1 = (s.withdraw n p).1.withWaiting w :=
  forEach_commutes (f := fun t s => s.withdrawAt n t p) (g := (·.withWaiting w)) (fun t s => withdrawAt_withWaiting s w n t p) _ s

theorem withdrawAt_lanes (s : State) (n : LaneIx) (t : TargetIx) (p : WriteOrder → Bool) :
    (s.withdrawAt n t p).1.lanes = s.lanes := by
  obtain ⟨head, queued, -, -, eq⟩ := withdrawAt_eq s n t p
  rw [eq, countDowns_lanes]
  rfl

@[simp] theorem withdraw_lanes (s : State) (n : LaneIx) (p : WriteOrder → Bool) : (s.withdraw n p).1.lanes = s.lanes := by
  unfold State.withdraw
  rw [forEach_state]
  generalize allTargets = ts
  induction ts generalizing s with
  | nil => rfl
  | cons t ts ih => rw [List.foldl_cons, ih, withdrawAt_lanes]

/-! ### A cut reading -/

theorem keeps_cutFile {s : State} {n : LaneIx} (e : Nat) (out : given → n ∉ s.staging.waiting) :
    Keeps given s (s.cutFile n e) := by
  unfold State.cutFile
  refine (Keeps.refl s).modifyFile.trans (keeps_modifyTake ?_ out)
  exact ⟨fun _ => .same rfl, fun _ => rfl, fun _ ok => { ok with }, fun _ => .inl rfl⟩

theorem keeps_cutByRemoval (s : State) (n : LaneIx) (e : Nat) : Keeps given s (s.cutByRemoval n e).1 := by
  unfold State.cutByRemoval
  dsimp only
  refine Keeps.trans ?_ (quiet_finishIf _ n e).keeps
  have work (u : State) : Keeps (n ∉ u.staging.waiting) u ((u.cutFile n e).withdraw n fun o => o.entry == e).1 :=
    (keeps_cutFile e fun out => out).trans (keeps_withdraw _ n _)
  refine keeps_leaving n (work s).levels (work s).takes (work s).store fun _ k out => ?_
  rw [withdraw_waiting, ← withdraw_withWaiting]
  exact (work (s.withWaiting (s.staging.waiting.erase n))).staging out k

theorem keeps_recopyCutByRemoval (s : State) (n : LaneIx) (e : Nat) (x : TargetIx) :
    Keeps given s (s.recopyCutByRemoval n e x).1 := by
  have left : Keeps given s ((((s.withdrawAt n x fun o => o.entry == e).1).endReading n).leaveWaiting n) :=
    (keeps_withdrawAt s n x _).trans (keeps_endReading_leave _ n)
  unfold State.recopyCutByRemoval
  dsimp only
  split
  · refine Keeps.trans (left.modifyCopy.trans (Quiet.keeps (quiet_modifyTake _ n ?_)))
      (Quiet.keeps (quiet_modifyTake _ n ?_))
    · exact fun _ => rfl
    · exact fun _ => rfl
  · refine left.trans (Quiet.keeps (quiet_modifyTake _ n ?_))
    exact fun _ => rfl

theorem keeps_cutReading (s : State) (n : LaneIx) : ∀ r : Reading, Keeps given s (s.cutReading n r).1
  | .none => .refl s
  | .file e => keeps_cutByRemoval s n e
  | .recopy e x => keeps_recopyCutByRemoval s n e x

/-! ### ABORTING -/

theorem quiet_stopLaneVerifications (s : State) (n : LaneIx) (ts : List TargetIx) :
    Quiet s (s.stopLaneVerifications n ts) := by
  have stop (s : State) (t : TargetIx) : Quiet s (s.stopVerification t) := by
    unfold State.stopVerification
    split
    · exact .refl s
    · split
      · exact quiet_setActive s t _
      · exact quiet_setActive s t _
  have all (f : State → TargetIx → State) (h : ∀ s t, Quiet s (f s t)) (ts : List TargetIx) (s : State) :
      Quiet s (ts.foldl f s) := by
    induction ts generalizing s with
    | nil => exact .refl s
    | cons t ts ih => exact (h s t).trans (ih _)
  unfold State.stopLaneVerifications
  refine (quiet_verify s _).trans (all _ (fun s t => ?_) ts _)
  split
  · exact .refl s
  · split
    · exact stop s t
    · exact .refl s

/-- The discard flag of a FILLING segment is set. -/
def State.discards (s : State) (g : SegmentIx) : State :=
  match s.segment g with
  | .filling u _ => s.setSegment g (.filling u true)
  | .free => s
  | .sending _ _ => s

/-- Only the segment changes. -/
theorem discards_rest (s : State) (g : SegmentIx) :
    s.discards g = { s with staging := { s.staging with segments := (s.discards g).staging.segments } } := by
  unfold State.discards
  cases s.segment g <;> rfl

theorem discards_withWaiting (s : State) (w : List LaneIx) (g : SegmentIx) :
    (s.withWaiting w).discards g = (s.discards g).withWaiting w := by
  have same : (s.withWaiting w).segment g = s.segment g := rfl
  unfold State.discards
  rw [same]
  cases s.segment g <;> rfl

theorem keeps_discards (s : State) (g : SegmentIx) : Keeps given s (s.discards g) := by
  unfold State.discards
  split
  · rename_i h
    exact keeps_refill h rfl
  · exact .refl s
  · exact .refl s

/-- What an abort does to a chunk read. -/
theorem abortChunkRead_eq (s : State) (n : LaneIx) : s.abortChunkRead n =
    match (s.take? n).bind Take.chunkRead with
    | none => (s, [])
    | some cr =>
      if (s.slot n).waitingPiece.isSome then
        (((s.discards cr.segment).modifySlot n fun x => { x with waitingPiece := none }).countChunkRead n,
          [.freeSegment cr.segment])
      else (s.discards cr.segment, []) := by
  unfold State.abortChunkRead State.discards
  cases (s.take? n).bind Take.chunkRead with
  | none => rfl
  | some cr => cases h : s.segment cr.segment <;> simp [h]

theorem keeps_abortChunkRead {s : State} {n : LaneIx} (out : given → n ∉ s.staging.waiting) :
    Keeps given s (s.abortChunkRead n).1 := by
  rw [abortChunkRead_eq]
  split
  · exact .refl s
  · rename_i cr _
    have quiet := (keeps_discards (given := given) s cr.segment).trans
      (Quiet.keeps (quiet_setSlot _ n { (s.discards cr.segment).slot n with waitingPiece := none }))
    split
    · refine quiet.trans (keeps_countChunkRead fun g => ?_)
      rw [setSlot_staging, discards_rest]
      exact out g
    · exact keeps_discards s _

theorem abortChunkRead_withWaiting (s : State) (w : List LaneIx) (n : LaneIx) :
    ((s.withWaiting w).abortChunkRead n).1 = (s.abortChunkRead n).1.withWaiting w := by
  have take : (s.withWaiting w).take? n = s.take? n := rfl
  have slot : (s.withWaiting w).slot n = s.slot n := rfl
  rw [abortChunkRead_eq, abortChunkRead_eq, take, slot]
  cases (s.take? n).bind Take.chunkRead with
  | none => rfl
  | some cr =>
    simp only [discards_withWaiting]
    split <;> rfl

theorem abortChunkRead_waiting (s : State) (n : LaneIx) :
    (s.abortChunkRead n).1.staging.waiting = s.staging.waiting := by
  have discards (s : State) (g : SegmentIx) : (s.discards g).staging.waiting = s.staging.waiting := by rw [discards_rest]
  rw [abortChunkRead_eq]
  split
  · rfl
  · split
    · exact discards s _
    · exact discards s _

theorem laneState_of_lanes {s t : State} (h : t.lanes = s.lanes) (n : LaneIx) : t.laneState n = s.laneState n := by
  simp [State.laneState, State.take?, h]

theorem laneState_modifyTake {f : Take → Take} (h : ∀ t : Take, (f t).state = t.state) (s : State) (n m : LaneIx) :
    (s.modifyTake n f).laneState m = s.laneState m := by
  simp only [State.laneState, take_modifyTake]
  split
  · subst_vars; cases s.take? m <;> simp [h]
  · rfl

theorem laneState_modifyFile (s : State) (n m : LaneIx) (e : Nat) (f : FileEntry → FileEntry) :
    (s.modifyFile n e f).laneState m = s.laneState m := by
  unfold State.modifyFile
  refine laneState_modifyTake ?_ s n m
  exact fun _ => rfl

theorem cutFile_laneState (s : State) (n m : LaneIx) (e : Nat) : (s.cutFile n e).laneState m = s.laneState m := by
  unfold State.cutFile
  refine (laneState_modifyTake ?_ _ n m).trans (laneState_modifyFile s n m e _)
  exact fun _ => rfl

theorem endReading_laneState (s : State) (n m : LaneIx) : (s.endReading n).laneState m = s.laneState m := by
  unfold State.endReading
  refine laneState_modifyTake ?_ s n m
  exact fun _ => rfl

theorem abortChunkRead_laneState (s : State) (n m : LaneIx) :
    (s.abortChunkRead n).1.laneState m = s.laneState m := by
  rw [abortChunkRead_eq]
  split
  · rfl
  · split
    · refine (laneState_modifyTake ?_ _ n m).trans ?_
      · exact fun _ => rfl
      · rw [discards_rest]; rfl
    · rw [discards_rest]; rfl

/-- Every copy that is not terminal fails, and the lane's reading and recopy list end. -/
def Take.abandoned (t : Take) : Take :=
  { t with
    reading := .none, recopyList := []
    entries := t.entries.map (Entry.mapFile fun f =>
      { f with copies := f.copies.map (CopyRecord.failIf (fun c => !c.terminal t.verify) .aborted) }) }

/-- A lane's reading is cut and its copies fail, before the chunk read is aborted. -/
def State.abandon (s : State) (n : LaneIx) : State :=
  (match (s.take? n).map Take.reading with
    | some (.file e) => s.cutFile n e
    | _ => s).modifyTake n Take.abandoned

theorem keeps_abandon {s : State} {n : LaneIx} (out : given → n ∉ s.staging.waiting) :
    Keeps given s (s.abandon n) := by
  have working : WorkingChange Take.abandoned :=
    ⟨fun _ => ⟨rfl, rfl, rfl, rfl, rfl, rfl, rfl, rfl, rfl, rfl, by simp [Take.abandoned], rfl⟩, fun _ => rfl,
      fun _ ok => { ok with }, fun _ => .inl rfl⟩
  unfold State.abandon
  split
  · exact (keeps_cutFile _ out).trans (keeps_modifyTake working fun g => out g)
  · exact keeps_modifyTake working out

theorem abandon_withWaiting (s : State) (w : List LaneIx) (n : LaneIx) :
    (s.withWaiting w).abandon n = (s.abandon n).withWaiting w := by
  have take : (s.withWaiting w).take? n = s.take? n := rfl
  unfold State.abandon
  rw [take]
  split <;> rfl

theorem abandon_waiting (s : State) (n : LaneIx) : (s.abandon n).staging.waiting = s.staging.waiting := by
  unfold State.abandon
  split <;> rfl

theorem abandon_laneState (s : State) (n m : LaneIx) : (s.abandon n).laneState m = s.laneState m := by
  unfold State.abandon
  refine (laneState_modifyTake ?_ _ n m).trans ?_
  · exact fun _ => rfl
  split
  · exact cutFile_laneState s n m _
  · rfl

theorem keeps_enterAborting {s : State} {n : LaneIx} {t : Take} (h : s.take? n = some t) (live : t.state ≠ .closed) :
    Keeps given s (s.enterAborting n).1 := by
  have still := (quiet_stopLaneVerifications (s.withdraw n fun _ => true).1 n allTargets).calm.trans
    (calm_dropAllocating _ n)
  have start : Keeps s.StagingOk s (((s.withdraw n fun _ => true).1.stopLaneVerifications n allTargets).dropAllocating n) :=
    (keeps_withdraw s n _).trans still.toKeeps
  obtain ⟨b, e, st, -⟩ := still.take (n := n) (a := t) (by simpa [State.take?] using h)
  unfold State.enterAborting
  dsimp only
  refine Keeps.trans ?_ (keeps_foldl (fun s e => (quiet_finishIf s n e).keeps) _ _)
  generalize ((s.withdraw n fun _ => true).1.stopLaneVerifications n allTargets).dropAllocating n = u at start e ⊢
  show Keeps given s ((((u.abandon n).abortChunkRead n).1.leaveWaiting n).enter n .aborting)
  have work (u : State) : Keeps (n ∉ u.staging.waiting) u ((u.abandon n).abortChunkRead n).1 := by
    refine (keeps_abandon fun out => out).trans (keeps_abortChunkRead fun out => ?_)
    rwa [abandon_waiting]
  have left : Keeps s.StagingOk u ((((u.abandon n).abortChunkRead n).1).leaveWaiting n) := by
    refine keeps_leaving n (work u).levels (work u).takes (work u).store fun _ k out => ?_
    rw [abortChunkRead_waiting, abandon_waiting, ← abortChunkRead_withWaiting, ← abandon_withWaiting]
    exact (work (u.withWaiting (u.staging.waiting.erase n))).staging out k
  have state : ((((u.abandon n).abortChunkRead n).1).leaveWaiting n).laneState n = some b.state := by
    rw [State.laneState, leaveWaiting_take]
    show State.laneState _ n = _
    rw [abortChunkRead_laneState, abandon_laneState, laneState_of_take e]
  obtain ⟨c, e', st'⟩ := Option.map_eq_some_iff.1 state
  refine Keeps.of_given ((start.trans left).trans (keeps_enter e' (by rwa [st', st]) rfl fun k _ => .inl ?_))
  rw [leaveWaiting_waiting, abortChunkRead_waiting, abandon_waiting]
  exact (start.staging k k).inOnce.not_mem_erase

end Sys2Proof.Machine
end

