-- ==== Sys2Proof/Proofs/PortAccounts.lean ====
section
/-! SUPPORT. The events of the card ports and the drives keep the accounts. -/

namespace Sys2Proof.Machine

variable {given : Prop}

/-! ### Card ports -/

theorem quiet_answer (s : State) (st : Status) (b : List Byte) : Quiet s (s.answer st b) := quiet_answerClamped s false st b

theorem quiet_answerPeek (s : State) (p : Peek) (cls : ResultClass) (k : Nat) (d : List Byte) :
    Quiet s (s.answerPeek p cls k d) := by
  unfold State.answerPeek
  cases cls <;> exact quiet_answerClamped s _ _ _

theorem quiet_beginPeek (s : State) (n : LaneIx) (p : Peek) : Quiet s (s.beginPeek n p) := by
  unfold State.beginPeek
  split
  · exact quiet_answerPeek s p _ _ _
  · exact quiet_setSlot s n _

theorem quiet_offerPeek (s : State) (n : LaneIx) (p : Peek) : Quiet s (s.offerPeek n p) := by
  unfold State.offerPeek
  split
  · exact quiet_beginPeek s n p
  · exact quiet_setSlot s n _

theorem quiet_endPiece (s : State) (n : LaneIx) (cls : ResultClass) (d : List Byte) : Quiet s (s.endPiece n cls d).1 := by
  unfold State.endPiece
  dsimp only
  split
  · exact (quiet_setSlot s n _).trans (quiet_beginPeek _ n _)
  · exact quiet_setSlot s n _

theorem quiet_endPeek (s : State) (n : LaneIx) (p : Peek) (k : Nat) (cls : ResultClass) (d : List Byte) :
    Quiet s (s.endPeek n p k cls d).1 := by
  unfold State.endPeek
  dsimp only
  split
  · exact ((quiet_setSlot s n _).trans (quiet_answerPeek _ p cls k _)).trans (quiet_beginPiece _ n _)
  · exact (quiet_setSlot s n _).trans (quiet_answerPeek _ p cls k _)

theorem quiet_attemptEnded (s : State) (n : LaneIx) (cls : ResultClass) (d : List Byte) :
    Quiet s (s.attemptEnded n cls d).1 := by
  unfold State.attemptEnded
  split
  · exact .refl s
  · exact .refl s
  · split
    · exact quiet_setSlot s n _
    · exact quiet_endPiece s n _ d
  · split
    · exact quiet_setSlot s n _
    · exact quiet_endPeek s n _ _ _ d

theorem quiet_identifyAnswered (s : State) (n : LaneIx) (a : CardAnswer) : Quiet s (s.identifyAnswered n a) := by
  unfold State.identifyAnswered
  split
  · split
    · exact quiet_setSlot s n _
    · exact (quiet_setSlot s n _).trans (quiet_latch _ _)
  · exact quiet_setSlot s n _

theorem quiet_abortPeeks (s : State) (x : Slot) : Quiet s (s.abortPeeks x) := by
  have flight : Quiet s (match x.op with
      | .peek p k => s.answerPeek p .aborted k []
      | .piece _ _ => s
      | .identify => s
      | .none => s) := by
    cases x.op with
    | peek p k => exact quiet_answerPeek s p _ _ _
    | piece _ _ | identify | none => exact .refl s
  unfold State.abortPeeks
  dsimp only
  split
  · exact flight.trans (quiet_answerPeek _ _ _ _ _)
  · exact flight

/-! ### What a removal does to the lane -/

theorem quiet_foldl {α : Type} {f : State → α → State} (h : ∀ s x, Quiet s (f s x)) :
    ∀ (xs : List α) (s : State), Quiet s (xs.foldl f s)
  | [], s => .refl s
  | x :: xs, s => (h s x).trans (quiet_foldl h xs _)

theorem quiet_giveUpCardWork (s : State) (n : LaneIx) : Quiet s (s.giveUpCardWork n).1 := by
  unfold State.giveUpCardWork
  split
  · exact .refl s
  · refine ((quiet_foldl (fun s p => quiet_modifyFile s n _ _) _ s).trans
      (quiet_foldl (fun s p => quiet_modifyCopy s n _ _ _) _ _)).trans (quiet_modifyTake _ n ?_)
    exact fun _ => rfl

theorem keeps_afterRemoval {s : State} {n : LaneIx} {t : Take} (h : s.take? n = some t) (live : t.state ≠ .closed)
    (out : given → n ∉ s.staging.waiting) : Keeps given s (s.afterRemoval n t).1 := by
  unfold State.afterRemoval
  split
  · dsimp only; exact keeps_interrupt h live
  · split
    · exact keeps_enterRunning h live out
    · exact .refl s

/-- A lane whose reading has been cut is not waiting for a segment. -/
theorem cutReading_out {s : State} (k : s.StagingOk) {n : LaneIx} {t : Take} (h : s.take? n = some t) :
    n ∉ (s.cutReading n t.reading).1.staging.waiting := by
  cases e : t.reading with
  | none => exact out_of_reading k h e
  | file i =>
    simp only [State.cutReading, State.cutByRemoval]
    rw [(quiet_finishIf _ n i).staging, leaveWaiting_waiting, withdraw_waiting]
    exact k.inOnce.not_mem_erase
  | recopy i x =>
    simp only [State.cutReading, State.recopyCutByRemoval]
    have left : n ∉ ((((s.withdrawAt n x fun o => o.entry == i).1).endReading n).leaveWaiting n).staging.waiting := by
      rw [leaveWaiting_waiting]
      show n ∉ (s.withdrawAt n x _).1.staging.waiting.erase n
      rw [withdrawAt_waiting]
      exact k.inOnce.not_mem_erase
    split
    · exact left
    · exact left

/-- Cutting its reading leaves a lane in its state. -/
theorem cutReading_laneState (s : State) (n m : LaneIx) (r : Reading) :
    (s.cutReading n r).1.laneState m = s.laneState m := by
  cases r with
  | none => rfl
  | file e =>
    simp only [State.cutReading, State.cutByRemoval]
    refine (laneState_of_context ((quiet_finishIf _ n e).contexts m)).trans ?_
    refine (laneState_of_lanes ?_ m).trans (cutFile_laneState s n m e)
    rw [leaveWaiting_lanes, withdraw_lanes]
  | recopy e x =>
    have left : ((((s.withdrawAt n x fun o => o.entry == e).1).endReading n).leaveWaiting n).laneState m
        = s.laneState m := by
      refine (laneState_of_lanes (leaveWaiting_lanes _ n) m).trans ?_
      exact (endReading_laneState _ n m).trans (laneState_of_lanes (withdrawAt_lanes s n x _) m)
    simp only [State.cutReading, State.recopyCutByRemoval]
    refine (laneState_modifyTake ?_ _ n m).trans ?_
    · exact fun _ => rfl
    · split
      · refine ((laneState_modifyTake ?_ _ n m).trans (laneState_modifyFile _ n m _ _)).trans left
        exact fun _ => rfl
      · exact left

theorem keeps_laneRemoval {s : State} {n : LaneIx} {t : Take} (h : s.take? n = some t) (live : t.state ≠ .closed) :
    Keeps given s (s.laneRemoval n t).1 := by
  have cut : Keeps s.StagingOk s (s.cutReading n t.reading).1 := keeps_cutReading s n t.reading
  have state : (s.cutReading n t.reading).1.laneState n = some t.state := by
    rw [cutReading_laneState, laneState_of_take h]
  have out (k : s.StagingOk) := cutReading_out k h
  unfold State.laneRemoval
  dsimp only
  generalize (s.cutReading n t.reading).1 = u at cut state out ⊢
  have drop := calm_dropAllocating u n
  have start : Keeps s.StagingOk s (u.dropAllocating n) := cut.trans drop.toKeeps
  obtain ⟨a, e, st⟩ := Option.map_eq_some_iff.1 state
  obtain ⟨b, e', st', -⟩ := drop.take e
  have live' : b.state ≠ .closed := by rwa [st', st]
  have out' (k : s.StagingOk) : n ∉ (u.dropAllocating n).staging.waiting := drop.out (out k)
  generalize u.dropAllocating n = v at start e' out' ⊢
  rw [e']
  dsimp only
  split
  · simp only [State.stoppingRemoval, Work.addTasks]
    exact Keeps.of_given (start.trans (quiet_giveUpCardWork v n).keeps)
  · exact Keeps.of_given (start.trans (keeps_afterRemoval e' live' out'))

theorem keeps_reportRemoval (s : State) (n : LaneIx) : Keeps given s (s.reportRemoval n).1 := by
  unfold State.reportRemoval
  cases h : s.take? n with
  | none => exact .refl s
  | some t =>
    dsimp only
    cases st : t.state with
    | opened | closed | interrupted | aborting => exact .refl s
    | running | starved | waiting | suspended | stopping | draining => exact keeps_laneRemoval h (by simp [st])

theorem keeps_cardRemoved (s : State) (n : LaneIx) : Keeps given s (s.cardRemoved n).1 := by
  have start : Quiet s (((s.modifySlot n Slot.remove).abortPeeks (s.slot n)).latch (condSlotRemoved n)) :=
    ((quiet_setSlot s n _).trans (quiet_abortPeeks _ _)).trans (quiet_latch _ _)
  unfold State.cardRemoved
  dsimp only
  split
  · exact (start.keeps.trans (keeps_pieceEnded _ n _ _)).trans (keeps_reportRemoval _ n)
  · exact start.keeps.trans (keeps_reportRemoval _ n)

end Sys2Proof.Machine
end

