-- ==== Sys2Proof/Proofs/DriveAccounts.lean ====
section
/-! SUPPORT. The events of the drives keep the accounts: a target's state moves with its fault level, and the orders
of a target that leaves ONLINE are counted down. -/

namespace Sys2Proof.Machine

variable {given : Prop}

/-! ### A target changes its state -/

theorem AttentionOnly.holds {s t : State} (h : AttentionOnly s t) (v : Level) : t.holds v ↔ s.holds v := by
  cases v <;> simp only [State.holds, State.laneState, State.take?, State.target, State.pool, h.lanes, h.targets, h.pools,
    h.staging]

/-- From s to u, of what the accounts speak of, only target t's state and, as `staging` says, orders and segments have
changed. -/
structure MovesTarget (given : Prop) (t : TargetIx) (s u : State) : Prop where
  asserted : u.attention.asserted = s.attention.asserted
  freeEntries : u.freeEntries = s.freeEntries
  contexts : ∀ n, u.context? n = s.context? n
  waiting : u.staging.waiting = s.staging.waiting
  states : ∀ y, y ≠ t → (u.target y).state = (s.target y).state
  shorts : ∀ y, (u.pool y).short = (s.pool y).short
  staging : given → s.StagingOk → u.StagingOk

namespace MovesTarget
variable {t : TargetIx} {s u v : State}

theorem then_quiet (h : MovesTarget given t s u) (k : Quiet u v) : MovesTarget given t s v where
  asserted := k.asserted.trans h.asserted
  freeEntries := k.freeEntries.trans h.freeEntries
  contexts n := (k.contexts n).trans (h.contexts n)
  waiting := by rw [k.staging]; exact h.waiting
  states y ne := (k.states y).trans (h.states y ne)
  shorts y := (k.shorts y).trans (h.shorts y)
  staging g o := (k.keeps (given := given)).staging g (h.staging g o)

theorem takes (h : MovesTarget given t s u) : s.TakesOk → u.TakesOk := Quiet.takesOk h.contexts

theorem store (h : MovesTarget given t s u) : s.StoreOk → u.StoreOk :=
  storeOk_same h.freeEntries fun n => entriesHeld_of_context (h.contexts n)

/-- The levels' owners stand as before, but for t's fault. -/
theorem holds (h : MovesTarget given t s u) (v : Level) (ne : v ≠ .fault t) : u.holds v ↔ s.holds v := by
  cases v with
  | fault y => simp only [State.holds, h.states y fun e => ne (e ▸ rfl)]
  | waiting n | suspended n | starved n => simp only [State.holds, laneState_of_context (h.contexts _)]
  | short y => simp only [State.holds, h.shorts]
  | dry => simp only [State.holds, h.waiting]

/-- The target was not FAULTED and is not. -/
theorem keeps (h : MovesTarget given t s u) (old : (s.target t).state ≠ .faulted) (new : (u.target t).state ≠ .faulted) :
    Keeps given s u where
  levels := levels_same h.asserted fun v => by
    by_cases e : v = .fault t
    · subst e; simp [State.holds, old, new]
    · exact h.holds v e
  takes := h.takes
  store := h.store
  staging := h.staging

/-- The target is FAULTED now, and its level rises. -/
theorem rises (h : MovesTarget given t s u) (new : (u.target t).state = .faulted) :
    Keeps given s (u.rise (condTargetFault t)) where
  levels k := by
    refine levels_rise (.fault t) (fun v => ?_) k (by simp [State.rise, Level.cond, h.asserted])
    rw [(attentionOnly_rise u _).holds]
    by_cases e : v = .fault t
    · subst e; simp [State.holds, new]
    · simp [h.holds v e, e]
  takes k := (attentionOnly_rise u _).takesOk (h.takes k)
  store k := storeOk_same (s := u) (by simp) (fun n => by simp [State.entriesHeld]) (h.store k)
  staging g k := (attentionOnly_rise u _).stagingOk (h.staging g k)

/-- The target is no longer FAULTED, and its level falls. -/
theorem falls (h : MovesTarget given t s u) (new : (u.target t).state ≠ .faulted) :
    Keeps given s (u.fall (condTargetFault t)) where
  levels k := by
    refine levels_fall (.fault t) (fun v => ?_) k (by simp [State.fall, Level.cond, h.asserted])
    rw [(attentionOnly_fall u _).holds]
    by_cases e : v = .fault t
    · subst e; simp [State.holds, new]
    · simp [h.holds v e, e]
  takes k := (attentionOnly_fall u _).takesOk (h.takes k)
  store k := storeOk_same (s := u) (by simp) (fun n => by simp [State.entriesHeld]) (h.store k)
  staging g k := (attentionOnly_fall u _).stagingOk (h.staging g k)

end MovesTarget

/-- A target record is changed, its FIFOs left. -/
theorem moves_modifyTarget (s : State) (t : TargetIx) (f : Target → Target)
    (fifos : (f (s.target t)).fifos = (s.target t).fifos) : MovesTarget given t s (s.modifyTarget t f) where
  asserted := rfl
  freeEntries := rfl
  contexts _ := rfl
  waiting := rfl
  states y ne := by rw [modifyTarget_eq, target_setTarget_ne _ _ _ _ ne]
  shorts _ := rfl
  staging _ := stagingOk_of_same (fun _ => rfl) rfl fun y n => by
    simp only [State.orderSegments, modifyTarget_eq, target_setTarget]
    split
    · subst_vars; simp only [fifos]
    · rfl

/-! ### A target leaves ONLINE -/

theorem forEach_forEach {α β : Type} (l : α → List β) (f : β → State → Work) (xs : List α) (s : State) :
    (forEach xs (fun x => forEach (l x) f) s).1 = (forEach (xs.flatMap l) f s).1 := by
  simp only [forEach_state, List.foldl_flatMap]

theorem countDowns_setTarget {α : Type} (seg : α → SegmentIx) (os : List α) (s : State) (t : TargetIx) (x : Target) :
    (forEach os (fun o s => s.countDown (seg o)) (s.setTarget t x)).1
      = (forEach os (fun o s => s.countDown (seg o)) s).1.setTarget t x :=
  forEach_commutes (f := fun o s => s.countDown (seg o)) (g := (·.setTarget t x)) (fun o s => by
    unfold State.countDown
    rw [setTarget_segment]
    cases s.segment (seg o) <;> rfl) os s

/-- A target's FIFOs are purged: each of its orders is counted down. -/
theorem stagingOk_purge {s : State} {t : TargetIx} {x : Target} (empty : ∀ n : LaneIx, x.fifos[n] = [])
    (k : s.StagingOk) : ((forEach allLanes (fun n => forEach ((s.target t).fifos[n]) fun (o : WriteOrder) s =>
      s.countDown o.segment) s).1.setTarget t x).StagingOk := by
  rw [forEach_forEach, ← countDowns_setTarget]
  refine (stagingOk_iff _).2 (State.Owing.countDowns WriteOrder.segment _ (State.Owing.ordersLeave
    ((stagingOk_iff s).1 k) t (s.orderSegments t) (fun _ => rfl) rfl (fun n => ?_) (fun y ne n => ?_) fun g => ?_))
  · simp [State.orderSegments, empty]
  · simp only [State.orderSegments, target_setTarget_ne _ _ _ _ ne]
  · simp only [List.map_flatMap, List.count_flatMap, allLanes, Fin.sum_univ_def, State.orderSegments, Function.comp_def]

/-- What leaving ONLINE does to the rest of the accounts. -/
theorem moves_purge (s : State) (t : TargetIx) (f : Target → Target) (empty : ∀ n : LaneIx, (f (s.target t)).fifos[n] = []) :
    MovesTarget given t s ((forEach allLanes (fun n => forEach ((s.target t).fifos[n]) fun (o : WriteOrder) s =>
      s.countDown o.segment) s).1.modifyTarget t f) := by
  have there : (forEach allLanes (fun n => forEach ((s.target t).fifos[n]) fun (o : WriteOrder) s =>
      s.countDown o.segment) s).1.target t = s.target t := by rw [forEach_forEach, countDowns_target]
  rw [modifyTarget_eq, there]
  refine ⟨?_, ?_, fun n => ?_, ?_, fun y ne => ?_, fun y => ?_, fun _ => stagingOk_purge empty⟩
  all_goals simp only [forEach_forEach, setTarget_attention, setTarget_freeEntries, setTarget_staging, setTarget_pool,
    State.context?, setTarget_take]
  · rw [countDowns_attention]
  · rw [countDowns_freeEntries]
  · simp only [State.take?, countDowns_lanes]
  · rw [countDowns_waiting]
  · rw [target_setTarget_ne _ _ _ _ ne, countDowns_target]
  · simp only [State.pool, countDowns_pools]

/-- What leaving ONLINE does: the target has moved, and a fault is reported. -/
theorem leaveOnline_moves (s : State) (t : TargetIx) (st : TargetState) (why : Option FaultReason) (reason : CopyReason)
    (timeout : Bool) : ∃ u, MovesTarget given t s u ∧ (u.target t).state = st
      ∧ (s.leaveOnline t st why reason timeout).1 = if st = .faulted then u.rise (condTargetFault t) else u := by
  have fail (s : State) (n : LaneIx) : Quiet s (s.modifyTake n fun tk => tk.failTarget t reason) :=
    quiet_modifyTake s n fun tk => by simp [Take.context, Take.failTarget]
  have whole (f : Target → Target) (empty : ∀ n : LaneIx, (f (s.target t)).fifos[n] = []) (new : ∀ x, (f x).state = st)
      (u : State) (q : Quiet ((forEach allLanes (fun n => forEach ((s.target t).fifos[n]) fun (o : WriteOrder) s =>
        s.countDown o.segment) s).1.modifyTarget t f) u) : ∃ v, MovesTarget given t s v ∧ (v.target t).state = st
        ∧ (if st = .faulted then u.rise (condTargetFault t) else u)
          = if st = .faulted then v.rise (condTargetFault t) else v :=
    ⟨u, (moves_purge (given := given) s t f empty).then_quiet q, by
      rw [q.states, modifyTarget_eq, target_setTarget_same, new], rfl⟩
  unfold State.leaveOnline
  dsimp only
  refine whole (fun x => { x with
    state := st, faultReason := why, fifos := Vector.replicate 8 [], op := .none, holder := none, grantCount := 0
    waitingHost := none }) (fun n => by simp) (fun _ => rfl) _ ?_
  refine Quiet.trans ?_ (quiet_foldl fail allLanes _)
  refine Quiet.trans ?_ (quiet_setActive _ t none)
  refine Quiet.trans ?_ (quiet_verify _ _)
  split
  · refine Quiet.trans ?_ (quiet_answer _ _ _)
    split
    · exact quiet_answer _ _ _
    · exact .refl _
  · split
    · exact quiet_answer _ _ _
    · exact .refl _

theorem keeps_leaveOnline {s : State} {t : TargetIx} (st : TargetState) (why : Option FaultReason) (reason : CopyReason)
    (timeout : Bool) (h : st = .faulted ∨ (s.target t).state ≠ .faulted) :
    Keeps given s (s.leaveOnline t st why reason timeout).1 := by
  obtain ⟨u, moved, state, eq⟩ := leaveOnline_moves (given := given) s t st why reason timeout
  rw [eq]
  split
  · exact moved.rises (by rwa [state])
  · rename_i ne
    exact moved.keeps (h.resolve_left ne) (by rwa [state])

theorem state_leaveOnline (s : State) (t : TargetIx) (st : TargetState) (why : Option FaultReason) (reason : CopyReason)
    (timeout : Bool) : ((s.leaveOnline t st why reason timeout).1.target t).state = st := by
  obtain ⟨u, -, state, eq⟩ := leaveOnline_moves (given := True) s t st why reason timeout
  rw [eq]
  split
  · rwa [rise_target]
  · exact state

/-! ### Attach and link loss -/

theorem quiet_modifyPool_empty (s : State) (t : TargetIx) : Quiet s (s.modifyPool t Pool.empty) :=
  quiet_modifyPool s t _ rfl

theorem moves_enterAbsent (s : State) (t : TargetIx) : MovesTarget given t s (s.enterAbsent t) :=
  (moves_modifyTarget s t _ rfl).then_quiet (quiet_modifyPool_empty _ t)

theorem state_enterAbsent (s : State) (t : TargetIx) : ((s.enterAbsent t).target t).state = .absent := by
  simp [State.enterAbsent, Target.detach, modifyTarget_eq, modifyPool_eq]

theorem keeps_linkLost (s : State) (t : TargetIx) : Keeps given s (s.linkLost t).1 := by
  unfold State.linkLost
  cases st : (s.target t).state with
  | absent => exact .refl s
  | attaching | offline =>
    exact (moves_enterAbsent s t).keeps (by simp [st]) (by simp [state_enterAbsent])
  | online =>
    simp only [Work.andThen]
    refine (keeps_leaveOnline .absent none .absent false (.inr (by simp [st]))).trans
      ((moves_enterAbsent _ t).keeps ?_ (by simp [state_enterAbsent]))
    rw [state_leaveOnline]
    simp
  | faulted =>
    exact (moves_enterAbsent s t).falls (by simp [state_enterAbsent])

theorem keeps_attachFailed (s : State) (t : TargetIx) (r : FaultReason) : Keeps given s (s.attachFailed t r) := by
  refine (moves_modifyTarget s t _ ?_).rises ?_
  · rfl
  · simp [modifyTarget_eq]

theorem quiet_setIdentity (s : State) (t : TargetIx) (i : DriveIdentity) : Quiet s (s.setIdentity t i) := by
  unfold State.setIdentity
  split
  · exact .refl s
  · exact (quiet_modifyTarget s t _ rfl rfl).trans (quiet_modifyPool_empty _ t)

theorem keeps_driveAnswered {s : State} {t : TargetIx} (st : (s.target t).state ≠ .faulted) (a : DriveAnswer) :
    Keeps given s (s.driveAnswered t a).1 := by
  unfold State.driveAnswered
  cases a with
  | error => exact keeps_attachFailed s t _
  | identity serial capacity =>
    dsimp only
    split
    · exact keeps_attachFailed s t _
    · unfold State.attached
      dsimp only
      have q := quiet_setIdentity s t { serial := serial, capacity := takenCapacity capacity }
      refine Keeps.latch (q.keeps.trans ((moves_modifyTarget _ t _ ?_).keeps ?_ ?_))
      · rfl
      · rwa [q.states]
      · simp [modifyTarget_eq]

theorem keeps_deviceFault (s : State) (t : TargetIx) (r : FaultReason) : Keeps given s (s.deviceFault t r).1 :=
  keeps_leaveOnline .faulted _ _ _ (.inl rfl)

/-! ### Write pieces -/

/-- The order at the head of a FIFO leaves it and is counted down. -/
theorem keeps_orderLeaves {s : State} {t : TargetIx} {n : LaneIx} {o : WriteOrder}
    (h : ((s.target t).fifos[n]).head? = some o) : Keeps given s (s.orderLeaves t n o).1 := by
  obtain ⟨rest, e⟩ := List.head?_eq_some_iff.1 h
  refine keeps_dropOrders (kept := ((s.target t).fifos[n]).drop 1) (gone := [o]) (f := fun x =>
    { x with op := .none, fifos := x.fifos.set n.val ((x.fifos[n]).drop 1) n.isLt }) rfl rfl ?_
  rw [e]
  exact (List.perm_append_singleton o.segment (rest.map WriteOrder.segment)).symm

theorem quiet_repeatPiece {s : State} {t : TargetIx} {n : LaneIx} {o : WriteOrder}
    (h : ((s.target t).fifos[n]).head? = some o) : Quiet s (s.repeatPiece t n o) := by
  obtain ⟨rest, e⟩ := List.head?_eq_some_iff.1 h
  refine ⟨rfl, rfl, fun _ => rfl, rfl, fun y => ?_, fun y m => ?_, fun _ => rfl⟩
  · simp only [State.repeatPiece, modifyTarget_eq, target_setTarget]
    split
    · subst_vars; rfl
    · rfl
  · simp only [State.orderSegments, State.repeatPiece, modifyTarget_eq, target_setTarget]
    split
    · subst_vars
      simp only [Fin.getElem_fin, Vector.getElem_set]
      split
      · rename_i same
        obtain rfl : n = m := Fin.ext same
        have e' : (s.target y).fifos[n.val] = o :: rest := e
        simp [e']
      · rfl
    · rfl

theorem quiet_placeVerifyOrder (s : State) (n : LaneIx) (e : Nat) (x : TargetIx) : Quiet s (s.placeVerifyOrder n e x) :=
  (quiet_modifyCopy s n e x _).trans (quiet_verify _ _)

theorem quiet_orderApplies (s : State) (n : LaneIx) (e : Nat) (x : TargetIx) : Quiet s (s.orderApplies n e x).1 := by
  unfold State.orderApplies
  split
  · split
    · dsimp only
      split
      · unfold State.copyWritten
        dsimp only
        split
        · exact ((quiet_modifyCopy s n e x _).trans (quiet_modifyCopy _ n e x _)).trans (quiet_placeVerifyOrder _ n e x)
        · exact (quiet_modifyCopy s n e x _).trans (quiet_modifyCopy _ n e x _)
      · exact quiet_modifyCopy s n e x _
    · exact .refl s
  · exact .refl s

theorem keeps_pieceWritten {s : State} {t : TargetIx} {n : LaneIx} {o : WriteOrder}
    (h : ((s.target t).fifos[n]).head? = some o) (i : Nat) (error : Bool) :
    Keeps given s (s.pieceWritten t n i o error).1 := by
  unfold State.pieceWritten
  split
  · exact keeps_orderLeaves h
  · split
    · split
      · exact (quiet_repeatPiece h).keeps
      · exact keeps_deviceFault s t _
    · split
      · dsimp only
        refine Quiet.keeps (quiet_modifyTarget s t _ ?_ ?_) <;> rfl
      · simp only [State.orderCompletes, Work.andThen]
        exact (keeps_orderLeaves h).trans (quiet_orderApplies _ n _ t).keeps

/-! ### Readback reads -/

theorem keeps_joinRecopyList (s : State) (n : LaneIx) (e : Nat) (x : TargetIx) :
    Keeps given s (s.joinRecopyList n e x).1 := by
  have q : Quiet s (s.modifyTake n fun t => { t with recopyList := t.recopyList ++ [(e, x)] }) :=
    quiet_modifyTake s n fun _ => rfl
  unfold State.joinRecopyList
  dsimp only
  split
  · rename_i st
    obtain ⟨t, h, st⟩ := Option.map_eq_some_iff.1 st
    refine Keeps.of_given (q.keeps.trans (keeps_enterRunning h (by simp [st]) fun k => ?_))
    exact out_of_state ((q.keeps (given := True)).staging trivial k) h (by simp [st, TakeState.mayWait])
  · exact q.keeps

theorem keeps_verificationResult (s : State) (n : LaneIx) (e : Nat) (x : TargetIx) (t : Take) (f : FileEntry) (d : Digest) :
    Keeps given s (s.verificationResult n e x t f d).1 := by
  have copy (s : State) (g : CopyRecord → CopyRecord) : Keeps given s (s.modifyCopy n e x g) := (quiet_modifyCopy s n e x g).keeps
  have result (b : Bool) (st : CopyState) (s : State) : Keeps given s (if b = true then
      (s.modifyCopy n e x fun c => { c with state := .verified }, [Task.testFinish n e])
    else if st = .recopyWait then (s.modifyCopy n e x fun c => { c with state := st }).joinRecopyList n e x
      else (s.modifyCopy n e x fun c => { c with state := st }, [.testFinish n e])).1 := by
    split
    · exact copy _ _
    · split
      · exact (copy _ _).trans (keeps_joinRecopyList _ n e x)
      · exact copy _ _
  unfold State.verificationResult
  exact (copy s _).trans (result _ _ _)

theorem keeps_readFolded (s : State) (x : TargetIx) (v : Verification) (d : List Byte) :
    Keeps given s (s.readFolded x v d).1 := by
  have active (v : Option Verification) : Keeps given s (s.setActive x v) := (quiet_setActive s x v).keeps
  unfold State.readFolded
  split
  · split
    · dsimp only
      split
      · exact active _
      · exact (active _).trans (keeps_verificationResult _ _ _ x _ _ _)
    · exact active _
  · exact active _

theorem keeps_readEnded (s : State) (x : TargetIx) (v : Verification) (repeated error : Bool) (d : List Byte) :
    Keeps given s (s.readEnded x v repeated error d).1 := by
  unfold State.readEnded
  split
  · split
    · exact keeps_deviceFault s x _
    · dsimp only
      refine Quiet.keeps (quiet_modifyTarget s x _ ?_ ?_) <;> rfl
  · dsimp only
    have q : Quiet s (s.modifyTarget x fun y => { y with op := .none }) := quiet_modifyTarget s x _ rfl rfl
    split
    · exact (q.trans (quiet_setActive _ x none)).keeps
    · exact q.keeps.trans (keeps_readFolded _ x v d)

theorem quiet_hostAnswered (s : State) (h : HostOp) (error : Bool) (d : List Byte) : Quiet s (s.hostAnswered h error d) := by
  unfold State.hostAnswered
  split
  · exact quiet_answer s _ _
  · split <;> exact quiet_answer s _ _

end Sys2Proof.Machine
end

