-- ==== Sys2Proof/Proofs/BatchChecks.lean ====
section
/-! The checks of APPEND ENTRIES on a batch of entries. -/

namespace Sys2Proof.Machine

/-- END stands at most at the end of a batch. -/
theorem end_only_last_iff (batch : List Entry) : batch.dropLast.any Entry.isEnd = false
    ↔ ∀ i, batch[i]? = some .endOfList → i + 1 = batch.length := by
  have isEnd (e : Entry) : e.isEnd = true ↔ e = .endOfList := by cases e <;> simp [Entry.isEnd]
  constructor
  · intro h i e
    by_contra late
    have inside : i < batch.length := (List.getElem?_eq_some_iff.1 e).1
    have mem : Entry.endOfList ∈ batch.dropLast :=
      List.mem_of_getElem? (i := i) (by rw [List.getElem?_dropLast, if_pos (by omega), e])
    exact absurd h (by simpa using ⟨_, mem, (isEnd _).2 rfl⟩)
  · intro h
    rw [Bool.eq_false_iff]
    intro any
    obtain ⟨e, mem, is⟩ := List.any_eq_true.1 any
    obtain ⟨i, at_⟩ := List.mem_iff_getElem?.1 mem
    rw [List.getElem?_dropLast] at at_
    split at at_
    · have := h i (at_.trans (congrArg some ((isEnd e).1 is)))
      omega
    · cases at_

/-- The fields of every FILE entry of a batch are as R3 and R22 want them. -/
theorem fieldsOk_all_iff (batch : List Entry) : batch.all Entry.fieldsOk = true
    ↔ ∀ f, Entry.file f ∈ batch → f.length < 2 ^ 40 ∧ f.runs.length ≤ 16 ∧ (∀ r ∈ f.runs, 1 ≤ r.len)
        ∧ (f.runs.map Extent.len).sum = (f.length + 511) / 512 := by
  have one (f : FileEntry) : (Entry.file f).fieldsOk = true ↔ f.length < 2 ^ 40 ∧ f.runs.length ≤ 16
      ∧ (∀ r ∈ f.runs, 1 ≤ r.len) ∧ (f.runs.map Extent.len).sum = (f.length + 511) / 512 := by
    simp only [Entry.fieldsOk, Bool.and_eq_true, decide_eq_true_eq]
    simp [FileEntry.sectors, Config.lengthLimit, ceilDiv, Config.sectorBytes, and_assoc,
      Nat.one_le_iff_ne_zero]
  rw [List.all_eq_true]
  constructor
  · exact fun h f mem => (one f).1 (h _ mem)
  · intro h e mem
    cases e with
    | file f => exact (one f).2 (h f mem)
    | mark _ _ | pause _ | endOfList => rfl

/-- No run of a batch ends above a card. -/
theorem none_beyond_iff (batch : List Entry) (sectors : Nat) : batch.findIdx? (Entry.beyond sectors) = none
    ↔ ∀ f, Entry.file f ∈ batch → ∀ r ∈ f.runs, r.start + r.len ≤ sectors := by
  rw [List.findIdx?_eq_none_iff]
  constructor
  · exact fun h f mem r run => by simpa [Entry.beyond] using (List.any_eq_false.1 (h _ mem)) r run
  · intro h e mem
    cases e with
    | file f => exact List.any_eq_false.2 fun r run => by simpa using h f mem r run
    | mark _ _ | pause _ | endOfList => rfl

/-- The checks of APPEND ENTRIES, one after another. -/
theorem appendRefusal_eq_none_iff (t : Take) (free : Nat) (batch : List Entry) : appendRefusal t free batch = none
    ↔ (batch ≠ [] ∧ batch.length ≤ 16) ∧ batch.dropLast.any Entry.isEnd = false ∧ batch.all Entry.fieldsOk = true
      ∧ (∀ c, t.snapshot = some c → batch.findIdx? (Entry.beyond c.sectors.toNat) = none)
      ∧ t.entries.length + batch.length ≤ Config.takeEntries ∧ batch.length ≤ free := by
  have step {p : Prop} [Decidable p] (x : Status × List Byte) (o : Option (Status × List Byte)) :
      (if p then some x else o) = none ↔ ¬ p ∧ o = none := by simp [ite_eq_iff]
  unfold appendRefusal
  rw [step, step, step, List.isEmpty_iff, not_or, not_lt, Bool.not_eq_true, Bool.not_eq_true', Bool.not_eq_false]
  refine and_congr Iff.rfl (and_congr Iff.rfl (and_congr Iff.rfl ?_))
  cases t.snapshot with
  | none => simp [step]
  | some c => cases e : batch.findIdx? (Entry.beyond c.sectors.toNat) <;> simp [step, e, -List.findIdx?_eq_none_iff]

/-- Settles O31: each check of APPEND ENTRIES is one of the conditions. -/
theorem batchesAreCheckedWhole : Obligations.BatchesAreCheckedWhole := by
  intro t free batch
  rw [appendRefusal_eq_none_iff, end_only_last_iff, fieldsOk_all_iff]
  simp only [none_beyond_iff]
  have some_ : batch ≠ [] ↔ 1 ≤ batch.length := by rw [← List.length_pos_iff]; exact Iff.rfl
  have store : Config.takeEntries = 4096 := rfl
  rw [some_, store]
  constructor
  · rintro ⟨⟨low, high⟩, last, fields, card, room, free⟩
    exact ⟨low, high, last, fun f mem => by
      obtain ⟨len, runs, pos, sum⟩ := fields f mem
      exact ⟨len, runs, pos, sum, fun c snap => card c snap f mem⟩, room, free⟩
  · rintro ⟨low, high, last, fields, room, free⟩
    refine ⟨⟨low, high⟩, last, fun f mem => ?_, fun c snap f mem => ?_, room, free⟩
    · obtain ⟨len, runs, pos, sum, -⟩ := fields f mem
      exact ⟨len, runs, pos, sum⟩
    · obtain ⟨-, -, -, -, card⟩ := fields f mem
      exact card c snap

end Sys2Proof.Machine
end

