-- ==== Sys2Proof/Proofs/RequestAccounts.lean ====
section
/-! SUPPORT. Every request keeps the accounts. -/

namespace Sys2Proof.Machine

variable {given : Prop}

/-! ### The entry store's account when one lane's take changes -/

theorem entriesHeld_setLane (s : State) (n m : LaneIx) (x : Option Take) : (s.setLane n x).entriesHeld m
    = if m = n then (x.map fun t => t.entries.length).getD 0 else s.entriesHeld m := by
  unfold State.entriesHeld
  rw [take_setLane]
  split <;> rfl

theorem sum_entriesHeld_setLane (s : State) (n : LaneIx) (x : Option Take) :
    (allLanes.map (s.setLane n x).entriesHeld).sum + s.entriesHeld n
      = (allLanes.map s.entriesHeld).sum + (x.map fun t => t.entries.length).getD 0 := by
  have lanes (f : LaneIx → Nat) : (allLanes.map f).sum = ∑ m, f m := by rw [Fin.sum_univ_def]; rfl
  have rest : ∑ m ∈ Finset.univ.erase n, (s.setLane n x).entriesHeld m = ∑ m ∈ Finset.univ.erase n, s.entriesHeld m :=
    Finset.sum_congr rfl fun m h => by rw [entriesHeld_setLane, if_neg (Finset.ne_of_mem_erase h)]
  rw [lanes, lanes, ← Finset.add_sum_erase _ _ (Finset.mem_univ n), ← Finset.add_sum_erase _ s.entriesHeld
    (Finset.mem_univ n), rest, entriesHeld_setLane, if_pos rfl]
  omega

/-- Entries join or leave a lane's take and the free count. -/
theorem storeOk_setLane {s u : State} {n : LaneIx} {x : Option Take}
    (held : ∀ m, u.entriesHeld m = (s.setLane n x).entriesHeld m)
    (free : u.freeEntries + (x.map fun t => t.entries.length).getD 0 = s.freeEntries + s.entriesHeld n)
    (each : (x.map fun t => t.entries.length).getD 0 ≤ Config.takeEntries) (k : s.StoreOk) : u.StoreOk where
  total := by
    have sum := sum_entriesHeld_setLane s n x
    have total := k.total
    rw [funext held]
    omega
  each m := by
    rw [held, entriesHeld_setLane]
    split
    · exact each
    · exact k.each m

/-! ### OPEN TAKE and RELEASE TAKE -/

theorem clampWindow_range (w : Nat) : 1 ≤ clampWindow w ∧ clampWindow w ≤ 32 := by
  unfold clampWindow
  split <;> omega

theorem clampRetries_range (r : Nat) :
    clampRetries r = 0 ∨ clampRetries r = 1 ∨ clampRetries r = 2 ∨ clampRetries r = 4 := by
  unfold clampRetries
  split <;> omega

theorem create_ok {label : BitVec 16} {ts : TargetSet} {k : Nat} {verify : Bool} {policy : ReadPolicy}
    {mismatch : MismatchResponse} {r : Nat} {alternate : Bool} {w : Nat} (low : 1 ≤ k) (high : k ≤ setSize ts) :
    (Take.create label ts k verify policy mismatch (clampRetries r) alternate (clampWindow w)).Ok where
  kLow := low
  kHigh := high
  window := clampWindow_range w
  retries := clampRetries_range r
  waitReason := by simp [Take.create]
  headHold _ := rfl
  snapshot _ := rfl
  outcome := by simp [Take.create]
  cleared := by simp [Take.create]
  clearance := by simp [Take.create]

/-- A lane's take is created or removed, where the lane holds no segment and is in no state with a level. -/
theorem levelsOk_setLane {s : State} {n : LaneIx} {x : Option Take} (old : (s.laneState n).bind (Level.ofLane n) = none)
    (new : (x.map Take.state).bind (Level.ofLane n) = none) (k : s.LevelsOk) : (s.setLane n x).LevelsOk := by
  refine levels_same (s := s) rfl (fun v => ?_) k
  have same (st : TakeState) (m : LaneIx) (lvl : Level.ofLane m st ≠ none) :
      (s.setLane n x).laneState m = some st ↔ s.laneState m = some st := by
    rw [laneState_setLane]
    split
    · subst_vars
      constructor
      · exact fun e => absurd (by rw [e] at new; exact new) lvl
      · exact fun e => absurd (by rw [e] at old; exact old) lvl
    · rfl
  cases v with
  | waiting m | suspended m | starved m => exact same _ m (by simp [Level.ofLane])
  | fault _ | short _ | dry => exact Iff.rfl

theorem keeps_open {s : State} {n : LaneIx} {t : Take} (idle : s.take? n = none) (ok : t.Ok) (st : t.state = .opened)
    (chunk : t.chunkRead = none) (empty : t.entries = []) : Keeps given s (s.setLane n (some t)) where
  levels := levelsOk_setLane (by simp [State.laneState, idle]) (by simp [st, Level.ofLane])
  takes k := by
    intro m a e
    rw [take_setLane] at e
    split at e
    · cases e; exact ok
    · exact k m a e
  store := storeOk_setLane (fun _ => rfl) (by simp [State.entriesHeld, idle, empty]) (by simp [empty])
  staging _ k := by
    have none_ : heldSegments s n = 0 := k.resting n (.inl (by simp [State.laneState, idle]))
    rw [stagingOk_iff] at k ⊢
    refine k.setLane (by simp [chunk]) (by omega) (fun m => ?_) fun _ => none_
    obtain ⟨a, e, -⟩ := k.waiting n m
    rw [idle] at e
    cases e

/-- A lane's take is removed that holds no segment and is not waiting. -/
theorem State.Owing.vacates {s : State} {l : List SegmentIx} (k : s.Owing l) {n : LaneIx} (out : n ∉ s.staging.waiting)
    (none_ : heldSegments s n = 0) : (s.setLane n none).Owing l where
  outstanding := k.outstanding
  owed := k.owed
  orders := k.orders
  once := k.once
  reads m t cr e c := by
    rw [take_setLane] at e
    split at e
    · cases e
    · exact k.reads m t cr e c
  window m t e := by
    rw [take_setLane] at e
    split at e
    · cases e
    · exact k.window m t e
  noneFree := k.noneFree
  inOnce := k.inOnce
  waiting m w := by
    have ne : m ≠ n := by rintro rfl; exact out w
    rw [take_setLane_ne _ _ _ _ ne]
    exact k.waiting m w
  resting m r := by
    simp only [State.resting, laneState_setLane] at r
    split at r
    · subst_vars; exact none_
    · exact k.resting m r

/-- A CLOSED lane is freed: its entries return. -/
theorem keeps_release {s : State} {n : LaneIx} {t : Take} (h : s.take? n = some t) (st : t.state = .closed) :
    Keeps given s ({ s with freeEntries := s.freeEntries + t.entries.length }.setLane n none) where
  levels k := levelsOk_setLane (by show (s.laneState n).bind _ = _; simp [laneState_of_take h, st, Level.ofLane]) rfl
    (levels_same (s := s) rfl (fun v => by cases v <;> rfl) k)
  takes k := by
    intro m a e
    rw [take_setLane] at e
    split at e
    · cases e
    · exact k m a e
  store := storeOk_setLane (x := none) (fun _ => rfl) (by simp [State.entriesHeld, h]) (by simp)
  staging _ k := by
    have none_ : heldSegments s n = 0 := k.resting n (.inr (.inr (by simp [laneState_of_take h, st])))
    have out : n ∉ s.staging.waiting := out_of_state k h (by rw [st]; rfl)
    have k' : ({ s with freeEntries := s.freeEntries + t.entries.length } : State).StagingOk :=
      stagingOk_of_same (s := s) (fun _ => rfl) rfl (fun _ _ => rfl) k
    exact (stagingOk_iff _).2 (((stagingOk_iff _).1 k').vacates out none_)

theorem quiet_reclaim (s : State) (as : List (TargetIx × Allocation)) : Quiet s (s.reclaim as).1 := by
  have one (s : State) (x : TargetIx) (a : Allocation) : Quiet s (s.reclaimOne x a) := by
    unfold State.reclaimOne
    split
    · exact quiet_modifyPool s x _ (returnRuns_short _ _)
    · exact .refl s
  have all (as : List (TargetIx × Allocation)) (p : State × Nat) :
      Quiet p.1 (as.foldl (fun p a => (p.1.reclaimOne a.1 a.2, p.2 + p.1.reclaimDrops a.1 a.2)) p).1 := by
    induction as generalizing p with
    | nil => exact .refl p.1
    | cons a as ih => exact (one p.1 a.1 a.2).trans (ih (p.1.reclaimOne a.1 a.2, p.2 + p.1.reclaimDrops a.1 a.2))
  exact all as (s, 0)

/-- A reply is composed, or a follow-on action will compose it. -/
theorem keeps_refuseTake (s : State) (n : LaneIx) (st : Status) (b : List Byte) : Keeps given s (s.refuseTake n st b).1 :=
  (quiet_answerClamped s false st _).keeps

theorem keeps_answer (s : State) (st : Status) (b : List Byte) : Keeps given s (s.answer st b) := (quiet_answer s st b).keeps

theorem keeps_openTake (lane : Byte) (label : BitVec 16) (ts k v p m r al w : Byte) (s : State) :
    Keeps given s (serveOpenTake lane label ts k v p m r al w s).1 := by
  unfold serveOpenTake
  split
  · exact keeps_answer s _ _
  · rename_i n _
    split
    · exact keeps_refuseTake s n _ _
    · rename_i idle
      split
      · split
        · exact keeps_refuseTake s n _ _
        · rename_i set verify policy mismatch alternate _ _ _ _ _ fits
          have low : k.toNat ≠ 0 := fun e => fits (.inr (.inl (BitVec.eq_of_toNat_eq e)))
          refine keeps_open idle (create_ok (by omega) ?_) rfl rfl rfl
          exact Nat.le_of_not_lt fun e => fits (.inr (.inr e))
      · exact keeps_refuseTake s n _ _

theorem keeps_releaseTake (lane reclaim : Byte) (s : State) : Keeps given s (serveReleaseTake lane reclaim s).1 := by
  unfold serveReleaseTake
  split
  · exact keeps_answer s _ _
  · rename_i n _
    split
    · exact keeps_refuseTake s n _ _
    · rename_i t h
      split
      · exact keeps_refuseTake s n _ _
      · rename_i st
        split
        · exact keeps_refuseTake s n _ _
        · rename_i flag _
          dsimp only
          have q : Quiet s (if flag then s.reclaim t.reclaimable else (s, 0)).1 := by
            split
            · exact quiet_reclaim s _
            · exact .refl s
          generalize (if flag then s.reclaim t.reclaimable else (s, 0)).1 = u at q ⊢
          obtain ⟨b, e, ctx⟩ := take_of_context (q.contexts n).symm h
          have len : t.entries.length = b.entries.length := (congrArg TakeContext.entries ctx)
          rw [len]
          refine q.keeps.trans (keeps_release e ?_)
          rw [← show t.state = b.state from congrArg TakeContext.state ctx]
          exact not_not.1 st

/-! ### The requests to a take that is there -/

/-- Entries are appended: the take's other fields stay, and the store's account is kept. -/
theorem keeps_append {s : State} {n : LaneIx} {t : Take} {batch : List Entry} (ended : Bool) (h : s.take? n = some t)
    (room : batch.length ≤ s.freeEntries) (fits : t.entries.length + batch.length ≤ Config.takeEntries) :
    Keeps given s (({ s with freeEntries := s.freeEntries - batch.length } : State).modifyTake n fun t =>
      { t with entries := t.entries ++ batch, listEnded := ended }) where
  levels k := levelsOk_modifyTake (fun _ => rfl) (levels_same (s := s) rfl (fun v => by cases v <;> rfl) k)
  takes k := takesOk_modifyTake (fun _ _ ok => { ok with }) (Quiet.takesOk (s := s) (fun _ => rfl) k)
  store := by
    rw [modifyTake_of_take _ _ _ (t := t) (by exact h)]
    refine storeOk_setLane (x := some { t with entries := t.entries ++ batch, listEnded := ended }) (fun _ => rfl) ?_ ?_
    · simp [State.entriesHeld, h]
      omega
    · simpa using fits
  staging _ k := stagingOk_modifyTake_same (fun _ => rfl) (fun _ => rfl) (fun _ => rfl) (fun _ => rfl) (fun _ => rfl)
    (stagingOk_of_same (s := s) (fun _ => rfl) rfl (fun _ _ => rfl) k)

theorem keeps_appendEntries (lane : Byte) (args : List EntryArg) (s : State) :
    Keeps given s (serveAppendEntries lane args s).1 := by
  unfold serveAppendEntries
  split
  · exact keeps_answer s _ _
  · rename_i n _
    split
    · exact keeps_refuseTake s n _ _
    · rename_i t h
      split
      · exact keeps_refuseTake s n _ _
      · dsimp only
        split
        · exact keeps_refuseTake s n _ _
        · rename_i fine
          obtain ⟨-, -, -, -, fits, room⟩ := (appendRefusal_eq_none_iff _ _ _).1 fine
          have added := keeps_append (given := s.StagingOk) ((args.map Entry.ofArg).any Entry.isEnd) h room fits
          cases st : t.state with
          | starved =>
            refine Keeps.of_given (added.trans (keeps_enterRunning (t := { t with
              entries := t.entries ++ args.map Entry.ofArg, listEnded := (args.map Entry.ofArg).any Entry.isEnd })
              ?_ (by simp [st]) fun k => out_of_state k h (by rw [st]; rfl)))
            simp only [take_modifyTake, if_true]
            exact congrArg (Option.map _) h
          | running | interrupted | opened | waiting | suspended | stopping | draining | aborting | closed =>
            exact Keeps.of_given added

/-- A take starts: its snapshot is taken and the lane enters RUNNING. -/
theorem keeps_begin {s : State} {n : LaneIx} {t : Take} (i : CardIdentity) (h : s.take? n = some t) (st : t.state = .opened) :
    Keeps given s ((s.modifyTake n fun t => { t with snapshot := some i, head := 0 }).enterRunning n).1 := by
  have there : (s.modifyTake n fun t => { t with snapshot := some i, head := 0 }).take? n
      = some { t with snapshot := some i, head := 0 } := by simp [take_modifyTake, h]
  refine ⟨fun k => ?_, fun k => ?_, fun k => ?_, fun _ k => ?_⟩
  · refine levelsOk_enter there .running (levelsOk_modifyTake ?_ k)
    exact fun _ => rfl
  · refine (enter_rest _ n .running).takesOk ?_
    intro m a e
    rw [take_modifyTake, there, Option.map_some] at e
    split at e
    · cases e
      exact { (k n t h) with
        headHold := fun low => by cases low
        snapshot := by simp [Take.inState]
        waitReason := by simp [Take.inState]
        outcome := by simp [Take.inState, (k n t h).outcome, st]
        cleared := by simp [Take.inState, (k n t h).cleared, st] }
    · rename_i ne
      rw [take_modifyTake, if_neg ne] at e
      exact k m a e
  · refine (frame_enter _ n .running).storeOk (storeOk_same (s := s) rfl (fun m => ?_) k)
    unfold State.entriesHeld
    rw [take_modifyTake]
    split
    · subst_vars; simp [h]
    · rfl
  · refine stagingOk_enter (st := .running) (by simp) (.inl (out_of_state k h (by rw [st]; rfl))) ?_
    exact stagingOk_modifyTake_same (f := fun t => { t with snapshot := some i, head := 0 }) (fun _ => rfl) (fun _ => rfl)
      (fun _ => rfl) (fun _ => rfl) (fun _ => rfl) k

theorem keeps_startTake (lane : Byte) (s : State) : Keeps given s (serveStartTake lane s).1 := by
  unfold serveStartTake
  split
  · exact keeps_answer s _ _
  · rename_i n _
    split
    · exact keeps_refuseTake s n _ _
    · rename_i t h
      split
      · exact keeps_refuseTake s n _ _
      · rename_i st
        dsimp only
        split
        · exact keeps_refuseTake s n _ _
        · exact keeps_refuseTake s n _ _
        · split
          · exact keeps_refuseTake s n _ _
          · exact keeps_begin _ h (not_not.1 st)
        · exact keeps_refuseTake s n _ _

/-- A lane leaves every wait and enters SUSPENDED. -/
theorem keeps_suspend {s : State} {n : LaneIx} {st : TakeState} (h : s.laneState n = some st) (live : st ≠ .closed) :
    Keeps given s (((s.leaveWaiting n).leaveAllShort n).enter n .suspended) := by
  obtain ⟨t, e, rfl⟩ := Option.map_eq_some_iff.1 h
  have short := calm_leaveAllShort (s.leaveWaiting n) n
  obtain ⟨b, e', st', -⟩ := short.take (n := n) (a := t) (by simpa using e)
  have left : Keeps s.StagingOk s ((s.leaveWaiting n).leaveAllShort n) := (keeps_leaveWaiting s n).trans short.toKeeps
  refine Keeps.of_given (left.trans (keeps_enter e' (by rwa [st']) rfl fun k _ => .inl ?_))
  rw [short.staging]
  exact leaveWaiting_out k n

theorem keeps_suspendTake (lane : Byte) (s : State) : Keeps given s (serveSuspendTake lane s).1 := by
  unfold serveSuspendTake
  split
  · exact keeps_answer s _ _
  · rename_i n _
    split
    · dsimp only; exact keeps_suspend (st := .running) (by assumption) (by simp)
    · dsimp only; exact keeps_suspend (st := .starved) (by assumption) (by simp)
    · dsimp only; exact keeps_suspend (st := .waiting) (by assumption) (by simp)
    · exact .refl s
    · exact keeps_refuseTake s n _ _

theorem keeps_resumeInterrupted {s : State} {n : LaneIx} {t : Take} (h : s.take? n = some t) (st : t.state = .interrupted) :
    Keeps given s (resumeInterrupted n t s).1 := by
  have out (k : s.StagingOk) : n ∉ s.staging.waiting := out_of_state k h (by rw [st]; rfl)
  have restart (e : Nat) : Keeps s.StagingOk s (s.restartFile n e) := by
    unfold State.restartFile
    refine (Keeps.refl s).modifyFile.trans (keeps_modifyTake ?_ out)
    exact ⟨fun _ => .same rfl, fun _ => rfl, fun _ ok => { ok with }, fun _ => .inl rfl⟩
  have state (e : Nat) : (s.restartFile n e).laneState n = some .interrupted := by
    unfold State.restartFile
    refine (laneState_modifyTake ?_ _ n n).trans ((laneState_modifyFile s n n e _).trans (by rw [laneState_of_take h, st]))
    exact fun _ => rfl
  unfold resumeInterrupted
  dsimp only
  split
  · exact keeps_refuseTake s n _ _
  · split
    · cases t.cutEntry with
      | none => exact Keeps.of_given (keeps_enterRunning h (by simp [st]) out)
      | some e =>
        obtain ⟨b, e', st'⟩ := Option.map_eq_some_iff.1 (state e)
        exact Keeps.of_given ((restart e).trans (keeps_enterRunning e' (by simp [st']) out))
    · exact keeps_refuseTake s n _ _
  · exact keeps_refuseTake s n _ _

theorem keeps_resumeTake (lane : Byte) (s : State) : Keeps given s (serveResumeTake lane s).1 := by
  unfold serveResumeTake
  split
  · exact keeps_answer s _ _
  · rename_i n _
    split
    · exact keeps_refuseTake s n _ _
    · rename_i t h
      split
      · rename_i st
        exact Keeps.of_given (keeps_enterRunning h (by simp [st]) fun k => out_of_state k h (by rw [st]; rfl))
      · exact .refl s
      · exact .refl s
      · exact .refl s
      · exact keeps_resumeInterrupted h (by assumption)
      · exact keeps_refuseTake s n _ _

theorem keeps_stop {s : State} {n : LaneIx} {st : TakeState} (h : s.laneState n = some st) (live : st ≠ .closed) :
    Keeps given s (s.enterStopping n).1 := by
  obtain ⟨t, e, rfl⟩ := Option.map_eq_some_iff.1 h
  exact keeps_enterStopping e live

theorem keeps_stopTake (lane : Byte) (s : State) : Keeps given s (serveStopTake lane s).1 := by
  unfold serveStopTake
  split
  · exact keeps_answer s _ _
  · rename_i n _
    split
    · simp only [Work.addTasks]; exact keeps_stop (st := .running) (by assumption) (by simp)
    · simp only [Work.addTasks]; exact keeps_stop (st := .starved) (by assumption) (by simp)
    · simp only [Work.addTasks]; exact keeps_stop (st := .waiting) (by assumption) (by simp)
    · simp only [Work.addTasks]; exact keeps_stop (st := .suspended) (by assumption) (by simp)
    · rename_i st
      have q := quiet_giveUpCardWork s n
      dsimp only
      exact q.keeps.trans (keeps_stop (st := .interrupted) (by rw [laneState_of_context (q.contexts n)]; exact st) (by simp))
    · exact .refl s
    · exact .refl s
    · exact keeps_refuseTake s n _ _

theorem keeps_abortTake (lane : Byte) (s : State) : Keeps given s (serveAbortTake lane s).1 := by
  unfold serveAbortTake
  split
  · exact keeps_answer s _ _
  · rename_i n _
    split
    · exact keeps_refuseTake s n _ _
    · exact keeps_refuseTake s n _ _
    · rename_i st
      obtain ⟨t, e, st'⟩ := Option.map_eq_some_iff.1 st
      exact keeps_closeTake e _ fun _ k => ⟨out_of_state k e (by rw [st']; rfl), k.resting n (.inr (.inl st))⟩
    · exact .refl s
    · rename_i st _ other _ _ eq
      obtain ⟨t, e, st'⟩ := Option.map_eq_some_iff.1 eq
      simp only [Work.addTasks]
      exact keeps_enterAborting e (by rw [st']; assumption)

/-! ### ADJUST TAKE -/

/-- The settings of a take are lowered. -/
theorem keeps_settings {s : State} {n : LaneIx} {t : Take} {left : TargetSet} {k : Nat} (h : s.take? n = some t)
    (low : t.Ok → 1 ≤ k) (high : k ≤ setSize left) :
    Keeps given s (s.modifyTake n fun t => { t with targets := left, k := k }) where
  levels := levelsOk_modifyTake fun _ => rfl
  takes := takesOk_modifyTake fun a e ok => by
    obtain rfl : t = a := by simpa [h] using e
    exact { ok with kLow := low ok, kHigh := high }
  store := storeOk_same rfl fun m => by
    unfold State.entriesHeld
    rw [take_modifyTake]
    split
    · subst_vars; simp [Function.comp_def]
    · rfl
  staging _ := stagingOk_modifyTake_same (fun _ => rfl) (fun _ => rfl) (fun _ => rfl) (fun _ => rfl) fun _ => rfl

theorem calm_dropTargets (s : State) (n : LaneIx) (e : Option Nat) (gone : List TargetIx) :
    Calm s (gone.foldl (fun s x => ((match e with
      | some e => s.giveBack n e x
      | none => s).modifyTake n fun t => t.failTarget x .removed).leaveShort x n) s) := by
  refine calm_foldl (fun s x => Calm.trans (Calm.trans ?_ (Quiet.calm (quiet_modifyTake _ n ?_))) (calm_leaveShort _ x n)) _ s
  · split
    · exact calm_giveBack s n _ x
    · exact .refl s
  · exact fun t => by simp [Take.context, Take.failTarget]

theorem keeps_adjust {s : State} {n : LaneIx} {t : Take} {left : TargetSet} {k : Nat} (gone : List TargetIx)
    (h : s.take? n = some t) (low : t.Ok → 1 ≤ k) (high : k ≤ setSize left) :
    Keeps given s (s.adjust n t left k gone).1 := by
  have lanes (s : State) : (forEach gone (fun x s => s.withdrawAt n x fun _ => true) s).1.lanes = s.lanes := by
    rw [forEach_state]
    induction gone generalizing s with
    | nil => rfl
    | cons x xs ih => rw [List.foldl_cons, ih, withdrawAt_lanes]
  have set := keeps_settings (given := s.StagingOk) h low high
  have there : (s.modifyTake n fun t => { t with targets := left, k := k }).take? n
      = some { t with targets := left, k := k } := by simp [take_modifyTake, h]
  unfold State.adjust
  dsimp only
  generalize (s.modifyTake n fun t => { t with targets := left, k := k }) = s1 at set there ⊢
  have purge : Keeps s.StagingOk s (forEach gone (fun x s => s.withdrawAt n x fun _ => true) s1).1 :=
    set.trans (keeps_forEach (fun x s => keeps_withdrawAt s n x _) gone s1)
  have still := (quiet_stopLaneVerifications (forEach gone (fun x s => s.withdrawAt n x fun _ => true) s1).1 n gone).calm.trans
    (calm_dropTargets _ n t.allocatingFile gone)
  obtain ⟨b, e, st, -⟩ := still.take (n := n) (a := { t with targets := left, k := k })
    (by rw [State.take?, lanes]; exact there)
  have all := purge.trans still.toKeeps
  split
  · exact Keeps.of_given all
  · exact Keeps.of_given all
  · rename_i starved
    refine Keeps.of_given (all.trans (keeps_enterRunning e (by simp [st, starved]) fun k => ?_))
    exact out_of_state (all.staging k k) e (by simp [st, starved, TakeState.mayWait])
  · exact Keeps.of_given all
  · exact Keeps.of_given all

theorem keeps_adjustTake (lane k remove : Byte) (s : State) : Keeps given s (serveAdjustTake lane k remove s).1 := by
  unfold serveAdjustTake
  split
  · exact keeps_answer s _ _
  · rename_i n _
    split
    · exact keeps_refuseTake s n _ _
    · rename_i t h
      split
      · exact keeps_refuseTake s n _ _
      · split
        · exact keeps_refuseTake s n _ _
        · rename_i rm _
          dsimp only
          have low (ok : t.Ok) : 1 ≤ if k = 0 then t.k else k.toNat := by
            split
            · exact ok.kLow
            · rename_i ne
              exact Nat.one_le_iff_ne_zero.2 fun e => ne (BitVec.eq_of_toNat_eq e)
          generalize (if k = 0 then t.k else k.toNat) = k' at low ⊢
          split
          · exact keeps_refuseTake s n _ _
          · split
            · exact keeps_refuseTake s n _ _
            · rename_i fits
              exact keeps_adjust _ h low (Nat.le_of_not_lt fun e => fits (.inr e))

end Sys2Proof.Machine
end

