-- ==== Sys2Proof/Proofs/StepAccounts.lean ====
section
/-! Every step keeps the levels true, the takes in range, and the accounts of entry store and staging buffer. -/

namespace Sys2Proof.Machine

variable {given : Prop}

/-! ### The requests to slots, targets and pools -/

theorem keeps_peekCard (x : Byte) (a : BitVec 32) (c r al : Byte) (s : State) :
    Keeps given s (servePeekCard x a c r al s).1 := by
  unfold servePeekCard
  split
  · exact keeps_answer s _ _
  · rename_i n _
    dsimp only
    split
    · exact keeps_answer s _ _
    · split
      · exact keeps_answer s _ _
      · split
        · exact keeps_answer s _ _
        · exact keeps_answer s _ _
        · exact keeps_answer s _ _
        · exact keeps_answer s _ _
        · exact keeps_answer s _ _
        · split
          · exact keeps_answer s _ _
          · exact (quiet_offerPeek s n _).keeps

theorem keeps_holdSlot (x : Byte) (s : State) : Keeps given s (serveHoldSlot x s).1 := by
  unfold serveHoldSlot
  split
  · exact keeps_answer s _ _
  · rename_i n _
    split
    · exact keeps_answer s _ _
    · split
      · exact keeps_answer s _ _
      · exact ((quiet_setSlot s n _).trans (quiet_answer _ _ _)).keeps

theorem keeps_freeSlot (x : Byte) (s : State) : Keeps given s (serveFreeSlot x s).1 := by
  unfold serveFreeSlot
  split
  · exact keeps_answer s _ _
  · rename_i n _
    split
    · exact keeps_answer s _ _
    · exact ((quiet_setSlot s n _).trans (quiet_answer _ _ _)).keeps

theorem quiet_gain (s : State) (c : CondSet) : Quiet s (s.gain c) := by
  unfold State.gain
  split
  · exact .refl s
  · exact .of_parts rfl rfl rfl rfl (fun _ => rfl) (fun _ => rfl) fun _ => rfl

theorem keeps_clearAttention (c : BitVec 80) (s : State) : Keeps given s (serveClearAttention c s).1 := by
  unfold serveClearAttention
  split
  · exact keeps_answer s _ _
  · dsimp only
    refine ((quiet_attention s _ ?_).trans (quiet_answer _ _ _)).keeps
    rfl

theorem keeps_setAttentionEnables (n : BitVec 80) (nf : Byte) (p : BitVec 80) (pf : Byte) (s : State) :
    Keeps given s (serveSetAttentionEnables n nf p pf s).1 := by
  have notice (s : State) (c : CondSet) : Quiet s (s.setNoticeEnable c) := by
    unfold State.setNoticeEnable
    dsimp only
    refine (quiet_attention s _ ?_).trans (quiet_gain _ _)
    rfl
  have panel (s : State) (c : CondSet) : Quiet s (s.setPanelEnable c) := quiet_attention s _ rfl
  have either (b : Bool) {s t : State} (h : Quiet s t) : Quiet s (if b then t else s) := by
    cases b
    · exact .refl s
    · exact h
  unfold serveSetAttentionEnables
  split
  · exact (((either _ (notice s _)).trans (either _ (panel _ _))).trans (quiet_answer _ _ _)).keeps
  · exact keeps_answer s _ _

theorem keeps_grantSpace (x : Byte) (rs : List UnitRunArg) (s : State) : Keeps given s (serveGrantSpace x rs s).1 := by
  unfold serveGrantSpace
  split
  · exact keeps_answer s _ _
  · rename_i t _
    dsimp only
    split
    · exact keeps_answer s _ _
    · refine ((quiet_modifyPool s t _ ?_).trans (quiet_answer _ _ _)).keeps
      rfl

theorem keeps_clearPool (x : Byte) (s : State) : Keeps given s (serveClearPool x s).1 := by
  unfold serveClearPool
  split
  · exact keeps_answer s _ _
  · rename_i t _
    exact ((quiet_modifyPool_empty s t).trans (quiet_answer _ _ _)).keeps

theorem keeps_configureTarget (x : Byte) (u : BitVec 16) (q : Byte) (s : State) :
    Keeps given s (serveConfigureTarget x u q s).1 := by
  unfold serveConfigureTarget
  split
  · exact keeps_answer s _ _
  · rename_i t _
    dsimp only
    split
    · exact keeps_answer s _ _
    · refine ((quiet_modifyTarget s t _ ?_ ?_).trans (quiet_answerClamped _ _ _ _)).keeps <;> rfl

theorem moves_leaveFaulted (s : State) (t : TargetIx) {st : TargetState} (h : st ≠ .faulted) :
    Keeps given s (s.leaveFaulted t st) := by
  unfold State.leaveFaulted
  refine (moves_modifyTarget s t _ ?_).falls ?_
  · rfl
  · simpa [modifyTarget_eq] using h

theorem keeps_takeTargetOffline (x : Byte) (s : State) : Keeps given s (serveTakeTargetOffline x s).1 := by
  unfold serveTakeTargetOffline
  split
  · exact keeps_answer s _ _
  · rename_i t _
    split
    · rename_i st
      simp only [Work.andThen]
      exact (keeps_leaveOnline .offline none .offline false (.inr (by simp [st]))).trans (keeps_answer _ _ _)
    · exact (moves_leaveFaulted s t (st := .offline) (by simp)).trans (keeps_answer _ _ _)
    · exact keeps_answer s _ _
    · exact keeps_answer s _ _
    · exact keeps_answer s _ _

theorem keeps_attach {s : State} {t : TargetIx} (st : (s.target t).state ≠ .faulted) :
    Keeps given s (s.modifyTarget t Target.attach) :=
  (moves_modifyTarget s t _ rfl).keeps st (by simp [modifyTarget_eq, Target.attach])

theorem keeps_bringTargetOnline (x : Byte) (s : State) : Keeps given s (serveBringTargetOnline x s).1 := by
  unfold serveBringTargetOnline
  split
  · exact keeps_answer s _ _
  · rename_i t _
    split
    · rename_i st
      exact (keeps_attach (by simp [st])).trans (keeps_answer _ _ _)
    · refine ((moves_leaveFaulted s t (st := .attaching) (by simp)).trans (keeps_attach ?_)).trans (keeps_answer _ _ _)
      simp [State.leaveFaulted, modifyTarget_eq]
    · exact keeps_answer s _ _
    · exact keeps_answer s _ _
    · exact keeps_answer s _ _

theorem quiet_offerHost (s : State) (t : TargetIx) (h : HostOp) : Quiet s (s.offerHost t h) :=
  quiet_modifyTarget s t _ rfl rfl

theorem keeps_readTarget (x : Byte) (a : BitVec 32) (c : Byte) (s : State) : Keeps given s (serveReadTarget x a c s).1 := by
  unfold serveReadTarget
  split
  · exact keeps_answer s _ _
  · rename_i t _
    split
    · exact keeps_answer s _ _
    · exact (quiet_offerHost s t _).keeps

theorem keeps_writeTarget (x : Byte) (a : BitVec 32) (c : Byte) (d : List Byte) (s : State) :
    Keeps given s (serveWriteTarget x a c d s).1 := by
  unfold serveWriteTarget
  split
  · exact keeps_answer s _ _
  · rename_i t _
    split
    · exact keeps_answer s _ _
    · split
      · exact keeps_answer s _ _
      · split
        · exact keeps_answer s _ _
        · exact (quiet_offerHost s t _).keeps

/-! ### Requests that report only -/

theorem quiet_freeReads (s : State) (k : Nat) : Quiet s { s with freeReads := k } :=
  .of_parts rfl rfl rfl rfl (fun _ => rfl) (fun _ => rfl) fun _ => rfl

theorem keeps_slotStatus (x : Byte) (s : State) : Keeps given s (serveSlotStatus x s).1 := by
  unfold serveSlotStatus
  split
  · exact keeps_answer s _ _
  · dsimp only
    split
    · refine (keeps_answer s .ok _).trans (Quiet.keeps (quiet_freeReads _ _))
    · exact keeps_answer s _ _

theorem keeps_targetStatus (x : Byte) (s : State) : Keeps given s (serveTargetStatus x s).1 := by
  unfold serveTargetStatus
  split <;> exact keeps_answer s _ _

theorem keeps_readPool (x : Byte) (s : State) : Keeps given s (serveReadPool x s).1 := by
  unfold serveReadPool
  split <;> exact keeps_answer s _ _

theorem keeps_takeStatus (x : Byte) (s : State) : Keeps given s (serveTakeStatus x s).1 := by
  unfold serveTakeStatus
  split <;> exact keeps_answer s _ _

theorem keeps_readManifest (x : Byte) (f : BitVec 16) (c : Byte) (s : State) :
    Keeps given s (serveReadManifest x f c s).1 := by
  unfold serveReadManifest
  repeat' split
  all_goals exact keeps_answer s _ _

theorem keeps_readAllocation (x : Byte) (i : BitVec 16) (t : Byte) (s : State) :
    Keeps given s (serveReadAllocation x i t s).1 := by
  unfold serveReadAllocation
  repeat' split
  all_goals exact keeps_answer s _ _

/-- Every request keeps the accounts. -/
theorem keeps_serve (s : State) : ∀ r : Request, Keeps given s (serve r s).1
  | .identify | .resetPart | .readAttention => keeps_answer s _ _
  | .clearAttention c => keeps_clearAttention c s
  | .setAttentionEnables n nf p pf => keeps_setAttentionEnables n nf p pf s
  | .slotStatus x => keeps_slotStatus x s
  | .peekCard x a c r al => keeps_peekCard x a c r al s
  | .holdSlot x => keeps_holdSlot x s
  | .freeSlot x => keeps_freeSlot x s
  | .targetStatus x => keeps_targetStatus x s
  | .configureTarget x u q => keeps_configureTarget x u q s
  | .takeTargetOffline x => keeps_takeTargetOffline x s
  | .bringTargetOnline x => keeps_bringTargetOnline x s
  | .readTarget x a c => keeps_readTarget x a c s
  | .writeTarget x a c d => keeps_writeTarget x a c d s
  | .grantSpace x rs => keeps_grantSpace x rs s
  | .clearPool x => keeps_clearPool x s
  | .readPool x => keeps_readPool x s
  | .openTake x l ts k v p m r al w => keeps_openTake x l ts k v p m r al w s
  | .appendEntries x es => keeps_appendEntries x es s
  | .startTake x => keeps_startTake x s
  | .suspendTake x => keeps_suspendTake x s
  | .resumeTake x => keeps_resumeTake x s
  | .stopTake x => keeps_stopTake x s
  | .abortTake x => keeps_abortTake x s
  | .adjustTake x k rm => keeps_adjustTake x k rm s
  | .takeStatus x => keeps_takeStatus x s
  | .releaseTake x rc => keeps_releaseTake x rc s
  | .readManifest x f c => keeps_readManifest x f c s
  | .readAllocation x i t => keeps_readAllocation x i t s

/-! ### The end of a step -/

theorem quiet_startVerifications (s : State) : Quiet s s.startVerifications := by
  unfold State.startVerifications
  refine quiet_foldl (fun s o => ?_) _ s
  split
  · unfold State.startVerification
    exact ((quiet_verify s _).trans (quiet_setActive _ _ _)).trans (quiet_modifyCopy _ _ _ _ _)
  · exact .refl s

theorem quiet_grantTo (s : State) (t : TargetIx) (c : Candidate) (k : Nat) : Quiet s (s.grantTo t c k) := by
  have one : Quiet s (s.modifyTarget t fun x => { x with holder := some c, grantCount := k }) :=
    quiet_modifyTarget s t _ rfl rfl
  unfold State.grantTo
  cases c with
  | lane n => exact one.trans (quiet_modifyTarget _ t _ rfl rfl)
  | verifier =>
    have two := one.trans (quiet_modifyTarget _ t (fun x => { x with op := .readback false }) rfl rfl)
    dsimp only
    split
    · exact two
    · exact two.trans (quiet_setActive _ t _)

theorem quiet_arbitrate (s : State) (t : TargetIx) : Quiet s (s.arbitrate t) := by
  unfold State.arbitrate
  dsimp only
  split
  · split
    · exact quiet_modifyTarget s t _ rfl rfl
    · unfold State.chooseCandidate
      dsimp only
      repeat' split
      all_goals first
        | exact quiet_grantTo _ _ _ _
        | exact .refl s
  · exact .refl s

theorem quiet_choosePath (s : State) : Quiet s s.choosePath :=
  .of_parts (by simp) (by simp) (by simp) (by simp) (by simp) (by simp) (by simp)

theorem quiet_conclude (s : State) : Quiet s s.conclude :=
  ((quiet_startVerifications s).trans (quiet_foldl quiet_arbitrate _ _)).trans (quiet_choosePath _)

/-! ### The message link -/

theorem keeps_enterService (s : State) (f : Frame) : Keeps given s (s.enterService f).1 := by
  have begun : Keeps given s (s.beginService f.kind f.tag) := (quiet_link s _).keeps
  unfold State.enterService
  dsimp only
  split
  · exact begun.trans (keeps_answer _ _ _)
  · exact begun.trans (keeps_serve _ _)

theorem keeps_enterRequest (s : State) (tag : BitVec 16) (r : Request) : Keeps given s (s.enterRequest tag r).1 := by
  have begun : Keeps given s (s.beginService (requestKind r) tag) := (quiet_link s _).keeps
  unfold State.enterRequest
  dsimp only
  split
  · exact begun.trans (keeps_answer _ _ _)
  · exact begun.trans (keeps_serve _ _)

theorem keeps_serveNext (s : State) : Keeps given s s.serveNext.1 := by
  unfold State.serveNext
  split
  · exact (quiet_link s _).keeps.trans (keeps_enterService _ _)
  · exact .refl s

theorem keeps_finish {s : State} {w : Work} (h : Keeps given s w.1) : Keeps given s (finish w) := by
  have stale (u : State) : Keeps given u u.discardStale.1 := by
    unfold State.discardStale
    split
    · exact (quiet_link u _).keeps.trans (keeps_serveNext _)
    · exact .refl u
  unfold finish
  exact (((h.trans (keeps_settled w)).trans (stale _)).trans (keeps_settled _)).trans (quiet_conclude _).keeps

theorem quiet_queueFrame (s : State) (f : Frame) : Quiet s (s.queueFrame f) := by
  unfold State.queueFrame
  split
  · exact quiet_link s _
  · exact (quiet_link s _).trans (quiet_latch _ _)

theorem keeps_takeFrame (s : State) (f : Frame) : Keeps given s (s.takeFrame f).1 := by
  unfold State.takeFrame
  split
  · exact keeps_enterService s f
  · exact (quiet_queueFrame s f).keeps

theorem keeps_drainPipe : ∀ (fs : List Frame) (s : State), Keeps given s (drainPipe fs s)
  | [], s => (quiet_link s _).keeps
  | f :: fs, s => by
    unfold drainPipe
    split
    · exact (quiet_link s _).keeps
    · exact (keeps_finish (keeps_takeFrame s f)).trans (keeps_drainPipe fs _)

theorem keeps_finishAndRead {s : State} {w : Work} (h : Keeps given s w.1) : Keeps given s (finishAndRead w) :=
  (keeps_finish h).trans (keeps_drainPipe _ _)

theorem keeps_submit (tag : BitVec 16) (r : Request) (s : State) : Keeps given s (submit tag r s) := by
  unfold submit
  split
  · exact (quiet_link s _).keeps
  · split
    · exact keeps_finish (keeps_enterRequest s tag r)
    · exact keeps_finish (quiet_queueFrame s _).keeps

/-! ### Resets -/

/-- The accounts are in order in a state whose blocks are at their reset values. -/
theorem accounts_of_reset {t : State} (att : t.attention = Attention.reset) (free : t.freeEntries = Config.storeEntries)
    (lanes : t.lanes = Vector.replicate 8 none) (staging : t.staging = Staging.reset)
    (pools : t.pools = Vector.replicate 4 Pool.reset) (states : ∀ x, (t.target x).state ≠ .faulted)
    (fifos : ∀ x, (t.target x).fifos = Vector.replicate 8 []) :
    t.LevelsOk ∧ t.TakesOk ∧ t.StoreOk ∧ t.StagingOk := by
  have idle (n : LaneIx) : t.take? n = none := by simp [State.take?, lanes]
  have seg (g : SegmentIx) : t.segment g = .free := by simp [State.segment, staging, Staging.reset]
  have held (n : LaneIx) : heldSegments t n = 0 := by
    simp [heldSegments, staging, Staging.reset, Segment.owner?, Segment.use?]
  have stored : t.entriesHeld = fun _ => 0 := funext fun n => by simp [State.entriesHeld, idle]
  refine ⟨(levelsOk_iff t).2 fun v => ?_, fun n a e => ?_, ⟨?_, fun n => ?_⟩, ?_⟩
  · have off : t.asserts v = false := by simp [State.asserts, att, Attention.reset]
    rw [off]
    cases v <;> simp [State.holds, State.laneState, idle, states, State.pool, pools, Pool.reset, staging, Staging.reset]
  · rw [idle] at e; cases e
  · simp [free, stored]
  · simp [stored]
  · have nothing (x : TargetIx) (n : LaneIx) : (t.target x).fifos[n] = [] := by simp [fifos]
    refine ⟨?_, ?_, ?_, ?_, ?_, ?_, ?_, ?_, fun n _ => held n⟩
    all_goals simp [seg, idle, nothing, staging, Staging.reset]

theorem keeps_resetBlocks (s : State) : Keeps given s s.resetBlocks := by
  have target (x : TargetIx) : s.resetBlocks.target x = (s.target x).resetKeeping := by
    simp [State.target, State.resetBlocks]
  obtain ⟨levels, takes, store, staging⟩ := accounts_of_reset (t := s.resetBlocks) rfl rfl rfl rfl rfl
    (fun x => by rw [target]; unfold Target.resetKeeping; dsimp only; split <;> simp [Target.attach, Target.reset])
    (fun x => by rw [target]; unfold Target.resetKeeping; dsimp only; split <;> simp [Target.attach, Target.reset])
  exact ⟨fun _ => levels, fun _ => takes, fun _ => store, fun _ _ => staging⟩

theorem keeps_resetPart (s : State) : Keeps given s s.resetPart := (keeps_resetBlocks s).trans (quiet_link _ _).keeps

/-! ### Commands and steps -/

theorem keeps_frameSent (s : State) (k : Sending) (r : OutFrame) : Keeps given s (s.frameSent k r).1 := by
  have out : Keeps given s { s with link := { s.link with outgoing := none } } := (quiet_link s _).keeps
  unfold State.frameSent
  dsimp only
  split
  · exact (quiet_link s _).keeps
  · exact out
  · split
    · exact out.trans (keeps_resetPart _)
    · exact (out.trans (quiet_link _ _).keeps).trans (keeps_serveNext _)

/-- What a command goes on with keeps the accounts. -/
def KeepsNext (given : Prop) (s : State) (o : Host.Outcome State Fault Refusal) : Prop :=
  ∀ t, o = .next t → Keeps given s t

theorem keepsNext {s t : State} (h : Keeps given s t) : KeepsNext given s (.next t) := by
  rintro u ⟨⟩
  exact h

theorem keepsNext_same (s : State) : KeepsNext given s (.next s) := keepsNext (.refl s)

theorem keepsNext_ite {p : Prop} [Decidable p] {s t : State} (h : p → Keeps given s t) :
    KeepsNext given s (if p then .next t else .next s) := by
  split
  · exact keepsNext (h (by assumption))
  · exact keepsNext_same s

theorem keeps_cardInsertion (n : LaneIx) (s : State) : KeepsNext given s (execCardInsertion n s) := by
  unfold execCardInsertion
  split
  · exact keepsNext_same s
  · exact keepsNext (keeps_finish (quiet_setSlot s n _).keeps)

theorem keeps_cardRemoval (n : LaneIx) (s : State) : KeepsNext given s (execCardRemoval n s) := by
  unfold execCardRemoval
  split
  · split
    · exact keepsNext (keeps_finish (quiet_setSlot s n _).keeps)
    · exact keepsNext (keeps_finish (quiet_setSlot s n _).keeps)
    · exact keepsNext (keeps_finish (keeps_cardRemoved s n))
    · exact keepsNext (keeps_finish (keeps_cardRemoved s n))
    · exact keepsNext (keeps_finish (keeps_cardRemoved s n))
    · exact keepsNext (keeps_finish (keeps_cardRemoved s n))
  · exact keepsNext_same s

theorem keeps_cardAttemptTimeout (n : LaneIx) (s : State) : KeepsNext given s (execCardAttemptTimeout n s) := by
  unfold execCardAttemptTimeout
  split
  · exact keepsNext_same s
  · exact keepsNext (keeps_finish (quiet_setSlot s n _).keeps)
  · exact keepsNext (keeps_finish (quiet_attemptEnded s n _ _).keeps)
  · exact keepsNext (keeps_finish (quiet_attemptEnded s n _ _).keeps)

theorem keeps_cardAttemptComplete (n : LaneIx) (late : Bool) (cls : CardClass) (d : List Byte) (s : State) :
    KeepsNext given s (execCardAttemptComplete n late cls d s) := by
  unfold execCardAttemptComplete
  split
  · exact keepsNext_same s
  · split
    · exact keepsNext_same s
    · exact keepsNext_same s
    · exact keepsNext (keeps_finish (quiet_attemptEnded s n _ _).keeps)
    · exact keepsNext (keeps_finish (quiet_attemptEnded s n _ _).keeps)

theorem keeps_driveLinkUp (t : TargetIx) (s : State) : KeepsNext given s (execDriveLinkUp t s) := by
  unfold execDriveLinkUp
  split
  · exact keepsNext_same s
  · refine keepsNext (keeps_finish ?_)
    dsimp only
    cases st : (s.target t).state with
    | absent =>
      refine (moves_modifyTarget s t _ ?_).keeps (by simp [st]) ?_ <;>
        simp [modifyTarget_eq, Target.linkUp, st, Target.attach]
    | attaching | online | faulted | offline =>
      refine (quiet_modifyTarget s t _ ?_ ?_).keeps <;> simp [Target.linkUp, st]

theorem keeps_deviceOpTimeout (t : TargetIx) (s : State) : KeepsNext given s (execDeviceOpTimeout t s) := by
  unfold execDeviceOpTimeout
  split
  · exact keepsNext (keeps_finish (keeps_attachFailed s t _))
  · exact keepsNext (keeps_finish (keeps_deviceFault s t _))
  · exact keepsNext (keeps_finish (keeps_deviceFault s t _))
  · exact keepsNext (keeps_finish (keeps_deviceFault s t _))
  · exact keepsNext_same s

theorem keeps_writePieceComplete (t : TargetIx) (late error : Bool) (s : State) :
    KeepsNext given s (execWritePieceComplete t late error s) := by
  unfold execWritePieceComplete
  split
  · exact keepsNext_same s
  · split
    · split
      · exact keepsNext (keeps_finish (keeps_pieceWritten (by assumption) _ _))
      · exact keepsNext_same s
    all_goals exact keepsNext_same s

theorem keeps_readbackReadComplete (t : TargetIx) (late error : Bool) (d : List Byte) (s : State) :
    KeepsNext given s (execReadbackReadComplete t late error d s) := by
  unfold execReadbackReadComplete
  split
  · exact keepsNext_same s
  · split
    · split
      · exact keepsNext (keeps_finish (keeps_readEnded s t _ _ _ _))
      · exact keepsNext_same s
    all_goals exact keepsNext_same s

theorem keeps_hostOpComplete (t : TargetIx) (late error : Bool) (d : List Byte) (s : State) :
    KeepsNext given s (execHostOpComplete t late error d s) := by
  unfold execHostOpComplete
  split
  · exact keepsNext_same s
  · split
    · exact keepsNext (keeps_finish ((quiet_modifyTarget s t _ rfl rfl).trans (quiet_hostAnswered _ _ _ _)).keeps)
    all_goals exact keepsNext_same s

theorem keeps_linkReset (s : State) : KeepsNext given s (execLinkReset s) := by
  have cut : Quiet s s.cutOff := by
    unfold State.cutOff
    split
    · exact .refl s
    · exact quiet_link s _
    · exact quiet_link s _
    · exact .of_parts rfl rfl rfl rfl (fun _ => rfl) (fun _ => rfl) fun _ => rfl
  exact keepsNext (keeps_finish (cut.trans (quiet_link _ _)).keeps)

theorem keeps_frameArrival (x : List Byte) (s : State) : KeepsNext given s (execFrameArrival x s) := by
  unfold execFrameArrival
  dsimp only
  split
  · exact keepsNext (quiet_link s _).keeps
  · exact keepsNext (keeps_finish (keeps_takeFrame s _))

/-- Every command keeps the accounts. -/
theorem keeps_exec (s : State) : ∀ i : Instr, KeepsNext given s (exec i s)
  | .powerOn => keepsNext (keeps_resetBlocks s)
  | .linkReset => keeps_linkReset s
  | .linkConfigured => by
    show KeepsNext given s (execLinkConfigured s)
    unfold execLinkConfigured
    split
    · exact keepsNext_same s
    · exact keepsNext (keeps_finishAndRead (quiet_link s _).keeps)
  | .frameArrival x => keeps_frameArrival x s
  | .frameSent => by
    show KeepsNext given s (execFrameSent s)
    unfold execFrameSent
    split
    · exact keepsNext_same s
    · exact keepsNext (keeps_finishAndRead (keeps_frameSent s _ _))
  | .identify _ | .resetPart _ | .readAttention _ | .clearAttention .. | .setAttentionEnables .. | .slotStatus ..
  | .peekCard .. | .holdSlot .. | .freeSlot .. | .targetStatus .. | .configureTarget .. | .takeTargetOffline ..
  | .bringTargetOnline .. | .readTarget .. | .writeTarget .. | .grantSpace .. | .clearPool .. | .readPool ..
  | .openTake .. | .appendEntries .. | .startTake .. | .suspendTake .. | .resumeTake .. | .stopTake .. | .abortTake ..
  | .adjustTake .. | .takeStatus .. | .releaseTake .. | .readManifest .. | .readAllocation .. =>
    keepsNext (keeps_submit _ _ s)
  | .cardInsertion n => keeps_cardInsertion n s
  | .cardRemoval n => keeps_cardRemoval n s
  | .settleTimerExpiry n => keepsNext_ite fun _ => keeps_finish (quiet_setSlot s n _).keeps
  | .identifyAttemptAnswer n _ a => keepsNext_ite fun _ => keeps_finish (quiet_identifyAnswered s n a).keeps
  | .cardAttemptTimeout n => keeps_cardAttemptTimeout n s
  | .cardAttemptComplete n late cls d => keeps_cardAttemptComplete n late cls d s
  | .driveLinkUp t => keeps_driveLinkUp t s
  | .driveLinkLoss t => keepsNext_ite fun _ =>
      keeps_finish ((quiet_modifyTarget s t (fun x => { x with link := false }) rfl rfl).keeps.trans (keeps_linkLost _ t))
  | .driveIdentifyAnswer t _ a => keepsNext_ite fun c => keeps_finish (keeps_driveAnswered (by simp [c.2.1]) a)
  | .deviceOpTimeout t => keeps_deviceOpTimeout t s
  | .writePieceComplete t late error => keeps_writePieceComplete t late error s
  | .readbackReadComplete t late error d => keeps_readbackReadComplete t late error d s
  | .hostOpComplete t late error d => keeps_hostOpComplete t late error d s

/-- Every step keeps the accounts. -/
theorem keeps_step {s t : State} (h : step s = .next t) : Keeps given s t := by
  unfold step at h
  split at h
  · cases h
    exact .refl s
  · rename_i c rest _
    have front : Quiet s { s with pending := rest } := .of_parts rfl rfl rfl rfl (fun _ => rfl) (fun _ => rfl) fun _ => rfl
    exact front.keeps.trans (keeps_exec _ c t h)

/-- Settles O56: every operation that moves a level's owner raises or lowers the level with it. -/
theorem everyStepKeepsLevelsTrue : Obligations.EveryStepKeepsLevelsTrue :=
  fun _ _ k h => (keeps_step (given := True) h).levels k

/-- Settles O57: every operation of a step keeps the three accounts. -/
theorem everyStepKeepsTakesAndEntryStore : Obligations.EveryStepKeepsTakesAndEntryStore :=
  ⟨fun _ _ k h => (keeps_step (given := True) h).store k, fun _ _ k h => (keeps_step (given := True) h).takes k,
    fun _ _ k h => (keeps_step (given := True) h).staging trivial k⟩

end Sys2Proof.Machine
end

