-- ==== Sys2Proof/Proofs/Resets.lean ====
section
/-! The state after reset: every invariant holds there, and POWER_ON and RESET PART bring the part back to it. -/

namespace Sys2Proof.Machine

/-! ### The parts of the reset state -/

@[simp] theorem reset_take (n : LaneIx) : State.reset.take? n = none := by simp [State.take?, State.reset]
@[simp] theorem reset_slot (n : LaneIx) : State.reset.slot n = Slot.reset := by simp [State.slot, State.reset]
@[simp] theorem reset_target (t : TargetIx) : State.reset.target t = Target.reset := by simp [State.target, State.reset]
@[simp] theorem reset_pool (t : TargetIx) : State.reset.pool t = Pool.reset := by simp [State.pool, State.reset]
@[simp] theorem reset_segment (g : SegmentIx) : State.reset.segment g = .free := by
  simp [State.segment, State.reset, Staging.reset]
@[simp] theorem reset_active (t : TargetIx) : State.reset.active t = none := by
  simp [State.active, State.reset, VerifyUnit.reset]
@[simp] theorem reset_queue : State.reset.verify.queue = [] := rfl
@[simp] theorem reset_file (n : LaneIx) (e : Nat) : State.reset.file? n e = none := by simp [State.file?]
@[simp] theorem reset_copy (n : LaneIx) (e : Nat) (x : TargetIx) : State.reset.copy? n e x = none := by
  simp [State.copy?]

/-- A state with no target ONLINE and no verify order queued leaves no choice open. -/
theorem atRest_of_idle {s : State} (queue : s.verify.queue = []) (off : ∀ t, (s.target t).state ≠ .online) :
    s.atRest = true := by
  simp [State.atRest, State.targetAtRest, queue, off]

theorem reset_recordedRuns (t : TargetIx) : State.reset.recordedRuns t = [] := by
  simp [State.recordedRuns, State.allocationsOn, Pool.reset]

theorem reset_portsOk : State.reset.PortsOk where
  slots n := by constructor <;> simp [Slot.reset]
  targets t := by constructor <;> simp [Target.reset, Pool.reset, clampUnit]

theorem reset_outstanding : State.reset.outstanding = 0 := by
  simp [State.outstanding, Slot.peeks, Target.hostOps, Slot.reset, Target.reset]

theorem reset_linkOk : State.reset.LinkOk := by
  have outstanding : State.reset.outstanding = if State.reset.link.awaits then 1 else 0 := reset_outstanding
  refine ⟨?_, ?_, ?_, ?_, ?_, ?_, ?_, ?_, outstanding⟩ <;> simp [State.reset, Link.reset]

/-- Settles O60: the parts of the reset state are empty, idle and absent. -/
theorem resetIsInOrder : Obligations.ResetIsInOrder := by
  obtain ⟨levels, takes, store, staging⟩ := accounts_of_reset (t := State.reset) rfl rfl rfl rfl rfl
    (fun x => by simp [Target.reset]) (fun x => by simp [Target.reset])
  have attention : State.reset.AttentionOk := by constructor <;> simp [State.reset, Attention.reset, Link.reset]
  have out : State.reset.OutOfServiceOk := by constructor <;> simp [Target.reset]
  have space : State.reset.SpaceOk := by
    constructor <;> simp [reset_recordedRuns, orderedRuns, Pool.reset]
  have verify : State.reset.VerifyOk := by constructor <;> simp
  have rest : State.reset.atRest = true := atRest_of_idle rfl fun t => by simp [Target.reset]
  exact ⟨attention, levels, store, takes, reset_portsOk, reset_linkOk, out, space, staging, verify, rest⟩

/-! ### POWER_ON and RESET PART -/

theorem slot_resetBlocks (s : State) (n : LaneIx) : s.resetBlocks.slot n = (s.slot n).resetKeeping := by
  simp [State.slot, State.resetBlocks]

theorem target_resetBlocks (s : State) (t : TargetIx) : s.resetBlocks.target t = (s.target t).resetKeeping := by
  simp [State.target, State.resetBlocks]

/-- A port samples its detection as it is reset. -/
theorem slot_resetKeeping_eq (x : Slot) : x.resetKeeping = { Slot.reset with
    state := if x.detect then .settling else .empty
    present := x.detect, detect := x.detect, settleRunning := x.detect } := by
  unfold Slot.resetKeeping
  cases x.detect <;> rfl

/-- A target port samples its link as it is reset. -/
theorem target_resetKeeping_eq (x : Target) : x.resetKeeping = { Target.reset with
    link := x.link
    state := if x.link then .attaching else .absent
    op := if x.link then .identify else .none } := by
  unfold Target.resetKeeping
  cases x.link <;> rfl

theorem resetBlocks_atRest (s : State) : s.resetBlocks.atRest = true :=
  atRest_of_idle rfl fun t => by
    rw [target_resetBlocks, target_resetKeeping_eq]
    cases (s.target t).link <;> simp

/-- With nothing to send the outgoing path stays free. -/
theorem choosePath_of_silent {s : State} (overrun : s.link.overrun = none) (composed : s.link.composed = none)
    (notice : s.link.pendingNotice = false) : s.choosePath = s := by
  unfold State.choosePath
  split
  · simp [overrun, composed, notice]
  · rfl

/-- The step that ends with RESET PART changes nothing after the reset. -/
theorem finishAndRead_resetPart {s : State} (empty : s.link.outPipe = []) :
    finishAndRead (s.resetPart, []) = s.resetPart := by
  have rest : s.resetPart.atRest = true := (atRest_congr rfl rfl).trans (resetBlocks_atRest s)
  have done : finish (s.resetPart, []) = s.resetPart := by
    rw [finish_of_rest rfl rest]
    exact choosePath_of_silent rfl rfl rfl
  have pipe : s.resetPart.link.outPipe = [] := empty
  unfold finishAndRead
  rw [done, pipe]
  show ({ s.resetPart with link := { s.resetPart.link with outPipe := [] } } : State) = s.resetPart
  rw [← pipe]

/-- Settles O9: each block is at its reset values, and the reply of RESET PART, sent, leaves the same. -/
theorem powerOnAndResetPartResetEveryBlock : Obligations.PowerOnAndResetPartResetEveryBlock := by
  refine ⟨fun s => ⟨s.resetBlocks, rfl, rfl, rfl, rfl, reset_take, reset_segment, rfl, rfl, reset_pool, rfl,
    reset_active, fun n => ?_, fun x => ?_, rfl⟩, fun s f sending kind ok empty => ⟨s.resetBlocks, rfl, ?_⟩⟩
  · rw [slot_resetBlocks, slot_resetKeeping_eq]
  · rw [target_resetBlocks, target_resetKeeping_eq]
  · have reset : f.isReset = true := by simp [OutFrame.isReset, kind, ok]
    have sent : exec .frameSent s
        = .next (finishAndRead (({ s with link := { s.link with outgoing := none } } : State).resetPart, [])) := by
      show execFrameSent s = _
      unfold execFrameSent
      rw [sending]
      simp [State.frameSent, reset]
    rw [sent, finishAndRead_resetPart (by exact empty)]
    simp only [State.resetPart, empty]
    rfl

end Sys2Proof.Machine
end

