-- ==== Sys2Proof/Proofs/Refusals.lean ====
section
/-! Requests and frames that are refused: by the checks of the frame, by those of R191, and for a number that names
nothing. -/

namespace Sys2Proof.Machine

/-! ### A request that is served at once -/

section
variable {s : State} (listening : s.listening = true) (tag : BitVec 16) {r : Request}
include listening

/-- A request of the right shape is carried out by the block that owns it. -/
theorem submit_served (shape : shapeRefusal r = none) :
    submit tag r s = finish (serve r (s.beginService (requestKind r) tag)) := by
  rw [submit_of_listening tag r listening]
  simp only [State.enterRequest, shape]

variable (rest : s.atRest = true)
include rest

/-- A request that is answered at once and changes nothing. -/
theorem submit_answered (shape : shapeRefusal r = none) {c : Bool} {st : Status} {body : List Byte}
    (h : serve r (s.beginService (requestKind r) tag)
      = ((s.beginService (requestKind r) tag).answerClamped c st body, [])) :
    submit tag r s = s.replied (requestKind r) tag c st body := by
  rw [submit_served listening tag shape, h, finish_refused listening rest]

/-- A request that R191 refuses. -/
theorem submit_misshapen {st : Status} (shape : shapeRefusal r = some st) :
    submit tag r s = s.replied (requestKind r) tag false st
      (refusalBody (s.beginService (requestKind r) tag) (requestKind r) (requestBody r)) := by
  rw [submit_of_listening tag r listening]
  simp only [State.enterRequest, shape]
  exact finish_refused listening rest _ tag false st _

/-- A request that its own rule refuses with BAD_FIELD in every state, as R191 does where it speaks first. -/
theorem submit_badField (shape : shapeRefusal r = none ∨ shapeRefusal r = some .badField)
    (body : ∀ s : State, refusalBody s (requestKind r) (requestBody r) = [])
    (h : ∀ s, serve r s = (s.answer .badField [], [])) : (.next (submit tag r s) : Host.Outcome State Fault Refusal)
      = .next (s.replied (requestKind r) tag false .badField []) := by
  congr 1
  rcases shape with shape | shape
  · exact submit_answered listening tag rest shape (h _)
  · rw [submit_misshapen listening tag rest shape, body]

end

/-! ### Numbers that name nothing -/

/-- A kind whose replies carry no lane state has an empty refusal. -/
theorem refusalBody_of_other {kind : Byte} (h : carriesLaneState kind = false) (s : State) (body : List Byte) :
    refusalBody s kind body = [] := by simp [refusalBody, h]

/-- A body whose first byte names no lane has an empty refusal. -/
theorem refusalBody_of_laneOf_none {x : Byte} (h : laneOf x = none) (s : State) (kind : Byte) (rest : List Byte) :
    refusalBody s kind (x :: rest) = [] := by simp [refusalBody, h]

theorem shapeRefusal_writeTarget (x : Byte) (a : BitVec 32) (c : Byte) (d : List Byte) :
    shapeRefusal (.writeTarget x a c d) = none ∨ shapeRefusal (.writeTarget x a c d) = some .badField := by
  simp only [shapeRefusal]
  split <;> simp

theorem shapeRefusal_grantSpace (x : Byte) (rs : List UnitRunArg) :
    shapeRefusal (.grantSpace x rs) = none ∨ shapeRefusal (.grantSpace x rs) = some .badField := by
  simp only [shapeRefusal]
  split <;> simp

theorem shapeRefusal_appendEntries (x : Byte) (es : List EntryArg) :
    shapeRefusal (.appendEntries x es) = none ∨ shapeRefusal (.appendEntries x es) = some .badField := by
  simp only [shapeRefusal]
  split
  · simp
  · split <;> simp

/-- Settles O14: each request looks at the number it names first. -/
theorem numbersOutOfRangeAreRefused : Obligations.NumbersOutOfRangeAreRefused := by
  refine ⟨fun tag x s listening rest high => ?_, fun tag x s listening rest high => ?_, fun tag x s listening rest high => ?_⟩
  all_goals
    have refused {r : Request} := submit_badField (r := r) listening tag rest
    have plain {r : Request} (shape : shapeRefusal r = none) (other : carriesLaneState (requestKind r) = false)
        (h : ∀ s, serve r s = (s.answer .badField [], [])) :=
      refused (.inl shape) (fun s => refusalBody_of_other other s _) h
  · have none_ := laneOf_none high
    refine ⟨plain rfl rfl ?_, fun a c r al => plain rfl rfl ?_, plain rfl rfl ?_, plain rfl rfl ?_⟩
    · intro s; simp [serve, serveSlotStatus, none_]
    · intro s; simp [serve, servePeekCard, none_]
    · intro s; simp [serve, serveHoldSlot, none_]
    · intro s; simp [serve, serveFreeSlot, none_]
  · have none_ := targetOf_none high
    refine ⟨plain rfl rfl ?_, fun u q => plain rfl rfl ?_, plain rfl rfl ?_, plain rfl rfl ?_, fun a c => plain rfl rfl ?_,
      fun a c d => refused (shapeRefusal_writeTarget x a c d) (fun s => refusalBody_of_other rfl s _) ?_,
      fun rs => refused (shapeRefusal_grantSpace x rs) (fun s => refusalBody_of_other rfl s _) ?_,
      plain rfl rfl ?_, plain rfl rfl ?_⟩
    · intro s; simp [serve, serveTargetStatus, none_]
    · intro s; simp [serve, serveConfigureTarget, none_]
    · intro s; simp [serve, serveTakeTargetOffline, none_]
    · intro s; simp [serve, serveBringTargetOnline, none_]
    · intro s; simp [serve, serveReadTarget, none_]
    · intro s; simp [serve, serveWriteTarget, none_]
    · intro s; simp [serve, serveGrantSpace, none_]
    · intro s; simp [serve, serveClearPool, none_]
    · intro s; simp [serve, serveReadPool, none_]
  · have none_ := laneOf_none high
    have lane {r : Request} {bytes : List Byte} (body : requestBody r = x :: bytes) (shape : shapeRefusal r = none)
        (h : ∀ s, serve r s = (s.answer .badField [], [])) :=
      refused (.inl shape) (fun s => by rw [body]; exact refusalBody_of_laneOf_none none_ s _ _) h
    refine ⟨fun l ts k v p m r al w => lane rfl rfl ?_, fun es => refused (shapeRefusal_appendEntries x es)
      (fun s => refusalBody_of_laneOf_none none_ s _ _) ?_, lane rfl rfl ?_, lane rfl rfl ?_, lane rfl rfl ?_,
      lane rfl rfl ?_, lane rfl rfl ?_, fun k rm => lane rfl rfl ?_, lane rfl rfl ?_, fun rc => lane rfl rfl ?_,
      fun a c => lane rfl rfl ?_, fun i y => lane rfl rfl ?_⟩
    · intro s; simp [serve, serveOpenTake, none_, State.refuseBare]
    · intro s; simp [serve, serveAppendEntries, none_, State.refuseBare]
    · intro s; simp [serve, serveStartTake, none_, State.refuseBare]
    · intro s; simp [serve, serveSuspendTake, none_, State.refuseBare]
    · intro s; simp [serve, serveResumeTake, none_, State.refuseBare]
    · intro s; simp [serve, serveStopTake, none_, State.refuseBare]
    · intro s; simp [serve, serveAbortTake, none_, State.refuseBare]
    · intro s; simp [serve, serveAdjustTake, none_, State.refuseBare]
    · intro s; simp [serve, serveTakeStatus, none_, State.refuseBare]
    · intro s; simp [serve, serveReleaseTake, none_, State.refuseBare]
    · intro s; simp [serve, serveReadManifest, none_]
    · intro s; simp [serve, serveReadAllocation, none_]

/-! ### Frames -/

theorem parseBody_of_unknown {kind : Byte} (h : kind ∉ requestKinds) (body : List Byte) :
    parseBody kind body = .error .unknownKind := by
  simp only [requestKinds, List.mem_cons, List.not_mem_nil, or_false, not_or] at h
  unfold parseBody
  simp only [h, if_false]

/-- The kinds whose replies carry the lane's state are among those of 11.6. -/
theorem mem_requestKinds_of_carriesLaneState : ∀ kind : Byte, carriesLaneState kind = true → kind ∈ requestKinds := by
  decide

/-- What a refused frame's reply carries, in the model's words and in the statement's. -/
theorem refusedBody_eq (s : State) (f : Frame) : s.refusedBody f
    = if f.headerOk then refusalBody s f.kind f.body else [] := by
  have kind : carriesLaneState f.kind = true ↔ 0x50 ≤ f.kind.toNat ∧ f.kind.toNat ≤ 0x59 ∧ f.kind.toNat ≠ 0x58 := by
    have ne : f.kind ≠ 0x58#8 ↔ f.kind.toNat ≠ 0x58 := not_congr BitVec.toNat_inj.symm
    rw [← ne]
    simp [carriesLaneState, isTakeKind, and_assoc]
  unfold State.refusedBody refusalBody
  cases f.headerOk with
  | false => simp
  | true =>
    simp only [true_and, if_true]
    by_cases c : carriesLaneState f.kind = true
    · rw [if_pos c, if_pos (kind.1 c)]
      cases f.body with
      | nil => rfl
      | cons x xs =>
        simp only [List.head?_cons, Option.bind_some, laneOf]
        split <;> rfl
    · rw [if_neg c, if_neg (c ∘ kind.2)]

/-- A listening part takes an arrived frame into service. -/
theorem frameArrival_of_listening {s : State} (listening : s.listening = true) (bytes : List Byte) :
    exec (.frameArrival bytes) s = .next (finish (s.enterService (frameOf bytes))) := by
  obtain ⟨configured, overrun, service, queue, -⟩ := (listening_iff s).1 listening
  show execFrameArrival bytes s = _
  simp [execFrameArrival, State.takeFrame, Link.pipeHeld, Link.idle, configured, overrun, service, queue]

/-- A frame that its checks refuse. -/
theorem frameArrival_refused {s : State} (listening : s.listening = true) (rest : s.atRest = true) {bytes : List Byte}
    {st : Status} (h : parseRequest (frameOf bytes) = .error st) : exec (.frameArrival bytes) s
      = .next (s.replied (frameOf bytes).kind (frameOf bytes).tag false st (s.refusedBody (frameOf bytes))) := by
  rw [frameArrival_of_listening listening, refusedBody_eq]
  simp only [State.enterService, h]
  exact congrArg _ (finish_refused listening rest _ _ false st _)

/-- A frame that arrives behind a request in service. -/
theorem frameArrival_queued {s : State} (rest : s.atRest = true) (stale : s.link.stale = false) (bytes : List Byte)
    (configured : s.link.configured = true) (overrun : s.link.overrun = none) (busy : s.link.inService ≠ none) :
    exec (.frameArrival bytes) s = .next (s.queueFrame (frameOf bytes)).choosePath := by
  have held : s.link.pipeHeld = false := by simp [Link.pipeHeld, configured, overrun]
  have idle : s.link.idle = false := by simp [Link.idle, busy]
  have stale' : (s.queueFrame (frameOf bytes)).link.stale = false := by
    unfold State.queueFrame
    split
    · exact stale
    · rw [(attentionOnly_latch _ _).stale]; exact stale
  have rest' : (s.queueFrame (frameOf bytes)).atRest = true := by
    refine (atRest_congr ?_ ?_).trans rest <;> unfold State.queueFrame <;> split <;> simp
  show execFrameArrival bytes s = _
  simp only [execFrameArrival, held, State.takeFrame, idle, Bool.false_eq_true, if_false]
  rw [finish_of_rest stale' rest']

/-- Settles O6: the frame's checks, R191's, and the room of the waiting queue. -/
theorem arrivingFramesAreRefusedQueuedOrDiscarded : Obligations.ArrivingFramesAreRefusedQueuedOrDiscarded := by
  refine ⟨fun bytes s listening rest => ⟨fun bad => ?_, fun good unknown => ?_, fun good known st h => ?_⟩,
    fun bytes s rest stale => ⟨fun configured overrun busy room => ?_, fun configured overrun busy full => ?_, fun held => ?_⟩⟩
  · rw [frameArrival_refused listening rest (st := .badFrame) (by simp [parseRequest, bad]), refusedBody_eq, bad]
    rfl
  · have other : carriesLaneState (frameOf bytes).kind = false := by
      rw [Bool.eq_false_iff]
      exact fun c => unknown (mem_requestKinds_of_carriesLaneState _ c)
    rw [frameArrival_refused listening rest (st := .unknownKind)
      (by simp [parseRequest, good, parseBody_of_unknown unknown]), refusedBody_eq,
      good, if_pos rfl, refusalBody_of_other other]
  · exact frameArrival_refused listening rest h
  · rw [frameArrival_queued rest stale bytes configured overrun busy, State.queueFrame, if_pos (by exact room)]
  · rw [frameArrival_queued rest stale bytes configured overrun busy, State.queueFrame,
      if_neg (by show ¬ _ < 4; omega)]
    rfl
  · have held : s.link.pipeHeld = true := by
      rcases held with off | waits
      · simp [Link.pipeHeld, off]
      · simp [Link.pipeHeld, Option.isSome_iff_ne_none.2 waits]
    show execFrameArrival bytes s = _
    simp [execFrameArrival, held, State.holdTransfer]

end Sys2Proof.Machine
end

