-- ==== Sys2Proof/Proofs/TaskRuns.lean ====
section
/-! SUPPORT. The follow-on actions of one request taken one by one (`Ends`), the operations of a lane while a request
is in service, and what working a lane's head does in each of its cases. -/

namespace Sys2Proof.Machine

/-! ### Follow-on actions that run out -/

/-- The follow-on actions of `w` run out after `k` actions, in the state `u`. -/
inductive Ends : Nat → Work → State → Prop where
  | nil (s : State) : Ends 0 (s, []) s
  | cons {k : Nat} {s u : State} {t : Task} {ts : List Task} :
      Ends k ((doTask s t).1, (doTask s t).2 ++ ts) u → Ends (k + 1) (s, t :: ts) u

theorem Ends.settle {k : Nat} {w : Work} {u : State} (h : Ends k w u) (m : Nat) : settle (k + m) w.2 w.1 = u := by
  induction h with
  | nil s => exact settle_nil _ s
  | @cons k s u t ts _ ih =>
    rw [Nat.succ_add]
    exact ih

theorem Ends.settled {k : Nat} {w : Work} {u : State} (h : Ends k w u) (few : k ≤ 99) : settled w = u := by
  have fuel : Config.settleFuel = k + (2 ^ 64 - k) := by
    have : Config.settleFuel = 2 ^ 64 := rfl
    omega
  rw [Machine.settled, fuel, h.settle]

theorem Ends.act {k : Nat} {s v u : State} {t : Task} {new ts : List Task} (h : doTask s t = (v, new))
    (e : Ends k (v, new ++ ts) u) : Ends (k + 1) (s, t :: ts) u := by
  refine .cons ?_
  rw [h]
  exact e

/-- An action with none of its own. -/
theorem Ends.one {k : Nat} {s v u : State} {t : Task} {ts : List Task} (h : doTask s t = (v, []))
    (e : Ends k (v, ts) u) : Ends (k + 1) (s, t :: ts) u := .act h e

/-- What is left runs out when what comes first has. -/
theorem Ends.append {k j : Nat} {w : Work} {u v : State} {ts : List Task} (h : Ends k w u) (g : Ends j (u, ts) v) :
    Ends (k + j) (w.1, w.2 ++ ts) v := by
  induction h with
  | nil s => simpa using g
  | @cons k s u t rest _ ih =>
    rw [Nat.succ_add]
    refine .cons ?_
    simpa using ih g

/-- The reply of a take request, composed when the actions before it have run out. -/
theorem Ends.reply {k : Nat} {w : Work} {v : State} (h : Ends k w v) (n : LaneIx) (c : Bool) (st : Status)
    (body : List Byte) : Ends (k + 1) (w.addTasks [.takeReply n c st body]) (v.answerTake n c st body) :=
  h.append (.one rfl (.nil _))

/-! ### A request in service -/

section
variable (s : State) (kind : Byte) (tag : BitVec 16) (n : LaneIx)

@[simp] theorem beginService_take : (s.beginService kind tag).take? n = s.take? n := rfl
@[simp] theorem beginService_laneState : (s.beginService kind tag).laneState n = s.laneState n := rfl
@[simp] theorem beginService_slot : (s.beginService kind tag).slot n = s.slot n := rfl
@[simp] theorem beginService_target (t : TargetIx) : (s.beginService kind tag).target t = s.target t := rfl
@[simp] theorem beginService_pool (t : TargetIx) : (s.beginService kind tag).pool t = s.pool t := rfl
@[simp] theorem beginService_staging : (s.beginService kind tag).staging = s.staging := rfl
@[simp] theorem beginService_attention : (s.beginService kind tag).attention = s.attention := rfl
@[simp] theorem beginService_freeEntries : (s.beginService kind tag).freeEntries = s.freeEntries := rfl
@[simp] theorem beginService_cardAtHand : (s.beginService kind tag).cardAtHand n = s.cardAtHand n := rfl
@[simp] theorem beginService_laneClear : (s.beginService kind tag).laneClear n = s.laneClear n := rfl
@[simp] theorem beginService_liveTargets (t : Take) : (s.beginService kind tag).liveTargets t = s.liveTargets t := rfl

theorem beginService_setLane (x : Option Take) :
    (s.beginService kind tag).setLane n x = (s.setLane n x).beginService kind tag := rfl

theorem beginService_modifyTake (f : Take → Take) :
    (s.beginService kind tag).modifyTake n f = (s.modifyTake n f).beginService kind tag := rfl

theorem beginService_gain (c : CondSet) : (s.beginService kind tag).gain c = (s.gain c).beginService kind tag := by
  by_cases h : c = 0 <;> simp only [State.gain, h, if_true, if_false]
  rfl

theorem beginService_latch (c : Nat) : (s.beginService kind tag).latch c = (s.latch c).beginService kind tag := by
  cases h : s.attention.latched.getLsbD c <;>
    simp only [State.latch, beginService_attention, h, if_true, Bool.false_eq_true, if_false]
  exact beginService_gain
    { s with attention := ({ s.attention with latched := s.attention.latched ||| condBit c }).evalPanel } kind tag _

theorem beginService_rise (c : Nat) : (s.beginService kind tag).rise c = (s.rise c).beginService kind tag := by
  simp only [State.rise, ← beginService_latch]
  rfl

theorem beginService_fall (c : Nat) : (s.beginService kind tag).fall c = (s.fall c).beginService kind tag := rfl

end

/-! ### The entry of a lane into a state -/

section
variable {s : State} {n : LaneIx} {t : Take} (h : s.take? n = some t)
include h

/-- The entry of a lane with a take: the level left falls, the take changes, the level entered rises. -/
theorem enter_of_take (st : TakeState) : s.enter n st
    = (laneLevel n st).elim (((laneLevel n t.state).elim s s.fall).setLane n (some (t.inState st)))
        (((laneLevel n t.state).elim s s.fall).setLane n (some (t.inState st))).rise := by
  unfold State.enter
  rw [laneState_of_take h, Option.bind_some]
  cases laneLevel n t.state with
  | none =>
    dsimp only
    rw [modifyTake_of_take s n _ h]
    cases laneLevel n st <;> rfl
  | some c =>
    have h' : (s.fall c).take? n = some t := h
    dsimp only
    rw [modifyTake_of_take (s.fall c) n _ h']
    cases laneLevel n st <;> rfl

end

theorem beginService_enter (s : State) (kind : Byte) (tag : BitVec 16) (n : LaneIx) (st : TakeState) :
    (s.beginService kind tag).enter n st = (s.enter n st).beginService kind tag := by
  unfold State.enter
  rw [beginService_laneState]
  cases (s.laneState n).bind (laneLevel n) <;> cases laneLevel n st <;> dsimp only <;>
    simp only [beginService_fall, beginService_modifyTake, beginService_rise]

theorem beginService_closeTake (s : State) (kind : Byte) (tag : BitVec 16) (n : LaneIx) (o : TakeOutcome) :
    (s.beginService kind tag).closeTake n o = (s.closeTake n o).beginService kind tag := by
  simp only [State.closeTake, beginService_modifyTake, beginService_enter, beginService_latch]

theorem beginService_leaveWaiting (s : State) (kind : Byte) (tag : BitVec 16) (n : LaneIx) :
    (s.beginService kind tag).leaveWaiting n = (s.leaveWaiting n).beginService kind tag := by
  unfold State.leaveWaiting
  cases h : s.staging.waiting.contains n <;> cases e : (s.staging.waiting.erase n).isEmpty <;>
    simp only [beginService_staging, h, e, Bool.false_eq_true, if_true, if_false] <;> rfl

theorem beginService_leaveShort (s : State) (kind : Byte) (tag : BitVec 16) (t : TargetIx) (n : LaneIx) :
    (s.beginService kind tag).leaveShort t n = (s.leaveShort t n).beginService kind tag := by
  unfold State.leaveShort
  cases h : (s.pool t).short.contains n <;> cases e : ((s.pool t).short.erase n).isEmpty <;>
    simp only [beginService_pool, h, e, Bool.false_eq_true, if_true, if_false] <;> rfl

theorem beginService_leaveAllShort (s : State) (kind : Byte) (tag : BitVec 16) (n : LaneIx) :
    (s.beginService kind tag).leaveAllShort n = (s.leaveAllShort n).beginService kind tag := by
  unfold State.leaveAllShort
  induction allTargets generalizing s with
  | nil => rfl
  | cons t ts ih => rw [List.foldl_cons, List.foldl_cons, beginService_leaveShort, ih]

/-! ### The reply of a take request -/

/-- A take request whose follow-on actions run out before its reply, in a state with no open choice. -/
theorem finish_reply {k : Nat} {w : Work} {v : State} {kind : Byte} {tag : BitVec 16} (n : LaneIx) {c : Bool}
    {st : Status} {body : List Byte} (h : Ends k w (v.beginService kind tag)) (few : k ≤ 98)
    (stale : v.link.stale = false) (rest : v.atRest = true) :
    finish (w.addTasks [.takeReply n c st body]) = v.replied kind tag c st (laneStateCode (v.laneState n) :: body) := by
  have e := (h.reply n c st body).settled (by omega)
  have one : settled ((v.beginService kind tag).answerTake n c st body, []) = _ := settled_nil _
  rw [finish, e, ← one]
  exact finish_answered (s := v) (u := v.beginService kind tag) rfl stale ((atRest_beginService v kind tag).trans rest)

/-- Changes that leave target ports and verify unit alone open no choice. -/
theorem AttentionOnly.atRest {s t : State} (h : AttentionOnly s t) : t.atRest = s.atRest :=
  atRest_congr h.targets h.verify

@[simp] theorem atRest_enter (s : State) (n : LaneIx) (st : TakeState) : (s.enter n st).atRest = s.atRest :=
  atRest_congr (enter_targets s n st) (enter_verify s n st)

@[simp] theorem stale_enter (s : State) (n : LaneIx) (st : TakeState) : (s.enter n st).link.stale = s.link.stale :=
  (enter_rest s n st).stale

@[simp] theorem laneState_enter (s : State) (n : LaneIx) (st : TakeState) {t : Take} (h : s.take? n = some t) :
    (s.enter n st).laneState n = some st := by
  simp [State.laneState, take_enter, h, Take.inState]

/-! ### Working the head, case by case -/

section
variable {s : State} {n : LaneIx} {t : Take} (h : s.take? n = some t) (run : t.state = .running)
include h run

theorem workHead_reading (r : t.reading ≠ .none) : s.workHead n = (s.setHold n .none, []) := by
  simp [State.workHead, h, run, r]

variable (idle : t.reading = .none)
include idle

theorem workHead_recopy {p : Nat × TargetIx} {rest : List (Nat × TargetIx)} (l : t.recopyList = p :: rest)
    (card : s.cardAtHand n = true) : s.workHead n = s.beginRecopy n p.1 p.2 := by
  simp [State.workHead, h, run, idle, l, card]

theorem workHead_noCard (l : t.recopyList ≠ []) (card : s.cardAtHand n = false) :
    s.workHead n = (s.interrupt n, []) := by
  obtain ⟨p, rest, l⟩ := List.exists_cons_of_ne_nil l
  simp [State.workHead, h, run, idle, l, card]

variable (none_ : t.recopyList = [])
include none_

theorem workHead_starved (e : t.entries[t.head]? = none) (open_ : t.listEnded = false) :
    s.workHead n = (s.enter n .starved, []) := by
  simp [State.workHead, h, run, idle, none_, e, open_]

theorem workHead_markReached {k : BitVec 16} {r : Bool} (e : t.entries[t.head]? = some (.mark k r))
    (done : t.earlierFinished = true) : s.workHead n = ((s.modifyTake n fun t =>
      { t with entries := t.entries.set t.head (.mark k true), head := t.head + 1, headHold := .none }).latch
        (condLaneMark n), [.workHead n]) := by
  simp [State.workHead, h, run, idle, none_, e, done]

theorem workHead_markHeld {k : BitVec 16} {r : Bool} (e : t.entries[t.head]? = some (.mark k r))
    (left : t.earlierFinished = false) : s.workHead n = (s.setHold n .mark, []) := by
  simp [State.workHead, h, run, idle, none_, e, left]

theorem workHead_pauseReached {r : Bool} (e : t.entries[t.head]? = some (.pause r))
    (done : t.earlierFinished = true) : s.workHead n = ((s.modifyTake n fun t =>
      { t with entries := t.entries.set t.head (.pause true), head := t.head + 1 }).enter n .suspended, []) := by
  simp [State.workHead, h, run, idle, none_, e, done]

theorem workHead_pauseHeld {r : Bool} (e : t.entries[t.head]? = some (.pause r))
    (left : t.earlierFinished = false) : s.workHead n = (s.setHold n .pause, []) := by
  simp [State.workHead, h, run, idle, none_, e, left]

theorem workHead_end (e : t.entries[t.head]? = some .endOfList) :
    s.workHead n = ((s.enter n .draining).setHold n .endOfList, [.goOn n]) := by
  simp [State.workHead, h, run, idle, none_, e]

theorem workHead_deep {f : FileEntry} (e : t.entries[t.head]? = some (.file f)) (card : s.cardAtHand n = true)
    (deep : 2 ≤ t.depth) : s.workHead n = (s.setHold n .depth, []) := by
  simp [State.workHead, h, run, idle, none_, e, card, Config.fileDepth, deep]

theorem workHead_file {f : FileEntry} (e : t.entries[t.head]? = some (.file f)) (card : s.cardAtHand n = true)
    (room : t.depth < 2) : s.workHead n = (s.setHold n .none).startFile n t.head := by
  have shallow : ¬ 2 ≤ t.depth := by omega
  simp [State.workHead, h, run, idle, none_, e, card, Config.fileDepth, shallow]

end

/-! ### Chunk reads that do not begin -/

theorem tryRead_of_not {s : State} {n : LaneIx} (h : s.mayRead n = false) : s.tryRead n = (s, []) := by
  simp [State.tryRead, h]

/-- A lane with no reading begins no chunk read. -/
theorem tryRead_of_idle {s : State} {n : LaneIx} {t : Take} (h : s.take? n = some t) (idle : t.reading = .none) :
    s.tryRead n = (s, []) :=
  tryRead_of_not (by simp [State.mayRead, h, Take.nextUse, idle])

/-- A lane with a chunk read in flight begins no other. -/
theorem tryRead_of_chunk {s : State} {n : LaneIx} {t : Take} (h : s.take? n = some t) (busy : t.chunkRead ≠ none) :
    s.tryRead n = (s, []) := by
  have busy' : t.chunkRead.isNone = false := by simpa [Option.isNone_eq_false_iff, Option.isSome_iff_ne_none] using busy
  exact tryRead_of_not (by simp [State.mayRead, h, busy'])

/-- A lane that has entered RUNNING with no reading works its head. -/
theorem Ends.running {k : Nat} {s v u : State} {n : LaneIx} {t : Take} {new : List Task} (h : s.take? n = some t)
    (idle : t.reading = .none) (work : (s.enter n .running).workHead n = (v, new)) (e : Ends k (v, new) u) :
    Ends (k + 2) (s.enterRunning n) u := by
  have h' : (s.enter n .running).take? n = some (t.inState .running) := by simp [take_enter, h]
  refine .one (tryRead_of_idle h' idle) (.act work ?_)
  simpa using e

end Sys2Proof.Machine
end

