-- ==== Sys2Proof/Proofs/TakeOpening.lean ====
section
/-! The take requests that work no lane: OPEN TAKE, SUSPEND TAKE and RELEASE TAKE. -/

namespace Sys2Proof.Machine

/-! ### Refusals -/

section
variable {s : State} (listening : s.listening = true) (rest : s.atRest = true) (tag : BitVec 16) {r : Request}
  {n : LaneIx} (st : Status) (body : List Byte) {code : Byte}
include listening rest

/-- A take request that is refused in a lane. -/
theorem submit_refuseTake (shape : shapeRefusal r = none) (state : laneStateCode (s.laneState n) = code)
    (h : serve r (s.beginService (requestKind r) tag) = (s.beginService (requestKind r) tag).refuseTake n st body) :
    (.next (submit tag r s) : Host.Outcome State Fault Refusal)
      = .next (s.replied (requestKind r) tag false st (code :: body)) := by
  rw [submit_answered listening tag rest shape h, ← state]
  rfl

/-- A take request that is answered without a change. -/
theorem submit_unchanged (shape : shapeRefusal r = none) (state : laneStateCode (s.laneState n) = code)
    (h : serve r (s.beginService (requestKind r) tag)
      = (s.beginService (requestKind r) tag, [.takeReply n false st body])) :
    (.next (submit tag r s) : Host.Outcome State Fault Refusal)
      = .next (s.replied (requestKind r) tag false st (code :: body)) := by
  obtain ⟨-, -, -, -, stale⟩ := (listening_iff s).1 listening
  rw [submit_served listening tag shape, h, ← state]
  exact congrArg _ (finish_reply (w := (_, [])) n (.nil _) (by omega) stale rest)

end

/-- A take request whose follow-on actions run out before its reply. -/
theorem submit_replied {s v : State} (listening : s.listening = true) (tag : BitVec 16) {r : Request}
    (shape : shapeRefusal r = none) {n : LaneIx} {st : Status} {body : List Byte} {k : Nat} {w : Work} {c : Bool}
    {code : Byte} (h : serve r (s.beginService (requestKind r) tag) = w.addTasks [.takeReply n c st body])
    (ends : Ends k w (v.beginService (requestKind r) tag)) (few : k ≤ 98) (stale : v.link.stale = false)
    (rest : v.atRest = true) (state : laneStateCode (v.laneState n) = code) :
    (.next (submit tag r s) : Host.Outcome State Fault Refusal)
      = .next (v.replied (requestKind r) tag c st (code :: body)) := by
  rw [submit_served listening tag shape, h, ← state]
  exact congrArg _ (finish_reply n ends few stale rest)

/-- A take request after which only the lane's take, levels and latches have changed. -/
theorem submit_lane {s b v : State} (listening : s.listening = true) (rest : b.atRest = true) (tag : BitVec 16)
    {r : Request} (shape : shapeRefusal r = none) {n : LaneIx} {st : Status} {body : List Byte} {k : Nat} {w : Work}
    {c : Bool} {t : Take} {code : Byte} (h : serve r (s.beginService (requestKind r) tag) = w.addTasks [.takeReply n c st body])
    (ends : Ends k w (v.beginService (requestKind r) tag)) (few : k ≤ 98)
    (only : AttentionOnly (b.setLane n (some t)) v) (stale : b.link.stale = false := by assumption)
    (state : laneStateCode (some t.state) = code := by rfl) : (.next (submit tag r s) : Host.Outcome State Fault Refusal)
      = .next (v.replied (requestKind r) tag c st (code :: body)) :=
  submit_replied listening tag shape h ends few (only.stale.trans stale)
    (only.atRest.trans ((atRest_setLane b n _).trans rest))
    (by rw [laneState_of_lanes only.lanes, laneState_setLane_same]; exact state)

/-! ### OPEN TAKE -/

theorem targetSetOf_of_lt {b : Byte} (h : b.toNat < 16) : targetSetOf b = some (b.setWidth 4) := if_pos h

theorem targetSetOf_of_le {b : Byte} (h : 16 ≤ b.toNat) : targetSetOf b = none := if_neg (by omega)

theorem onOff_of_lt {b : Byte} (h : b.toNat < 2) : onOff b = some (b == 1) := by
  have : b = 0 ∨ b = 1 := by bv_omega
  rcases this with rfl | rfl <;> rfl

theorem onOff_of_le {b : Byte} (h : 2 ≤ b.toNat) : onOff b = none := by
  have : b ≠ 0 ∧ b ≠ 1 := by bv_omega
  rw [onOff, if_neg this.1, if_neg this.2]

@[simp] theorem policyOf_code (p : ReadPolicy) : policyOf p.code = some p := by cases p <;> rfl

@[simp] theorem mismatchOf_code (m : MismatchResponse) : mismatchOf m.code = some m := by cases m <;> rfl

theorem policyOf_of_le {b : Byte} (h : 3 ≤ b.toNat) : policyOf b = none := by
  have : b ≠ 0 ∧ b ≠ 1 ∧ b ≠ 2 := by bv_omega
  rw [policyOf, if_neg this.1, if_neg this.2.1, if_neg this.2.2]

theorem mismatchOf_of_le {b : Byte} (h : 2 ≤ b.toNat) : mismatchOf b = none := by
  have : b ≠ 0 ∧ b ≠ 1 := by bv_omega
  rw [mismatchOf, if_neg this.1, if_neg this.2]

theorem clampWindow_eq (w : Byte) : clampWindow w.toNat = if w = 0 then 8 else min w.toNat 32 := by
  have : w.toNat = 0 ↔ w = 0 := by bv_omega
  simp [clampWindow, this]

theorem clampRetries_eq (r : Byte) : clampRetries r.toNat = if r = 3 then 4 else min r.toNat 4 := by
  have : r.toNat = 3 ↔ r = 3 := by bv_omega
  simp [clampRetries, this]

/-- A byte below 16 is the empty target set only when it is 0. -/
theorem setWidth_eq_zero {b : Byte} (h : b.toNat < 16) : b.setWidth 4 = 0 ↔ b = 0 := by bv_omega

section
variable {s : State} {x : Byte} {n : LaneIx} (lane : laneOf x = some n) (free : s.take? n = none)
include lane free

/-- OPEN TAKE of an IDLE lane with a field that names nothing. -/
theorem serveOpenTake_refused {label : BitVec 16} {ts k v p m r al w : Byte}
    (bad : ts = 0 ∨ 16 ≤ ts.toNat ∨ k = 0 ∨ setSize (ts.setWidth 4) < k.toNat ∨ 2 ≤ v.toNat ∨ 3 ≤ p.toNat ∨ 2 ≤ m.toNat
      ∨ 2 ≤ al.toNat) : serveOpenTake x label ts k v p m r al w s = s.refuseTake n .badField [] := by
  simp only [serveOpenTake, lane, free]
  split
  · rename_i set verify policy mismatch alternate hset hv hp hm hal
    rcases bad with rfl | big | rfl | many | big | big | big | big
    · simp [targetSetOf] at hset
      simp [← hset]
    · simp [targetSetOf_of_le big] at hset
    · simp
    · have small : ts.toNat < 16 := by
        by_contra big
        simp [targetSetOf_of_le (b := ts) (by omega)] at hset
      rw [targetSetOf_of_lt small, Option.some.injEq] at hset
      rw [if_pos (.inr (.inr (hset ▸ many)))]
    · simp [onOff_of_le big] at hv
    · simp [policyOf_of_le big] at hp
    · simp [mismatchOf_of_le big] at hm
    · simp [onOff_of_le big] at hal
  · rfl

/-- OPEN TAKE of an IDLE lane with fields that all name values. -/
theorem serveOpenTake_accepted {label : BitVec 16} {ts k v r al w : Byte} (policy : ReadPolicy)
    (mismatch : MismatchResponse) (set : ts ≠ 0) (small : ts.toNat < 16) (pos : k ≠ 0)
    (within : k.toNat ≤ setSize (ts.setWidth 4)) (onv : v.toNat < 2) (onal : al.toNat < 2) :
    serveOpenTake x label ts k v policy.code mismatch.code r al w s
      = (s.setLane n (some (Take.create label (ts.setWidth 4) k.toNat (v == 1) policy mismatch (clampRetries r.toNat)
            (al == 1) (clampWindow w.toNat))),
          [.takeReply n (clampWindow w.toNat != w.toNat || clampRetries r.toNat != r.toNat) .ok
            [BitVec.ofNat 8 (clampWindow w.toNat), BitVec.ofNat 8 (clampRetries r.toNat)]]) := by
  have some_ : ts.setWidth 4 ≠ 0 := (setWidth_eq_zero small).not.2 set
  simp only [serveOpenTake, lane, free, targetSetOf_of_lt small, onOff_of_lt onv, onOff_of_lt onal, policyOf_code,
    mismatchOf_code]
  rw [if_neg (by rintro (e | e | e) <;> first | contradiction | omega)]

end

/-- Settles O30: OPEN TAKE looks at the lane, then at its fields. -/
theorem openTakeCreatesTheContext : Obligations.OpenTakeCreatesTheContext := by
  intro tag x label ts k v p m r al w n s listening rest lane
  obtain ⟨-, -, -, -, stale⟩ := (listening_iff s).1 listening
  refine ⟨fun t taken => ?_, fun free => ⟨fun bad => ?_, ?_⟩⟩
  · refine submit_refuseTake listening rest tag (n := n) .wrongState [] rfl (by rw [laneState_of_take taken]) ?_
    simp only [serve, serveOpenTake, lane, beginService_take, taken]
  · exact submit_refuseTake listening rest tag .badField [] rfl (by simp [State.laneState, free, laneStateCode])
      (serveOpenTake_refused lane (by exact free) bad)
  · rintro policy mismatch set small pos within onv onal rfl rfl
    rw [← clampWindow_eq, ← clampRetries_eq]
    exact submit_replied (v := s.setLane n _) (w := (_, [])) listening tag rfl
      (serveOpenTake_accepted lane (by exact free) policy mismatch set small pos within onv onal) (.nil _) (by omega)
      stale ((atRest_setLane ..).trans rest) (by rw [laneState_setLane_same]; rfl)

/-! ### SUSPEND TAKE -/

theorem leaveShort_rest (s : State) (t : TargetIx) (n : LaneIx) :
    AttentionOnly { s with pools := (s.leaveShort t n).pools } (s.leaveShort t n) := by
  unfold State.leaveShort
  split
  · dsimp only
    split
    · exact attentionOnly_fall _ _
    · exact rfl
  · exact rfl

/-- The leaving of every short list changes pools and the attention unit alone. -/
theorem leaveAllShort_rest (s : State) (n : LaneIx) :
    AttentionOnly { s with pools := (s.leaveAllShort n).pools } (s.leaveAllShort n) := by
  unfold State.leaveAllShort
  induction allTargets generalizing s with
  | nil => exact rfl
  | cons t ts ih =>
    rw [List.foldl_cons]
    have first := leaveShort_rest s t n
    have others := ih (s.leaveShort t n)
    generalize List.foldl (fun s t => s.leaveShort t n) (s.leaveShort t n) ts = u at *
    generalize s.leaveShort t n = v at *
    unfold AttentionOnly at *
    rw [first] at others
    exact others

section
variable (s : State) (n : LaneIx)

@[simp] theorem leaveAllShort_lanes : (s.leaveAllShort n).lanes = s.lanes := (leaveAllShort_rest s n).lanes
@[simp] theorem leaveAllShort_targets : (s.leaveAllShort n).targets = s.targets := (leaveAllShort_rest s n).targets
@[simp] theorem leaveAllShort_verify : (s.leaveAllShort n).verify = s.verify := (leaveAllShort_rest s n).verify
@[simp] theorem leaveAllShort_slots : (s.leaveAllShort n).slots = s.slots := (leaveAllShort_rest s n).slots
@[simp] theorem leaveAllShort_staging : (s.leaveAllShort n).staging = s.staging := (leaveAllShort_rest s n).staging
@[simp] theorem leaveAllShort_stale : (s.leaveAllShort n).link.stale = s.link.stale := (leaveAllShort_rest s n).stale
@[simp] theorem leaveAllShort_take (m : LaneIx) : (s.leaveAllShort n).take? m = s.take? m := by simp [State.take?]
@[simp] theorem leaveWaiting_stale : (s.leaveWaiting n).link.stale = s.link.stale := (leaveWaiting_rest s n).stale
@[simp] theorem leaveWaiting_verify : (s.leaveWaiting n).verify = s.verify := (leaveWaiting_rest s n).verify

@[simp] theorem atRest_leaveWaiting : (s.leaveWaiting n).atRest = s.atRest := atRest_congr (by simp) (by simp)
@[simp] theorem atRest_leaveAllShort : (s.leaveAllShort n).atRest = s.atRest := atRest_congr (by simp) (by simp)

end

/-- Settles O35: the lane's state decides. -/
theorem suspendTakeHoldsTheLane : Obligations.SuspendTakeHoldsTheLane := by
  intro tag x n s listening rest lane
  obtain ⟨-, -, -, -, stale⟩ := (listening_iff s).1 listening
  refine ⟨fun tk taken going => ⟨?_, ?_⟩, fun held => ?_, fun other => ?_⟩
  · have w : serveSuspendTake x (s.beginService 0x53 tag)
        = ((((s.leaveWaiting n).leaveAllShort n).enter n .suspended).beginService 0x53 tag, [.takeReply n false .ok []]) := by
      rw [← beginService_enter, ← beginService_leaveAllShort, ← beginService_leaveWaiting]
      simp only [serveSuspendTake, lane, beginService_laneState, laneState_of_take taken]
      rcases going with st | st | st <;> rw [st]
    exact submit_replied (w := (_, [])) listening tag rfl w (.nil _) (by omega) (by simpa using stale)
      (by simpa using rest) (by rw [laneState_enter _ n _ (t := tk) (by simpa using taken)]; rfl)
  · simp [take_enter, taken, Take.inState, TakeState.keepsHold]
  · refine submit_unchanged listening rest tag (n := n) .ok [] rfl (by rw [held]; rfl) ?_
    simp only [serve, serveSuspendTake, lane, beginService_laneState, held]
  · refine submit_refuseTake listening rest tag (n := n) .wrongState [] rfl rfl ?_
    simp only [List.mem_cons, List.not_mem_nil, or_false, not_or] at other
    obtain ⟨running, starved, waiting, suspended⟩ := other
    show serveSuspendTake x _ = _
    rw [serveSuspendTake, lane]
    dsimp only [beginService_laneState]
    split <;> first | contradiction | rfl

/-! ### RELEASE TAKE -/

/-- One step of `State.reclaim`: the state reached, and the units dropped so far. -/
def reclaimNext (p : State × Nat) (a : TargetIx × Allocation) : State × Nat :=
  (p.1.reclaimOne a.1 a.2, p.2 + p.1.reclaimDrops a.1 a.2)

/-- Only the pools differ. -/
def PoolsOnly (s t : State) : Prop := t = { s with pools := t.pools }

theorem PoolsOnly.trans {a b c : State} (h : PoolsOnly a b) (k : PoolsOnly b c) : PoolsOnly a c := by
  unfold PoolsOnly at *
  rw [h] at k
  exact k

/-- Reclaiming changes pools alone. -/
theorem reclaim_poolsOnly (s : State) (as : List (TargetIx × Allocation)) : PoolsOnly s (s.reclaim as).1 := by
  suffices fold : ∀ (as : List (TargetIx × Allocation)) (p : State × Nat), PoolsOnly p.1 (as.foldl reclaimNext p).1 from
    fold as (s, 0)
  intro as
  induction as with
  | nil => exact fun _ => rfl
  | cons a as ih =>
    refine fun p => PoolsOnly.trans ?_ (ih (reclaimNext p a))
    show PoolsOnly p.1 (p.1.reclaimOne a.1 a.2)
    unfold State.reclaimOne
    split <;> exact rfl

theorem beginService_reclaimOne (s : State) (kind : Byte) (tag : BitVec 16) (x : TargetIx) (a : Allocation) :
    (s.beginService kind tag).reclaimOne x a = (s.reclaimOne x a).beginService kind tag := by
  unfold State.reclaimOne
  rw [beginService_target]
  split <;> rfl

theorem beginService_reclaim (s : State) (kind : Byte) (tag : BitVec 16) (as : List (TargetIx × Allocation)) :
    (s.beginService kind tag).reclaim as = ((s.reclaim as).1.beginService kind tag, (s.reclaim as).2) := by
  suffices fold : ∀ (as : List (TargetIx × Allocation)) (p : State × Nat), as.foldl reclaimNext (p.1.beginService kind tag, p.2)
      = ((as.foldl reclaimNext p).1.beginService kind tag, (as.foldl reclaimNext p).2) from fold as (s, 0)
  intro as
  induction as with
  | nil => exact fun _ => rfl
  | cons a as ih =>
    intro p
    have first : reclaimNext (p.1.beginService kind tag, p.2) a
        = ((reclaimNext p a).1.beginService kind tag, (reclaimNext p a).2) :=
      Prod.ext (beginService_reclaimOne p.1 kind tag a.1 a.2) rfl
    rw [List.foldl_cons, first]
    exact ih (reclaimNext p a)

theorem mem_indexed_iff (t : Take) (e : Nat) (a : Entry) : (e, a) ∈ t.indexed ↔ t.entries[e]? = some a := by
  simp only [Take.indexed, List.mem_iff_getElem?, List.getElem?_zip_eq_some]
  constructor
  · rintro ⟨i, at_, found⟩
    obtain ⟨-, rfl⟩ := List.getElem?_eq_some_iff.1 at_
    simpa using found
  · intro found
    obtain ⟨lt, -⟩ := List.getElem?_eq_some_iff.1 found
    exact ⟨e, List.getElem?_range lt, found⟩

/-- The files of a take, by their place in the list. -/
theorem mem_files_iff (t : Take) (e : Nat) (f : FileEntry) : (e, f) ∈ t.files ↔ t.file? e = some f := by
  simp only [Take.files, List.mem_filterMap, Prod.exists, Option.map_eq_some_iff, Prod.mk.injEq, mem_indexed_iff,
    Take.file?, Option.bind_eq_some_iff]
  constructor
  · rintro ⟨i, a, at_, g, file, rfl, rfl⟩
    exact ⟨a, at_, file⟩
  · rintro ⟨a, at_, file⟩
    exact ⟨e, a, at_, f, file, rfl, rfl⟩

theorem mem_reclaimable_iff (t : Take) (y : TargetIx) (a : Allocation) : (y, a) ∈ t.reclaimable
    ↔ ∃ e f, t.file? e = some f ∧ (f.copy y).allocation = some a
      ∧ ((f.copy y).state = .failed ∨ (f.copy y).state = .mismatch) := by
  simp only [Take.reclaimable, List.mem_flatMap, List.mem_filterMap, allTargets, List.mem_finRange, true_and, Prod.exists,
    mem_files_iff]
  constructor
  · rintro ⟨e, f, found, x, h⟩
    split at h
    · rename_i lost
      obtain ⟨b, held, eq⟩ := Option.map_eq_some_iff.1 h
      obtain ⟨rfl, rfl⟩ := Prod.mk.inj eq
      exact ⟨e, f, found, held, lost⟩
    · contradiction
  · rintro ⟨e, f, found, held, lost⟩
    exact ⟨e, f, found, y, by simp [held, lost]⟩

/-- Settles O40: the runs go back before the lane is freed. -/
theorem releaseTakeFreesTheLane : Obligations.ReleaseTakeFreesTheLane := by
  intro tag x flag n s listening rest lane
  obtain ⟨-, -, -, -, stale⟩ := (listening_iff s).1 listening
  refine ⟨fun other => ?_, fun tk o c taken closed outcome cleared => ⟨fun bad => ?_, fun ok => ?_, mem_reclaimable_iff tk⟩⟩
  · refine submit_refuseTake listening rest tag (n := n) .wrongState [] rfl rfl ?_
    simp only [serve, serveReleaseTake, lane, beginService_take]
    cases taken : s.take? n with
    | none => rfl
    | some t =>
      rw [laneState_of_take taken] at other
      exact if_pos fun e => other (congrArg some e)
  · refine submit_refuseTake listening rest tag (n := n) .badField [] rfl (by rw [laneState_of_take taken, closed]; rfl) ?_
    simp only [serve, serveReleaseTake, lane, beginService_take, taken, onOff_of_le bad, closed, ne_eq,
      not_true_eq_false, if_false]
  · intro r
    have reclaimed : (if flag == 1 then (s.beginService 0x59 tag).reclaim tk.reclaimable else (s.beginService 0x59 tag, 0))
        = (r.1.beginService 0x59 tag, r.2) := by
      by_cases on : flag = 1
      · simp only [on, beq_self_eq_true, if_true, r, beginService_reclaim]
      · simp only [beq_iff_eq, on, if_false, r]
    have same : PoolsOnly s r.1 := by
      by_cases on : flag = 1
      · simp only [r, on, if_true]
        exact reclaim_poolsOnly s _
      · simp only [r, on, if_false]
        exact rfl
    refine submit_replied (v := ({ r.1 with freeEntries := s.freeEntries + tk.entries.length }).setLane n none)
      (w := (_, [])) (r := .releaseTake x flag) (n := n) listening tag rfl ?_ (.nil _) (by omega) ?_ ?_ ?_
    · simp only [serve, serveReleaseTake, lane, beginService_take, taken, onOff_of_lt ok, closed, ne_eq,
        not_true_eq_false, if_false, requestKind, reclaimed, outcome, cleared]
      rw [same]
      rfl
    · rw [same]; exact stale
    · rw [same]; exact (atRest_congr rfl rfl).trans rest
    · rw [laneState_setLane_same]; rfl

end Sys2Proof.Machine
end

