-- ==== Sys2Proof/Proofs/HeadRuns.lean ====
section
/-! SUPPORT. What becomes of a lane that has entered RUNNING with nothing of it read and no recopy to do, by the entry
at its head. -/

namespace Sys2Proof.Machine

/-! ### A take is replaced while levels move -/

section
variable (s : State) (n : LaneIx) (x : Option Take) (c : Nat)

theorem setLane_gain (g : CondSet) : (s.gain g).setLane n x = (s.setLane n x).gain g := by
  by_cases h : g = 0 <;> simp only [State.gain, h, if_true, if_false]
  rfl

theorem setLane_latch : (s.latch c).setLane n x = (s.setLane n x).latch c := by
  cases h : s.attention.latched.getLsbD c <;>
    simp only [State.latch, setLane_attention, h, if_true, Bool.false_eq_true, if_false]
  exact setLane_gain
    { s with attention := ({ s.attention with latched := s.attention.latched ||| condBit c }).evalPanel } n x _

theorem setLane_rise : (s.rise c).setLane n x = (s.setLane n x).rise c :=
  setLane_latch { s with attention := { s.attention with asserted := s.attention.asserted ||| condBit c } } n x c

theorem setLane_fall : (s.fall c).setLane n x = (s.setLane n x).fall c := rfl

end

/-- The entry of a lane whose take has just been replaced. -/
theorem enter_setLane (s : State) (n : LaneIx) (t : Take) (st : TakeState) : (s.setLane n (some t)).enter n st
    = (laneLevel n st).elim (((laneLevel n t.state).elim s s.fall).setLane n (some (t.inState st)))
        (((laneLevel n t.state).elim s s.fall).setLane n (some (t.inState st))).rise := by
  rw [enter_of_take (take_setLane_same s n (some t))]
  cases laneLevel n t.state with
  | none => simp only [Option.elim_none, setLane_setLane]
  | some c => simp only [Option.elim_some, ← setLane_fall, setLane_setLane]

/-- A lane that leaves RUNNING for a state without a level. -/
theorem enter_quiet (s : State) (n : LaneIx) {t : Take} {st : TakeState} (run : t.state = .running)
    (level : laneLevel n st = none) : (s.setLane n (some t)).enter n st = s.setLane n (some (t.inState st)) := by
  rw [enter_setLane, run, level]
  rfl

/-- A lane that leaves RUNNING for a state with a level. -/
theorem enter_level (s : State) (n : LaneIx) {t : Take} {st : TakeState} {c : Nat} (run : t.state = .running)
    (level : laneLevel n st = some c) :
    (s.setLane n (some t)).enter n st = (s.setLane n (some (t.inState st))).rise c := by
  rw [enter_setLane, run, level]
  rfl

theorem modifyTake_setLane (s : State) (n : LaneIx) (t : Take) (f : Take → Take) :
    (s.setLane n (some t)).modifyTake n f = s.setLane n (some (f t)) := by
  rw [modifyTake_of_take _ n f (take_setLane_same s n (some t)), setLane_setLane]

/-- A lane that leaves RUNNING waits for targets. -/
theorem enterWaiting_setLane (s : State) (n : LaneIx) {t : Take} (run : t.state = .running) (r : WaitReason) :
    (s.setLane n (some t)).enterWaiting n r
      = (s.setLane n (some { t.inState .waiting with waitReason := some r })).rise (condLaneWaiting n) := by
  rw [State.enterWaiting, enter_level s n run rfl,
    modifyTake_of_take _ n _ ((rise_take _ _ n).trans (take_setLane_same s n _)), setLane_rise, setLane_setLane]

/-- A lane that leaves RUNNING or DRAINING closes. -/
theorem closeTake_setLane (s : State) (n : LaneIx) {t : Take} (level : laneLevel n t.state = none) (o : TakeOutcome) :
    (s.setLane n (some t)).closeTake n o
      = (s.setLane n (some ((t.judged o).inState .closed))).latch (condLaneDone n) := by
  have level' : laneLevel n (t.judged o).state = none := level
  rw [State.closeTake, modifyTake_setLane, enter_setLane, level']
  rfl

/-! ### Short lists a lane does not stand on -/

theorem leaveShort_of_out {s : State} {t : TargetIx} {n : LaneIx} (out : n ∉ (s.pool t).short) :
    s.leaveShort t n = s := by simp [State.leaveShort, out]

theorem leaveAllShort_of_out {s : State} {n : LaneIx} (out : ∀ t, n ∉ (s.pool t).short) : s.leaveAllShort n = s := by
  unfold State.leaveAllShort
  induction allTargets with
  | nil => rfl
  | cons t ts ih => rw [List.foldl_cons, leaveShort_of_out (out t), ih]

theorem leaveWaiting_of_out {s : State} {n : LaneIx} (out : n ∉ s.staging.waiting) : s.leaveWaiting n = s := by
  simp [State.leaveWaiting, out]

/-! ### The start of a file that does not begin -/

/-- A PENDING file with too few live targets. -/
theorem startFile_tooFew {s : State} {n : LaneIx} {t : Take} {e : Nat} {f : FileEntry} (h : s.take? n = some t)
    (file : t.file? e = some f) (pending : f.progress = .pending) (few : (s.liveTargets t).length < t.k) :
    s.startFile n e = ((s.leaveAllShort n).enterWaiting n .targets, []) := by
  have file' : s.file? n e = some f := by simp [State.file?, h, file]
  simp [State.startFile, h, file', pending, few]

theorem file_of_entry {t : Take} {e : Nat} {f : FileEntry} (h : t.entries[e]? = some (.file f)) : t.file? e = some f := by
  simp [Take.file?, h, Entry.file?]

/-! ### The end of the list -/

theorem filesDone_iff (t : Take) : t.filesDone = true ↔ ∀ e f, t.file? e = some f →
    f.progress = .finished ∨ t.state = .stopping ∧ f.progress = .pending := by
  simp [Take.filesDone, List.all_eq_true, mem_files_iff]

/-- A DRAINING lane with all files finished and nothing of it left in the part closes. -/
theorem goOn_closes {s : State} {n : LaneIx} {t : Take} (h : s.take? n = some t)
    (st : t.state = .draining ∨ t.state = .stopping) (idle : t.reading = .none) (none_ : t.recopyList = [])
    (done : t.filesDone = true) (clear : s.laneClear n = true) :
    s.goOn n = (s.closeTake n t.closingOutcome, []) := by
  rcases st with st | st <;>
    simp [State.goOn, h, st, State.serveOrClose, idle, none_, done, closeIfClear_of_clear _ clear]

/-- A DRAINING lane with a file that is not finished goes on. -/
theorem goOn_left {s : State} {n : LaneIx} {t : Take} (h : s.take? n = some t)
    (st : t.state = .draining ∨ t.state = .stopping) (idle : t.reading = .none) (none_ : t.recopyList = [])
    (left : t.filesDone = false) : s.goOn n = (s, []) := by
  rcases st with st | st <;> simp [State.goOn, h, st, State.serveOrClose, idle, none_, left]

/-- Whether anything of a lane is left depends on its chunk read, not on the rest of its take. -/
theorem laneClear_setLane {s : State} {n : LaneIx} {t u : Take} (h : s.take? n = some t)
    (chunk : u.chunkRead = t.chunkRead) : (s.setLane n (some u)).laneClear n = s.laneClear n := by
  simp only [State.laneClear, take_setLane_same, h, Option.bind_some, chunk]
  rfl

/-! ### What becomes of a lane that has entered RUNNING -/

/-- A take whose lane has reached END (R16). -/
def Take.atEnd (t : Take) : Take := { t.inState .draining with headHold := .endOfList }

/-- What END leaves of a lane that enters RUNNING at it. -/
theorem end_reached (b : State) (n : LaneIx) (t : Take) :
    ((b.setLane n (some (t.inState .running))).enter n .draining).setHold n .endOfList
      = b.setLane n (some t.atEnd) := by
  rw [enter_quiet b n rfl rfl, State.setHold, modifyTake_setLane]
  rfl

/-- The lane works its head as its take stands after the entry. -/
theorem Ends.entered {k : Nat} {s b v u : State} {n : LaneIx} {t : Take} {new : List Task} (h : s.take? n = some t)
    (entry : s.enter n .running = b.setLane n (some (t.inState .running))) (idle : t.reading = .none)
    (work : (b.setLane n (some (t.inState .running))).workHead n = (v, new)) (e : Ends k (v, new) u) :
    Ends (k + 2) (s.enterRunning n) u :=
  .running h idle ((congrArg (State.workHead · n) entry).trans work) e

section
variable {s b : State} {n : LaneIx} {t : Take} (h : s.take? n = some t)
  (entry : s.enter n .running = b.setLane n (some (t.inState .running))) (idle : t.reading = .none)
  (none_ : t.recopyList = [])
include h entry idle none_

theorem Ends.running_starved (e : t.entries[t.head]? = none) (open_ : t.listEnded = false) :
    Ends 2 (s.enterRunning n) ((b.setLane n (some (t.inState .starved))).rise (condLaneStarved n)) := by
  have taken := take_setLane_same b n (some (t.inState .running))
  refine .entered h entry idle (workHead_starved taken rfl idle none_ e open_) ?_
  rw [enter_level b n rfl rfl]
  exact .nil _

theorem Ends.running_suspended {r : Bool} (e : t.entries[t.head]? = some (.pause r)) (done : t.earlierFinished = true) :
    Ends 2 (s.enterRunning n) ((b.setLane n (some
      { t.inState .suspended with entries := t.entries.set t.head (.pause true), head := t.head + 1 })).rise
        (condLaneSuspended n)) := by
  have taken := take_setLane_same b n (some (t.inState .running))
  refine .entered h entry idle (workHead_pauseReached taken rfl idle none_ e done) ?_
  rw [modifyTake_setLane, enter_level b n rfl rfl]
  exact .nil _

/-- A MARK with nothing behind it: it is reached, and the lane starves. -/
theorem Ends.running_marked {k : BitVec 16} {r : Bool} (e : t.entries[t.head]? = some (.mark k r))
    (done : t.earlierFinished = true) (last : t.entries.length = t.head + 1) (open_ : t.listEnded = false) :
    Ends 3 (s.enterRunning n) (((b.setLane n (some
      { t.inState .starved with entries := t.entries.set t.head (.mark k true), head := t.head + 1 })).latch
        (condLaneMark n)).rise (condLaneStarved n)) := by
  have taken := take_setLane_same b n (some (t.inState .running))
  have behind : (t.entries.set t.head (.mark k true))[t.head + 1]? = none := List.getElem?_eq_none (by simp [last])
  have reached := take_setLane_same (b.latch (condLaneMark n)) n (some { t.inState .running with
    entries := t.entries.set t.head (.mark k true), head := t.head + 1, headHold := .none })
  refine .entered h entry idle (workHead_markReached taken rfl idle none_ e done) (.one ?_ (.nil _))
  rw [modifyTake_setLane, ← setLane_latch]
  refine (workHead_starved reached rfl idle none_ behind open_).trans ?_
  rw [enter_level _ n rfl rfl, setLane_latch]
  rfl

theorem Ends.running_targets {f : FileEntry} (e : t.entries[t.head]? = some (.file f)) (pending : f.progress = .pending)
    (card : (b.setLane n (some (t.inState .running))).cardAtHand n = true) (room : t.depth < 2)
    (few : (b.liveTargets t).length < t.k) (out : ∀ x, n ∉ (b.pool x).short) :
    Ends 2 (s.enterRunning n) ((b.setLane n (some
      { t.inState .waiting with waitReason := some .targets })).rise (condLaneWaiting n)) := by
  have taken := take_setLane_same b n (some (t.inState .running))
  have held := take_setLane_same b n (some { t.inState .running with headHold := .none })
  have stays := leaveAllShort_of_out (s := b.setLane n (some { t.inState .running with headHold := .none })) (n := n) out
  refine .entered h entry idle ((workHead_file taken rfl idle none_ e card room).trans ?_) (.nil _)
  rw [State.setHold, modifyTake_setLane]
  refine (startFile_tooFew held (file_of_entry e) pending few).trans ?_
  rw [stays, enterWaiting_setLane b n rfl]
  rfl

theorem Ends.running_draining (e : t.entries[t.head]? = some .endOfList)
    (left : ∃ e f, t.file? e = some f ∧ f.progress ≠ .finished) :
    Ends 3 (s.enterRunning n) (b.setLane n (some t.atEnd)) := by
  have left' : t.atEnd.filesDone = false := by
    obtain ⟨e, f, file, unfinished⟩ := left
    rw [Bool.eq_false_iff]
    intro done
    rcases (filesDone_iff _).1 done e f file with fin | ⟨stop, -⟩
    · exact unfinished fin
    · cases stop
  have taken := take_setLane_same b n (some (t.inState .running))
  refine .entered h entry idle (workHead_end taken rfl idle none_ e) ?_
  rw [end_reached]
  exact .one (goOn_left (take_setLane_same b n (some t.atEnd)) (.inl rfl) idle none_ left') (.nil _)

theorem Ends.running_closed (e : t.entries[t.head]? = some .endOfList)
    (finished : ∀ e f, t.file? e = some f → f.progress = .finished)
    (clear : (b.setLane n (some (t.inState .running))).laneClear n = true) :
    Ends 3 (s.enterRunning n)
      ((b.setLane n (some ((t.judged .complete).inState .closed))).latch (condLaneDone n)) := by
  have done : t.atEnd.filesDone = true :=
    (filesDone_iff _).2 fun e f file => .inl (finished e f file)
  have clear' : (b.setLane n (some t.atEnd)).laneClear n = true := by
    rw [← setLane_setLane b n (some (t.inState .running))]
    exact (laneClear_setLane (u := t.atEnd) (take_setLane_same b n (some (t.inState .running))) rfl).trans clear
  have taken := take_setLane_same b n (some (t.inState .running))
  refine .entered h entry idle (workHead_end taken rfl idle none_ e) ?_
  rw [end_reached]
  refine .one ((goOn_closes (take_setLane_same b n (some t.atEnd)) (.inl rfl) idle none_ done clear').trans ?_) (.nil _)
  rw [closeTake_setLane b n rfl]
  rfl

end

end Sys2Proof.Machine
end

