-- ==== Sys2Proof/Proofs/TakeStart.lean ====
section
/-! START TAKE: its refusals, and what the head of the list gives. -/

namespace Sys2Proof.Machine

/-- The take of a lane that starts with a card (R23). -/
def Take.withCard (t : Take) (i : CardIdentity) : Take := { t with snapshot := some i, head := 0 }

section
variable {s : State} {x : Byte} {n : LaneIx} {t : Take} (lane : laneOf x = some n) (h : s.take? n = some t)
  (opened : t.state = .opened)
include lane h opened

/-- An OPEN lane without a READY card. -/
theorem serveStartTake_noCard (empty : (s.slot n).state = .empty ∨ (s.slot n).state = .held ∧ (s.slot n).present = false) :
    serveStartTake x s = s.refuseTake n .noCard [] := by
  rcases empty with st | ⟨st, gone⟩
  · simp [serveStartTake, lane, h, opened, st]
  · simp [serveStartTake, lane, h, opened, st, gone]

theorem serveStartTake_notReady (busy : (s.slot n).state = .settling ∨ (s.slot n).state = .identifying
    ∨ (s.slot n).state = .faulted ∨ (s.slot n).state = .held ∧ (s.slot n).present = true) :
    serveStartTake x s = s.refuseTake n .wrongState [] := by
  rcases busy with st | st | st | ⟨st, there⟩
  · simp [serveStartTake, lane, h, opened, st]
  · simp [serveStartTake, lane, h, opened, st]
  · simp [serveStartTake, lane, h, opened, st]
  · simp [serveStartTake, lane, h, opened, st, there]

variable {i : CardIdentity} (ready : (s.slot n).state = .ready) (card : (s.slot n).identity = some i)
include ready card

theorem serveStartTake_beyond {e : Nat} (far : t.entries.findIdx? (Entry.beyond i.sectors.toNat) = some e) :
    serveStartTake x s = s.refuseTake n .outOfRange (le 2 e) := by
  simp [serveStartTake, lane, h, opened, ready, card, far]

theorem serveStartTake_starts (within : t.entries.findIdx? (Entry.beyond i.sectors.toNat) = none) :
    serveStartTake x s = ((s.setLane n (some (t.withCard i))).enterRunning n).addTasks
      [.takeReply n false .ok (cardIdentityBytes i)] := by
  have moved : s.modifyTake n (fun t => { t with snapshot := some i, head := 0 }) = s.setLane n (some (t.withCard i)) :=
    modifyTake_of_take s n _ h
  simp only [serveStartTake, lane, h, opened, ne_eq, not_true_eq_false, if_false, ready, card, within, moved]

end

/-- The entry of an OPEN lane into RUNNING moves no level. -/
theorem enter_running_opened (s : State) (n : LaneIx) {t : Take} (opened : t.state = .opened) :
    (s.setLane n (some t)).enter n .running = s.setLane n (some (t.inState .running)) := by
  rw [enter_setLane, opened]
  rfl

/-- With the head at the first entry no entry stands before it. -/
theorem earlierFinished_of_first {t : Take} (first : t.head = 0) : t.earlierFinished = true := by
  simp [Take.earlierFinished, first]

/-- Settles O33: the slot decides, then the head of the list. -/
theorem startTakeTakesTheSnapshotAndWorksTheHead : Obligations.StartTakeTakesTheSnapshotAndWorksTheHead := by
  intro tag x n s listening rest lane
  obtain ⟨-, -, -, -, stale⟩ := (listening_iff s).1 listening
  refine ⟨fun other => ?_, fun tk taken opened => ?_⟩
  · refine submit_refuseTake listening rest tag (n := n) .wrongState [] rfl rfl ?_
    simp only [serve, serveStartTake, lane, beginService_take]
    cases taken : s.take? n with
    | none => rfl
    | some t =>
      rw [laneState_of_take taken] at other
      exact if_pos fun e => other (congrArg some e)
  have code : laneStateCode (s.laneState n) = 1 := by rw [laneState_of_take taken, opened]; rfl
  have taken' : (s.beginService 0x52 tag).take? n = some tk := taken
  refine ⟨fun empty => ?_, fun busy => ?_, fun i ready card => ⟨fun e far => ?_, fun within idle none_ => ?_⟩⟩
  · exact submit_refuseTake listening rest tag .noCard [] rfl code (serveStartTake_noCard lane taken' opened empty)
  · exact submit_refuseTake listening rest tag .wrongState [] rfl code (serveStartTake_notReady lane taken' opened busy)
  · exact submit_refuseTake listening rest tag .outOfRange _ rfl code
      (serveStartTake_beyond lane taken' opened ready card far)
  have starts : serve (.startTake x) (s.beginService (requestKind (.startTake x)) tag) = _ := serveStartTake_starts lane taken' opened ready card within
  have running := enter_running_opened (s.beginService 0x52 tag) n (t := tk.withCard i) opened
  have here := take_setLane_same (s.beginService 0x52 tag) n (some (tk.withCard i))
  intro bytes started
  refine ⟨fun none_left open_ => ?_, fun ends clear => ?_, fun k r mark open_ => ?_, fun r pause => ?_,
    fun f file pending room few out => ?_⟩
  · have run := Ends.running_starved here running idle none_ (by simp [Take.withCard, none_left]) open_
    simp only [beginService_setLane, beginService_rise] at run
    exact submit_lane listening rest tag rfl starts run (by omega) (attentionOnly_rise _ _)
  · have run := Ends.running_closed here running idle none_ (by simp [Take.withCard, ends])
      (by rintro (_ | e) f file <;> simp [Take.withCard, Take.file?, ends, Entry.file?] at file)
      ((laneClear_setLane (u := (tk.withCard i).inState .running) taken' rfl).trans clear)
    simp only [beginService_setLane, beginService_latch] at run
    have judged : ((tk.withCard i).judged .complete).inState .closed = { started with
        state := .closed, headHold := .none, outcome := some .complete, cleared := some true
        counters := { tk.counters with filesGood := 0 } } := by
      simp [Take.judged, Take.withCard, ends, Take.files, Take.indexed, Take.inState, TakeState.keepsHold, Entry.file?,
        Entry.mapFile, started]
    rw [judged] at run
    exact submit_lane listening rest tag rfl starts run (by omega) (attentionOnly_latch _ _)
  · have run := Ends.running_marked here running idle none_ (k := k) (r := r) (by simp [Take.withCard, mark])
      (earlierFinished_of_first rfl) (by simp [Take.withCard, mark]) open_
    simp only [beginService_setLane, beginService_latch, beginService_rise] at run
    have marked : { (tk.withCard i).inState .starved with
        entries := (tk.withCard i).entries.set (tk.withCard i).head (.mark k true), head := (tk.withCard i).head + 1 }
        = { started with state := .starved, headHold := .none, entries := [.mark k true], head := 1 } := by
      simp [Take.withCard, mark, Take.inState, TakeState.keepsHold, started]
    rw [marked] at run
    exact submit_lane listening rest tag rfl starts run (by omega) ((attentionOnly_latch _ _).trans (attentionOnly_rise _ _))
  · have run := Ends.running_suspended here running idle none_ pause (earlierFinished_of_first rfl)
    simp only [beginService_setLane, beginService_rise] at run
    exact submit_lane listening rest tag rfl starts run (by omega) (attentionOnly_rise _ _)
  · have run := Ends.running_targets here running idle none_ file pending
      (by simp [State.cardAtHand, ready, card, Take.withCard, Take.inState]) room few out
    simp only [beginService_setLane, beginService_rise] at run
    exact submit_lane listening rest tag rfl starts run (by omega) (attentionOnly_rise _ _)

end Sys2Proof.Machine
end

