-- ==== Sys2Proof/Proofs/TakeEntries.lean ====
section
/-! APPEND ENTRIES: its refusals, and what the batch gives in each lane state. -/

namespace Sys2Proof.Machine

/-! ### The batch joins the list -/

/-- Entries leave the free count (R5). -/
def State.store (s : State) (k : Nat) : State := { s with freeEntries := s.freeEntries - k }

/-- The batch joins the take's list (R22). -/
def Take.append (t : Take) (batch : List Entry) : Take :=
  { t with entries := t.entries ++ batch, listEnded := batch.any Entry.isEnd }

section
variable {s : State} {x : Byte} {n : LaneIx} {t : Take} {es : List EntryArg} (lane : laneOf x = some n)
  (h : s.take? n = some t)
include lane h

theorem serveAppendEntries_closed (no : t.state.appends = false ∨ t.listEnded = true) :
    serveAppendEntries x es s = s.refuseTake n .wrongState [] := by
  rcases no with no | no <;> simp [serveAppendEntries, lane, h, no]

variable (open_ : t.listEnded = false) (appends : t.state.appends = true)
include open_ appends

theorem serveAppendEntries_refused {st : Status} {body : List Byte}
    (bad : appendRefusal t s.freeEntries (es.map Entry.ofArg) = some (st, body)) :
    serveAppendEntries x es s = s.refuseTake n st body := by
  simp [serveAppendEntries, lane, h, open_, appends, bad]

variable (good : appendRefusal t s.freeEntries (es.map Entry.ofArg) = none) {w : Work}
include good

/-- The batch is accepted: what the lane does next is said for each state. -/
theorem serveAppendEntries_accepted {u : State}
    (eq : (s.store (es.map Entry.ofArg).length).setLane n (some (t.append (es.map Entry.ofArg))) = u)
    (next : t.state = .starved ∧ w = u.enterRunning n ∨ t.state = .running ∧ w = (u, [.workHead n])
      ∨ t.state = .interrupted ∧ w = (u, [.laneTests n])
      ∨ (t.state = .opened ∨ t.state = .suspended ∨ t.state = .waiting) ∧ w = (u, [])) :
    serveAppendEntries x es s = w.addTasks
      [.takeReply n false .ok (le 2 t.entries.length ++ [BitVec.ofNat 8 (es.map Entry.ofArg).length])] := by
  have moved : ({ s with freeEntries := s.freeEntries - (es.map Entry.ofArg).length } : State).modifyTake n (fun t =>
      { t with entries := t.entries ++ es.map Entry.ofArg, listEnded := (es.map Entry.ofArg).any Entry.isEnd }) = u :=
    (modifyTake_of_take (s.store _) n _ h).trans eq
  rw [serveAppendEntries, lane]
  simp only [h]
  rw [if_neg (by simp [open_, appends])]
  simp only [good, moved]
  rcases next with ⟨st, rfl⟩ | ⟨st, rfl⟩ | ⟨st, rfl⟩ | ⟨st | st | st, rfl⟩ <;> rw [st]

end

theorem append_file_iff {t : Take} {e : Nat} {f : FileEntry} :
    (t.append [.endOfList]).file? e = some f ↔ t.file? e = some f := by
  simp only [Take.file?, Take.append, List.getElem?_append]
  split
  · exact Iff.rfl
  · rename_i beyond
    rw [List.getElem?_eq_none (l := t.entries) (by omega)]
    cases e - t.entries.length <;> simp [Entry.file?]

theorem beginService_store (s : State) (kind : Byte) (tag : BitVec 16) (k : Nat) :
    (s.beginService kind tag).store k = (s.store k).beginService kind tag := rfl

theorem cardAtHand_setLane {s : State} {n : LaneIx} {t u : Take} (h : s.take? n = some t) (card : u.snapshot = t.snapshot) :
    (s.setLane n (some u)).cardAtHand n = s.cardAtHand n := by
  simp [State.cardAtHand, h, card]

theorem setHold_setLane (s : State) (n : LaneIx) (t : Take) (x : HeadHold) :
    (s.setLane n (some t)).setHold n x = s.setLane n (some { t with headHold := x }) := modifyTake_setLane s n t _

/-- An INTERRUPTED lane with work that needs its card stays (R102). -/
theorem laneTests_stays {s : State} {n : LaneIx} {t : Take} (h : s.take? n = some t) (st : t.state = .interrupted)
    (needs : t.needsCard = true) : s.laneTests n = (s, []) := by
  simp [State.laneTests, h, st, State.testInterrupted, needs]

/-- An INTERRUPTED lane without such work goes on (R102). -/
theorem laneTests_returns {s : State} {n : LaneIx} {t : Take} (h : s.take? n = some t) (st : t.state = .interrupted)
    (free : t.needsCard = false) : s.laneTests n = s.enterRunning n := by
  simp [State.laneTests, h, st, State.testInterrupted, free]

/-! ### A lane that works its head again -/

/-- A STARVED lane, or an INTERRUPTED one without work that needs its card, enters RUNNING. -/
def State.rework (s : State) (n : LaneIx) (t : Take) : State := if t.state = .starved then s.fall (condLaneStarved n) else s

/-- What APPEND ENTRIES does with such a lane (R11, R102). -/
def reworkTasks (u : State) (n : LaneIx) (t : Take) : Work :=
  if t.state = .starved then u.enterRunning n else (u, [.laneTests n])

section
variable {b : State} {n : LaneIx} {t : Take} (st : t.state = .starved ∨ t.state = .interrupted ∧ t.needsCard = false)
include st

theorem rework_entry : (b.setLane n (some t)).enter n .running = (b.rework n t).setLane n (some (t.inState .running)) := by
  rw [enter_setLane]
  rcases st with st | ⟨st, -⟩ <;> rw [State.rework, st] <;> rfl

theorem Ends.rework {k : Nat} {v : State} (e : Ends k ((b.setLane n (some t)).enterRunning n) v) :
    ∃ j ≤ k + 1, Ends j (reworkTasks (b.setLane n (some t)) n t) v := by
  unfold reworkTasks
  rcases st with st | ⟨st, free⟩
  · rw [if_pos st]
    exact ⟨k, by omega, e⟩
  · rw [if_neg (by rw [st]; decide)]
    exact ⟨k + 1, by omega, .act (laneTests_returns (take_setLane_same ..) st free) (by rw [List.append_nil]; exact e)⟩

end

section
variable (s : State) (n : LaneIx) (t : Take)

theorem beginService_rework (kind : Byte) (tag : BitVec 16) :
    (s.beginService kind tag).rework n t = (s.rework n t).beginService kind tag := by
  unfold State.rework
  split <;> rfl

theorem attentionOnly_rework : AttentionOnly s (s.rework n t) := by
  unfold State.rework
  split
  · exact attentionOnly_fall _ _
  · exact .refl s

theorem AttentionOnly.setLane {s u : State} (h : AttentionOnly s u) (n : LaneIx) (x : Option Take) :
    AttentionOnly (s.setLane n x) (u.setLane n x) := by
  unfold AttentionOnly at *
  rw [h]
  rfl

theorem rework_laneClear (m : LaneIx) : (s.rework n t).laneClear m = s.laneClear m := by
  unfold State.rework
  split <;> rfl

variable {t} in
theorem reworkTasks_next (again : t.state = .starved ∨ t.state = .interrupted ∧ t.needsCard = false) :
    t.state = .starved ∧ reworkTasks s n t = s.enterRunning n ∨ t.state = .running ∧ reworkTasks s n t = (s, [.workHead n])
      ∨ t.state = .interrupted ∧ reworkTasks s n t = (s, [.laneTests n])
      ∨ (t.state = .opened ∨ t.state = .suspended ∨ t.state = .waiting) ∧ reworkTasks s n t = (s, []) := by
  rcases again with st | ⟨st, -⟩
  · exact .inl ⟨st, if_pos st⟩
  · exact .inr (.inr (.inl ⟨st, if_neg (by rw [st]; decide)⟩))

end

theorem condLaneDone_lt (n : LaneIx) : condLaneDone n < 78 := by
  simp only [condLaneDone]
  omega

/-- A FILE entry that is appended is PENDING (R4). -/
theorem progress_of_ofArg {es : List EntryArg} {f : FileEntry} (h : Entry.file f ∈ es.map Entry.ofArg) :
    f.progress = .pending := by
  obtain ⟨a, -, eq⟩ := List.mem_map.1 h
  cases a <;> cases eq
  rfl

/-- What has joined a list stands at its head once all before it is done. -/
theorem append_head {t : Take} {a : Entry} {rest : List Entry} (last : t.head = t.entries.length) :
    (t.append (a :: rest)).entries[(t.append (a :: rest)).head]? = some a := by
  simp [Take.append, last]

/-- A lane that closes with its list done (R159, R161, R162): its verdict. -/
theorem judged_complete_cleared (t : Take) : (t.judged .complete).cleared = some true
    ↔ ∀ e f, t.file? e = some f → f.isGood t.verify t.k = true := by
  simp [Take.judged, List.all_eq_true, mem_files_iff]

theorem latched_latch (s : State) {c : Nat} (h : c < 78) : (s.latch c).attention.latched.getLsbD c = true := by
  have gain : ∀ (s : State) (g : CondSet), (s.gain g).attention.latched = s.attention.latched := by
    intro s g
    unfold State.gain
    split <;> rfl
  unfold State.latch
  split
  · assumption
  · simp [gain, Attention.evalPanel, getLsbD_condBit h]

/-- Settles O32: the lane's state and the head of its list decide. -/
theorem appendEntriesAddsTheWholeBatch : Obligations.AppendEntriesAddsTheWholeBatch := by
  intro tag x es n s listening rest lane shape batch
  obtain ⟨-, -, -, -, stale⟩ := (listening_iff s).1 listening
  refine ⟨fun free => ?_, fun tk taken => ⟨fun no => ?_, fun open_ among => ⟨fun st body bad => ?_, fun good => ?_⟩⟩⟩
  · refine submit_refuseTake listening rest tag (n := n) .wrongState [] shape (by simp [State.laneState, free, laneStateCode]) ?_
    simp only [serve, serveAppendEntries, lane, beginService_take, free]
  all_goals
    have taken' : (s.beginService (requestKind (.appendEntries x es)) tag).take? n = some tk := taken
    have code : laneStateCode (s.laneState n) = laneStateCode (some tk.state) := by rw [laneState_of_take taken]
  · refine submit_refuseTake listening rest tag .wrongState [] shape code (serveAppendEntries_closed lane taken' ?_)
    rcases no with st | st | st | st | ended
    · exact .inl (by rw [st]; rfl)
    · exact .inl (by rw [st]; rfl)
    · exact .inl (by rw [st]; rfl)
    · exact .inl (by rw [st]; rfl)
    · exact .inr ended
  all_goals
    have appends : tk.state.appends = true := by
      simp only [List.mem_cons, List.not_mem_nil, or_false] at among
      rcases among with st | st | st | st | st | st <;> rw [st] <;> rfl
  · exact submit_refuseTake listening rest tag st body shape code (serveAppendEntries_refused lane taken' open_ appends bad)
  intro stored added fields gives
  have accepted {w : Work} := serveAppendEntries_accepted lane taken' open_ appends good (w := w) rfl
  have atRest : stored.atRest = true := rest.symm ▸ atRest_congr rfl rfl
  have here := take_setLane_same ((s.beginService (requestKind (.appendEntries x es)) tag).store batch.length) n (some added)
  have holds (y : HeadHold) (running : tk.state = .running)
      (work : ∀ u : State, u.take? n = some added → u.cardAtHand n = s.cardAtHand n → u.workHead n = (u.setHold n y, [])) :
      gives (stored.setLane n (some { added with headHold := y })) 2 := by
    have held := work _ here (cardAtHand_setLane (s := s.store batch.length) taken rfl)
    rw [setHold_setLane] at held
    exact submit_lane (b := stored) (t := { added with headHold := y }) listening atRest tag shape
      (accepted (.inr (.inl ⟨running, rfl⟩))) (.one held (.nil _)) (by omega) (.refl _) stale
      (congrArg (laneStateCode ∘ some) running)
  refine ⟨fun stays => ?_, fun running reading => ?_, fun running idle none_ => ⟨fun k r mark left => ?_,
    fun r pause left => ?_, fun f file card deep => ?_⟩, fun again only last idle none_ => ⟨fun left => ?_, fun finished clear => ?_⟩,
    fun f others starved only last idle none_ card room few out => ?_⟩
  · have stays' : ∃ (k : Nat) (w : Work), serve (.appendEntries x es) (s.beginService (requestKind (.appendEntries x es)) tag)
        = w.addTasks [.takeReply n false .ok fields] ∧ k ≤ 98
        ∧ Ends k w ((stored.setLane n (some added)).beginService (requestKind (.appendEntries x es)) tag) := by
      have quiet (st : tk.state = .opened ∨ tk.state = .suspended ∨ tk.state = .waiting) :=
        accepted (.inr (.inr (.inr ⟨st, rfl⟩)))
      rcases stays with st | st | st | ⟨st, needs⟩
      · exact ⟨0, _, quiet (.inl st), by omega, .nil _⟩
      · exact ⟨0, _, quiet (.inr (.inl st)), by omega, .nil _⟩
      · exact ⟨0, _, quiet (.inr (.inr st)), by omega, .nil _⟩
      · exact ⟨1, _, accepted (.inr (.inr (.inl ⟨st, rfl⟩))), by omega, .one (laneTests_stays here st needs) (.nil _)⟩
    obtain ⟨k, w, served, few, run⟩ := stays'
    exact submit_lane (b := stored) (t := added) listening atRest tag shape served run few (.refl _) stale
  · exact holds .none running fun u h _ => workHead_reading h running reading
  · exact holds .mark running fun u h _ => workHead_markHeld h running idle none_ mark left
  · exact holds .pause running fun u h _ => workHead_pauseHeld h running idle none_ pause left
  · exact holds .depth running fun u h same => workHead_deep h running idle none_ file (same.trans card) deep
  · have e : added = tk.append [.endOfList] := congrArg tk.append only
    obtain ⟨k, few, run⟩ := Ends.rework again (Ends.running_draining here (rework_entry again) idle none_
      (by rw [e]; exact append_head last) (by rw [e]; simpa only [append_file_iff] using left))
    rw [beginService_store, beginService_rework] at run
    exact submit_lane (b := stored) (t := added.atEnd) listening atRest tag shape (accepted (reworkTasks_next (t := added) _ n again)) run
      (by omega) ((attentionOnly_rework ..).setLane n _) stale
  · have e : added = tk.append [.endOfList] := congrArg tk.append only
    have clear' := (laneClear_setLane (s := (s.store batch.length).rework n added) (u := added.inState .running)
      (t := tk) (by unfold State.rework; split <;> exact taken) rfl).trans ((rework_laneClear ..).trans clear)
    obtain ⟨k, few, run⟩ := Ends.rework again (Ends.running_closed here (rework_entry again) idle none_
      (by rw [e]; exact append_head last) (by rw [e]; simpa only [append_file_iff] using finished)
      (by rw [beginService_store, beginService_rework]; exact clear'))
    simp only [beginService_store, beginService_rework, beginService_setLane, beginService_latch] at run
    refine ⟨_, (added.judged .complete).inState .closed, replyFrame 0x51 tag false .ok (10 :: fields),
      submit_lane (b := stored) (t := (added.judged .complete).inState .closed) listening atRest tag shape
      (accepted (reworkTasks_next (t := added) _ n again)) run (by omega)
      (((attentionOnly_rework ..).setLane n _).trans (attentionOnly_latch ..)) stale, ?_, rfl, rfl, rfl, ?_, ?_, ?_, rfl, rfl⟩
    · rw [State.replied, choosePath_take]
      exact (latch_take ..).trans (take_setLane_same ..)
    · refine (judged_complete_cleared added).trans ?_
      rw [e]
      simp only [append_file_iff]
      rfl
    · rw [State.replied, choosePath_latched]
      exact latched_latch _ (condLaneDone_lt n)
    · rw [State.replied, choosePath_composed]
      rfl
  · have e : added = tk.append (.file f :: others) := congrArg tk.append only
    have again : added.state = .starved ∨ added.state = .interrupted ∧ added.needsCard = false := .inl starved
    have pending : f.progress = .pending := progress_of_ofArg (only ▸ List.mem_cons_self .. : Entry.file f ∈ batch)
    have entry := rework_entry (b := (s.beginService (requestKind (.appendEntries x es)) tag).store batch.length) (n := n) again
    rw [State.rework, if_pos starved] at entry
    have card' := (cardAtHand_setLane (s := s.store batch.length) (u := added.inState .running) taken rfl).trans card
    obtain ⟨k, most, run⟩ := Ends.rework again (Ends.running_targets here entry idle none_
      (by rw [e]; exact append_head last) pending card' room few out)
    simp only [beginService_store, beginService_fall, beginService_setLane, beginService_rise] at run
    exact submit_lane (b := stored) (t := { added.inState .waiting with waitReason := some .targets }) listening atRest tag
      shape (accepted (reworkTasks_next (t := added) _ n again)) run (by omega)
      (((attentionOnly_fall ..).setLane n _).trans (attentionOnly_rise ..)) stale

end Sys2Proof.Machine
end

