-- ==== Sys2Proof/Proofs/TakeSurroundings.lean ====
section
/-! What a take request can change: its own lane, and of the rest what the follow-on actions and the choices at the end
of a step change. -/

namespace Sys2Proof.Machine

/-- A request command is the submission of its request. -/
theorem exec_of_request {c : Instr} {tag : BitVec 16} {r : Request} (h : c.request? = some (tag, r)) (s : State) :
    exec c s = .next (submit tag r s) := by
  cases c <;> cases h <;> rfl

/-- From s to t the part around lane m has changed only as the follow-on actions and the choices of a step change it. -/
structure Around (m : LaneIx) (s t : State) : Prop where
  pending : t.pending = s.pending
  freeReads : t.freeReads = s.freeReads
  link : t.link = { s.link with
    inService := t.link.inService, pendingNotice := t.link.pendingNotice, outgoing := t.link.outgoing }
  noticeEnable : t.attention.noticeEnable = s.attention.noticeEnable
  panelEnable : t.attention.panelEnable = s.attention.panelEnable
  slots : ∀ n, t.slot n = { s.slot n with op := (t.slot n).op, waitingPiece := (t.slot n).waitingPiece }
  targets : ∀ x, t.target x = { s.target x with
    fifos := (t.target x).fifos, op := (t.target x).op, holder := (t.target x).holder
    grantCount := (t.target x).grantCount, waitingHost := (t.target x).waitingHost }
  takes : ∀ n, n ≠ m → keptTake (s.take? n) (t.take? n)

section
variable {m : LaneIx} {s t u : State}

theorem Around.refl (s : State) : Around m s s :=
  ⟨rfl, rfl, rfl, rfl, rfl, fun _ => rfl, fun _ => rfl, fun _ _ => keptTake_refl _⟩

theorem Around.trans (h : Around m s t) (k : Around m t u) : Around m s u where
  pending := k.pending.trans h.pending
  freeReads := k.freeReads.trans h.freeReads
  link := by have h1 := h.link; have h2 := k.link; rw [h1] at h2; exact h2
  noticeEnable := k.noticeEnable.trans h.noticeEnable
  panelEnable := k.panelEnable.trans h.panelEnable
  slots n := by have h1 := h.slots n; have h2 := k.slots n; rw [h1] at h2; exact h2
  targets x := by have h1 := h.targets x; have h2 := k.targets x; rw [h1] at h2; exact h2
  takes n ne := keptTake_trans (h.takes n ne) (k.takes n ne)

theorem LaneFrame.around (h : LaneFrame s t) : Around m s t where
  pending := h.pending
  freeReads := h.freeReads
  link := by have h1 := h.link; rw [h1]
  noticeEnable := h.noticeEnable
  panelEnable := h.panelEnable
  slots := h.slots
  targets x := by have h1 := h.targets x; rw [h1]
  takes n _ := h.takes n

theorem ChoiceFrame.around (h : ChoiceFrame s t) : Around m s t where
  pending := by rw [h.rest]
  freeReads := by rw [h.rest]
  link := by rw [h.rest]
  noticeEnable := by rw [h.rest]
  panelEnable := by rw [h.rest]
  slots n := by rw [h.rest]; rfl
  targets x := by have h1 := h.targets x; rw [h1]
  takes n _ := h.takes n

theorem around_choosePath (s : State) : Around m s s.choosePath := by
  have enables : s.choosePath.attention.noticeEnable = s.attention.noticeEnable
      ∧ s.choosePath.attention.panelEnable = s.attention.panelEnable := by
    unfold State.choosePath
    split
    · split
      · exact ⟨rfl, rfl⟩
      · split
        · exact ⟨rfl, rfl⟩
        · split <;> exact ⟨rfl, rfl⟩
    · exact ⟨rfl, rfl⟩
  refine ⟨by simp, by simp, ?_, enables.1, enables.2, fun n => by simp, fun x => by simp, fun n _ => ?_⟩
  · obtain ⟨a, p, o, h⟩ := choosePath_frame s
    rw [h]
  · rw [choosePath_take]
    exact keptTake_refl _

/-- An operation on the lane's own take. -/
theorem around_setLane (s : State) (m : LaneIx) (x : Option Take) : Around m s (s.setLane m x) :=
  ⟨rfl, rfl, rfl, rfl, rfl, fun _ => rfl, fun _ => rfl, fun n ne => by rw [take_setLane_ne (s := s) (n := m) (h := ne)]; exact keptTake_refl _⟩

theorem around_modifyTake (s : State) (m : LaneIx) (f : Take → Take) : Around m s (s.modifyTake m f) :=
  around_setLane s m _

theorem around_foldl {α : Type} {f : State → α → State} (h : ∀ s x, Around m s (f s x)) :
    ∀ (xs : List α) (s : State), Around m s (xs.foldl f s)
  | [], s => .refl s
  | x :: xs, s => (h s x).trans (around_foldl h xs _)

theorem around_store (s : State) (k : Nat) : Around m s { s with freeEntries := k } :=
  ⟨rfl, rfl, rfl, rfl, rfl, fun _ => rfl, fun _ => rfl, fun _ _ => keptTake_refl _⟩

theorem PoolsOnly.around (h : PoolsOnly s t) : Around m s t := by
  unfold PoolsOnly at h
  rw [h]
  exact ⟨rfl, rfl, rfl, rfl, rfl, fun _ => rfl, fun _ => rfl, fun _ _ => keptTake_refl _⟩

theorem around_verify (s : State) (v : VerifyUnit) : Around m s { s with verify := v } :=
  ⟨rfl, rfl, rfl, rfl, rfl, fun _ => rfl, fun _ => rfl, fun _ _ => keptTake_refl _⟩

theorem around_stopVerification (s : State) (t : TargetIx) : Around m s (s.stopVerification t) := by
  unfold State.stopVerification
  split
  · exact .refl s
  · split <;> exact around_verify s _

theorem around_stopLaneVerifications (s : State) (n : LaneIx) (ts : List TargetIx) :
    Around m s (s.stopLaneVerifications n ts) := by
  unfold State.stopLaneVerifications
  refine (around_verify s _).trans (around_foldl (fun s t => ?_) ts _)
  split
  · exact .refl s
  · split
    · exact around_stopVerification s t
    · exact .refl s

/-- The end of a step, for a request whose service has begun. -/
theorem around_finish {w : Work} (h : Around m s w.1) (stale : s.link.stale = false) : Around m s (finish w) := by
  have all := h.trans (frame_settled w).around
  have fresh : (settled w).link.stale = false := by rw [all.link]; exact stale
  obtain ⟨t, choice, path⟩ := conclude_frame (settled w)
  rw [finish_tasks rfl fresh, path]
  exact (all.trans choice.around).trans (around_choosePath t)

theorem around_beginService (s : State) (kind : Byte) (tag : BitVec 16) : Around m s (s.beginService kind tag) :=
  ⟨rfl, rfl, rfl, rfl, rfl, fun _ => rfl, fun _ => rfl, fun _ _ => keptTake_refl _⟩

end

/-! ### Each take request -/

theorem addTasks_fst (w : Work) (ts : List Task) : (w.addTasks ts).1 = w.1 := rfl

section
variable (s : State) (n : LaneIx)

theorem frame_refuseTake (st : Status) (body : List Byte) : LaneFrame s (s.refuseTake n st body).1 :=
  frame_answerClamped s false st _

theorem frame_restartFile (e : Nat) : LaneFrame s (s.restartFile n e) :=
  (frame_modifyFile s n e _).trans (frame_modifyTake _ n fun _ => .same rfl)

theorem frame_giveUpCardWork : LaneFrame s (s.giveUpCardWork n).1 := by
  unfold State.giveUpCardWork
  split
  · exact .refl s
  · exact ((frame_foldl (fun s p => frame_modifyFile s n _ _) _ s).trans
      (frame_foldl (fun s p => frame_modifyCopy s n _ _ _) _ _)).trans (frame_modifyTake _ n fun _ => .same rfl)

theorem frame_abortChunkRead : LaneFrame s (s.abortChunkRead n).1 := by
  have discards (g : SegmentIx) : LaneFrame s (s.discards g) := by
    unfold State.discards
    split
    · exact frame_setSegment s _ _
    · exact .refl s
    · exact .refl s
  rw [abortChunkRead_eq]
  split
  · exact .refl s
  · split
    · exact ((discards _).trans (frame_piece _ n (fun x => { x with waitingPiece := none }) fun _ => rfl)).trans
        (frame_countChunkRead _ n)
    · exact discards _

/-- The indexes of the files of a lane's take. -/
def State.fileIndexes : List Nat :=
  match s.take? n with
  | some t => t.files.map Prod.fst
  | none => []

/-- What an abort ends at once outside the lane's card port: its write orders, its verifications, its ALLOCATING file. -/
def State.stopWork : State := ((s.withdraw n fun _ => true).1.stopLaneVerifications n allTargets).dropAllocating n

/-- The entry to ABORTING in its parts. -/
theorem enterAborting_eq : s.enterAborting n =
    let w := ((s.stopWork n).abandon n).abortChunkRead n
    let u := (w.1.leaveWaiting n).enter n .aborting
    ((u.fileIndexes n).foldl (fun s e => s.finishIf n e) u, (s.withdraw n fun _ => true).2 ++ w.2 ++ [.laneTests n]) := by
  unfold State.enterAborting State.stopWork State.fileIndexes
  dsimp only
  generalize ((s.withdraw n fun _ => true).1.stopLaneVerifications n allTargets).dropAllocating n = v
  unfold State.abandon
  rfl

theorem around_abandon : Around n s (s.abandon n) := by
  unfold State.abandon
  split
  · exact (frame_cutFile s n _).around.trans (around_modifyTake _ n _)
  · exact around_modifyTake _ n _

theorem around_enterAborting : Around n s (s.enterAborting n).1 := by
  have stopped := (frame_withdraw s n fun _ => true).around.trans
    (around_stopLaneVerifications (m := n) (s.withdraw n fun _ => true).1 n allTargets)
  have left : Around n s (s.stopWork n) := stopped.trans (frame_dropAllocating _ n).around
  rw [enterAborting_eq]
  dsimp only
  generalize s.stopWork n = u at *
  have aborted := (left.trans (around_abandon u n)).trans (frame_abortChunkRead _ n).around
  exact (aborted.trans ((frame_leaveWaiting _ n).enter).around).trans
    (frame_foldl (fun s e => frame_finishIf s n e) _ _).around

/-- Where the request names no lane, it is refused without a change. -/
theorem around_refuseBare (m : LaneIx) (st : Status) : Around m s (s.refuseBare st).1 :=
  (frame_answerClamped s false st []).around

end

theorem around_adjust (s : State) (n : LaneIx) (t : Take) (left : TargetSet) (k : Nat) (gone : List TargetIx) :
    Around n s (s.adjust n t left k gone).1 := by
  have removed := ((around_modifyTake s n (fun t => { t with targets := left, k := k })).trans
    (frame_forEach (fun x s => frame_withdrawAt s n x fun _ => true) gone _).around).trans
      (around_stopLaneVerifications _ n gone)
  have each (s : State) (x : TargetIx) : Around n s (((match t.allocatingFile with
      | some e => s.giveBack n e x
      | none => s).modifyTake n fun t => t.failTarget x .removed).leaveShort x n) := by
    refine Around.trans ?_ ((around_modifyTake _ n _).trans (frame_leaveShort _ x n).around)
    split
    · exact (frame_giveBack s n _ x).around
    · exact .refl s
  have settled := removed.trans (around_foldl each gone _)
  simp only [State.adjust]
  split
  · exact settled
  · exact settled
  · exact settled.trans (frame_enterRunning _ n).around
  · exact settled
  · exact settled

section
variable {x : Byte} {n : LaneIx} (lane : laneOf x = some n) (s : State)
include lane

theorem around_openTake (label : BitVec 16) (ts k v p m r al w : Byte) :
    Around n s (serveOpenTake x label ts k v p m r al w s).1 := by
  have refused (st : Status) := (frame_refuseTake s n st []).around (m := n)
  simp only [serveOpenTake, lane]
  repeat' split
  · exact refused _
  · exact refused _
  · exact around_setLane s n _
  · exact refused _

theorem around_appendEntries (es : List EntryArg) : Around n s (serveAppendEntries x es s).1 := by
  have refused (st : Status) (body : List Byte) := (frame_refuseTake s n st body).around (m := n)
  simp only [serveAppendEntries, lane]
  split
  · exact refused _ _
  · split
    · exact refused _ _
    · split
      · exact refused _ _
      · have stored := (around_store (m := n) s (s.freeEntries - (es.map Entry.ofArg).length)).trans
          (around_modifyTake _ n fun t =>
            { t with entries := t.entries ++ es.map Entry.ofArg, listEnded := (es.map Entry.ofArg).any Entry.isEnd })
        split
        · exact stored.trans (frame_enterRunning _ n).around
        · exact stored
        · exact stored
        · exact stored

theorem around_startTake : Around n s (serveStartTake x s).1 := by
  have refused (st : Status) (body : List Byte) := (frame_refuseTake s n st body).around (m := n)
  simp only [serveStartTake, lane]
  repeat' split
  case _ => exact refused _ _
  case _ => exact refused _ _
  case _ => exact refused _ _
  case _ => exact refused _ _
  case _ => exact refused _ _
  case _ => exact refused _ _
  case _ => exact (around_modifyTake s n _).trans (frame_enterRunning _ n).around
  case _ => exact refused _ _

theorem around_suspendTake : Around n s (serveSuspendTake x s).1 := by
  have left := (((frame_leaveWaiting s n).trans (frame_leaveAllShort _ n)).enter (n := n) (st := .suspended)).around (m := n)
  simp only [serveSuspendTake, lane]
  split
  · exact left
  · exact left
  · exact left
  · exact .refl s
  · exact (frame_refuseTake s n _ _).around

theorem around_resumeTake : Around n s (serveResumeTake x s).1 := by
  have refused (st : Status) (body : List Byte) := (frame_refuseTake s n st body).around (m := n)
  have running (u : State) := (frame_enterRunning u n).around (m := n)
  have back (t : Take) : Around n s (resumeInterrupted n t s).1 := by
    simp only [resumeInterrupted]
    split
    · exact refused _ _
    · split
      · cases t.cutEntry with
        | none => exact running s
        | some e => exact (frame_restartFile s n e).around.trans (running _)
      · exact refused _ _
    · exact refused _ _
  simp only [serveResumeTake, lane]
  split
  · exact refused _ _
  · split
    · exact running s
    · exact .refl s
    · exact .refl s
    · exact .refl s
    · exact back _
    · exact refused _ _

theorem around_stopTake : Around n s (serveStopTake x s).1 := by
  have stopping (u : State) := (frame_enterStopping u n).around (m := n)
  simp only [serveStopTake, lane]
  split
  · exact stopping s
  · exact stopping s
  · exact stopping s
  · exact stopping s
  · exact (frame_giveUpCardWork s n).around.trans (stopping _)
  · exact .refl s
  · exact .refl s
  · exact (frame_refuseTake s n _ _).around

theorem around_abortTake : Around n s (serveAbortTake x s).1 := by
  simp only [serveAbortTake, lane]
  split
  · exact (frame_refuseTake s n _ _).around
  · exact (frame_refuseTake s n _ _).around
  · exact (frame_closeTake s n _).around
  · exact .refl s
  · rw [addTasks_fst]
    exact around_enterAborting s n

theorem around_adjustTake (k rm : Byte) : Around n s (serveAdjustTake x k rm s).1 := by
  have refused (st : Status) := (frame_refuseTake s n st []).around (m := n)
  simp only [serveAdjustTake, lane]
  cases s.take? n with
  | none => exact refused _
  | some t =>
    dsimp only
    by_cases ended : t.state = .aborting ∨ t.state = .closed
    · rw [if_pos ended]; exact refused _
    rw [if_neg ended]
    cases targetSetOf rm with
    | none => exact refused _
    | some set =>
      dsimp only
      by_cases big : k.toNat > t.k
      · rw [if_pos big]; exact refused _
      rw [if_neg big]
      generalize (if k = 0 then t.k else k.toNat) = demand
      split
      · exact refused _
      · rw [addTasks_fst]
        exact around_adjust s n t _ _ _

theorem around_releaseTake (flag : Byte) : Around n s (serveReleaseTake x flag s).1 := by
  have refused (st : Status) := (frame_refuseTake s n st []).around (m := n)
  simp only [serveReleaseTake, lane]
  split
  · exact refused _
  · split
    · exact refused _
    · split
      · exact refused _
      · refine Around.trans ?_ ((around_store _ _).trans (around_setLane _ n _))
        split
        · exact (reclaim_poolsOnly s _).around
        · exact .refl s

end

/-- A take request changes its lane's surroundings only as the follow-on actions of a step do. -/
theorem around_serve {r : Request} (kind : isTakeKind (requestKind r) = true) {m : LaneIx}
    (names : ∀ n, (requestBody r).head?.bind laneOf = some n → n = m) (s : State) : Around m s (serve r s).1 := by
  have named {x : Byte} (body : (requestBody r).head? = some x) (none_ : laneOf x = none → Around m s (serve r s).1)
      (some_ : laneOf x = some m → Around m s (serve r s).1) : Around m s (serve r s).1 := by
    cases lane : laneOf x with
    | none => exact none_ lane
    | some n =>
      have e := names n (by rw [body, Option.bind_some, lane])
      exact some_ (lane.trans (congrArg some e))
  have bare := around_refuseBare s m .badField
  cases r with
  | openTake x l ts k v p mm rt al w =>
    refine named rfl (fun lane => ?_) fun lane => around_openTake lane s l ts k v p mm rt al w
    simpa only [serve, serveOpenTake, lane] using bare
  | appendEntries x es =>
    refine named rfl (fun lane => ?_) fun lane => around_appendEntries lane s es
    simpa only [serve, serveAppendEntries, lane] using bare
  | startTake x =>
    refine named rfl (fun lane => ?_) fun lane => around_startTake lane s
    simpa only [serve, serveStartTake, lane] using bare
  | suspendTake x =>
    refine named rfl (fun lane => ?_) fun lane => around_suspendTake lane s
    simpa only [serve, serveSuspendTake, lane] using bare
  | resumeTake x =>
    refine named rfl (fun lane => ?_) fun lane => around_resumeTake lane s
    simpa only [serve, serveResumeTake, lane] using bare
  | stopTake x =>
    refine named rfl (fun lane => ?_) fun lane => around_stopTake lane s
    simpa only [serve, serveStopTake, lane] using bare
  | abortTake x =>
    refine named rfl (fun lane => ?_) fun lane => around_abortTake lane s
    simpa only [serve, serveAbortTake, lane] using bare
  | adjustTake x k rm =>
    refine named rfl (fun lane => ?_) fun lane => around_adjustTake lane s k rm
    simpa only [serve, serveAdjustTake, lane] using bare
  | takeStatus x =>
    refine named rfl (fun lane => ?_) fun lane => ?_
    · simpa only [serve, serveTakeStatus, lane] using bare
    · simp only [serve, serveTakeStatus, lane]
      exact (frame_answerClamped s false .ok _).around
  | releaseTake x rc =>
    refine named rfl (fun lane => ?_) fun lane => around_releaseTake lane s rc
    simpa only [serve, serveReleaseTake, lane] using bare
  | _ => exact absurd kind (by simp only [requestKind]; decide)

/-- The same with the end of the step. -/
theorem around_submit {r : Request} (kind : isTakeKind (requestKind r) = true) {m : LaneIx}
    (names : ∀ n, (requestBody r).head?.bind laneOf = some n → n = m) {s : State} (listening : s.listening = true)
    (tag : BitVec 16) : Around m s (submit tag r s) := by
  obtain ⟨-, -, -, -, stale⟩ := (listening_iff s).1 listening
  rw [submit_of_listening tag r listening]
  refine around_finish ((around_beginService s (requestKind r) tag).trans ?_) stale
  unfold State.enterRequest
  split
  · exact (frame_answerClamped _ false _ _).around
  · exact around_serve kind names _

/-- Settles O41: what lies around the lane is kept by the request and by the end of the step. -/
theorem takeRequestsLeaveTheRestOfThePartAlone : Obligations.TakeRequestsLeaveTheRestOfThePartAlone := by
  intro c tag r s t request kind listening run
  obtain ⟨configured, overrun, -, queue, stale⟩ := (listening_iff s).1 listening
  obtain rfl : submit tag r s = t := by
    rw [exec_of_request request] at run
    exact Host.Outcome.next.inj run
  have around {m : LaneIx} (names : ∀ n, (requestBody r).head?.bind laneOf = some n → n = m) :=
    around_submit kind names listening tag
  have same : Around (((requestBody r).head?.bind laneOf).getD 0) s (submit tag r s) := around fun n h => by rw [h]; rfl
  have link := same.link
  refine ⟨same.pending, same.freeReads, by rw [link]; exact configured, by rw [link]; exact queue,
    by rw [link]; exact overrun, by rw [link]; exact stale, by rw [link], same.noticeEnable, same.panelEnable, same.slots,
    same.targets, fun n other => ?_⟩
  cases named : (requestBody r).head?.bind laneOf with
  | none => exact (around (m := n + 1) fun k h => by rw [named] at h; cases h).takes n (by simp)
  | some m =>
    refine (around fun k h => Option.some.inj (h.symm.trans named)).takes n fun e => other ?_
    rw [named, e]

end Sys2Proof.Machine
end

