-- ==== Sys2Proof/Proofs/TakeStop.lean ====
section
/-! STOP TAKE: a lane that reads on, a lane that closes at once, and the card work an INTERRUPTED lane gives up. -/

namespace Sys2Proof.Machine

/-! ### A property of a lane that all its follow-on actions keep -/

/-- A property that each action of a kind keeps, with its own actions of that kind, is kept by all of them together. -/
theorem settle_invariant {P : State → Prop} {A : Task → Prop}
    (one : ∀ s t, P s → A t → P (doTask s t).1 ∧ ∀ u ∈ (doTask s t).2, A u) :
    ∀ (k : Nat) (ts : List Task) (s : State), P s → (∀ t ∈ ts, A t) → P (settle k ts s)
  | k, [], s, p, _ => by rwa [settle_nil]
  | 0, t :: ts, s, p, a => by
      have replies : ∀ (ts : List Task) (s : State), P s → (∀ t ∈ ts, A t) → P (repliesOnly ts s) := by
        intro ts
        induction ts with
        | nil => exact fun _ p _ => p
        | cons t ts ih =>
          intro s p a
          have rest := fun u m => a u (List.mem_cons_of_mem _ m)
          cases t with
          | takeReply n c st b => exact ih _ (one s _ p (a _ (List.mem_cons_self ..))).1 rest
          | _ => exact ih s p rest
      exact replies _ s p a
  | k + 1, t :: ts, s, p, a => by
      rw [settle_cons]
      obtain ⟨p', a'⟩ := one s t p (a t (List.mem_cons_self ..))
      refine settle_invariant one k _ _ p' fun u m => ?_
      rcases List.mem_append.1 m with m | m
      · exact a' u m
      · exact a u (List.mem_cons_of_mem _ m)

/-! ### Files after changes of a take -/

/-- A change of every FILE entry. -/
theorem file_mapEntries {t u : Take} {g : FileEntry → FileEntry} (h : u.entries = t.entries.map (Entry.mapFile g)) (e : Nat) :
    u.file? e = (t.file? e).map g := by
  simp only [Take.file?, h, List.getElem?_map]
  cases t.entries[e]? with
  | none => rfl
  | some a => cases a <;> rfl

/-- The copy records of two takes are the same. -/
def Take.SameCopies (a b : Take) : Prop := ∀ e y, (b.file? e).map (·.copy y) = (a.file? e).map (·.copy y)

theorem Take.SameCopies.refl (a : Take) : a.SameCopies a := fun _ _ => rfl

theorem Take.SameCopies.trans {a b c : Take} (h : a.SameCopies b) (k : b.SameCopies c) : a.SameCopies c :=
  fun e y => (k e y).trans (h e y)

theorem Take.SameCopies.of_entries {a b : Take} (h : b.entries = a.entries) : a.SameCopies b :=
  fun e y => by simp only [Take.file?, h]

theorem sameCopies_modifyFile (a : Take) (e : Nat) {g : FileEntry → FileEntry} (h : ∀ f, (g f).copies = f.copies) :
    a.SameCopies (a.modifyFile e g) := by
  intro d y
  rw [file_modifyFile]
  split
  · rw [Option.map_map]
    congr 1
    funext f
    simp only [Function.comp, FileEntry.copy, h f]
  · rfl

theorem sameCopies_judged (a : Take) (o : TakeOutcome) : a.SameCopies (a.judged o) := by
  intro e y
  rw [file_mapEntries (t := a) (u := a.judged o) rfl, Option.map_map]
  rfl

/-- A file of the take is FINISHED (R10). -/
def Take.finish (t : Take) (e : Nat) : Take :=
  { t.modifyFile e fun f => { f with progress := .finished } with
    counters := { t.counters with filesFinished := satInc t.counters.filesFinished } }

theorem finishFile_eq {s : State} {n : LaneIx} {t : Take} (h : s.take? n = some t) (e : Nat) :
    s.finishFile n e = s.setLane n (some (t.finish e)) := by
  unfold State.finishFile State.modifyFile
  rw [modifyTake_of_take s n _ h, modifyTake_setLane]
  rfl

theorem sameCopies_finish (t : Take) (e : Nat) : t.SameCopies (t.finish e) :=
  sameCopies_modifyFile t e (g := fun f => { f with progress := .finished }) fun _ => rfl

/-! ### The card work that is given up (R105) -/

/-- The WRITING copies of a cut file fail. -/
def Take.failWriting (t : Take) (e : Nat) : Take :=
  t.modifyFile e fun f => { f with copies := f.copies.map (CopyRecord.failIf (· == .writing) .cut) }

/-- The copy of a pair of the recopy list fails. -/
def Take.failPair (t : Take) (p : Nat × TargetIx) : Take := t.modifyFile p.1 (·.modifyCopy p.2 (CopyRecord.fail .cut))

/-- The cut files of a take that are not FINISHED (R105). -/
def Take.cutFiles (t : Take) : List (Nat × FileEntry) :=
  t.files.filter fun p => p.2.condition == .cut && p.2.progress == .draining

/-- The take without its card work (R105). -/
def Take.gaveUp (t : Take) : Take :=
  { t.recopyList.foldl Take.failPair ((t.cutFiles.map Prod.fst).foldl Take.failWriting t) with recopyList := [] }

theorem foldl_modifyTake {α : Type} (n : LaneIx) (f : α → Take → Take) : ∀ (xs : List α) (s : State) (t : Take),
    xs.foldl (fun s x => s.modifyTake n (f x)) (s.setLane n (some t))
      = s.setLane n (some (xs.foldl (fun t x => f x t) t))
  | [], _, _ => rfl
  | x :: xs, s, t => by
      rw [List.foldl_cons, List.foldl_cons, modifyTake_setLane]
      exact foldl_modifyTake n f xs s _

/-- What an INTERRUPTED lane gives up, and the tests that follow. -/
theorem giveUpCardWork_eq {s : State} {n : LaneIx} {t : Take} (h : s.take? n = some t) : s.giveUpCardWork n
    = (s.setLane n (some t.gaveUp), t.cutFiles.map (fun p => Task.testFinish n p.1)
        ++ t.recopyList.map fun p => Task.testFinish n p.1) := by
  have here : s = s.setLane n (some t) := by rw [← h, setLane_take]
  unfold State.giveUpCardWork
  rw [h]
  dsimp only
  conv_lhs => rw [here]
  refine Prod.ext ?_ rfl
  have both := (congrArg (t.recopyList.foldl fun s p => s.modifyCopy n p.1 p.2 (CopyRecord.fail .cut))
    (foldl_modifyTake n (fun (p : Nat × FileEntry) t => t.failWriting p.1) t.cutFiles s t)).trans
      (foldl_modifyTake n (fun p t => Take.failPair t p) t.recopyList s _)
  rw [Take.gaveUp, List.foldl_map]
  exact (congrArg (State.modifyTake · n fun t => { t with recopyList := [] }) both).trans (modifyTake_setLane ..)

/-- Only the entries of a take differ. -/
def Take.EntriesOnly (a b : Take) : Prop := b = { a with entries := b.entries }

theorem Take.EntriesOnly.trans {a b c : Take} (h : a.EntriesOnly b) (k : b.EntriesOnly c) : a.EntriesOnly c := by
  unfold Take.EntriesOnly at *
  rw [h] at k
  exact k

theorem entriesOnly_foldl {α : Type} {f : Take → α → Take} (h : ∀ (t : Take) x, t.EntriesOnly (f t x)) :
    ∀ (xs : List α) (t : Take), t.EntriesOnly (xs.foldl f t)
  | [], _ => rfl
  | x :: xs, t => (h t x).trans (entriesOnly_foldl h xs _)

/-- Only the copy records of a file differ. -/
def FileEntry.CopiesOnly (a b : FileEntry) : Prop := b = { a with copies := b.copies }

theorem FileEntry.CopiesOnly.trans {a b c : FileEntry} (h : a.CopiesOnly b) (k : b.CopiesOnly c) : a.CopiesOnly c := by
  unfold FileEntry.CopiesOnly at *
  rw [h] at k
  exact k

/-- The pairs of a list fail, and no other copy changes. -/
theorem file_failPairs : ∀ (ps : List (Nat × TargetIx)) (t : Take) (e : Nat) (f : FileEntry), t.file? e = some f →
    ∃ g, (ps.foldl Take.failPair t).file? e = some g ∧ f.CopiesOnly g
      ∧ ∀ y, g.copy y = if (e, y) ∈ ps then (f.copy y).fail .cut else f.copy y
  | [], t, e, f, h => ⟨f, h, rfl, fun y => by simp⟩
  | p :: ps, t, e, f, h => by
      obtain ⟨d, x⟩ := p
      by_cases same : e = d
      · subst same
        have first : (t.failPair (e, x)).file? e = some (f.modifyCopy x (CopyRecord.fail .cut)) := by
          simp [Take.failPair, h]
        obtain ⟨g, found, only, copies⟩ := file_failPairs ps _ e _ first
        refine ⟨g, found, FileEntry.CopiesOnly.trans (b := f.modifyCopy x (CopyRecord.fail .cut)) rfl only, fun y => ?_⟩
        rw [copies y]
        by_cases at_ : y = x
        · subst at_
          rw [copy_modifyCopy_same, if_pos (List.mem_cons_self ..)]
          split <;> rfl
        · rw [copy_modifyCopy_ne f at_]
          simp [at_]
      · have first : (t.failPair (d, x)).file? e = some f := by simp [Take.failPair, file_modifyFile, same, h]
        obtain ⟨g, found, only, copies⟩ := file_failPairs ps _ e _ first
        refine ⟨g, found, only, fun y => ?_⟩
        rw [copies y]
        simp [same]

/-- The WRITING copies of the files of a list fail, and no other copy changes. -/
theorem file_failWritings : ∀ (ds : List Nat) (t : Take) (e : Nat) (f : FileEntry), t.file? e = some f →
    ∃ g, (ds.foldl Take.failWriting t).file? e = some g ∧ f.CopiesOnly g
      ∧ ∀ y, g.copy y = if e ∈ ds ∧ (f.copy y).state = .writing then (f.copy y).fail .cut else f.copy y
  | [], t, e, f, h => ⟨f, h, rfl, fun y => by simp⟩
  | d :: ds, t, e, f, h => by
      by_cases same : e = d
      · subst same
        let f' : FileEntry := { f with copies := f.copies.map (CopyRecord.failIf (· == .writing) .cut) }
        have first : (t.failWriting e).file? e = some f' := by simp [Take.failWriting, h, f']
        obtain ⟨g, found, only, copies⟩ := file_failWritings ds _ e _ first
        refine ⟨g, found, FileEntry.CopiesOnly.trans (b := f') rfl only, fun y => ?_⟩
        have copy : f'.copy y = (f.copy y).failIf (· == .writing) .cut := by simp [f', FileEntry.copy]
        rw [copies y, copy]
        by_cases writing : (f.copy y).state = .writing
        · simp [CopyRecord.failIf, writing, CopyRecord.fail]
        · simp [CopyRecord.failIf, writing]
      · have first : (t.failWriting d).file? e = some f := by simp [Take.failWriting, file_modifyFile, same, h]
        obtain ⟨g, found, only, copies⟩ := file_failWritings ds _ e _ first
        refine ⟨g, found, only, fun y => ?_⟩
        rw [copies y]
        simp [same]

theorem mem_cutFiles_iff {t : Take} {e : Nat} {f : FileEntry} (h : t.file? e = some f) :
    e ∈ t.cutFiles.map Prod.fst ↔ f.condition = .cut ∧ f.progress = .draining := by
  simp only [Take.cutFiles, List.mem_map, List.mem_filter, Prod.exists, mem_files_iff, Bool.and_eq_true, beq_iff_eq]
  constructor
  · rintro ⟨d, g, ⟨found, cut⟩, rfl⟩
    rw [h] at found
    cases found
    exact cut
  · exact fun cut => ⟨e, f, ⟨h, cut⟩, rfl⟩

/-- What giving up the card work makes of a file: the copies that needed the card are FAILED. -/
theorem file_gaveUp {t : Take} {e : Nat} {f : FileEntry} (h : t.file? e = some f) :
    ∃ g, t.gaveUp.file? e = some g ∧ f.CopiesOnly g ∧ ∀ y, g.copy y
      = if f.condition = .cut ∧ f.progress = .draining ∧ (f.copy y).state = .writing ∨ (e, y) ∈ t.recopyList
        then { f.copy y with state := .failed, reason := some .cut } else f.copy y := by
  obtain ⟨g1, found1, only1, copies1⟩ := file_failWritings (t.cutFiles.map Prod.fst) t e f h
  obtain ⟨g2, found2, only2, copies2⟩ := file_failPairs t.recopyList _ e g1 found1
  refine ⟨g2, found2, only1.trans only2, fun y => ?_⟩
  rw [copies2 y, copies1 y]
  simp only [mem_cutFiles_iff h, and_assoc]
  by_cases pair : (e, y) ∈ t.recopyList <;>
    by_cases cut : f.condition = .cut ∧ f.progress = .draining ∧ (f.copy y).state = .writing <;>
    simp [pair, cut, CopyRecord.fail]

theorem gaveUp_rest (t : Take) : t.gaveUp = { t with entries := t.gaveUp.entries, recopyList := [] } := by
  have only := (entriesOnly_foldl (f := Take.failWriting) (fun _ _ => rfl) (t.cutFiles.map Prod.fst) t).trans
    (entriesOnly_foldl (f := Take.failPair) (fun _ _ => rfl) t.recopyList _)
  unfold Take.EntriesOnly at only
  unfold Take.gaveUp
  rw [only]

theorem progress_modifyFile (t : Take) (d e : Nat) {g : FileEntry → FileEntry} (h : ∀ f, (g f).progress = f.progress) :
    ((t.modifyFile d g).file? e).map FileEntry.progress = (t.file? e).map FileEntry.progress := by
  rw [file_modifyFile]
  split
  · rw [Option.map_map]
    exact congrArg (Option.map · _) (funext h)
  · rfl

/-- No file changes its progress. -/
theorem gaveUp_progress (t : Take) (e : Nat) :
    (t.gaveUp.file? e).map FileEntry.progress = (t.file? e).map FileEntry.progress := by
  have fold {α : Type} (f : Take → α → Take)
      (h : ∀ t x, ((f t x).file? e).map FileEntry.progress = (t.file? e).map FileEntry.progress) (xs : List α) (t : Take) :
      ((xs.foldl f t).file? e).map FileEntry.progress = (t.file? e).map FileEntry.progress := by
    induction xs generalizing t with
    | nil => rfl
    | cons x xs ih => exact (ih _).trans (h t x)
  refine (fold Take.failPair (fun t p => progress_modifyFile t p.1 e fun _ => rfl) t.recopyList _).trans ?_
  exact fold Take.failWriting (fun t d => progress_modifyFile t d e fun _ => rfl) _ t

theorem allocatingFile_none_iff (t : Take) : t.allocatingFile = none
    ↔ ∀ e, (t.file? e).map FileEntry.progress ≠ some .allocating := by
  simp only [Take.allocatingFile, Option.map_eq_none_iff, List.find?_eq_none, Prod.forall, mem_files_iff, beq_iff_eq, ne_eq,
    Option.map_eq_some_iff, not_exists, not_and]

theorem gaveUp_allocatingFile {t : Take} (h : t.allocatingFile = none) : t.gaveUp.allocatingFile = none := by
  rw [allocatingFile_none_iff] at h ⊢
  exact fun e => by rw [gaveUp_progress]; exact h e

/-! ### A lane that stops with nothing to read -/

/-- The outcome of a take that closes in STOPPING (R15). -/
def Take.stopOutcome (t : Take) : TakeOutcome := if t.halting then .halted else .stopped

/-- The lane has nothing to read and no recopy to do, its copies are those of `a`, and it is STOPPING, or closed with
its outcome. -/
structure Take.Stops (a b : Take) : Prop where
  idle : b.reading = .none
  none_ : b.recopyList = []
  copies : a.SameCopies b
  state : b.state = .stopping ∧ b.halting = a.halting
    ∨ b.state = .closed ∧ b.outcome = some a.stopOutcome ∧ b.cleared = some false

/-- The actions that a lane's stop brings about. -/
def StopTask (n : LaneIx) : Task → Prop
  | .testFinish m _ => m = n
  | .tryRead m => m = n
  | .goOn m => m = n
  | .takeReply _ _ _ _ => True
  | _ => False

/-- The lane of a stopped take, in a state whose targets and verify unit are those of `s`. -/
structure Stopped (n : LaneIx) (a : Take) (s u : State) : Prop where
  take : ∃ b, u.take? n = some b ∧ a.Stops b
  targets : u.targets = s.targets
  verify : u.verify = s.verify

theorem stops_judged {a b : Take} (h : a.Stops b) (st : b.state = .stopping) :
    a.Stops ((b.judged b.closingOutcome).inState .closed) where
  idle := h.idle
  none_ := h.none_
  copies := h.copies.trans (sameCopies_judged b b.closingOutcome)
  state := by
    rcases h.state with ⟨-, halting⟩ | ⟨closed, -⟩
    · have outcome : b.closingOutcome = a.stopOutcome := by
        rw [Take.closingOutcome, st, if_neg (by decide), halting, Take.stopOutcome]
      refine .inr ⟨rfl, congrArg some outcome, ?_⟩
      rw [outcome]
      simp only [Take.inState, Take.judged, Take.stopOutcome]
      cases a.halting <;> rfl
    · rw [st] at closed
      cases closed

/-- Each of the lane's actions keeps all of it. -/
theorem stopped_act {n : LaneIx} {a : Take} {s : State} (u : State) (t : Task) (h : Stopped n a s u) (act : StopTask n t) :
    Stopped n a s (doTask u t).1 ∧ ∀ v ∈ (doTask u t).2, StopTask n v := by
  obtain ⟨⟨b, taken, stops⟩, targets, verify⟩ := h
  have same : Stopped n a s u ∧ ∀ v ∈ ([] : List Task), StopTask n v := ⟨⟨⟨b, taken, stops⟩, targets, verify⟩, by simp⟩
  cases t with
  | takeReply m c st body =>
    have answered : (u.answerTake m c st body).lanes = u.lanes ∧ (u.answerTake m c st body).targets = u.targets
        ∧ (u.answerTake m c st body).verify = u.verify := by
      unfold State.answerTake State.answerClamped
      split <;> exact ⟨rfl, rfl, rfl⟩
    obtain ⟨lanes, tgt, ver⟩ := answered
    exact ⟨⟨⟨b, by rw [← taken]; simp only [doTask, State.take?, lanes], stops⟩, tgt.trans targets, ver.trans verify⟩, by simp [doTask]⟩
  | tryRead m =>
    obtain rfl : m = n := act
    simp only [doTask, tryRead_of_idle taken stops.idle]
    exact same
  | goOn m =>
    obtain rfl : m = n := act
    simp only [doTask, State.goOn, taken]
    rcases stops.state with ⟨st, -⟩ | ⟨st, -⟩
    · simp only [st, State.serveOrClose, stops.idle, ne_eq, not_true_eq_false, if_false, stops.none_]
      split
      · unfold State.closeIfClear
        split
        · refine ⟨⟨⟨_, ?_, stops_judged stops st⟩, ?_, ?_⟩, by simp⟩
          · rw [take_closeTake, if_pos rfl, taken]
            rfl
          · simpa [State.closeTake] using targets
          · simpa [State.closeTake] using verify
        · exact same
      · exact same
    · simp only [st]
      exact same
  | testFinish m e =>
    obtain rfl : m = n := act
    simp only [doTask, State.testFinish]
    split
    · rw [finishFile_eq taken]
      exact ⟨⟨⟨b.finish e, take_setLane_same .., ⟨stops.idle, stops.none_, stops.copies.trans (sameCopies_finish b e), stops.state⟩⟩,
        targets, verify⟩, by simp [StopTask]⟩
    · exact same
  | _ => exact absurd act id

/-! ### The entry to STOPPING -/

theorem dropAllocating_of_free {s : State} {n : LaneIx} {t : Take} (h : s.take? n = some t) (free : t.allocatingFile = none)
    (out : ∀ x, n ∉ (s.pool x).short) : s.dropAllocating n = s := by
  simp only [State.dropAllocating, h, Option.bind_some, free]
  exact leaveAllShort_of_out out

/-- The level of the state a lane leaves has fallen. -/
def State.unlevelled (s : State) (n : LaneIx) (t : Take) : State := (laneLevel n t.state).elim s s.fall

theorem attentionOnly_unlevelled (s : State) (n : LaneIx) (t : Take) : AttentionOnly s (s.unlevelled n t) := by
  unfold State.unlevelled
  cases laneLevel n t.state with
  | none => exact .refl s
  | some c => exact attentionOnly_fall s c

theorem unlevelled_laneClear (s : State) (n m : LaneIx) (t : Take) : (s.unlevelled n t).laneClear m = s.laneClear m := by
  unfold State.unlevelled
  cases laneLevel n t.state <;> rfl

theorem beginService_unlevelled (s : State) (kind : Byte) (tag : BitVec 16) (n : LaneIx) (t : Take) :
    (s.beginService kind tag).unlevelled n t = (s.unlevelled n t).beginService kind tag := by
  unfold State.unlevelled
  cases laneLevel n t.state <;> rfl

section
variable {s : State} {n : LaneIx} {t : Take} (h : s.take? n = some t) (free : t.allocatingFile = none)
  (out : ∀ x, n ∉ (s.pool x).short)
include h free out

theorem enterStopping_of_free : s.enterStopping n
    = ((s.unlevelled n t).setLane n (some (t.inState .stopping)), [.tryRead n, .goOn n]) := by
  rw [State.enterStopping, dropAllocating_of_free h free out, enter_of_take h]
  rfl

/-- A lane with a chunk read in flight reads on. -/
theorem Ends.stopping_reads (reading : t.reading ≠ .none) (chunk : t.chunkRead ≠ none) :
    Ends 2 (s.enterStopping n) ((s.unlevelled n t).setLane n (some (t.inState .stopping))) := by
  rw [enterStopping_of_free h free out]
  have taken := take_setLane_same (s.unlevelled n t) n (some (t.inState .stopping))
  have reads : (t.inState .stopping).reading ≠ .none := reading
  refine .one (tryRead_of_chunk taken chunk) (.one ?_ (.nil _))
  show State.goOn _ n = _
  simp only [State.goOn, taken]
  exact if_pos reads

/-- A lane with nothing to read or recopy, no file in progress and nothing left in the part closes. -/
theorem Ends.stopping_closes (idle : t.reading = .none) (none_ : t.recopyList = []) (clear : s.laneClear n = true)
    (past : ∀ e f, t.file? e = some f → f.progress = .pending ∨ f.progress = .finished) :
    Ends 2 (s.enterStopping n) (((s.unlevelled n t).setLane n
      (some ((t.judged t.stopOutcome).inState .closed))).latch (condLaneDone n)) := by
  rw [enterStopping_of_free h free out]
  have taken := take_setLane_same (s.unlevelled n t) n (some (t.inState .stopping))
  have done : (t.inState .stopping).filesDone = true :=
    (filesDone_iff _).2 fun e f file => (past e f file).symm.imp id fun p => ⟨rfl, p⟩
  have clear' : ((s.unlevelled n t).setLane n (some (t.inState .stopping))).laneClear n = true :=
    (laneClear_setLane (s := s.unlevelled n t) (t := t) (u := t.inState .stopping)
      (by rw [State.take?, (attentionOnly_unlevelled s n t).lanes]; exact h) rfl).trans ((unlevelled_laneClear ..).trans clear)
  have outcome : (t.inState .stopping).closingOutcome = t.stopOutcome := if_neg (by decide : ¬ TakeState.stopping = .draining)
  have closes := goOn_closes taken (.inr rfl) idle none_ done clear'
  rw [outcome, closeTake_setLane _ n rfl] at closes
  exact .one (tryRead_of_idle taken idle) (.one closes (.nil _))

end

/-- An INTERRUPTED lane gives up its card work and enters STOPPING (R105). -/
theorem serveStopTake_interrupted {s : State} {x : Byte} {n : LaneIx} {t : Take} (lane : laneOf x = some n)
    (h : s.take? n = some t) (inter : t.state = .interrupted) (free : t.allocatingFile = none)
    (out : ∀ x, n ∉ (s.pool x).short) : serveStopTake x s = (s.setLane n (some (t.gaveUp.inState .stopping)),
      (t.cutFiles.map (fun p => Task.testFinish n p.1) ++ t.recopyList.map fun p => Task.testFinish n p.1)
        ++ [.tryRead n, .goOn n] ++ [.takeReply n false .ok []]) := by
  have st : t.gaveUp.state = .interrupted := by rw [gaveUp_rest]; exact inter
  have level : (s.setLane n (some t.gaveUp)).unlevelled n t.gaveUp = s.setLane n (some t.gaveUp) := by
    rw [State.unlevelled, st]; rfl
  have entered := enterStopping_of_free (take_setLane_same s n (some t.gaveUp)) (gaveUp_allocatingFile free) out
  rw [level, setLane_setLane] at entered
  simp only [serveStopTake, lane, laneState_of_take h, inter, giveUpCardWork_eq h, entered]

/-- Settles O37: what the lane has to read decides whether it reads on or closes. -/
theorem stopTakeFinishesWhatHasStarted : Obligations.StopTakeFinishesWhatHasStarted := by
  intro tag x n s listening rest lane
  obtain ⟨-, -, -, -, stale⟩ := (listening_iff s).1 listening
  refine ⟨fun stays => ?_, fun other => ?_, fun tk taken free out => ⟨fun going => ?_, fun inter idle => ?_⟩⟩
  · refine submit_unchanged listening rest tag (n := n) .ok [] rfl rfl ?_
    simp only [List.mem_cons, List.not_mem_nil, or_false] at stays
    rcases stays with st | st <;> simp only [serve, serveStopTake, lane, beginService_laneState, st]
  · refine submit_refuseTake listening rest tag (n := n) .wrongState [] rfl rfl ?_
    simp only [List.mem_cons, List.not_mem_nil, or_false] at other
    rcases other with st | st | st | st <;> simp only [serve, serveStopTake, lane, beginService_laneState, st]
  · have taken' : (s.beginService 0x55 tag).take? n = some tk := taken
    have served : serve (.stopTake x) (s.beginService (requestKind (.stopTake x)) tag)
        = ((s.beginService 0x55 tag).enterStopping n).addTasks [.takeReply n false .ok []] := by
      simp only [List.mem_cons, List.not_mem_nil, or_false] at going
      simp only [serve, serveStopTake, lane, beginService_laneState, laneState_of_take taken, requestKind]
      rcases going with st | st | st | st <;> rw [st]
    refine ⟨fun reading chunk => ?_, fun idle none_ clear past => ?_⟩
    · have run := Ends.stopping_reads taken' free out reading chunk
      have entered : s.enter n .stopping = (s.unlevelled n tk).setLane n (some (tk.inState .stopping)) := enter_of_take taken _
      simp only [beginService_unlevelled, beginService_setLane, ← entered] at run
      exact submit_lane (t := tk.inState .stopping) listening rest tag rfl served run (by omega)
        (entered ▸ (attentionOnly_unlevelled ..).setLane n _)
    · have run := Ends.stopping_closes taken' free out idle none_ clear past
      simp only [beginService_unlevelled, beginService_setLane, beginService_latch] at run
      refine ⟨_, (tk.judged tk.stopOutcome).inState .closed,
        submit_lane (t := (tk.judged tk.stopOutcome).inState .closed) listening rest tag rfl served run (by omega)
          (((attentionOnly_unlevelled ..).setLane n _).trans (attentionOnly_latch ..)), ?_, rfl, rfl, ?_, ?_⟩
      · rw [State.replied, choosePath_take]
        exact (latch_take ..).trans (take_setLane_same ..)
      · simp only [Take.inState, Take.judged, Take.stopOutcome]
        cases tk.halting <;> rfl
      · rw [State.replied, choosePath_latched]
        exact latched_latch _ (condLaneDone_lt n)
  · have taken' : (s.beginService 0x55 tag).take? n = some tk := taken
    have served := serveStopTake_interrupted lane taken' inter free out
    generalize work : serveStopTake x (s.beginService 0x55 tag) = w at served
    have fresh : (settled w).link.stale = false := by
      rw [(frame_settled w).link, served]
      exact stale
    have stopped : Stopped n tk.gaveUp s (settled w) := by
      have idle' : tk.gaveUp.reading = .none := by rw [gaveUp_rest]; exact idle
      refine settle_invariant (A := StopTask n) stopped_act _ _ _ ?_ ?_
      · rw [served]
        exact ⟨⟨tk.gaveUp.inState .stopping, take_setLane_same .., idle', rfl, .of_entries rfl, .inl ⟨rfl, rfl⟩⟩, rfl, rfl⟩
      · rw [served]
        intro t among
        simp only [List.mem_append, List.mem_map, List.mem_cons, List.not_mem_nil, or_false] at among
        rcases among with ((⟨p, -, rfl⟩ | ⟨p, -, rfl⟩) | rfl | rfl) | rfl
        · exact rfl
        · exact rfl
        · exact rfl
        · exact rfl
        · exact trivial
    have rested : (settled w).atRest = true := (atRest_congr stopped.targets stopped.verify).trans rest
    obtain ⟨b, found, stops⟩ := stopped.take
    refine ⟨(settled w).choosePath, b, ?_, (choosePath_take ..).trans found, stops.none_, ?_, fun e f y file => ?_⟩
    · refine congrArg _ ((submit_served listening tag rfl).trans ?_)
      exact (congrArg finish work).trans ((finish_tasks rfl fresh).trans (conclude_of_atRest rested))
    · have halting : tk.gaveUp.halting = tk.halting := by rw [gaveUp_rest]
      rcases stops.state with ⟨st, -⟩ | ⟨st, outcome, cleared⟩
      · exact .inl st
      · exact .inr ⟨st, by rw [outcome, Take.stopOutcome, halting], cleared⟩
    · obtain ⟨g, has, -, copies⟩ := file_gaveUp file
      have same := stops.copies e y
      rw [has] at same
      simp only [State.copy?, State.file?, choosePath_take, found, Option.bind_some, same, Option.map_some, copies y]

end Sys2Proof.Machine
end

