-- ==== Sys2Proof/Proofs/TakeAbort.lean ====
section
/-! ABORT TAKE: a take that is OPEN, and a lane with nothing in flight. -/

namespace Sys2Proof.Machine

/-! ### A take request and the end of its step -/

/-- The reply of a request changes only the link. -/
theorem answerTake_rest (s : State) (n : LaneIx) (c : Bool) (st : Status) (body : List Byte) :
    s.answerTake n c st body = { s with link := (s.answerTake n c st body).link } := by
  unfold State.answerTake State.answerClamped
  split <;> rfl

section
variable (s : State) (n : LaneIx) (c : Bool) (st : Status) (body : List Byte)

@[simp] theorem answerTake_take (m : LaneIx) : (s.answerTake n c st body).take? m = s.take? m := by rw [answerTake_rest]; rfl
@[simp] theorem answerTake_copy (m : LaneIx) (e : Nat) (x : TargetIx) :
    (s.answerTake n c st body).copy? m e x = s.copy? m e x := by rw [answerTake_rest]; rfl
@[simp] theorem answerTake_slot (m : LaneIx) : (s.answerTake n c st body).slot m = s.slot m := by rw [answerTake_rest]; rfl
@[simp] theorem answerTake_target (x : TargetIx) : (s.answerTake n c st body).target x = s.target x := by
  rw [answerTake_rest]; rfl
@[simp] theorem answerTake_pool (x : TargetIx) : (s.answerTake n c st body).pool x = s.pool x := by rw [answerTake_rest]; rfl
@[simp] theorem answerTake_segment (g : SegmentIx) : (s.answerTake n c st body).segment g = s.segment g := by
  rw [answerTake_rest]; rfl
@[simp] theorem answerTake_active (x : TargetIx) : (s.answerTake n c st body).active x = s.active x := by
  rw [answerTake_rest]; rfl
@[simp] theorem answerTake_attention : (s.answerTake n c st body).attention = s.attention := by rw [answerTake_rest]
@[simp] theorem answerTake_staging : (s.answerTake n c st body).staging = s.staging := by rw [answerTake_rest]
@[simp] theorem answerTake_verify : (s.answerTake n c st body).verify = s.verify := by rw [answerTake_rest]
end

@[simp] theorem choosePath_copy (s : State) (n : LaneIx) (e : Nat) (x : TargetIx) :
    s.choosePath.copy? n e x = s.copy? n e x := by simp only [State.copy?, State.file?, choosePath_take]

/-- A take request whose follow-on actions run out in a state with no open choice. -/
theorem submit_concludes {s v : State} (listening : s.listening = true) (tag : BitVec 16) {r : Request}
    (shape : shapeRefusal r = none) {n : LaneIx} {st : Status} {body : List Byte} {k : Nat} {w : Work} {c : Bool}
    (h : serve r (s.beginService (requestKind r) tag) = w.addTasks [.takeReply n c st body]) (ends : Ends k w v)
    (few : k ≤ 98) (stale : v.link.stale = false) (rest : v.atRest = true) :
    submit tag r s = (v.answerTake n c st body).choosePath := by
  have same := answerTake_rest v n c st body
  have rest' : (v.answerTake n c st body).atRest = true := by
    rw [same]
    exact rest.symm ▸ atRest_congr rfl rfl
  rw [submit_served listening tag shape, h,
    finish_tasks ((ends.reply n c st body).settled (by omega)) ((answerClamped_stale ..).trans stale),
    conclude_of_atRest rest']

/-! ### What an abort finds when nothing is in flight -/

section
variable {s : State} {n : LaneIx}

theorem withdrawAt_none {t : TargetIx} (h : (s.target t).fifos[n] = []) (p : WriteOrder → Bool) :
    s.withdrawAt n t p = (s, []) := by
  have same : (s.target t).fifos.set n.val [] n.isLt = (s.target t).fifos := by
    rw [← h]
    exact Vector.set_getElem_self n.isLt
  simp only [State.withdrawAt, h, List.take_nil, List.drop_nil, ite_self, List.map_nil, List.filter_nil, List.append_nil,
    modifyTarget_eq, same]
  exact Prod.ext (setTarget_target s t) rfl

theorem withdraw_none (h : ∀ t : TargetIx, (s.target t).fifos[n] = []) (p : WriteOrder → Bool) :
    s.withdraw n p = (s, []) := by
  have fold : ∀ (ts : List TargetIx) (l : List Task),
      ts.foldl (fun (w : Work) t => w.andThen fun s => s.withdrawAt n t p) (s, l) = (s, l) := by
    intro ts
    induction ts with
    | nil => exact fun _ => rfl
    | cons t ts ih =>
      intro l
      have first : Work.andThen (s, l) (fun s => s.withdrawAt n t p) = (s, l) := by
        simp [Work.andThen, withdrawAt_none (h t)]
      rw [List.foldl_cons, first, ih]
  exact fold allTargets []

/-- The verify queue is replaced. -/
def State.setQueue (s : State) (q : List VerifyOrder) : State := { s with verify := { s.verify with queue := q } }

theorem setQueue_active (s : State) (q : List VerifyOrder) (t : TargetIx) : (s.setQueue q).active t = s.active t := rfl

/-- With no verification of the lane under way only its verify orders go. -/
theorem stopLaneVerifications_none (h : ∀ y v, s.active y = some v → v.lane ≠ n) : s.stopLaneVerifications n allTargets
    = s.setQueue (s.verify.queue.filter fun o => o.lane != n) := by
  have queue : (s.verify.queue.filter fun o => !(o.lane == n && allTargets.contains o.target))
      = s.verify.queue.filter fun o => o.lane != n := by
    refine List.filter_congr fun o _ => ?_
    simp [allTargets, bne]
  have stops (u : State) (active : ∀ t, u.active t = s.active t) (ts : List TargetIx) : ts.foldl (fun u t =>
      match u.active t with
      | none => u
      | some v => if v.lane = n then u.stopVerification t else u) u = u := by
    induction ts with
    | nil => rfl
    | cons t ts ih =>
      rw [List.foldl_cons]
      cases a : u.active t with
      | none =>
        dsimp only
        exact ih
      | some v =>
        dsimp only
        rw [if_neg (h t v ((active t).symm.trans a))]
        exact ih
  rw [← queue]
  unfold State.stopLaneVerifications
  exact stops (s.setQueue _) (setQueue_active s _) allTargets

end

/-- The target ports and the verify unit are the same. -/
structure SamePorts (s t : State) : Prop where
  targets : t.targets = s.targets
  verify : t.verify = s.verify

section
variable {s t u : State}

theorem SamePorts.refl (s : State) : SamePorts s s := ⟨rfl, rfl⟩

theorem SamePorts.trans (h : SamePorts s t) (k : SamePorts t u) : SamePorts s u :=
  ⟨k.targets.trans h.targets, k.verify.trans h.verify⟩

theorem samePorts_foldl {α : Type} {f : State → α → State} (h : ∀ s x, SamePorts s (f s x)) :
    ∀ (xs : List α) (s : State), SamePorts s (xs.foldl f s)
  | [], s => .refl s
  | x :: xs, s => (h s x).trans (samePorts_foldl h xs _)

theorem samePorts_giveBack (s : State) (n : LaneIx) (e : Nat) (x : TargetIx) : SamePorts s (s.giveBack n e x) := by
  unfold State.giveBack
  split
  · exact .refl s
  · dsimp only
    split <;> exact ⟨rfl, rfl⟩

theorem samePorts_unallocate (s : State) (n : LaneIx) (e : Nat) : SamePorts s (s.unallocate n e) := by
  have back := samePorts_foldl (fun s x => samePorts_giveBack s n e x) allTargets s
  have fresh (s : State) (x : TargetIx) (g : CopyRecord → CopyRecord) : SamePorts s (s.modifyCopy n e x g) := ⟨rfl, rfl⟩
  have pending (s : State) (g : FileEntry → FileEntry) : SamePorts s (s.modifyFile n e g) := ⟨rfl, rfl⟩
  unfold State.unallocate
  exact (back.trans (samePorts_foldl (fun s x => fresh s x _) allTargets _)).trans (pending _ _)

theorem samePorts_dropAllocating (s : State) (n : LaneIx) : SamePorts s (s.dropAllocating n) := by
  unfold State.dropAllocating
  dsimp only
  split
  · exact (samePorts_unallocate s n _).trans ⟨leaveAllShort_targets .., leaveAllShort_verify ..⟩
  · exact ⟨leaveAllShort_targets .., leaveAllShort_verify ..⟩

end

/-! ### The take of an aborted lane -/

theorem terminal_abandoned (t : Take) {e : Nat} {f : FileEntry} (h : t.abandoned.file? e = some f) (y : TargetIx) :
    (f.copy y).state.terminal t.verify = true := by
  rw [file_mapEntries (t := t) (u := t.abandoned) rfl] at h
  obtain ⟨g, -, rfl⟩ := Option.map_eq_some_iff.1 h
  simp only [FileEntry.copy, Fin.getElem_fin, Vector.getElem_map, CopyRecord.failIf]
  split
  · rfl
  · rename_i stays
    simpa using stays

/-- Files of a lane that may be FINISHED are. -/
theorem foldl_finishIf {n : LaneIx} : ∀ (es : List Nat) (s : State) (b : Take), s.take? n = some b →
    ∃ c, es.foldl (fun s e => s.finishIf n e) s = s.setLane n (some c)
      ∧ c = { b with entries := c.entries, counters := c.counters } ∧ b.SameCopies c
  | [], s, b, h => ⟨b, by rw [← h, setLane_take]; rfl, rfl, .refl b⟩
  | e :: es, s, b, h => by
      rw [List.foldl_cons]
      unfold State.finishIf
      split
      · rw [finishFile_eq h]
        obtain ⟨c, eq, only, copies⟩ := foldl_finishIf es _ (b.finish e) (take_setLane_same s n _)
        exact ⟨c, eq.trans (setLane_setLane ..), only, (sameCopies_finish b e).trans copies⟩
      · exact foldl_finishIf es s b h

theorem abandon_eq {s : State} {n : LaneIx} {a : Take} (h : s.take? n = some a) :
    ∃ b : Take, s.abandon n = s.setLane n (some b.abandoned) ∧ b.chunkRead = a.chunkRead := by
  unfold State.abandon
  rw [h]
  split
  · rename_i e _
    refine ⟨{ a.modifyFile e fun f => { f with condition := .cut, progress := .draining, running := Digest.start } with
      reading := .none, counters := { a.counters with filesCut := satInc a.counters.filesCut } }, ?_, rfl⟩
    unfold State.cutFile State.modifyFile
    rw [modifyTake_of_take s n _ h, modifyTake_setLane, modifyTake_setLane]
    rfl
  · exact ⟨a, modifyTake_of_take s n _ h, rfl⟩

/-- The segments held by a lane, as the staging buffer's segments give them. -/
theorem heldSegments_congr {s t : State} (h : t.staging.segments = s.staging.segments) (n : LaneIx) :
    heldSegments t n = heldSegments s n := by simp only [heldSegments, h]

/-- The verify queue without a lane's orders opens no choice. -/
theorem atRest_filterQueue {s : State} (rest : s.atRest = true) (p : VerifyOrder → Bool) :
    (s.setQueue (s.verify.queue.filter p)).atRest = true := by
  rw [atRest_iff] at rest ⊢
  refine ⟨fun o m => rest.1 o (List.mem_filter.1 m).1, rest.2⟩

/-- The abort of a lane with nothing in flight. -/
structure Aborted (n : LaneIx) (s v : State) (c : Take) : Prop where
  take : v.take? n = some c
  state : c.state = .aborting
  idle : c.reading = .none
  none_ : c.recopyList = []
  terminal : ∀ e f y, c.file? e = some f → (f.copy y).state.terminal c.verify = true
  ports : SamePorts (s.setQueue (s.verify.queue.filter fun o => o.lane != n)) v
  clear : v.laneClear n = true

theorem enterAborting_of_nothing {s : State} {n : LaneIx} {t : Take} (h : s.take? n = some t) (chunk : t.chunkRead = none)
    (held : heldSegments s n = 0) (empty : ∀ y : TargetIx, (s.target y).fifos[n] = [])
    (none_ : ∀ y v, s.active y = some v → v.lane ≠ n) :
    ∃ c, (s.enterAborting n).2 = [.laneTests n] ∧ Aborted n s (s.enterAborting n).1 c := by
  have stop : s.stopWork n = (s.setQueue (s.verify.queue.filter fun o => o.lane != n)).dropAllocating n := by
    rw [State.stopWork, withdraw_none empty, stopLaneVerifications_none none_]
  have ports := samePorts_dropAllocating (s.setQueue (s.verify.queue.filter fun o => o.lane != n)) n
  have calm := calm_dropAllocating (s.setQueue (s.verify.queue.filter fun o => o.lane != n)) n
  obtain ⟨a, taken, -, -, chunkA⟩ := calm.take (n := n) (a := t) h
  have segments : (s.stopWork n).staging = s.staging := by rw [stop]; exact calm.staging
  rw [← stop] at ports taken
  rw [enterAborting_eq, withdraw_none empty]
  generalize s.stopWork n = u at ports taken segments
  obtain ⟨b, abandoned, chunkB⟩ := abandon_eq taken
  have none' : b.abandoned.chunkRead = none := chunkB.trans (chunkA.trans chunk)
  have abort : (u.abandon n).abortChunkRead n = (u.setLane n (some b.abandoned), []) := by
    rw [abandoned, abortChunkRead_eq, take_setLane_same, Option.bind_some, none']
  rw [abort]
  dsimp only
  have taken' : (((u.setLane n (some b.abandoned)).leaveWaiting n).enter n .aborting).take? n
      = some (b.abandoned.inState .aborting) := by simp [take_enter]
  obtain ⟨c, eq, only, copies⟩ := foldl_finishIf
    ((((u.setLane n (some b.abandoned)).leaveWaiting n).enter n .aborting).fileIndexes n) _ _ taken'
  rw [eq]
  have ports' : SamePorts u ((((u.setLane n (some b.abandoned)).leaveWaiting n).enter n .aborting).setLane n (some c)) :=
    ⟨by simp, by simp⟩
  refine ⟨c, rfl, take_setLane_same .., by rw [only]; rfl, by rw [only]; rfl, by rw [only]; rfl, fun e f y file => ?_,
    ports.trans ports', ?_⟩
  · have same := copies e y
    rw [file] at same
    obtain ⟨g, found, eq⟩ := Option.map_eq_some_iff.1 same.symm
    have verify : c.verify = b.verify := by rw [only]; rfl
    have same' : g.copy y = f.copy y := eq
    rw [← same', verify]
    exact terminal_abandoned b found y
  · have all := ports.trans ports'
    generalize e : (((u.setLane n (some b.abandoned)).leaveWaiting n).enter n .aborting).setLane n (some c) = v at all
    have staging : v.staging.segments = s.staging.segments := by
      rw [← segments, ← e]
      simp
    have queue := congrArg VerifyUnit.queue all.verify
    have active : ∀ y, v.active y = s.active y := fun y => by simp only [State.active, all.verify]; rfl
    have target : ∀ y, v.target y = s.target y := fun y => by simp only [State.target, all.targets]; rfl
    rw [laneClear_iff]
    refine ⟨fun t' found => ?_, by rw [heldSegments_congr staging, held], fun y => by rw [target, empty], fun o m => ?_,
      fun y v' at_ => none_ y v' ((active y).symm.trans at_)⟩
    · rw [← e, take_setLane_same, Option.some.injEq] at found
      rw [← found, only]
      exact none'
    · rw [queue] at m
      simpa using (List.mem_filter.1 m).2

/-- What closing changes besides the lane's take is in the attention unit. -/
theorem samePorts_closeTake (s : State) (n : LaneIx) (o : TakeOutcome) : SamePorts s (s.closeTake n o) :=
  ⟨by simp [State.closeTake], by simp [State.closeTake]⟩

theorem stale_closeTake (s : State) (n : LaneIx) (o : TakeOutcome) : (s.closeTake n o).link.stale = s.link.stale := by
  rw [(frame_closeTake s n o).link]

theorem latched_closeTake (s : State) (n : LaneIx) (o : TakeOutcome) :
    (s.closeTake n o).attention.latched.getLsbD (condLaneDone n) = true := latched_latch _ (condLaneDone_lt n)

theorem SamePorts.atRest {s t : State} (h : SamePorts s t) : t.atRest = s.atRest := atRest_congr h.targets h.verify

/-- Settles O38: with nothing in flight the lane is clear once its work is withdrawn. -/
theorem abortTakeEndsTheTake : Obligations.AbortTakeEndsTheTake := by
  intro tag x n s listening rest lane
  obtain ⟨-, -, -, -, stale⟩ := (listening_iff s).1 listening
  refine ⟨fun other => ?_, fun aborting => ?_, fun opened => ⟨?_, ?_⟩, fun tk taken going chunk held empty none_ => ?_⟩
  · refine submit_refuseTake listening rest tag (n := n) .wrongState [] rfl rfl ?_
    simp only [List.mem_cons, List.not_mem_nil, or_false] at other
    rcases other with st | st <;> simp only [serve, serveAbortTake, lane, beginService_laneState, st]
  · refine submit_unchanged listening rest tag (n := n) .ok [] rfl (by rw [aborting]; rfl) ?_
    simp only [serve, serveAbortTake, lane, beginService_laneState, aborting]
  · obtain ⟨tk, taken, -⟩ := Option.map_eq_some_iff.1 opened
    have served : serve (.abortTake x) (s.beginService (requestKind (.abortTake x)) tag)
        = ((s.closeTake n .aborted).beginService (requestKind (.abortTake x)) tag, [.takeReply n false .ok []]) := by
      rw [← beginService_closeTake]
      simp only [serve, serveAbortTake, lane, beginService_laneState, opened]
    refine submit_replied (w := (_, [])) listening tag rfl served (.nil _) (by omega) ((stale_closeTake ..).trans stale)
      ((samePorts_closeTake ..).atRest.trans rest) ?_
    rw [State.laneState, take_closeTake, if_pos rfl, taken]
    rfl
  · obtain ⟨tk, taken, -⟩ := Option.map_eq_some_iff.1 opened
    exact ⟨(tk.judged .aborted).inState .closed, by rw [take_closeTake, if_pos rfl, taken]; rfl, rfl, rfl, rfl⟩
  · have taken' : (s.beginService 0x56 tag).take? n = some tk := taken
    obtain ⟨c, tests, ab⟩ := enterAborting_of_nothing taken' chunk held empty none_
    have served : serve (.abortTake x) (s.beginService (requestKind (.abortTake x)) tag)
        = ((s.beginService 0x56 tag).enterAborting n).addTasks [.takeReply n false .ok []] := by
      simp only [List.mem_cons, List.not_mem_nil, or_false] at going
      simp only [serve, serveAbortTake, lane, beginService_laneState, laneState_of_take taken, requestKind]
      rcases going with st | st | st | st | st | st | st <;> rw [st]
    have fresh : ((s.beginService 0x56 tag).enterAborting n).1.link.stale = false := by
      rw [(around_enterAborting (s.beginService 0x56 tag) n).link]
      exact stale
    generalize (s.beginService 0x56 tag).enterAborting n = w at served tests ab fresh
    obtain ⟨v, ts⟩ := w
    obtain rfl : ts = _ := tests
    have closes : v.laneTests n = (v.closeTake n .aborted, []) := by
      simp [State.laneTests, ab.take, ab.state, closeIfClear_of_clear _ ab.clear]
    have rest' : (v.closeTake n .aborted).atRest = true :=
      ((ab.ports.trans (samePorts_closeTake v n _)).atRest).trans
        (atRest_filterQueue ((atRest_beginService s 0x56 tag).trans rest) _)
    have run := submit_concludes listening tag rfl served (.one closes (.nil _)) (by omega) ((stale_closeTake ..).trans fresh)
      rest'
    refine ⟨_, (c.judged .aborted).inState .closed, congrArg Host.Outcome.next run, ?_, rfl, rfl, rfl, ab.idle, ab.none_, ?_, fun e f y file => ?_⟩
    · rw [choosePath_take, answerTake_take, take_closeTake, if_pos rfl, ab.take]
      rfl
    · rw [choosePath_latched, answerTake_attention]
      exact latched_closeTake v n _
    · have same := sameCopies_judged c .aborted e y
      rw [show (c.judged .aborted).file? e = some f from file] at same
      obtain ⟨g, found, eq⟩ := Option.map_eq_some_iff.1 same.symm
      have same' : g.copy y = f.copy y := eq
      rw [← same']
      exact ab.terminal e g y found

end Sys2Proof.Machine
end

