-- ==== Sys2Proof/Proofs/ChunkReads.lean ====
section
/-! SUPPORT. The begin of a chunk read: the segment that is claimed, and the first piece at the card port. -/

namespace Sys2Proof.Machine

/-- The card read that a piece of a take's chunk read is handed over as (R33). -/
def Take.cardRead (t : Take) (p : Piece) : CardRead :=
  { start := p.lba, count := p.count, retries := t.retries, alternate := t.alternate }

/-- The take with a chunk read in flight. -/
def Take.readsInto (t : Take) (g : SegmentIx) (ps : List Piece) : Take :=
  { t with chunkRead := some { segment := g, pieces := ps } }

section
variable {s : State} {n : LaneIx} {t : Take} {u : SegmentUse} {f : FileEntry} (h : s.take? n = some t)
  (use : t.nextUse n = some u) (file : t.file? u.entry = some f)
include h use file

theorem beginRead_of_file (g : SegmentIx) : s.beginRead n g
    = ((s.setSegment g (.filling u false)).setLane n (some (t.readsInto g (f.pieces u.chunk))), [.handPiece n]) := by
  have h' : (s.setSegment g (.filling u false)).take? n = some t := h
  simp only [State.beginRead, h, use, file]
  rw [modifyTake_of_take _ n _ h']
  rfl

variable (going : t.state = .running ∨ t.state = .stopping ∨ t.state = .draining) (left : t.nextChunk < f.chunksTotal)
  (none_ : t.chunkRead = none) (room : heldSegments s n < t.window) (out : n ∉ s.staging.waiting)
include going left none_ room out

theorem mayRead_of : s.mayRead n = true := by
  rcases going with st | st | st <;> simp [State.mayRead, h, use, file, st, left, none_, room, out]

theorem tryRead_claims {g : SegmentIx} (free : s.firstFree = some g) : s.tryRead n
    = ((s.setSegment g (.filling u false)).setLane n (some (t.readsInto g (f.pieces u.chunk))), [.handPiece n]) := by
  rw [State.tryRead, if_pos (mayRead_of h use file going left none_ room out), free]
  exact beginRead_of_file h use file g

end

/-- A piece within the card is in range for the port (R74). -/
theorem cardRead_inRange {x : Slot} {t : Take} {p : Piece} {i : CardIdentity} (card : x.identity = some i)
    (within : p.lba + p.count ≤ i.sectors.toNat) :
    x.outOfRange { start := p.lba, count := p.count, retries := t.retries, alternate := t.alternate } = false := by
  simp [Slot.outOfRange, card, within]

/-- The slot with a lane piece in progress. -/
def Slot.reads (x : Slot) (r : CardRead) : Slot := { x with op := .piece r 1 }

section
variable {s : State} {n : LaneIx} {t : Take} {cr : ChunkRead} (h : s.take? n = some t) (chunk : t.chunkRead = some cr)
include h chunk

/-- A free port begins the piece (R74). -/
theorem handPiece_begins {p : Piece} {ps : List Piece} {i : CardIdentity} (pieces : cr.pieces = p :: ps)
    (free : (s.slot n).op = .none) (card : (s.slot n).identity = some i) (within : p.lba + p.count ≤ i.sectors.toNat) :
    s.handPiece n = (s.setSlot n ((s.slot n).reads (t.cardRead p)), []) := by
  have range := cardRead_inRange (t := t) card within
  simp only [State.handPiece, h, chunk, pieces, State.offerPiece, free, true_or, if_true, State.beginPiece, range,
    Bool.false_eq_true, if_false]
  rfl

/-- A card whose sectors hold every piece is asked, now or later, and no piece ends. -/
theorem handPiece_rest {i : CardIdentity} (card : (s.slot n).identity = some i)
    (within : ∀ p ∈ cr.pieces, p.lba + p.count ≤ i.sectors.toNat) :
    ∃ x, s.handPiece n = (s.setSlot n x, []) := by
  simp only [State.handPiece, h, chunk]
  cases pieces : cr.pieces with
  | nil => exact ⟨s.slot n, by rw [setSlot_slot]⟩
  | cons p ps =>
    have range := cardRead_inRange (t := t) card (within p (pieces ▸ List.mem_cons_self ..))
    simp only [State.offerPiece, State.beginPiece, range, Bool.false_eq_true, if_false]
    split
    · exact ⟨_, rfl⟩
    · exact ⟨_, rfl⟩

end

/-- A lane that may read, with a FREE segment and the card at its free port, begins its chunk read. -/
theorem Ends.reads {s : State} {n : LaneIx} {t : Take} {u : SegmentUse} {f : FileEntry} {g : SegmentIx} {p : Piece}
    {ps : List Piece} {i : CardIdentity} (h : s.take? n = some t) (use : t.nextUse n = some u)
    (file : t.file? u.entry = some f) (going : t.state = .running ∨ t.state = .stopping ∨ t.state = .draining)
    (left : t.nextChunk < f.chunksTotal) (none_ : t.chunkRead = none) (room : heldSegments s n < t.window)
    (out : n ∉ s.staging.waiting) (free : s.firstFree = some g) (pieces : f.pieces u.chunk = p :: ps)
    (port : (s.slot n).op = .none) (card : (s.slot n).identity = some i) (within : p.lba + p.count ≤ i.sectors.toNat) :
    Ends 2 (s, [.tryRead n]) (((s.setSegment g (.filling u false)).setLane n (some (t.readsInto g (p :: ps)))).setSlot n
      ((s.slot n).reads (t.cardRead p))) := by
  have claims := tryRead_claims h use file going left none_ room out free
  rw [pieces] at claims
  exact .act claims (.one (handPiece_begins (take_setLane_same ..) rfl rfl port card within) (.nil _))

end Sys2Proof.Machine
end

