-- ==== Sys2Proof/Proofs/TakeResume.lean ====
section
/-! RESUME TAKE: going on, the check of the card, the recopy that begins and the cut file that restarts. -/

namespace Sys2Proof.Machine

/-! ### What becomes of a lane that has entered RUNNING -/

section
variable {s b : State} {n : LaneIx} {t : Take} (entry : s.enter n .running = b.setLane n (some (t.inState .running)))
include entry

/-- A chunk read in flight goes on. -/
theorem Ends.running_reads (reading : t.reading ≠ .none) (chunk : t.chunkRead ≠ none) :
    Ends 2 (s.enterRunning n) (b.setLane n (some { t.inState .running with headHold := .none })) := by
  have taken := take_setLane_same b n (some (t.inState .running))
  rw [State.enterRunning, entry]
  refine .one (tryRead_of_chunk taken chunk) (.one ((workHead_reading taken rfl reading).trans ?_) (.nil _))
  rw [setHold_setLane]

/-- A recopy to do without the card. -/
theorem Ends.running_interrupted (h : s.take? n = some t) (idle : t.reading = .none) (some_ : t.recopyList ≠ [])
    (gone : (b.setLane n (some (t.inState .running))).cardAtHand n = false) (free : t.allocatingFile = none)
    (out : ∀ x, n ∉ (b.pool x).short) (dry : n ∉ b.staging.waiting) :
    Ends 2 (s.enterRunning n) (b.setLane n (some (t.inState .interrupted))) := by
  have taken := take_setLane_same b n (some (t.inState .running))
  have stays : (b.setLane n (some (t.inState .running))).dropAllocating n = _ := dropAllocating_of_free taken free out
  refine .entered h entry idle ((workHead_noCard taken rfl idle some_ gone).trans ?_) (.nil _)
  rw [State.interrupt, stays, leaveWaiting_of_out (by exact dry), enter_quiet b n rfl rfl]
  rfl

end

/-! ### The recopy that begins (R153) -/

/-- A take whose lane begins the recopy at the head of its list. -/
def Take.recopies (t : Take) (e : Nat) (x : TargetIx) : Take :=
  ({ t with
    recopyList := t.recopyList.drop 1, reading := .recopy e x, recopyDigest := Digest.start, nextChunk := 0
    headHold := if t.state = .running then .none else t.headHold } : Take).modifyFile e
      (·.modifyCopy x fun c => { c with state := .writing, chunksWritten := 0, recopied := true })

theorem beginRecopy_eq {s : State} {n : LaneIx} {t : Take} (h : s.take? n = some t) (e : Nat) (x : TargetIx) :
    s.beginRecopy n e x = (s.setLane n (some (t.recopies e x)), [.tryRead n]) := by
  unfold State.beginRecopy State.modifyCopy State.modifyFile
  dsimp only
  rw [modifyTake_of_take s n _ h, modifyTake_setLane]
  rfl

theorem file_recopies {t : Take} {e : Nat} {f : FileEntry} (file : t.file? e = some f) (x : TargetIx) : (t.recopies e x).file? e
    = some (f.modifyCopy x fun c => { c with state := .writing, chunksWritten := 0, recopied := true }) :=
  (file_modifyFile_same _ e _).trans (congrArg (Option.map _) file)

theorem copy_of_take {s : State} {n : LaneIx} {t : Take} {e : Nat} {f : FileEntry} (h : s.take? n = some t)
    (file : t.file? e = some f) (x : TargetIx) : s.copy? n e x = some (f.copy x) := by
  simp [State.copy?, State.file?, h, file]

/-! ### The cut file that restarts (R104) -/

/-- The restarted file. -/
def FileEntry.restarted (f : FileEntry) : FileEntry :=
  { f with progress := .moving, condition := .clean, chunksRead := 0, correctedCount := 0, running := Digest.start
           copies := f.copies.map fun c => if c.state = .writing then { c with chunksWritten := 0 } else c }

/-- A take whose cut file restarts. -/
def Take.restart (t : Take) (e : Nat) : Take :=
  { t.modifyFile e FileEntry.restarted with reading := .file e, nextChunk := 0 }

theorem restartFile_eq {s : State} {n : LaneIx} {t : Take} (h : s.take? n = some t) (e : Nat) :
    s.restartFile n e = s.setLane n (some (t.restart e)) := by
  unfold State.restartFile State.modifyFile
  rw [modifyTake_of_take s n _ h, modifyTake_setLane]
  rfl

theorem samePorts_joinWaiting (s : State) (n : LaneIx) : SamePorts s (s.joinWaiting n) := by
  unfold State.joinWaiting
  split
  · exact .refl s
  · dsimp only
    split
    · exact ⟨rise_targets .., rise_verify ..⟩
    · exact ⟨rfl, rfl⟩

/-- A lane whose state, wait, hold and chunk read have changed, and which is RUNNING or WAITING. -/
structure Take.GoesOn (a b : Take) : Prop where
  rest : b = { a with state := b.state, waitReason := b.waitReason, headHold := b.headHold, chunkRead := b.chunkRead }
  state : b.state = .running ∨ b.state = .waiting

/-- A RUNNING lane with a reading begins its next chunk, or waits for a segment, or reads nothing now. -/
theorem Ends.goes_on {s : State} {n : LaneIx} {t : Take} {u : SegmentUse} {f : FileEntry} {i : CardIdentity}
    (h : s.take? n = some t) (run : t.state = .running) (reading : t.reading ≠ .none) (use : t.nextUse n = some u)
    (file : t.file? u.entry = some f) (card : (s.slot n).identity = some i)
    (within : ∀ p ∈ f.pieces u.chunk, p.lba + p.count ≤ i.sectors.toNat) :
    ∃ k v b, k ≤ 3 ∧ Ends k (s, [.tryRead n, .workHead n]) v ∧ v.take? n = some b ∧ t.GoesOn b ∧ SamePorts s v
      ∧ v.link.stale = s.link.stale := by
  have idles (v : State) (c : Take) (st : c.state ≠ .running) (taken : v.take? n = some c) : v.workHead n = (v, []) := by
    simp [State.workHead, taken, st]
  cases may : s.mayRead n with
  | false =>
    refine ⟨2, s.setHold n .none, { t with headHold := .none }, by omega,
      .one (tryRead_of_not may) (.one (workHead_reading h run reading) (.nil _)), ?_, ⟨rfl, .inl run⟩, ⟨rfl, rfl⟩, rfl⟩
    simp [State.setHold, take_modifyTake, h]
  | true =>
    cases free : s.firstFree with
    | some g =>
      have claims : s.tryRead n = s.beginRead n g := by rw [State.tryRead, if_pos may, free]
      have taken := take_setLane_same (s.setSegment g (.filling u false)) n (some (t.readsInto g (f.pieces u.chunk)))
      obtain ⟨x, hands⟩ := handPiece_rest taken rfl card within
      refine ⟨3, _, { t.readsInto g (f.pieces u.chunk) with headHold := .none }, by omega,
        .act (claims.trans (beginRead_of_file h use file g)) (.one hands (.one (workHead_reading (t := t.readsInto g (f.pieces u.chunk)) taken run reading) (.nil _))),
        ?_, ⟨rfl, .inl run⟩, ⟨rfl, rfl⟩, rfl⟩
      rw [State.setHold, take_modifyTake, if_pos rfl]
      exact congrArg _ taken
    | none =>
      have waits : s.tryRead n = ((s.joinWaiting n).enterWaiting n .segments, []) := by
        simp [State.tryRead, may, free, laneState_of_take h, run]
      have taken : ((s.joinWaiting n).enterWaiting n .segments).take? n
          = some { t.inState .waiting with waitReason := some .segments } := by
        simp [take_enterWaiting, h]
      refine ⟨2, _, _, by omega, .one waits (.one (idles _ _ (by simp [Take.inState]) taken) (.nil _)), taken,
        ⟨rfl, .inr rfl⟩, ?_, ?_⟩
      · exact (samePorts_joinWaiting s n).trans ⟨by simp [State.enterWaiting], by simp [State.enterWaiting]⟩
      · rw [(frame_enterWaiting _ n .segments).link, (frame_joinWaiting s n).link]

/-! ### What RESUME TAKE does in each lane state -/

section
variable {s : State} {x : Byte} {n : LaneIx} {t : Take} (lane : laneOf x = some n) (h : s.take? n = some t)
include lane h

theorem serveResumeTake_suspended (st : t.state = .suspended) :
    serveResumeTake x s = (s.enterRunning n).addTasks [.takeReply n false .ok [0, 0, 0]] := by
  simp only [serveResumeTake, lane, h, st]
  rfl

theorem serveResumeTake_stays (st : t.state = .running ∨ t.state = .starved ∨ t.state = .waiting) :
    serveResumeTake x s = (s, [.takeReply n false .ok [0, 0, 0]]) := by
  rcases st with st | st | st <;> simp only [serveResumeTake, lane, h, st] <;> rfl

theorem serveResumeTake_interrupted (st : t.state = .interrupted) : serveResumeTake x s = resumeInterrupted n t s := by
  simp only [serveResumeTake, lane, h, st]

end

theorem serveResumeTake_refused {s : State} {x : Byte} {n : LaneIx} (lane : laneOf x = some n)
    (other : s.laneState n ∈ [none, some .opened, some .stopping, some .draining, some .aborting, some .closed]) :
    serveResumeTake x s = s.refuseTake n .wrongState [] := by
  cases taken : s.take? n with
  | none => simp only [serveResumeTake, lane, taken]
  | some t =>
    simp only [laneState_of_take taken, List.mem_cons, List.not_mem_nil, or_false, reduceCtorEq, false_or,
      Option.some.injEq] at other
    rcases other with st | st | st | st | st <;> simp only [serveResumeTake, lane, taken, st]

section
variable {s : State} {n : LaneIx} {t : Take}

theorem resumeInterrupted_noCard (st : (s.slot n).state = .empty) :
    resumeInterrupted n t s = s.refuseTake n .noCard [] := by simp [resumeInterrupted, st]

theorem resumeInterrupted_notReady (st : (s.slot n).state ∈ [.settling, .identifying, .faulted, .held]) :
    resumeInterrupted n t s = s.refuseTake n .wrongState [] := by
  simp only [List.mem_cons, List.not_mem_nil, or_false] at st
  rcases st with st | st | st | st <;> simp [resumeInterrupted, st]

variable {i : CardIdentity} (ready : (s.slot n).state = .ready) (card : (s.slot n).identity = some i)
include ready card

theorem resumeInterrupted_mismatch {j : CardIdentity} (snapshot : t.snapshot = some j) (ne : i ≠ j) :
    resumeInterrupted n t s = s.refuseTake n .cardMismatch (cardIdentityBytes i ++ cardIdentityBytes j) := by
  have ne' : ¬ j = i := fun e => ne e.symm
  simp [resumeInterrupted, ready, card, snapshot, ne']

variable (snapshot : t.snapshot = some i)
include snapshot

theorem resumeInterrupted_goes (none_ : t.cutEntry = none) :
    resumeInterrupted n t s = (s.enterRunning n).addTasks [.takeReply n false .ok [0, 0, 0]] := by
  simp only [resumeInterrupted, ready, card, snapshot, if_true, none_]
  rfl

theorem resumeInterrupted_restarts {e : Nat} (h : s.take? n = some t) (cut : t.cutEntry = some e) :
    resumeInterrupted n t s = ((s.setLane n (some (t.restart e))).enterRunning n).addTasks
      [.takeReply n false .ok (restartField (some e))] := by
  simp only [resumeInterrupted, ready, card, snapshot, if_true, cut, restartFile_eq h]

end

/-- The entry of a SUSPENDED lane into RUNNING. -/
theorem enter_running_suspended {s : State} {n : LaneIx} {t : Take} (h : s.take? n = some t) (st : t.state = .suspended) :
    s.enter n .running = (s.fall (condLaneSuspended n)).setLane n (some (t.inState .running)) := by
  rw [enter_of_take h, st]
  rfl

/-- The entry of an INTERRUPTED lane into RUNNING. -/
theorem enter_running_interrupted {s : State} {n : LaneIx} {t : Take} (h : s.take? n = some t)
    (st : t.state = .interrupted) : s.enter n .running = s.setLane n (some (t.inState .running)) := by
  rw [enter_of_take h, st]
  rfl

theorem setSegment_setLane (s : State) (n : LaneIx) (x : Option Take) (g : SegmentIx) (v : Segment) :
    (s.setLane n x).setSegment g v = (s.setSegment g v).setLane n x := rfl

/-- A SUSPENDED lane with the card at hand begins the recopy at the head of its list: the state after its first piece
has been handed over. -/
theorem Ends.running_recopies {s b : State} {n : LaneIx} {t : Take} {e : Nat} {f : FileEntry} {y : TargetIx}
    {rest : List (Nat × TargetIx)} {g : SegmentIx} {p : Piece} {ps : List Piece} {i : CardIdentity} (h : s.take? n = some t)
    (entry : s.enter n .running = b.setLane n (some (t.inState .running))) (idle : t.reading = .none)
    (none_ : t.chunkRead = none) (list : t.recopyList = (e, y) :: rest) (file : t.file? e = some f)
    (ready : (b.slot n).state = .ready) (card : (b.slot n).identity = some i) (snapshot : t.snapshot = some i)
    (port : (b.slot n).op = .none) (some_ : 0 < f.chunksTotal) (pieces : f.pieces 0 = p :: ps)
    (within : p.lba + p.count ≤ i.sectors.toNat) (out : n ∉ b.staging.waiting) (room : heldSegments b n < t.window)
    (free : b.firstFree = some g) :
    Ends 4 (s.enterRunning n) (((b.setSegment g (.filling
      { owner := n, entry := e, chunk := 0, pass := some y, data := [] } false)).setLane n
        (some (((t.inState .running).recopies e y).readsInto g (p :: ps)))).setSlot n ((b.slot n).reads (t.cardRead p))) := by
  have taken := take_setLane_same b n (some (t.inState .running))
  have atHand : (b.setLane n (some (t.inState .running))).cardAtHand n = true := by
    simp [State.cardAtHand, Take.inState, ready, card, snapshot]
  refine .entered h entry idle ((workHead_recopy taken rfl idle list atHand).trans (beginRecopy_eq taken e y)) ?_
  rw [setLane_setLane]
  have here := take_setLane_same b n (some ((t.inState .running).recopies e y))
  have file' := file_recopies (t := t.inState .running) file y
  have reads := Ends.reads (g := g) (p := p) (ps := ps) (i := i) here rfl file' (.inl rfl) some_ none_ room out free pieces port
    card within
  rw [setSegment_setLane, setLane_setLane] at reads
  exact reads

/-- Settles O36: the lane's state decides, then the card, then the work at hand. -/
theorem resumeTakeGoesOnOrRestarts : Obligations.ResumeTakeGoesOnOrRestarts := by
  refine ⟨fun tag x n s listening rest lane => ?_, ?_, ?_⟩
  · obtain ⟨-, -, -, -, stale⟩ := (listening_iff s).1 listening
    refine ⟨fun stays => ?_, fun other => ?_, fun tk taken => ⟨fun st => ?_, fun st => ?_⟩⟩
    · refine submit_unchanged listening rest tag (n := n) .ok _ rfl rfl ?_
      cases taken : s.take? n with
      | none => simp [State.laneState, taken] at stays
      | some t =>
        simp only [laneState_of_take taken, List.mem_cons, List.not_mem_nil, or_false, Option.some.injEq] at stays
        exact serveResumeTake_stays lane (s := s.beginService 0x54 tag) taken stays
    · exact submit_refuseTake listening rest tag .wrongState [] rfl rfl (serveResumeTake_refused lane (by exact other))
    · have taken' : (s.beginService 0x54 tag).take? n = some tk := taken
      have served : serve (.resumeTake x) (s.beginService (requestKind (.resumeTake x)) tag) = _ :=
        serveResumeTake_suspended lane taken' st
      have entry := enter_running_suspended taken' st
      refine ⟨fun reading chunk => ?_, fun idle none_ last open_ => ?_, fun idle some_ gone free dry out => ?_⟩
      · have run := Ends.running_reads entry reading chunk
        simp only [beginService_fall, beginService_setLane] at run
        exact submit_lane listening rest tag rfl served run (by omega) ((attentionOnly_fall ..).setLane n _)
      · have run := Ends.running_starved taken' entry idle none_ (List.getElem?_eq_none last) open_
        simp only [beginService_fall, beginService_setLane, beginService_rise] at run
        exact submit_lane listening rest tag rfl served run (by omega)
          (((attentionOnly_fall ..).setLane n _).trans (attentionOnly_rise ..))
      · have gone' := (cardAtHand_setLane (s := s.fall (condLaneSuspended n)) (u := tk.inState .running) taken rfl).trans gone
        have run := Ends.running_interrupted entry taken' idle some_ gone' free out dry
        simp only [beginService_fall, beginService_setLane] at run
        exact submit_lane listening rest tag rfl served run (by omega) ((attentionOnly_fall ..).setLane n _)
    · have taken' : (s.beginService 0x54 tag).take? n = some tk := taken
      have inter := serveResumeTake_interrupted lane taken' st
      have code : laneStateCode (s.laneState n) = 8 := by rw [laneState_of_take taken, st]; rfl
      refine ⟨fun empty => ?_, fun busy => ?_, fun i j ready card snapshot ne => ?_,
        fun i ready card snapshot none_ idle list last open_ => ?_⟩
      · exact submit_refuseTake listening rest tag .noCard [] rfl code (inter.trans (resumeInterrupted_noCard (by exact empty)))
      · exact submit_refuseTake listening rest tag .wrongState [] rfl code
          (inter.trans (resumeInterrupted_notReady (by exact busy)))
      · have mismatch := submit_refuseTake listening rest tag (r := .resumeTake x) .cardMismatch _ rfl code
          (inter.trans (resumeInterrupted_mismatch (s := s.beginService 0x54 tag) ready card snapshot ne))
        exact mismatch.trans (by simp only [cardIdentityBytes, List.cons_append, List.append_assoc, requestKind])
      · have served : serve (.resumeTake x) (s.beginService (requestKind (.resumeTake x)) tag) = _ :=
          inter.trans (resumeInterrupted_goes (s := s.beginService 0x54 tag) ready card snapshot none_)
        have run := Ends.running_starved taken' (enter_running_interrupted taken' st) idle list (List.getElem?_eq_none last) open_
        simp only [beginService_setLane, beginService_rise] at run
        exact submit_lane listening rest tag rfl served run (by omega) (attentionOnly_rise ..)
  · intro tag x n s tk i e f y others p ps listening rest lane taken st idle none_ list file ready card snapshot port some_
      pieces within out room free
    obtain ⟨-, -, -, -, stale⟩ := (listening_iff s).1 listening
    obtain ⟨g, free⟩ := Option.ne_none_iff_exists'.1 free
    have taken' : (s.beginService 0x54 tag).take? n = some tk := taken
    have served : serve (.resumeTake x) (s.beginService (requestKind (.resumeTake x)) tag) = _ :=
      serveResumeTake_suspended lane taken' st
    have run := Ends.running_recopies taken' (enter_running_suspended taken' st) idle none_ list file ready card snapshot port
      some_ pieces within out room free
    have exec_ := submit_concludes listening tag rfl served run (by omega) stale ((atRest_congr rfl rfl).trans rest)
    refine ⟨_, ((tk.inState .running).recopies e y).readsInto g (p :: ps), g, congrArg Host.Outcome.next exec_, ?_, rfl, rfl,
      ?_, rfl, ?_, rfl, firstFree_some free, ?_, ?_⟩
    · rw [choosePath_take, answerTake_take]
      exact take_setLane_same ..
    · exact congrArg (List.drop 1) list
    · rw [choosePath_copy, answerTake_copy]
      refine (copy_of_take (t := ((tk.inState .running).recopies e y).readsInto g (p :: ps)) (take_setLane_same ..)
        (file_recopies (t := tk.inState .running) file y) y).trans ?_
      rw [copy_modifyCopy_same]
    · rw [choosePath_segment, answerTake_segment]
      exact segment_setSegment_same ..
    · rw [choosePath_slot, answerTake_slot, slot_setSlot_same]
      rfl
  · intro tag x n s tk i e f listening rest lane taken st none_ ready card snapshot cut file within
    obtain ⟨-, -, -, -, stale⟩ := (listening_iff s).1 listening
    have taken' : (s.beginService 0x54 tag).take? n = some tk := taken
    have served : serve (.resumeTake x) (s.beginService (requestKind (.resumeTake x)) tag) = _ :=
      (serveResumeTake_interrupted lane taken' st).trans
        (resumeInterrupted_restarts (s := s.beginService 0x54 tag) ready card snapshot taken' cut)
    have here := take_setLane_same (s.beginService 0x54 tag) n (some (tk.restart e))
    have file' : ((tk.restart e).inState .running).file? e = some f.restarted :=
      (file_modifyFile_same tk e _).trans (congrArg (Option.map _) file)
    have entry := enter_running_interrupted here (t := tk.restart e) st
    obtain ⟨k, v, b, few, run, found, goes, ports, fresh⟩ := Ends.goes_on
      (take_setLane_same (s.beginService 0x54 tag) n (some ((tk.restart e).inState .running))) rfl (by simp [Take.restart, Take.inState])
      rfl file' card within
    rw [setLane_setLane] at entry
    have run' : Ends k (((s.beginService 0x54 tag).setLane n (some (tk.restart e))).enterRunning n) v := by
      rw [State.enterRunning, entry]
      exact run
    have exec_ := submit_concludes listening tag rfl served run' (by omega) (fresh.trans stale)
      (ports.atRest.trans ((atRest_congr rfl rfl).trans rest))
    have rest_ := goes.rest
    refine ⟨_, b, f.restarted, congrArg Host.Outcome.next exec_, ?_, ?_, ?_, ?_, goes.state, ?_, ?_, rfl⟩
    · rw [choosePath_take, answerTake_take, found]
    · rw [rest_]; rfl
    · rw [rest_]; rfl
    · rw [rest_]; exact snapshot
    · rw [rest_]; rfl
    · rw [rest_]; exact file'

end Sys2Proof.Machine
end

