-- ==== Sys2Proof/Proofs/FileStart.lean ====
section
/-! The start of a file with one target: the allocation the pool supplies, the WRITING copy, and the first chunk read. -/

namespace Sys2Proof.Machine

/-- The copy holds the allocation its pool has supplied (R137). -/
def CopyRecord.allocate (a : Allocation) (c : CopyRecord) : CopyRecord := { c with allocation := some a }

/-- The copy is WRITING (R7). -/
def CopyRecord.write (c : CopyRecord) : CopyRecord := { c with state := .writing }

/-- The file is ALLOCATING (R7). -/
def FileEntry.allocates (f : FileEntry) : FileEntry := { f with progress := .allocating }

/-- The file is MOVING, its running digest at the start (R7). -/
def FileEntry.moves (f : FileEntry) : FileEntry := { f with progress := .moving, running := Digest.start }

/-- A take whose lane reads the file at its head (R7). -/
def Take.readsFile (t : Take) (e : Nat) : Take :=
  { t with reading := .file e, nextChunk := 0, head := t.head + 1, headHold := .none }

section
variable {s : State} {n : LaneIx} {t : Take} {e : Nat} {f : FileEntry} {y : TargetIx} (h : s.take? n = some t)
  (file : t.file? e = some f)
include h

theorem modifyFile_of_take (g : FileEntry → FileEntry) : s.modifyFile n e g = s.setLane n (some (t.modifyFile e g)) :=
  modifyTake_of_take s n _ h

theorem modifyCopy_of_take (g : CopyRecord → CopyRecord) :
    s.modifyCopy n e y g = s.setLane n (some (t.modifyFile e (·.modifyCopy y g))) := modifyFile_of_take h _

include file

theorem file_of_take : s.file? n e = some f := by simp [State.file?, h, file]

/-- A pool with the space supplies it (R137). -/
theorem askPool_supplies {given left : List Extent}
    (space : supply (unitsFor f.length (s.target y).unit) (s.pool y).runs = some (given, left)) (out : n ∉ (s.pool y).short) :
    s.askPool n e y = (s.setPool y { s.pool y with runs := left }).setLane n (some (t.modifyFile e (·.modifyCopy y
      (CopyRecord.allocate { runs := given, generation := (s.target y).generation })))) := by
  have h' : (s.setPool y { s.pool y with runs := left }).take? n = some t := h
  have asked : s.askPool n e y = ((s.setPool y { s.pool y with runs := left }).modifyCopy n e y
      (CopyRecord.allocate { runs := given, generation := (s.target y).generation })).leaveShort y n := by
    simp only [State.askPool, file_of_take h file, space]
    rfl
  rw [asked, modifyCopy_of_take h']
  refine leaveShort_of_out ?_
  rw [setLane_pool, pool_setPool_same]
  exact out

/-- A file with chunks to read is MOVING, its one copy WRITING (R7 step 4). -/
theorem beginFile_moves (chunks : 0 < f.chunksTotal) : s.beginFile n e [y]
    = (s.setLane n (some (((t.modifyFile e (·.modifyCopy y CopyRecord.write)).modifyFile e FileEntry.moves).readsFile e)),
        [.tryRead n]) := by
  have some_ : f.chunksTotal ≠ 0 := by omega
  simp only [State.beginFile, h, file_of_take h file, List.foldl_cons, List.foldl_nil, some_, if_false]
  rw [modifyCopy_of_take h, State.modifyFile, modifyTake_setLane, modifyTake_setLane]
  rfl

/-- One pool is asked, and supplies (R7 step 3). -/
theorem allocateFile_begins (none_ : (f.copy y).allocation = none) {given left : List Extent}
    (space : supply (unitsFor f.length (s.target y).unit) (s.pool y).runs = some (given, left)) (out : n ∉ (s.pool y).short) :
    s.allocateFile n e [y] = ((s.setPool y { s.pool y with runs := left }).setLane n (some (t.modifyFile e (·.modifyCopy y
      (CopyRecord.allocate { runs := given, generation := (s.target y).generation }))))).beginFile n e [y] := by
  have lacking : (((s.copy? n e y).bind CopyRecord.allocation).isNone) = true := by
    simp [copy_of_take h file, none_]
  have asked := askPool_supplies h file space out
  have holds : (((s.askPool n e y).copy? n e y).bind CopyRecord.allocation).isNone = false := by
    rw [asked, copy_of_take (take_setLane_same ..) (by rw [file_modifyFile_same, file]; rfl), copy_modifyCopy_same]
    rfl
  rw [← asked]
  simp [State.allocateFile, lacking, holds]

/-- A PENDING file with its one target live (R7 step 2). -/
theorem startFile_allocates (pending : f.progress = .pending) (live : s.liveTargets t = [y]) (set : targetsOf t.targets = [y])
    (k : t.k ≤ 1) : s.startFile n e = (s.setLane n (some (t.modifyFile e FileEntry.allocates))).allocateFile n e [y] := by
  have enough : ¬ [y].length < t.k := by simp; omega
  simp only [State.startFile, h, file_of_take h file, live, set, pending, reduceCtorEq, if_false, enough, ne_eq,
    not_true_eq_false]
  rw [modifyFile_of_take h]
  simp
  rfl

end

theorem setPool_setLane (s : State) (n : LaneIx) (x : Option Take) (t : TargetIx) (p : Pool) :
    (s.setLane n x).setPool t p = (s.setPool t p).setLane n x := rfl

theorem targetsOf_single (y : TargetIx) : targetsOf (1#4 <<< y.val) = [y] := by
  revert y
  decide

/-- The file once it is MOVING with its one copy WRITING over an allocation. -/
def FileEntry.begun (f : FileEntry) (y : TargetIx) (a : Allocation) : FileEntry :=
  ((f.allocates.modifyCopy y (CopyRecord.allocate a)).modifyCopy y CopyRecord.write).moves

theorem copy_begun (f : FileEntry) (y : TargetIx) (a : Allocation) :
    (f.begun y a).copy y = { f.copy y with state := .writing, allocation := some a } := by
  show ((f.allocates.modifyCopy y (CopyRecord.allocate a)).modifyCopy y CopyRecord.write).copy y = _
  rw [copy_modifyCopy_same, copy_modifyCopy_same]
  rfl

/-- The take once its file has begun. -/
def Take.begun (t : Take) (e : Nat) (y : TargetIx) (a : Allocation) : Take :=
  ((((t.modifyFile e FileEntry.allocates).modifyFile e (·.modifyCopy y (CopyRecord.allocate a))).modifyFile e
    (·.modifyCopy y CopyRecord.write)).modifyFile e FileEntry.moves).readsFile e

theorem file_begun {t : Take} {e : Nat} {f : FileEntry} (file : t.file? e = some f) (y : TargetIx) (a : Allocation) :
    (t.begun e y a).file? e = some (f.begun y a) := by
  show Take.file? (Take.modifyFile _ e FileEntry.moves) e = _
  simp only [file_modifyFile_same, file, Option.map_some]
  rfl

/-- A PENDING file with its one target live and supplied begins. -/
theorem startFile_begins {s : State} {n : LaneIx} {t : Take} {e : Nat} {f : FileEntry} {y : TargetIx} {given left : List Extent}
    (h : s.take? n = some t) (file : t.file? e = some f) (pending : f.progress = .pending) (live : s.liveTargets t = [y])
    (set : targetsOf t.targets = [y]) (k : t.k ≤ 1) (none_ : (f.copy y).allocation = none)
    (space : supply (unitsFor f.length (s.target y).unit) (s.pool y).runs = some (given, left)) (out : n ∉ (s.pool y).short)
    (chunks : 0 < f.chunksTotal) : s.startFile n e = ((s.setPool y { s.pool y with runs := left }).setLane n
      (some (t.begun e y { runs := given, generation := (s.target y).generation })), [.tryRead n]) := by
  rw [startFile_allocates h file pending live set k]
  have taken := take_setLane_same s n (some (t.modifyFile e FileEntry.allocates))
  have file' : (t.modifyFile e FileEntry.allocates).file? e = some f.allocates := by rw [file_modifyFile_same, file]; rfl
  rw [allocateFile_begins taken file' none_ space out, setPool_setLane, setLane_setLane]
  refine (beginFile_moves (take_setLane_same ..) (f := f.allocates.modifyCopy y
    (CopyRecord.allocate { runs := given, generation := (s.target y).generation })) ?_ chunks).trans ?_
  · rw [file_modifyFile_same, file']
    rfl
  · rw [setLane_setLane]
    rfl

/-- Settles O34: the head's file is allocated, begins, and its first piece is handed over. -/
theorem firstFileStartsMoving : Obligations.FirstFileStartsMoving := by
  intro tag x n s tk f i y given left p ps listening rest lane taken opened idle none_ quiet set k ready card port within
    entry room pending _ chunks unallocated pieces inRange online out space dry window free
  obtain ⟨-, -, -, -, stale⟩ := (listening_iff s).1 listening
  obtain ⟨g, free⟩ := Option.ne_none_iff_exists'.1 free
  have taken' : (s.beginService 0x52 tag).take? n = some tk := taken
  have served : serve (.startTake x) (s.beginService (requestKind (.startTake x)) tag) = _ :=
    serveStartTake_starts lane taken' opened ready card within
  let t1 : Take := (tk.withCard i).inState .running
  have running := enter_running_opened (s.beginService 0x52 tag) n (t := tk.withCard i) opened
  have here := take_setLane_same (s.beginService 0x52 tag) n (some (tk.withCard i))
  have atHand : ((s.beginService 0x52 tag).setLane n (some t1)).cardAtHand n = true := by
    simp [State.cardAtHand, ready, card, Take.withCard, Take.inState, t1]
  have work := workHead_file (take_setLane_same (s.beginService 0x52 tag) n (some t1)) rfl idle none_ entry atHand room
  rw [setHold_setLane] at work
  have targets : targetsOf tk.targets = [y] := by rw [set, targetsOf_single]
  have live : s.liveTargets tk = [y] := by simp [State.liveTargets, targets, online]
  have begins := startFile_begins (take_setLane_same (s.beginService 0x52 tag) n (some { t1 with headHold := .none }))
    (file_of_entry entry) pending live targets (by rw [show t1.k = 1 from k]) unallocated space (out y) chunks
  rw [setPool_setLane, setLane_setLane] at begins
  have reads := Ends.reads (g := g) (p := p) (ps := ps) (i := i)
    (take_setLane_same ((s.beginService 0x52 tag).setPool y { s.pool y with runs := left }) n (some
      (({ t1 with headHold := .none } : Take).begun 0 y { runs := given, generation := (s.target y).generation })))
    rfl (file_begun (file_of_entry entry) y _) (.inl rfl) chunks quiet window dry free pieces port card inRange
  rw [setSegment_setLane, setLane_setLane] at reads
  have run := Ends.entered here running idle (work.trans begins) reads
  have exec_ := submit_concludes listening tag rfl served run (by omega) stale ((atRest_congr rfl rfl).trans rest)
  let t2 : Take := ({ t1 with headHold := .none } : Take).begun 0 y { runs := given, generation := (s.target y).generation }
  refine ⟨_, t2.readsInto g (p :: ps), f.begun y { runs := given, generation := (s.target y).generation }, congrArg Host.Outcome.next exec_,
    ?_, ?_, ?_, ?_, ?_, ?_, ?_, ?_, ?_, ⟨g, ?_, firstFree_some free, ?_⟩, ?_⟩
  · rw [choosePath_take, answerTake_take]
    exact take_setLane_same ..
  · rfl
  · rfl
  · rfl
  · rfl
  · exact file_begun (file_of_entry entry) y _
  · rfl
  · exact copy_begun f y _
  · rw [choosePath_pool, answerTake_pool]
    exact congrArg Pool.runs (pool_setPool_same ..)
  · rfl
  · rw [choosePath_segment, answerTake_segment]
    exact segment_setSegment_same ..
  · rw [choosePath_slot, answerTake_slot, slot_setSlot_same]
    rfl

end Sys2Proof.Machine
end

