-- ==== Sys2Proof/Proofs/Reports.lean ====
section
/-! The requests that only report: their bodies, field by field. -/

namespace Sys2Proof.Machine

theorem le_one (k : Nat) : le 1 k = [BitVec.ofNat 8 k] := rfl

theorem countP_finRange_segments (s : State) (n : LaneIx) : heldSegments s n = (List.finRange 128).countP fun g =>
    match s.segment g with
    | .free => false
    | .filling u _ => u.owner == n
    | .sending u _ => u.owner == n := by
  unfold heldSegments
  have all : s.staging.segments.toList = (List.finRange 128).map fun g => s.segment g := by
    apply List.ext_getElem <;> simp [State.segment]
  rw [all, List.countP_map]
  refine List.countP_congr fun g _ => ?_
  cases h : s.segment g <;> simp [Segment.owner?, Segment.use?, h]

/-- The units an allocation of the target's current generation holds. -/
def CopyRecord.unitsHeld (generation : BitVec 32) (c : CopyRecord) : Nat := match c.allocation with
  | none => 0
  | some a => if a.generation = generation then (a.runs.map Extent.len).sum else 0

theorem sum_unitsHeld (s : State) (t : TargetIx) (l : List (Nat × FileEntry)) :
    ((l.filterMap fun p => ((p.2.copy t).allocation).map fun a => (p.2.copy t, a)).map
      fun p => if p.2.generation = (s.target t).generation then unitsOf p.2.runs else 0).sum
    = (l.map fun q => (q.2.copy t).unitsHeld (s.target t).generation).sum := by
  induction l with
  | nil => rfl
  | cons p l ih =>
    cases h : (p.2.copy t).allocation with
    | none => simpa [CopyRecord.unitsHeld, h] using ih
    | some a => simpa [CopyRecord.unitsHeld, h, unitsOf] using ih

theorem sum_flatMap {α : Type} (l : List α) (f : α → List Nat) : (l.flatMap f).sum = (l.map fun a => (f a).sum).sum := by
  induction l with
  | nil => rfl
  | cons a l ih => simp [ih]

/-- The units of the allocations of a target's current generation, lane by lane and file by file. -/
theorem heldUnits_eq (s : State) (t : TargetIx) : s.heldUnits t = ((List.finRange 8).map fun n => match s.take? n with
    | none => 0
    | some tk => (tk.files.map fun q => (q.2.copy t).unitsHeld (s.target t).generation).sum).sum := by
  unfold State.heldUnits State.allocationsOn
  rw [List.map_flatMap, sum_flatMap]
  refine congrArg List.sum (List.map_congr_left fun n _ => ?_)
  cases s.take? n with
  | none => rfl
  | some tk => exact sum_unitsHeld s t tk.files

theorem optField_ite (width : Nat) (c : Prop) [Decidable c] (v : List Byte) :
    optField width (if c then some v else none) = if c then 1 :: v else 0 :: List.replicate width 0 := by
  split <;> rfl

theorem optField_card (i : Option CardIdentity) : optField 20 (i.map cardIdentityBytes)
    = match i with | none => List.replicate 21 0 | some i => 1 :: le 16 i.serial.toNat ++ le 4 i.sectors.toNat := by
  cases i <;> rfl

theorem optField_drive (i : Option DriveIdentity) : optField 24 (i.map driveIdentityBytes)
    = match i with | none => List.replicate 25 0 | some i => 1 :: le 20 i.serial.toNat ++ le 4 i.capacity.toNat := by
  cases i <;> rfl

theorem optField_fault (r : Option FaultReason) : optField 1 (r.map fun r => [r.code]) = match r with
    | none => [0, 0]
    | some .identify => [1, 0]
    | some .write => [1, 1]
    | some .readback => [1, 2]
    | some .timeout => [1, 3] := by
  cases r with
  | none => rfl
  | some r => cases r <;> rfl

theorem optField_capacity (x : Target) : optField 4 (x.capacityUnits.map (le 4)) = match x.identity with
    | none => List.replicate 5 0
    | some i => 1 :: le 4 (i.capacity.toNat / x.unit) := by
  cases h : x.identity <;> simp [Target.capacityUnits, h, optField]

/-- The three fields of TARGET STATUS about the write order in progress. -/
theorem order_fields (x : Target) (rest : List Byte) :
    optField 1 (x.orderInProgress.map fun p => le 1 p.1.val) ++ (optField 2 (x.orderInProgress.map fun p => le 2 p.2.entry)
        ++ (optField 4 (x.orderInProgress.map fun p => le 4 p.2.chunk) ++ rest))
      = (match x.op with
        | .writePiece m _ => (match x.fifos[m] with
          | [] => List.replicate 10 0
          | o :: _ => [1, BitVec.ofNat 8 m.val, 1] ++ le 2 o.entry ++ [1] ++ le 4 o.chunk)
        | _ => List.replicate 10 0) ++ rest := by
  cases h : x.op with
  | writePiece m i =>
    cases q : x.fifos[m] with
    | nil => simp [Target.orderInProgress, h, q, optField]
    | cons o l => simp [Target.orderInProgress, h, q, optField, le_one]
  | _ => simp [Target.orderInProgress, h, optField]

theorem fifo_lengths (x : Target) : x.fifos.toList.map (fun q => BitVec.ofNat 8 q.length)
    = (List.finRange 8).map fun m => BitVec.ofNat 8 (x.fifos[m]).length := by
  apply List.ext_getElem <;> simp

theorem deviceOp_code (o : DeviceOp) : o.code = match o with
    | .none => 0 | .identify => 1 | .writePiece _ _ => 2 | .readback _ => 3 | .host (.read _ _) => 4
    | .host (.write _ _ _) => 5 := by
  cases o with
  | host o => cases o <;> rfl
  | _ => rfl

theorem hasWork_verifier_code (s : State) (t : TargetIx) : yesNo (s.hasWork t .verifier)
    = match s.active t with | none => 0 | some v => if v.read == .ready then 1 else 0 := by
  cases h : s.active t <;> simp [State.hasWork, h, yesNo]

/-- The wait reason and the pool waited for, of TAKE STATUS. -/
theorem waitReason_fields (w : Option WaitReason) (rest : List Byte) :
    optField 1 (w.map fun r => [r.code]) ++ (optField 1 (w.bind fun r => match r with
        | .pool x => some [BitVec.ofNat 8 x.val]
        | .segments => none
        | .targets => none) ++ rest) = (match w with
      | none => [0, 0, 0, 0]
      | some .segments => [1, 0, 0, 0]
      | some (.pool t) => [1, 1, 1, BitVec.ofNat 8 t.val]
      | some .targets => [1, 2, 0, 0]) ++ rest := by
  cases w with
  | none => rfl
  | some w => cases w <;> rfl

theorem optField_outcome (o : Option TakeOutcome) : optField 1 (o.map fun o => [o.code]) = match o with
    | none => [0, 0]
    | some .complete => [1, 0]
    | some .stopped => [1, 1]
    | some .halted => [1, 2]
    | some .aborted => [1, 3] := by
  cases o with
  | none => rfl
  | some o => cases o <;> rfl

theorem optField_cleared (o : Option Bool) : optField 1 (o.map fun c => [yesNo c]) = match o with
    | none => [0, 0]
    | some c => [1, if c then 1 else 0] := by
  cases o <;> rfl

theorem holderCode_eq (h : Option Candidate) : holderCode h = match h with
    | none => 9
    | some (.lane m) => BitVec.ofNat 8 m.val
    | some .verifier => 8 := by
  cases h with
  | none => rfl
  | some c => cases c <;> rfl

/-- SLOT STATUS reports, and in SETTLING takes the next free value. -/
theorem serveSlotStatus_eq {x : Byte} {n : LaneIx} (lane : laneOf x = some n) {s : State} {tag : BitVec 16} :
    serve (.slotStatus x) (s.beginService 0x20 tag)
      = (({ s.beginService 0x20 tag with freeReads := if (s.slot n).state = .settling then s.freeReads + 1 else s.freeReads } :
          State).answerClamped false .ok (slotStatusBody s n), []) := by
  simp only [serve, serveSlotStatus, lane]
  change (if (s.slot n).state = .settling then _ else _, _) = _
  by_cases settling : (s.slot n).state = .settling
  · rw [if_pos settling, if_pos settling]
    rfl
  · rw [if_neg settling, if_neg settling]
    rfl

theorem capabilityRecord_eq (free : Nat) : capabilityRecord free
    = le 2 0x4D57 ++ le 2 0x8400 ++ [1] ++ le 8 Config.partSerial.toNat ++ [8, 4, 128] ++ le 2 256
      ++ le 2 8192 ++ le 2 4096 ++ le 2 free ++ [16, 2, 32, 8, 8, 32]
      ++ le 2 128 ++ le 2 512 ++ le 2 2048 ++ le 2 8192 ++ le 2 2048 ++ [16, 4, 64, 4, 8, 4, 250]
      ++ le 2 500 ++ le 2 2000 ++ le 2 4600 ++ [4, 8, 16, 16, 8, 78] ++ le 4 4294967291 := by
  unfold capabilityRecord capabilityHead capabilityTail
  simp only [List.append_assoc]
  rfl

/-- IDENTIFY answers the capability record. -/
theorem serve_identify (s : State) (tag : BitVec 16) : serve .identify (s.beginService 0x01 tag)
    = ((s.beginService 0x01 tag).answerClamped false .ok (capabilityRecord s.freeEntries), []) := rfl

/-- Settles O11: the bodies agree field by field, and a request that only reports is answered at once. -/
theorem partAndStatusRequestsReport : Obligations.PartAndStatusRequestsReport := by
  unfold Obligations.PartAndStatusRequestsReport
  intro flag byte present laneCode capacity slotBody targetBody poolBody takeBody
  have slot_ (s : State) (n : LaneIx) : slotStatusBody s n = slotBody s n := by
    dsimp only [slotStatusBody, slotBody]
    rw [optField_card, optField_ite, optField_ite]
    simp only [List.append_assoc]
    cases (s.slot n).op <;> rfl
  have pool_ (s : State) (t : TargetIx) : readPoolBody s t = poolBody s t := by
    dsimp only [readPoolBody, poolBody]
    rw [optField_capacity, heldUnits_eq, poolSummary]
    simp only [List.append_assoc]
    rfl
  have target_ (s : State) (t : TargetIx) : targetStatusBody s t = targetBody s t := by
    dsimp only [targetStatusBody, targetBody]
    rw [optField_fault, optField_drive, optField_capacity, fifo_lengths, deviceOp_code, hasWork_verifier_code, holderCode_eq]
    simp only [List.append_assoc, order_fields]
    rfl
  have take_ (s : State) (n : LaneIx) : takeStatusBody s n = takeBody s n := by
    unfold takeStatusBody State.laneState
    dsimp only [takeBody]
    cases s.take? n with
    | none => rfl
    | some k =>
      dsimp only [Option.map_some, Option.bind_some]
      simp only [List.append_assoc]
      rw [optField_card, optField_outcome, optField_cleared, countP_finRange_segments]
      refine congrArg₂ (· ++ ·) rfl (congrArg₂ (· ++ ·) rfl ((waitReason_fields k.waitReason _).trans
        (congrArg₂ (· ++ ·) rfl ?_)))
      cases k.reading <;> rfl
  refine ⟨fun tag s listening rest => ⟨?_,
    congrArg Host.Outcome.next (submit_answered listening tag rest rfl rfl)⟩,
    fun tag x s listening rest => ⟨fun n lane => ⟨?_, ?_⟩, fun t target => ⟨?_, ?_⟩⟩⟩
  · rw [← capabilityRecord_eq]
    exact congrArg Host.Outcome.next (submit_answered listening tag rest rfl (serve_identify s tag))
  · rw [← slot_]
    obtain ⟨-, -, -, -, stale⟩ := (listening_iff s).1 listening
    exact congrArg Host.Outcome.next ((submit_served listening tag rfl).trans
      ((congrArg finish (serveSlotStatus_eq lane)).trans (finish_answered rfl stale rest)))
  · rw [← take_]
    exact congrArg Host.Outcome.next (submit_answered listening tag rest rfl (by simp only [serve, serveTakeStatus, lane]; rfl))
  · rw [← target_]
    exact congrArg Host.Outcome.next
      (submit_answered listening tag rest rfl (by simp only [serve, serveTargetStatus, target]; rfl))
  · rw [← pool_]
    exact congrArg Host.Outcome.next (submit_answered listening tag rest rfl (by simp only [serve, serveReadPool, target]; rfl))

end Sys2Proof.Machine
end

