-- ==== Sys2Proof/Proofs/WritePieces.lean ====
section
/-! The end of a write piece: its order, the copy it applies to, and the segment it lowers. -/

namespace Sys2Proof.Machine

/-! ### Files changed twice -/

theorem entry_of_file {t : Take} {e : Nat} {f : FileEntry} (h : t.file? e = some f) : t.entries[e]? = some (.file f) := by
  obtain ⟨x, there, file⟩ := Option.bind_eq_some_iff.1 h
  cases x with
  | file g => rw [there, Option.some.inj file]
  | _ => exact absurd file (by simp [Entry.file?])

/-- Only what a change gives for the file that stands there counts. -/
theorem modifyFile_congr {t : Take} {e : Nat} {f : FileEntry} (file : t.file? e = some f) {g h : FileEntry → FileEntry}
    (same : g f = h f) : t.modifyFile e g = t.modifyFile e h := by
  unfold Take.modifyFile
  refine congrArg (fun es => { t with entries := es }) (List.ext_getElem? fun d => ?_)
  rw [List.getElem?_modify, List.getElem?_modify]
  by_cases d_ : e = d
  · subst d_
    rw [entry_of_file file]
    simp [Entry.mapFile, same]
  · simp [d_]

theorem modifyFile_modifyFile (t : Take) (e : Nat) (g h : FileEntry → FileEntry) :
    (t.modifyFile e g).modifyFile e h = t.modifyFile e fun f => h (g f) := by
  unfold Take.modifyFile
  refine congrArg (fun es => { t with entries := es }) (List.ext_getElem? fun d => ?_)
  simp only [List.getElem?_modify]
  cases t.entries[d]? with
  | none => simp
  | some x => by_cases d_ : e = d <;> cases x <;> simp [d_, Entry.mapFile]

/-! ### The order leaves its target -/

/-- The target when the order at the head of a lane's FIFO has left it. -/
def Target.orderGone (y : Target) (n : LaneIx) (rest : List WriteOrder) : Target :=
  { y with op := .none, fifos := y.fifos.set n.val rest n.isLt }

section
variable {s : State} {x : TargetIx} {n : LaneIx} {i k : Nat} {o : WriteOrder} {rest : List WriteOrder} {u : SegmentUse}
  (op : (s.target x).op = .writePiece n i) (fifo : (s.target x).fifos[n] = o :: rest)

include fifo in
theorem orderLeaves_eq (seg : s.segment o.segment = .sending u k) : s.orderLeaves x n o
    = ((s.setTarget x ((s.target x).orderGone n rest)).setSegment o.segment (.sending u (k - 1)),
        if k - 1 = 0 then [.freeSegment o.segment] else []) := by
  have gone : s.orderLeaves x n o = (s.setTarget x ((s.target x).orderGone n rest)).countDown o.segment := by
    have left : ((s.target x).fifos[n]).drop 1 = rest := by rw [fifo]; rfl
    rw [← left]
    rfl
  have seg' : (s.setTarget x ((s.target x).orderGone n rest)).segment o.segment = .sending u k := seg
  rw [gone, State.countDown, seg']

include op fifo in
theorem exec_writePiece (error : Bool) :
    exec (.writePieceComplete x false error) s = .next (finish (s.pieceWritten x n i o error)) := by
  show execWritePieceComplete x false error s = _
  simp [execWritePieceComplete, op, fifo]

end

/-! ### The copy the order applies to -/

/-- The take with a copy record of a file replaced. -/
def Take.withCopy (t : Take) (e : Nat) (x : TargetIx) (c : CopyRecord) : Take :=
  t.modifyFile e fun f => { f with copies := f.copies.set x.val c x.isLt }

section
variable {s : State} {n : LaneIx} {t : Take} {e : Nat} {f : FileEntry} (h : s.take? n = some t) (file : t.file? e = some f)
  (x : TargetIx) (g : CopyRecord → CopyRecord)
include h file

theorem modifyCopy_withCopy : s.modifyCopy n e x g = s.setLane n (some (t.withCopy e x (g (f.copy x)))) := by
  rw [modifyCopy_of_take h]
  exact congrArg (fun t => s.setLane n (some t)) (modifyFile_congr file rfl)

omit h in
theorem setLane_modifyCopy (c : CopyRecord) : (s.setLane n (some (t.withCopy e x c))).modifyCopy n e x g
    = s.setLane n (some (t.withCopy e x (g c))) := by
  rw [modifyCopy_of_take (take_setLane_same ..), setLane_setLane, Take.withCopy, modifyFile_modifyFile]
  refine congrArg (fun t => s.setLane n (some t)) (modifyFile_congr file ?_)
  simp [FileEntry.modifyCopy, FileEntry.copy]

/-- An order that completes leaves a copy alone that is no longer WRITING (R48). -/
theorem orderApplies_ended (ended : (f.copy x).state ≠ .writing) : s.orderApplies n e x = (s, []) := by
  simp [State.orderApplies, h, file_of_take h file, ended]

/-- An order that completes raises the copy's chunks written (R48). -/
theorem orderApplies_more (writing : (f.copy x).state = .writing) (more : (f.copy x).chunksWritten + 1 ≠ f.chunksTotal) :
    s.orderApplies n e x = (s.setLane n (some (t.withCopy e x
      { f.copy x with chunksWritten := (f.copy x).chunksWritten + 1 })), []) := by
  simp [State.orderApplies, h, file_of_take h file, writing, more, modifyCopy_withCopy h file]

variable (writing : (f.copy x).state = .writing) (last : (f.copy x).chunksWritten + 1 = f.chunksTotal)
include writing last

/-- The order of the copy's last chunk places a verify order (R48, R145). -/
theorem orderApplies_verify (verify : t.verify = true) : s.orderApplies n e x
    = (({ s with verify := { s.verify with queue := s.verify.queue ++ [{ lane := n, entry := e, target := x }] } } :
        State).setLane n (some (t.withCopy e x
          { f.copy x with chunksWritten := (f.copy x).chunksWritten + 1, state := .verifyWait })), []) := by
  simp only [State.orderApplies, h, file_of_take h file, writing, last, if_true, modifyCopy_withCopy h file,
    State.copyWritten, verify, State.placeVerifyOrder, setLane_modifyCopy file]
  rfl

/-- The order of the copy's last chunk makes it WRITTEN with verify off (R48). -/
theorem orderApplies_written (verify : t.verify = false) : s.orderApplies n e x
    = (s.setLane n (some (t.withCopy e x
        { f.copy x with chunksWritten := (f.copy x).chunksWritten + 1, state := .written })), [.testFinish n e]) := by
  simp only [State.orderApplies, h, file_of_take h file, writing, last, if_true, modifyCopy_withCopy h file,
    State.copyWritten, verify, Bool.false_eq_true, if_false, setLane_modifyCopy file]

end

end Sys2Proof.Machine
end

