-- ==== Sys2Proof/Proofs/WriteEnds.lean ====
section
/-! The end of a write piece: what follows for the copy, for the lane that waits for the segment, and for the lane whose
last work it was. -/

namespace Sys2Proof.Machine

/-! ### What the end of a step leaves as it is -/

section
variable (s : State)

theorem conclude_take {n : LaneIx} {t : Take} (h : s.take? n = some t) :
    ∃ b, s.conclude.take? n = some b ∧ t.context = b.context :=
  take_of_context ((quiet_conclude s).contexts n).symm h

theorem conclude_rest : ∃ lanes targets verify attention link, s.conclude
    = { s with lanes := lanes, targets := targets, verify := verify, attention := attention, link := link }
      ∧ attention.latched = s.attention.latched := by
  obtain ⟨t, choice, conclude⟩ := conclude_frame s
  obtain ⟨a, p, o, path⟩ := choosePath_frame t
  have latched := choosePath_latched t
  rw [conclude]
  have rest := choice.rest
  refine ⟨t.lanes, t.targets, t.verify, a, { t.link with pendingNotice := p, outgoing := o }, ?_, ?_⟩
  · rw [path, rest]
  · rw [path, rest] at latched
    exact latched

theorem conclude_slot (n : LaneIx) : s.conclude.slot n = s.slot n := by
  obtain ⟨l, t, v, a, k, eq, -⟩ := conclude_rest s
  rw [eq]
  rfl

theorem conclude_latched : s.conclude.attention.latched = s.attention.latched := by
  obtain ⟨l, t, v, a, k, eq, latched⟩ := conclude_rest s
  rw [eq]
  exact latched

theorem conclude_fifos (x : TargetIx) : (s.conclude.target x).fifos = (s.target x).fifos := by
  obtain ⟨t, choice, conclude⟩ := conclude_frame s
  rw [conclude, choosePath_target, choice.targets x]

end

/-! ### A lane with no tests to pass -/

theorem laneTests_quiet {s : State} {n : LaneIx} (aborting : s.laneState n ≠ some .aborting)
    (interrupted : s.laneState n ≠ some .interrupted) (stopping : s.laneState n ≠ some .stopping)
    (draining : s.laneState n ≠ some .draining) : s.laneTests n = (s, []) := by
  unfold State.laneTests
  cases h : s.take? n with
  | none => rfl
  | some t =>
    rw [laneState_of_take h] at *
    cases st : t.state <;> simp_all

section
variable {s : State} {n : LaneIx} {t : Take} (h : s.take? n = some t) (held : t.state = .suspended)
include h held

/-- The actions of a SUSPENDED lane that gave back a segment: at most a file of it finishes. -/
theorem Ends.suspended (extra : List Task) (only : extra = [] ∨ ∃ e, extra = [.testFinish n e]) : ∃ k b,
    k ≤ 5 ∧ b.state = .suspended ∧ Ends k (s, [.tryRead n, .laneTests n] ++ extra) (s.setLane n (some b)) := by
  have still : ∀ (b : Take), b.state = .suspended → (s.setLane n (some b)).goOn n = (s.setLane n (some b), []) := by
    intro b st
    simp [State.goOn, take_setLane_same, st]
  have reads : s.tryRead n = (s, []) := tryRead_of_not (by simp [State.mayRead, h, held])
  have tests : s.laneTests n = (s, []) := by simp [State.laneTests, h, held]
  rcases only with rfl | ⟨e, rfl⟩
  · refine ⟨2, t, by omega, held, .one reads (.one tests ?_)⟩
    rw [← h, setLane_take]
    exact .nil s
  · by_cases finishes : s.mayFinish n e = true
    · refine ⟨4, t.finish e, by omega, held, .one reads (.one tests (.act (v := s.setLane n (some (t.finish e))) (new := [.goOn n]) ?_ (.one (v := s.setLane n (some (t.finish e))) ?_ (.nil _))))⟩
      · simp [doTask, State.testFinish, finishes, finishFile_eq h]
      · exact still (t.finish e) held
    · refine ⟨3, t, by omega, held, .one reads (.one tests (.one (v := s) ?_ ?_))⟩
      · simp [doTask, State.testFinish, finishes]
      · rw [← h, setLane_take]
        exact .nil s

end

/-! ### The segment is handed to the waiting lane -/

/-- The place of a lane in the round-robin order that begins after another. -/
def turnAfter (last m : LaneIx) : Nat := (m.val + 7 - last.val) % 8

theorem lane_at_turn (last m : LaneIx) : (last.val + 1 + turnAfter last m) % 8 = m.val := by
  unfold turnAfter
  omega

theorem turn_of_lane (last : LaneIx) {i : Nat} (lt : i < 8) {j : LaneIx} (at_ : j.val = (last.val + 1 + i) % 8) :
    turnAfter last j = i := by
  unfold turnAfter
  omega

/-- The waiting lane that comes first in the round-robin order is next. -/
theorem nextWaiting_of_first {x : Staging} {m : LaneIx} (mem : m ∈ x.waiting)
    (first : ∀ j ∈ x.waiting, turnAfter x.lastServed m ≤ turnAfter x.lastServed j) : x.nextWaiting = some m := by
  have here : (⟨(x.lastServed.val + 1 + turnAfter x.lastServed m) % 8, Nat.mod_lt _ (by decide)⟩ : LaneIx) = m :=
    Fin.ext (lane_at_turn ..)
  unfold Staging.nextWaiting
  rw [List.find?_map, Option.map_eq_some_iff]
  refine ⟨turnAfter x.lastServed m, List.find?_range_eq_some.2 ⟨?_, ?_, fun j before => ?_⟩, here⟩
  · simp only [Function.comp_apply, here]
    simpa using mem
  · exact List.mem_range.2 (Nat.mod_lt _ (by decide))
  · have lt : j < 8 := Nat.lt_trans before (Nat.mod_lt _ (by decide))
    simp only [Function.comp_apply, Bool.not_eq_true', List.contains_eq_mem, decide_eq_false_iff_not]
    intro waits
    have later := first _ waits
    rw [turn_of_lane x.lastServed lt (j := ⟨(x.lastServed.val + 1 + j) % 8, Nat.mod_lt _ (by decide)⟩) rfl] at later
    omega

/-- The state in which the lane next in turn has left the set and is the one last served. -/
def State.takesTurn (s : State) (m : LaneIx) : State :=
  { s.leaveWaiting m with staging := { (s.leaveWaiting m).staging with lastServed := m } }

theorem takesTurn_take (s : State) (m n : LaneIx) : (s.takesTurn m).take? n = s.take? n := leaveWaiting_take ..

/-- The state in which the segment has been handed on: the lane is RUNNING and reads into it. -/
def State.handedTo (s : State) (m : LaneIx) (g : SegmentIx) (u : SegmentUse) (t : Take) (ps : List Piece) : State :=
  (((s.takesTurn m).setSegment g (.filling u false)).fall (Level.waiting m).cond).setLane m
    (some ((t.readsInto g ps).inState .running))

section
variable {s : State} {m : LaneIx} {g : SegmentIx} {t : Take} {u : SegmentUse} {f : FileEntry}
  (next : s.staging.nextWaiting = some m) (h : s.take? m = some t) (waits : t.state = .waiting)
  (use : t.nextUse m = some u) (file : t.file? u.entry = some f)
include next h waits use file

/-- A lane in WAITING that a segment is handed to returns to RUNNING and begins its read (R13, R38). -/
theorem handOn_hands : s.handOn g = (s.handedTo m g u t (f.pieces u.chunk), [.handPiece m, .workHead m]) := by
  have taken : (s.takesTurn m).take? m = some t := (takesTurn_take ..).trans h
  have read := beginRead_of_file taken use file g
  have here := take_setLane_same ((s.takesTurn m).setSegment g (.filling u false)) m (some (t.readsInto g (f.pieces u.chunk)))
  have lane : (((s.takesTurn m).setSegment g (.filling u false)).setLane m
      (some (t.readsInto g (f.pieces u.chunk)))).laneState m = some .waiting := (laneState_of_take here).trans (congrArg some waits)
  have state : (t.readsInto g (f.pieces u.chunk)).state = .waiting := waits
  have entered := enter_of_take here .running
  rw [state] at entered
  show (match s.staging.nextWaiting with
    | none => (s, [])
    | some m =>
      let w := (s.takesTurn m).beginRead m g
      (if w.1.laneState m = some TakeState.waiting then w.1.enter m .running else w.1, w.2 ++ [Task.workHead m])) = _
  rw [next]
  dsimp only
  rw [read]
  dsimp only
  rw [if_pos lane, entered]
  exact Prod.ext (setLane_setLane (((s.takesTurn m).setSegment g (.filling u false)).fall (Level.waiting m).cond) m _ _) rfl

end

/-- Lane m has been handed the segment g, reads the first of its pieces into it, and is RUNNING. -/
structure Handed (m : LaneIx) (g : SegmentIx) (u : SegmentUse) (t : Take) (p : Piece) (ps : List Piece) (v : State) :
    Prop where
  taken : ∃ b, v.take? m = some b ∧ b.chunkRead = some { segment := g, pieces := p :: ps } ∧ b.state = .running
    ∧ b.waitReason = none
  segment : v.segment g = .filling u false
  left : m ∉ v.staging.waiting
  served : v.staging.lastServed = m
  fallen : v.attention.asserted.getLsbD (condLaneWaiting m) = false
  reads : (v.slot m).op = .piece (t.cardRead p) 1

section
variable {m : LaneIx} {g : SegmentIx} {u : SegmentUse} {t : Take} {p : Piece} {ps : List Piece} {v : State}
  (handed : Handed m g u t p ps v)
include handed

/-- What another lane does with its take changes nothing of it. -/
theorem Handed.setLane {n : LaneIx} (other : m ≠ n) (x : Option Take) : Handed m g u t p ps (v.setLane n x) :=
  ⟨by rw [take_setLane_ne (h := other)]; exact handed.taken, handed.segment, handed.left, handed.served, handed.fallen,
    handed.reads⟩

theorem Handed.conclude : Handed m g u t p ps v.conclude := by
  obtain ⟨b, taken, chunk, state, reason⟩ := handed.taken
  obtain ⟨c, taken', same⟩ := conclude_take v taken
  have quiet := quiet_conclude v
  refine ⟨⟨c, taken', ?_, ?_, ?_⟩, ?_, ?_, ?_, ?_, ?_⟩
  · exact (congrArg TakeContext.chunkRead same).symm.trans chunk
  · exact (congrArg TakeContext.state same).symm.trans state
  · exact (congrArg TakeContext.waitReason same).symm.trans reason
  · rw [State.segment, quiet.staging]
    exact handed.segment
  · rw [quiet.staging]
    exact handed.left
  · rw [quiet.staging]
    exact handed.served
  · rw [quiet.asserted]
    exact handed.fallen
  · rw [conclude_slot]
    exact handed.reads

end

section
variable {s : State} {m : LaneIx} {g : SegmentIx} {t : Take} {e : Nat} {f : FileEntry} {p : Piece} {ps : List Piece}
  {card : CardIdentity}

/-- The lane handed the segment gives its first piece to its card port and works its head (R33, R38). -/
theorem Ends.handed {u : SegmentUse} (port : (s.slot m).op = .none) (here : (s.slot m).identity = some card)
    (within : p.lba + p.count ≤ card.sectors.toNat) (reading : t.reading ≠ .none) (nodup : s.staging.waiting.Nodup) :
    ∃ v, Ends 2 (s.handedTo m g u t (p :: ps), [.handPiece m, .workHead m]) v ∧ Handed m g u t p ps v
      ∧ v.link.stale = s.link.stale ∧ ∀ n, n ≠ m → v.take? n = s.take? n := by
  have taken := take_setLane_same (((s.takesTurn m).setSegment g (.filling u false)).fall (Level.waiting m).cond) m
    (some ((t.readsInto g (p :: ps)).inState .running))
  have slot : (s.handedTo m g u t (p :: ps)).slot m = s.slot m := by
    show (s.leaveWaiting m).slot m = _
    rw [State.slot, (leaveWaiting_rest s m).slots]
    rfl
  have begins := handPiece_begins (s := s.handedTo m g u t (p :: ps)) taken rfl rfl (by rw [slot]; exact port)
    (by rw [slot]; exact here) within
  let w : State := (s.handedTo m g u t (p :: ps)).setSlot m
    (((s.handedTo m g u t (p :: ps)).slot m).reads (t.cardRead p))
  have taken' : w.take? m = some ((t.readsInto g (p :: ps)).inState .running) := taken
  have work := workHead_reading taken' rfl reading
  have held : w.setHold m .none = w.setLane m (some { (t.readsInto g (p :: ps)).inState .running with headHold := .none }) :=
    modifyTake_of_take w m _ taken'
  rw [held] at work
  refine ⟨_, .one begins (.one work (.nil _)), ⟨⟨_, take_setLane_same .., rfl, rfl, rfl⟩, ?_, ?_, rfl, ?_, ?_⟩, ?_,
    fun n other => ?_⟩
  · exact segment_setSegment_same ..
  · show m ∉ (s.leaveWaiting m).staging.waiting
    rw [leaveWaiting_waiting]
    exact nodup.not_mem_erase
  · have fell := asserts_fall ((s.takesTurn m).setSegment g (.filling u false)) (.waiting m) (.waiting m)
    exact fell.trans (by simp)
  · exact congrArg Slot.op (slot_setSlot_same ..)
  · exact leaveWaiting_stale ..
  · rw [take_setLane_ne (h := other)]
    show (State.setLane _ m _).take? n = _
    rw [take_setLane_ne (h := other)]
    exact takesTurn_take ..

end

/-! ### The three ends -/

/-- What an order that completes can change: a take's copies and the verify queue, and a file may have to be tested. -/
theorem orderApplies_shape {s : State} {n : LaneIx} {t : Take} (h : s.take? n = some t) (e : Nat) (x : TargetIx) :
    ∃ q b extra, s.orderApplies n e x = ((s.setQueue q).setLane n (some b), extra) ∧ b.state = t.state
      ∧ (extra = [] ∨ ∃ e, extra = [.testFinish n e]) := by
  have same : s = (s.setQueue s.verify.queue).setLane n (some t) := by rw [← h]; exact (setLane_take ..).symm
  cases file : t.file? e with
  | none =>
    refine ⟨s.verify.queue, t, [], ?_, rfl, .inl rfl⟩
    rw [← same]
    simp [State.orderApplies, h, State.file?, file]
  | some f =>
    by_cases writing : (f.copy x).state = .writing
    · by_cases last : (f.copy x).chunksWritten + 1 = f.chunksTotal
      · cases verify : t.verify with
        | true => exact ⟨_, _, [], orderApplies_verify h file x writing last verify, rfl, .inl rfl⟩
        | false =>
          exact ⟨s.verify.queue, _, _, orderApplies_written h file x writing last verify, rfl, .inr ⟨e, rfl⟩⟩
      · exact ⟨s.verify.queue, _, [], orderApplies_more h file x writing last, rfl, .inl rfl⟩
    · refine ⟨s.verify.queue, t, [], ?_, rfl, .inl rfl⟩
      rw [← same]
      exact orderApplies_ended h file x writing

/-- The last order of a segment ends, and the segment goes to the lane next in turn. -/
theorem segment_handed {s : State} {x : TargetIx} {n m : LaneIx} {i e : Nat} {o : WriteOrder} {rest : List WriteOrder}
    {u : SegmentUse} {tk : Take} {f : FileEntry} {p : Piece} {ps : List Piece} {card : CardIdentity}
    (stale : s.link.stale = false) (op : (s.target x).op = .writePiece n i) (fifo : (s.target x).fifos[n] = o :: rest)
    (kept : o.withdrawn = false) (ends : o.pieces.length ≤ i + 1) (seg : s.segment o.segment = .sending u 1)
    (owner : u.owner = n) (suspended : s.laneState n = some .suspended) (next : s.staging.nextWaiting = some m)
    (nodup : s.staging.waiting.Nodup) (taken : s.take? m = some tk) (waits : tk.state = .waiting)
    (reading : tk.reading = .file e) (file : tk.file? e = some f) (pieces : f.pieces tk.nextChunk = p :: ps)
    (port : (s.slot m).op = .none) (here : (s.slot m).identity = some card)
    (within : p.lba + p.count ≤ card.sectors.toNat) : ∃ v, exec (.writePieceComplete x false false) s = .next v
      ∧ Handed m o.segment { owner := m, entry := e, chunk := tk.nextChunk, pass := none, data := [] } tk p ps v := by
  obtain ⟨t, owner_taken, state⟩ : ∃ t, s.take? n = some t ∧ t.state = .suspended := by
    simpa [State.laneState] using suspended
  have other : m ≠ n := by
    rintro rfl
    rw [owner_taken, Option.some.injEq] at taken
    rw [← taken, state] at waits
    exact absurd waits (by decide)
  let d : State := (s.setTarget x ((s.target x).orderGone n rest)).setSegment o.segment (.sending u 0)
  obtain ⟨q, b, extra, applies, state', only⟩ := orderApplies_shape (s := d) owner_taken o.entry x
  have use : tk.nextUse m = some { owner := m, entry := e, chunk := tk.nextChunk, pass := none, data := [] } := by
    simp [Take.nextUse, reading]
  let c : State := ((d.setQueue q).setLane n (some b)).setSegment o.segment .free
  have taken_c : c.take? m = some tk := (take_setLane_ne _ _ _ _ other).trans taken
  have ended : ((d.setQueue q).setLane n (some b)).endedUse o.segment = some n := by
    have here : ((d.setQueue q).setLane n (some b)).segment o.segment = .sending u 0 := segment_setSegment_same ..
    simp [State.endedUse, here, owner]
  have hands := handOn_hands (s := c) (g := o.segment) next taken_c waits use file
  rw [pieces] at hands
  obtain ⟨v, run, handed, fresh, others⟩ := Ends.handed (s := c) (g := o.segment) (t := tk)
    (u := { owner := m, entry := e, chunk := tk.nextChunk, pass := none, data := [] }) (ps := ps) port here within
    (by rw [reading]; simp) nodup
  have taken_v : v.take? n = some b := (others n (Ne.symm other)).trans (take_setLane_same ..)
  obtain ⟨k, b', few, -, rest_run⟩ := Ends.suspended taken_v (state'.trans state) extra only
  have run_all : Ends (2 + k + 1) ((d.setQueue q).setLane n (some b), .freeSegment o.segment :: extra)
      (v.setLane n (some b')) := by
    refine .act (v := c.handedTo m o.segment { owner := m, entry := e, chunk := tk.nextChunk, pass := none, data := [] } tk
      (p :: ps)) (new := [.handPiece m, .workHead m] ++ [.tryRead n, .laneTests n]) ?_ ?_
    · simp only [doTask, State.freeSegment, ended]
      exact congrArg (fun w => Work.addTasks w [.tryRead n, .laneTests n]) hands
    · rw [List.append_assoc]
      exact run.append rest_run
  have work : s.pieceWritten x n i o false = ((d.setQueue q).setLane n (some b), .freeSegment o.segment :: extra) := by
    have last : ¬ i + 1 < o.pieces.length := by omega
    simp only [State.pieceWritten, kept, Bool.false_eq_true, if_false, last, State.orderCompletes,
      orderLeaves_eq fifo seg]
    show Work.andThen (d, [.freeSegment o.segment]) (fun s => s.orderApplies n o.entry x) = _
    rw [Work.andThen]
    dsimp only
    rw [applies]
    rfl
  refine ⟨_, (exec_writePiece op fifo false).trans (congrArg Host.Outcome.next ?_), (handed.setLane other (some b')).conclude⟩
  rw [work]
  exact finish_tasks (run_all.settled (by omega)) (fresh.trans stale)

/-- A segment that was the only one of a lane is gone from its account. -/
theorem heldSegments_last {s : State} {g : SegmentIx} {n : LaneIx} (owner : (s.segment g).owner? = some n)
    (one : heldSegments s n = 1) : heldSegments (s.setSegment g .free) n = 0 := by
  have count := heldSegments_setSegment s g .free n
  rw [if_pos owner, one] at count
  simpa [Segment.owner?, Segment.use?] using count

/-- The last order of a STOPPING or DRAINING lane's work leaves the part, and the lane closes. -/
theorem lane_closes {s : State} {x : TargetIx} {n : LaneIx} {i : Nat} {o : WriteOrder} {u : SegmentUse} {tk : Take}
    (error : Bool) (stale : s.link.stale = false) (op : (s.target x).op = .writePiece n i)
    (fifo : (s.target x).fifos[n] = [o]) (withdrawn : o.withdrawn = true) (seg : s.segment o.segment = .sending u 1)
    (owner : u.owner = n) (one : heldSegments s n = 1) (dry : s.staging.waiting = []) (taken : s.take? n = some tk)
    (state : tk.state = .stopping ∨ tk.state = .draining) (idle : tk.reading = .none) (read : tk.chunkRead = none)
    (recopy : tk.recopyList = []) (files : ∀ e f, tk.file? e = some f → f.progress = .finished)
    (others : ∀ y, y ≠ x → (s.target y).fifos[n] = []) (queue : ∀ o ∈ s.verify.queue, o.lane ≠ n)
    (active : ∀ y v, s.active y = some v → v.lane ≠ n) : ∃ d : State, exec (.writePieceComplete x false error) s
      = .next (State.conclude (d.closeTake n tk.closingOutcome)) ∧ d.take? n = some tk ∧ (d.target x).fifos[n] = []
      ∧ d.segment o.segment = .free := by
  let d : State := (s.setTarget x ((s.target x).orderGone n [])).setSegment o.segment (.sending u 0)
  let c : State := d.setSegment o.segment .free
  have here : d.segment o.segment = .sending u 0 := segment_setSegment_same ..
  have ended : d.endedUse o.segment = some n := by simp [State.endedUse, here, owner]
  have next : d.staging.nextWaiting = none := by
    cases h : d.staging.nextWaiting with
    | none => rfl
    | some m => exact absurd (nextWaiting_some h) (by rw [show d.staging.waiting = [] from dry]; simp)
  have fifos (y : TargetIx) : (c.target y).fifos[n] = [] := by
    by_cases y_ : y = x
    · rw [y_]
      show ((s.setTarget x _).target x).fifos[n] = []
      rw [target_setTarget_same]
      simp [Target.orderGone]
    · show ((s.setTarget x _).target y).fifos[n] = []
      rw [target_setTarget_ne _ _ _ _ y_]
      exact others y y_
  have taken_c : c.take? n = some tk := taken
  have held : heldSegments c n = 0 := by
    refine heldSegments_last (by rw [here]; exact congrArg some owner) (Eq.trans ?_ one)
    refine heldSegments_same (s := s.setTarget x ((s.target x).orderGone n [])) ?_ n
    rw [show (s.setTarget x ((s.target x).orderGone n [])).segment o.segment = _ from seg]
    rfl
  have clear : c.laneClear n = true := (laneClear_iff c n).2
    ⟨fun t h => by rw [taken_c, Option.some.injEq] at h; exact h ▸ read, held, fifos, queue, active⟩
  have done : tk.filesDone = true := (filesDone_iff tk).2 fun e f file => .inl (files e f file)
  have tests : c.laneTests n = (c.closeTake n tk.closingOutcome, []) := by
    have closes : c.testDone n tk = (c.closeTake n tk.closingOutcome, []) := by
      rw [State.testDone, if_pos ⟨idle, recopy, done⟩]
      exact closeIfClear_of_clear _ clear
    rcases state with st | st <;> simp [State.laneTests, taken_c, st, closes]
  have closed : (c.closeTake n tk.closingOutcome).laneState n = some .closed := by
    rw [State.laneState, take_closeTake, if_pos rfl, taken_c]
    rfl
  have again : (c.closeTake n tk.closingOutcome).laneTests n = (c.closeTake n tk.closingOutcome, []) :=
    laneTests_quiet (by simp [closed]) (by simp [closed]) (by simp [closed]) (by simp [closed])
  have work : s.pieceWritten x n i o error = (d, [.freeSegment o.segment, .laneTests n]) := by
    rw [State.pieceWritten, if_pos withdrawn, orderLeaves_eq fifo seg]
    rfl
  have run : Ends 4 (d, [.freeSegment o.segment, .laneTests n]) (c.closeTake n tk.closingOutcome) :=
    .act (freeSegment_of_ended ended next) (.one (tryRead_of_idle taken_c idle) (.one tests (.one again (.nil _))))
  refine ⟨c, (exec_writePiece op fifo error).trans (congrArg Host.Outcome.next ?_), taken_c, fifos x,
    segment_setSegment_same ..⟩
  rw [work]
  exact finish_tasks (run.settled (by omega)) ((stale_closeTake ..).trans stale)

theorem repeatPiece_eq {s : State} {x : TargetIx} {n : LaneIx} {o : WriteOrder} {rest : List WriteOrder}
    (fifo : (s.target x).fifos[n] = o :: rest) : s.repeatPiece x n o = s.setTarget x { s.target x with
      writeRepeats := min ((s.target x).writeRepeats + 1) (2 ^ 32 - 1)
      fifos := (s.target x).fifos.set n.val ({ o with errors := 1 } :: rest) n.isLt } := by
  have left : ((s.target x).fifos[n]).drop 1 = rest := by rw [fifo]; rfl
  rw [← left]
  rfl

theorem closeTake_staging (s : State) (n : LaneIx) (o : TakeOutcome) : (s.closeTake n o).staging = s.staging := by
  simp [State.closeTake]

/-- Settles O48: the order's end, the hand-over of the segment, and the close of the lane. -/
theorem writePiecesEnd : Obligations.WritePiecesEnd := by
  refine ⟨?_, ?_, ?_⟩
  · intro x n i o rest u k s still stale op fifo seg
    have leaves := orderLeaves_eq fifo seg
    have busy : (s.target x).op ≠ .none := by rw [op]; simp
    have written (error : Bool) {v : State} (work : s.pieceWritten x n i o error = (v, [])) (fresh : v.link.stale = false) :
        exec (.writePieceComplete x false error) s = .next v.conclude := by
      rw [exec_writePiece op fifo error, work]
      exact congrArg Host.Outcome.next (finish_of_fresh fresh)
    have goes_on (error : Bool) {y : Target} (work : s.pieceWritten x n i o error = (s.setTarget x y, []))
        (state : y.state = (s.target x).state) (busy : y.op ≠ .none) :
        exec (.writePieceComplete x false error) s = .next (s.setTarget x y).choosePath := by
      rw [exec_writePiece op fifo error, work]
      exact congrArg Host.Outcome.next (finish_of_rest stale (atRest_setTarget still x y state (.inl busy)))
    refine ⟨fun error => rfl, fun kept first => ?_, fun kept more => ?_, fun withdrawn aborting interrupted stopping draining
      error => ?_, fun kept last tk f taken file => ?_⟩
    · refine goes_on true (y := { s.target x with writeRepeats := min ((s.target x).writeRepeats + 1) (2 ^ 32 - 1)
                                                  fifos := (s.target x).fifos.set n.val ({ o with errors := 1 } :: rest) n.isLt })
        ?_ rfl busy
      rw [State.pieceWritten, if_neg (by simp [kept]), if_pos rfl, if_pos first, repeatPiece_eq fifo]
    · refine goes_on false ?_ rfl (by simp)
      simp only [State.pieceWritten, kept, Bool.false_eq_true, if_false, more, if_true]
      rfl
    · have tests := laneTests_quiet (s := (s.setTarget x ((s.target x).orderGone n rest)).setSegment o.segment
        (.sending u (k + 1))) aborting interrupted stopping draining
      rw [exec_writePiece op fifo error, State.pieceWritten, if_pos withdrawn, leaves]
      exact congrArg Host.Outcome.next (finish_tasks ((Ends.one (t := .laneTests n) tests (.nil _)).settled (by omega)) stale)
    · let done : State := (s.setTarget x ((s.target x).orderGone n rest)).setSegment o.segment (.sending u (k + 1))
      have work {v : State} (applies : done.orderApplies n o.entry x = (v, [])) :
          s.pieceWritten x n i o false = (v, []) := by
        have ended : ¬ i + 1 < o.pieces.length := by omega
        simp only [State.pieceWritten, kept, Bool.false_eq_true, if_false, ended, State.orderCompletes, leaves]
        show Work.andThen (done, []) (fun s => s.orderApplies n o.entry x) = _
        rw [Work.andThen]
        dsimp only
        rw [applies]
        rfl
      have taken' : done.take? n = some tk := taken
      exact ⟨fun ended => written false (work (orderApplies_ended taken' file x ended)) stale,
        fun writing more => written false (work (orderApplies_more taken' file x writing more)) stale,
        fun writing full verify => written false (work (orderApplies_verify taken' file x writing full verify)) stale⟩
  · intro x n m i e o rest u tk f p ps card s stale op fifo kept last seg owner suspended mem nodup first taken waits
      reason reading file pieces port here within
    obtain ⟨v, exec_, handed⟩ := segment_handed stale op fifo kept last seg owner suspended (nextWaiting_of_first mem first)
      nodup taken waits reading file pieces port here within
    obtain ⟨b, taken_v, chunk, state, reason⟩ := handed.taken
    exact ⟨v, b, exec_, taken_v, handed.segment, chunk, state, reason, handed.left, handed.served, handed.fallen,
      handed.reads⟩
  · intro x n i o u tk error s stale op fifo withdrawn seg owner one dry taken state idle read recopy files others queue active
    obtain ⟨d, exec_, taken_d, left, free⟩ := lane_closes error stale op fifo withdrawn seg owner one dry taken state idle
      read recopy files others queue active
    have closed : (d.closeTake n tk.closingOutcome).take? n = some ((tk.judged tk.closingOutcome).inState .closed) := by
      rw [take_closeTake, if_pos rfl, taken_d]
      rfl
    obtain ⟨b, taken_b, same⟩ := conclude_take _ closed
    refine ⟨_, b, exec_, taken_b, (congrArg TakeContext.state same).symm, (congrArg TakeContext.outcome same).symm, ?_, ?_,
      ?_⟩
    · rw [conclude_fifos, State.target, (samePorts_closeTake d n _).targets]
      exact left
    · rw [State.segment, (quiet_conclude _).staging, closeTake_staging]
      exact free
    · rw [conclude_latched]
      exact latched_closeTake ..

end Sys2Proof.Machine
end

