-- ==== Sys2Proof/Proofs/Service.lean ====
section
/-! SUPPORT. No operation of a lane touches the request in service but for its own reply. -/

namespace Sys2Proof.Machine

@[simp] theorem serving_gain (s : State) (c : CondSet) : (s.gain c).link.inService = s.link.inService :=
  (attentionOnly_gain s c).inService

@[simp] theorem serving_latch (s : State) (c : Nat) : (s.latch c).link.inService = s.link.inService :=
  (attentionOnly_latch s c).inService

@[simp] theorem serving_rise (s : State) (c : Nat) : (s.rise c).link.inService = s.link.inService :=
  (attentionOnly_rise s c).inService

@[simp] theorem serving_fall (s : State) (c : Nat) : (s.fall c).link.inService = s.link.inService := rfl

@[simp] theorem serving_modifyFile (s : State) (n : LaneIx) (e : Nat) (f : FileEntry → FileEntry) :
    (s.modifyFile n e f).link.inService = s.link.inService := rfl

@[simp] theorem serving_modifyCopy (s : State) (n : LaneIx) (e : Nat) (x : TargetIx) (f : CopyRecord → CopyRecord) :
    (s.modifyCopy n e x f).link.inService = s.link.inService := rfl

@[simp] theorem serving_setSegment (s : State) (g : SegmentIx) (x : Segment) :
    (s.setSegment g x).link.inService = s.link.inService := rfl

@[simp] theorem serving_modifyPool (s : State) (x : TargetIx) (f : Pool → Pool) :
    (s.modifyPool x f).link.inService = s.link.inService := rfl

@[simp] theorem serving_modifySlot (s : State) (n : LaneIx) (f : Slot → Slot) :
    (s.modifySlot n f).link.inService = s.link.inService := rfl

@[simp] theorem serving_modifyTarget (s : State) (x : TargetIx) (f : Target → Target) :
    (s.modifyTarget x f).link.inService = s.link.inService := rfl

@[simp] theorem serving_enter (s : State) (n : LaneIx) (st : TakeState) :
    (s.enter n st).link.inService = s.link.inService := (enter_rest s n st).inService

@[simp] theorem serving_enterWaiting (s : State) (n : LaneIx) (r : WaitReason) :
    (s.enterWaiting n r).link.inService = s.link.inService := by simp [State.enterWaiting]

@[simp] theorem serving_setHold (s : State) (n : LaneIx) (h : HeadHold) :
    (s.setHold n h).link.inService = s.link.inService := rfl

@[simp] theorem serving_joinWaiting (s : State) (n : LaneIx) :
    (s.joinWaiting n).link.inService = s.link.inService := by
  unfold State.joinWaiting
  dsimp only
  (repeat' split) <;> simp

@[simp] theorem serving_leaveWaiting (s : State) (n : LaneIx) :
    (s.leaveWaiting n).link.inService = s.link.inService := by
  unfold State.leaveWaiting
  dsimp only
  (repeat' split) <;> simp

@[simp] theorem serving_joinShort (s : State) (x : TargetIx) (n : LaneIx) :
    (s.joinShort x n).link.inService = s.link.inService := by
  unfold State.joinShort
  dsimp only
  (repeat' split) <;> simp

@[simp] theorem serving_leaveShort (s : State) (x : TargetIx) (n : LaneIx) :
    (s.leaveShort x n).link.inService = s.link.inService := by
  unfold State.leaveShort
  dsimp only
  (repeat' split) <;> simp

theorem serving_foldl {α : Type} {f : State → α → State} (h : ∀ s x, (f s x).link.inService = s.link.inService) :
    ∀ (xs : List α) (s : State), (xs.foldl f s).link.inService = s.link.inService
  | [], _ => rfl
  | x :: xs, s => (serving_foldl h xs _).trans (h s x)

theorem serving_forEach {α : Type} {f : α → State → Work} (h : ∀ x s, (f x s).1.link.inService = s.link.inService)
    (xs : List α) (s : State) : (forEach xs f s).1.link.inService = s.link.inService := by
  rw [forEach_state]
  exact serving_foldl (fun s x => h x s) xs s

@[simp] theorem serving_leaveAllShort (s : State) (n : LaneIx) :
    (s.leaveAllShort n).link.inService = s.link.inService := serving_foldl (fun s x => serving_leaveShort s x n) _ s

@[simp] theorem serving_giveBack (s : State) (n : LaneIx) (e : Nat) (x : TargetIx) :
    (s.giveBack n e x).link.inService = s.link.inService := by
  unfold State.giveBack
  dsimp only
  (repeat' split) <;> simp

@[simp] theorem serving_unallocate (s : State) (n : LaneIx) (e : Nat) :
    (s.unallocate n e).link.inService = s.link.inService := by
  unfold State.unallocate
  dsimp only
  rw [serving_modifyFile, serving_foldl (fun s x => serving_modifyCopy s n e x _),
    serving_foldl fun s x => serving_giveBack s n e x]

@[simp] theorem serving_dropAllocating (s : State) (n : LaneIx) :
    (s.dropAllocating n).link.inService = s.link.inService := by
  unfold State.dropAllocating
  dsimp only
  (repeat' split) <;> simp

@[simp] theorem serving_askPool (s : State) (n : LaneIx) (e : Nat) (x : TargetIx) :
    (s.askPool n e x).link.inService = s.link.inService := by
  unfold State.askPool
  (repeat' split) <;> simp

@[simp] theorem serving_beginPiece (s : State) (n : LaneIx) (r : CardRead) :
    (s.beginPiece n r).1.link.inService = s.link.inService := by
  unfold State.beginPiece
  (repeat' split) <;> simp

@[simp] theorem serving_offerPiece (s : State) (n : LaneIx) (r : CardRead) :
    (s.offerPiece n r).1.link.inService = s.link.inService := by
  unfold State.offerPiece
  (repeat' split) <;> simp

@[simp] theorem serving_handPiece (s : State) (n : LaneIx) : (s.handPiece n).1.link.inService = s.link.inService := by
  unfold State.handPiece
  (repeat' split) <;> simp

@[simp] theorem serving_beginRead (s : State) (n : LaneIx) (g : SegmentIx) :
    (s.beginRead n g).1.link.inService = s.link.inService := by
  unfold State.beginRead
  (repeat' split) <;> simp

@[simp] theorem serving_tryRead (s : State) (n : LaneIx) : (s.tryRead n).1.link.inService = s.link.inService := by
  unfold State.tryRead
  dsimp only
  (repeat' split) <;> simp

@[simp] theorem serving_handOn (s : State) (g : SegmentIx) : (s.handOn g).1.link.inService = s.link.inService := by
  unfold State.handOn
  dsimp only
  (repeat' split) <;> simp

@[simp] theorem serving_countDown (s : State) (g : SegmentIx) :
    (s.countDown g).1.link.inService = s.link.inService := by
  unfold State.countDown
  (repeat' split) <;> simp

@[simp] theorem serving_freeSegment (s : State) (g : SegmentIx) :
    (s.freeSegment g).1.link.inService = s.link.inService := by
  unfold State.freeSegment
  split <;> simp [addTasks_fst]

@[simp] theorem serving_withdrawAt (s : State) (n : LaneIx) (x : TargetIx) (p : WriteOrder → Bool) :
    (s.withdrawAt n x p).1.link.inService = s.link.inService := by
  unfold State.withdrawAt
  exact serving_forEach (fun (o : WriteOrder) s => serving_countDown s o.segment) _ _

@[simp] theorem serving_withdraw (s : State) (n : LaneIx) (p : WriteOrder → Bool) :
    (s.withdraw n p).1.link.inService = s.link.inService := by
  unfold State.withdraw
  exact serving_forEach (fun x s => serving_withdrawAt s n x p) _ s

@[simp] theorem serving_closeTake (s : State) (n : LaneIx) (o : TakeOutcome) :
    (s.closeTake n o).link.inService = s.link.inService := by simp [State.closeTake]

@[simp] theorem serving_finishFile (s : State) (n : LaneIx) (e : Nat) :
    (s.finishFile n e).link.inService = s.link.inService := rfl

@[simp] theorem serving_finishIf (s : State) (n : LaneIx) (e : Nat) :
    (s.finishIf n e).link.inService = s.link.inService := by
  unfold State.finishIf
  (repeat' split) <;> simp

@[simp] theorem serving_testFinish (s : State) (n : LaneIx) (e : Nat) :
    (s.testFinish n e).1.link.inService = s.link.inService := by
  unfold State.testFinish
  (repeat' split) <;> simp

@[simp] theorem serving_endReading (s : State) (n : LaneIx) : (s.endReading n).link.inService = s.link.inService :=
  rfl

@[simp] theorem serving_interrupt (s : State) (n : LaneIx) : (s.interrupt n).link.inService = s.link.inService :=
  by simp [State.interrupt]

@[simp] theorem serving_enterRunning (s : State) (n : LaneIx) :
    (s.enterRunning n).1.link.inService = s.link.inService := by simp [State.enterRunning]

@[simp] theorem serving_endWait (s : State) (n : LaneIx) : (s.endWait n).1.link.inService = s.link.inService := by
  unfold State.endWait
  (repeat' split) <;> simp

@[simp] theorem serving_beginFile (s : State) (n : LaneIx) (e : Nat) (on : List TargetIx) :
    (s.beginFile n e on).1.link.inService = s.link.inService := by
  have fold (g : CopyRecord → CopyRecord) (s : State) :
      (on.foldl (fun s x => s.modifyCopy n e x g) s).link.inService = s.link.inService :=
    serving_foldl (fun s x => serving_modifyCopy s n e x g) on s
  unfold State.beginFile
  (repeat' split) <;> simp [fold]

@[simp] theorem serving_allocateFile (s : State) (n : LaneIx) (e : Nat) (on : List TargetIx) :
    (s.allocateFile n e on).1.link.inService = s.link.inService := by
  have fold (xs : List TargetIx) (s : State) :
      (xs.foldl (fun s x => s.askPool n e x) s).link.inService = s.link.inService :=
    serving_foldl (fun s x => serving_askPool s n e x) xs s
  unfold State.allocateFile
  dsimp only
  split <;> simp [fold]

@[simp] theorem serving_startFile (s : State) (n : LaneIx) (e : Nat) :
    (s.startFile n e).1.link.inService = s.link.inService := by
  have skipped (xs : List TargetIx) (s : State) := serving_foldl (fun s x => serving_modifyCopy s n e x .skip) xs s
  have returned (xs : List TargetIx) (s : State) := serving_foldl
    (f := fun s x => ((s.giveBack n e x).modifyCopy n e x .skip).leaveShort x n) (fun s x => by simp) xs s
  unfold State.startFile
  dsimp only
  (repeat' split) <;> simp [skipped, returned]

@[simp] theorem serving_beginRecopy (s : State) (n : LaneIx) (e : Nat) (x : TargetIx) :
    (s.beginRecopy n e x).1.link.inService = s.link.inService := rfl

@[simp] theorem serving_recopyLeft (s : State) (n : LaneIx) :
    (s.recopyLeft n).1.link.inService = s.link.inService := by
  unfold State.recopyLeft
  dsimp only
  (repeat' split) <;> simp

@[simp] theorem serving_workHead (s : State) (n : LaneIx) : (s.workHead n).1.link.inService = s.link.inService := by
  unfold State.workHead
  (repeat' split) <;> simp

@[simp] theorem serving_closeIfClear (s : State) (n : LaneIx) (o : TakeOutcome) :
    (s.closeIfClear n o).1.link.inService = s.link.inService := by
  unfold State.closeIfClear
  (repeat' split) <;> simp

@[simp] theorem serving_testDone (s : State) (n : LaneIx) (t : Take) :
    (s.testDone n t).1.link.inService = s.link.inService := by
  unfold State.testDone
  (repeat' split) <;> simp

@[simp] theorem serving_serveOrClose (s : State) (n : LaneIx) (t : Take) :
    (s.serveOrClose n t).1.link.inService = s.link.inService := by
  unfold State.serveOrClose
  (repeat' split) <;> simp

@[simp] theorem serving_testInterrupted (s : State) (n : LaneIx) (t : Take) :
    (s.testInterrupted n t).1.link.inService = s.link.inService := by
  unfold State.testInterrupted
  (repeat' split) <;> simp

@[simp] theorem serving_goOn (s : State) (n : LaneIx) : (s.goOn n).1.link.inService = s.link.inService := by
  unfold State.goOn
  (repeat' split) <;> simp

@[simp] theorem serving_laneTests (s : State) (n : LaneIx) : (s.laneTests n).1.link.inService = s.link.inService := by
  unfold State.laneTests
  (repeat' split) <;> simp

@[simp] theorem serving_enterStopping (s : State) (n : LaneIx) :
    (s.enterStopping n).1.link.inService = s.link.inService := by simp [State.enterStopping]

@[simp] theorem serving_countChunkRead (s : State) (n : LaneIx) :
    (s.countChunkRead n).link.inService = s.link.inService := rfl

@[simp] theorem serving_storePiece (s : State) (g : SegmentIx) (b : List Byte) :
    (s.storePiece g b).link.inService = s.link.inService := by
  unfold State.storePiece
  (repeat' split) <;> simp

@[simp] theorem serving_foldPass (s : State) (n : LaneIx) (u : SegmentUse) (b : List Byte) :
    (s.foldPass n u b).link.inService = s.link.inService := by
  unfold State.foldPass
  (repeat' split) <;> simp

@[simp] theorem serving_countCorrected (s : State) (n : LaneIx) (u : SegmentUse) :
    (s.countCorrected n u).link.inService = s.link.inService := by
  unfold State.countCorrected
  dsimp only
  (repeat' split) <;> simp

@[simp] theorem serving_damage (s : State) (n : LaneIx) (e : Nat) :
    (s.damage n e).link.inService = s.link.inService := by
  unfold State.damage
  (repeat' split) <;> simp

@[simp] theorem serving_fanOut (s : State) (n : LaneIx) (t : Take) (f : FileEntry) (u : SegmentUse) (g : SegmentIx) :
    (s.fanOut n t f u g).1.link.inService = s.link.inService := by
  unfold State.fanOut
  dsimp only
  rw [serving_setSegment]
  exact serving_foldl (f := fun s x => s.placeOrder n f u g x) (fun _ _ => rfl) _ s

@[simp] theorem serving_compareRecopy (s : State) (n : LaneIx) (e : Nat) (x : TargetIx) :
    (s.compareRecopy n e x).1.link.inService = s.link.inService := by
  unfold State.compareRecopy
  dsimp only
  (repeat' split) <;> simp

@[simp] theorem serving_chunkGood (s : State) (n : LaneIx) (g : SegmentIx) (u : SegmentUse) :
    (s.chunkGood n g u).1.link.inService = s.link.inService := by
  unfold State.chunkGood
  cases u.pass <;> dsimp only <;> (repeat' split) <;> simp [Work.andThen, addTasks_fst]

@[simp] theorem serving_pieceDone (s : State) (n : LaneIx) (g : SegmentIx) (rest : List Piece) :
    (s.pieceDone n g rest).1.link.inService = s.link.inService := by
  unfold State.pieceDone
  (repeat' split) <;> simp

@[simp] theorem serving_haltTake (s : State) (n : LaneIx) : (s.haltTake n).1.link.inService = s.link.inService := by
  unfold State.haltTake
  dsimp only
  (repeat' split) <;> simp

@[simp] theorem serving_fileUnreadable (s : State) (n : LaneIx) (e : Nat) (g : SegmentIx) :
    (s.fileUnreadable n e g).1.link.inService = s.link.inService := by
  unfold State.fileUnreadable
  dsimp only
  (repeat' split) <;> simp

@[simp] theorem serving_recopyFailed (s : State) (n : LaneIx) (e : Nat) (x : TargetIx) (g : SegmentIx) :
    (s.recopyFailed n e x g).1.link.inService = s.link.inService := by
  unfold State.recopyFailed
  dsimp only
  (repeat' split) <;> simp

@[simp] theorem serving_countDelivered (s : State) (n : LaneIx) (u : SegmentUse) (len : Nat) (p : Piece) (cls : ResultClass) :
    (s.countDelivered n u len p cls).link.inService = s.link.inService := by
  unfold State.countDelivered
  dsimp only
  (repeat' split) <;> simp

@[simp] theorem serving_deliverPiece (s : State) (n : LaneIx) (g : SegmentIx) (u : SegmentUse) (len : Nat) (p : Piece) (rest : List Piece)
    (cls : ResultClass) (data : List Byte) :
    (s.deliverPiece n g u len p rest cls data).1.link.inService = s.link.inService := by
  simp [State.deliverPiece]

@[simp] theorem serving_discardPiece (s : State) (n : LaneIx) (g : SegmentIx) (u : SegmentUse) (p : Piece) (cls : ResultClass) :
    (s.discardPiece n g u p cls).1.link.inService = s.link.inService := by
  unfold State.discardPiece
  dsimp only
  (repeat' split) <;> simp

@[simp] theorem serving_fillPiece (s : State) (n : LaneIx) (g : SegmentIx) (u : SegmentUse) (len : Nat) (p : Piece) (rest : List Piece) :
    (s.fillPiece n g u len p rest).1.link.inService = s.link.inService := by
  simp [State.fillPiece]

@[simp] theorem serving_pieceEnded (s : State) (n : LaneIx) (cls : ResultClass) (data : List Byte) :
    (s.pieceEnded n cls data).1.link.inService = s.link.inService := by
  unfold State.pieceEnded
  (repeat' split) <;> simp

end Sys2Proof.Machine
end

