-- ==== Sys2Proof/Proofs/SilentTasks.lean ====
section
/-! SUPPORT. No follow-on action gives rise to a reply: a request's own reply stands in the list from the start. -/

namespace Sys2Proof.Machine

/-- The follow-on action is not a reply. -/
@[simp] def Task.silent : Task → Bool
  | .takeReply _ _ _ _ => false
  | .workHead _ => true
  | .goOn _ => true
  | .tryRead _ => true
  | .testFinish _ _ => true
  | .freeSegment _ => true
  | .handPiece _ => true
  | .pieceEnded _ _ _ => true
  | .endWait _ => true
  | .recopyLeft _ => true
  | .laneTests _ => true

theorem silent_forEach {α : Type} {f : α → State → Work} (h : ∀ x s, (f x s).2.all Task.silent = true) (xs : List α)
    (s : State) : (forEach xs f s).2.all Task.silent = true := by
  have fold : ∀ (xs : List α) (w : Work), w.2.all Task.silent = true →
      (xs.foldl (fun w x => w.andThen (f x)) w).2.all Task.silent = true := by
    intro xs
    induction xs with
    | nil => exact fun w quiet => quiet
    | cons x xs ih => exact fun w quiet => ih (w.andThen (f x)) (by simp only [Work.andThen, List.all_append, quiet, h, Bool.and_self])
  exact fold xs (s, []) rfl

@[simp] theorem silent_beginPiece (s : State) (n : LaneIx) (r : CardRead) :
    (s.beginPiece n r).2.all Task.silent = true := by
  unfold State.beginPiece
  (repeat' split) <;> simp

@[simp] theorem silent_offerPiece (s : State) (n : LaneIx) (r : CardRead) :
    (s.offerPiece n r).2.all Task.silent = true := by
  unfold State.offerPiece
  (repeat' split) <;> simp

@[simp] theorem silent_handPiece (s : State) (n : LaneIx) : (s.handPiece n).2.all Task.silent = true := by
  unfold State.handPiece
  (repeat' split) <;> simp

@[simp] theorem silent_beginRead (s : State) (n : LaneIx) (g : SegmentIx) :
    (s.beginRead n g).2.all Task.silent = true := by
  unfold State.beginRead
  (repeat' split) <;> simp

@[simp] theorem silent_tryRead (s : State) (n : LaneIx) : (s.tryRead n).2.all Task.silent = true := by
  unfold State.tryRead
  dsimp only
  (repeat' split) <;> simp

@[simp] theorem silent_handOn (s : State) (g : SegmentIx) : (s.handOn g).2.all Task.silent = true := by
  unfold State.handOn
  dsimp only
  (repeat' split) <;> simp

@[simp] theorem silent_freeSegment (s : State) (g : SegmentIx) : (s.freeSegment g).2.all Task.silent = true := by
  unfold State.freeSegment
  (repeat' split) <;> simp [Work.addTasks]

@[simp] theorem silent_countDown (s : State) (g : SegmentIx) : (s.countDown g).2.all Task.silent = true := by
  unfold State.countDown
  (repeat' split) <;> simp

@[simp] theorem silent_withdrawAt (s : State) (n : LaneIx) (x : TargetIx) (p : WriteOrder → Bool) :
    (s.withdrawAt n x p).2.all Task.silent = true := by
  unfold State.withdrawAt
  exact silent_forEach (fun (o : WriteOrder) s => silent_countDown s o.segment) _ _

@[simp] theorem silent_withdraw (s : State) (n : LaneIx) (p : WriteOrder → Bool) :
    (s.withdraw n p).2.all Task.silent = true := by
  unfold State.withdraw
  exact silent_forEach (fun x s => silent_withdrawAt s n x p) _ s

@[simp] theorem silent_testFinish (s : State) (n : LaneIx) (e : Nat) :
    (s.testFinish n e).2.all Task.silent = true := by
  unfold State.testFinish
  (repeat' split) <;> simp

@[simp] theorem silent_enterRunning (s : State) (n : LaneIx) : (s.enterRunning n).2.all Task.silent = true := rfl

@[simp] theorem silent_endWait (s : State) (n : LaneIx) : (s.endWait n).2.all Task.silent = true := by
  unfold State.endWait
  (repeat' split) <;> simp

@[simp] theorem silent_beginFile (s : State) (n : LaneIx) (e : Nat) (on : List TargetIx) :
    (s.beginFile n e on).2.all Task.silent = true := by
  unfold State.beginFile
  (repeat' split) <;> simp

@[simp] theorem silent_allocateFile (s : State) (n : LaneIx) (e : Nat) (on : List TargetIx) :
    (s.allocateFile n e on).2.all Task.silent = true := by
  unfold State.allocateFile
  dsimp only
  (repeat' split) <;> simp

@[simp] theorem silent_startFile (s : State) (n : LaneIx) (e : Nat) : (s.startFile n e).2.all Task.silent = true := by
  unfold State.startFile
  dsimp only
  (repeat' split) <;> simp

@[simp] theorem silent_beginRecopy (s : State) (n : LaneIx) (e : Nat) (x : TargetIx) :
    (s.beginRecopy n e x).2.all Task.silent = true := rfl

@[simp] theorem silent_recopyLeft (s : State) (n : LaneIx) : (s.recopyLeft n).2.all Task.silent = true := by
  unfold State.recopyLeft
  dsimp only
  (repeat' split) <;> simp

@[simp] theorem silent_workHead (s : State) (n : LaneIx) : (s.workHead n).2.all Task.silent = true := by
  unfold State.workHead
  (repeat' split) <;> simp

@[simp] theorem silent_closeIfClear (s : State) (n : LaneIx) (o : TakeOutcome) :
    (s.closeIfClear n o).2.all Task.silent = true := by
  unfold State.closeIfClear
  (repeat' split) <;> simp

@[simp] theorem silent_testDone (s : State) (n : LaneIx) (t : Take) : (s.testDone n t).2.all Task.silent = true := by
  unfold State.testDone
  (repeat' split) <;> simp

@[simp] theorem silent_serveOrClose (s : State) (n : LaneIx) (t : Take) :
    (s.serveOrClose n t).2.all Task.silent = true := by
  unfold State.serveOrClose
  (repeat' split) <;> simp

@[simp] theorem silent_testInterrupted (s : State) (n : LaneIx) (t : Take) :
    (s.testInterrupted n t).2.all Task.silent = true := by
  unfold State.testInterrupted
  (repeat' split) <;> simp

@[simp] theorem silent_goOn (s : State) (n : LaneIx) : (s.goOn n).2.all Task.silent = true := by
  unfold State.goOn
  (repeat' split) <;> simp

@[simp] theorem silent_laneTests (s : State) (n : LaneIx) : (s.laneTests n).2.all Task.silent = true := by
  unfold State.laneTests
  (repeat' split) <;> simp

@[simp] theorem silent_enterStopping (s : State) (n : LaneIx) : (s.enterStopping n).2.all Task.silent = true := rfl

@[simp] theorem silent_fanOut (s : State) (n : LaneIx) (t : Take) (f : FileEntry) (u : SegmentUse) (g : SegmentIx) :
    (s.fanOut n t f u g).2.all Task.silent = true := by
  unfold State.fanOut
  dsimp only
  split <;> simp

@[simp] theorem silent_compareRecopy (s : State) (n : LaneIx) (e : Nat) (x : TargetIx) :
    (s.compareRecopy n e x).2.all Task.silent = true := by
  unfold State.compareRecopy
  dsimp only
  (repeat' split) <;> simp

@[simp] theorem silent_chunkGood (s : State) (n : LaneIx) (g : SegmentIx) (u : SegmentUse) :
    (s.chunkGood n g u).2.all Task.silent = true := by
  unfold State.chunkGood
  cases u.pass <;> dsimp only <;> (repeat' split) <;> simp [Work.andThen, Work.addTasks]

@[simp] theorem silent_pieceDone (s : State) (n : LaneIx) (g : SegmentIx) (rest : List Piece) :
    (s.pieceDone n g rest).2.all Task.silent = true := by
  unfold State.pieceDone
  (repeat' split) <;> simp

@[simp] theorem silent_haltTake (s : State) (n : LaneIx) : (s.haltTake n).2.all Task.silent = true := by
  unfold State.haltTake
  dsimp only
  (repeat' split) <;> simp

@[simp] theorem silent_fileUnreadable (s : State) (n : LaneIx) (e : Nat) (g : SegmentIx) :
    (s.fileUnreadable n e g).2.all Task.silent = true := by
  unfold State.fileUnreadable
  dsimp only
  (repeat' split) <;> simp

@[simp] theorem silent_recopyFailed (s : State) (n : LaneIx) (e : Nat) (x : TargetIx) (g : SegmentIx) :
    (s.recopyFailed n e x g).2.all Task.silent = true := by
  unfold State.recopyFailed
  dsimp only
  (repeat' split) <;> simp

@[simp] theorem silent_deliverPiece (s : State) (n : LaneIx) (g : SegmentIx) (u : SegmentUse) (len : Nat) (p : Piece) (rest : List Piece)
    (cls : ResultClass) (data : List Byte) :
    (s.deliverPiece n g u len p rest cls data).2.all Task.silent = true := by
  simp [State.deliverPiece]

@[simp] theorem silent_discardPiece (s : State) (n : LaneIx) (g : SegmentIx) (u : SegmentUse) (p : Piece) (cls : ResultClass) :
    (s.discardPiece n g u p cls).2.all Task.silent = true := by
  unfold State.discardPiece
  dsimp only
  (repeat' split) <;> simp

@[simp] theorem silent_fillPiece (s : State) (n : LaneIx) (g : SegmentIx) (u : SegmentUse) (len : Nat) (p : Piece) (rest : List Piece) :
    (s.fillPiece n g u len p rest).2.all Task.silent = true := by
  simp [State.fillPiece]

@[simp] theorem silent_pieceEnded (s : State) (n : LaneIx) (cls : ResultClass) (data : List Byte) :
    (s.pieceEnded n cls data).2.all Task.silent = true := by
  unfold State.pieceEnded
  (repeat' split) <;> simp

end Sys2Proof.Machine
end

