-- ==== Sys2Proof/Proofs/RefusedRequests.lean ====
section
/-! A request whose reply, composed at once, is not OK was answered before anything changed. -/

namespace Sys2Proof.Machine

/-! ### Replies that are composed -/

theorem composed_answerClamped {s : State} {c : Bool} {st : Status} {body : List Byte} {f : OutFrame}
    (composed : (s.answerClamped c st body).link.composed = some f) : f.status = st := by
  cases service : s.link.inService with
  | none => simp [State.answerClamped, service, Link.composed] at composed
  | some v =>
    simp [State.answerClamped, service, Link.composed] at composed
    rw [← composed]
    rfl

/-- What a silent action does leaves the reply alone. -/
theorem silent_doTask (s : State) : ∀ t : Task, t.silent = true →
    (doTask s t).1.link.inService = s.link.inService ∧ (doTask s t).2.all Task.silent = true
  | .workHead n, _ => ⟨serving_workHead s n, silent_workHead s n⟩
  | .goOn n, _ => ⟨serving_goOn s n, silent_goOn s n⟩
  | .tryRead n, _ => ⟨serving_tryRead s n, silent_tryRead s n⟩
  | .testFinish n e, _ => ⟨serving_testFinish s n e, silent_testFinish s n e⟩
  | .freeSegment g, _ => ⟨serving_freeSegment s g, silent_freeSegment s g⟩
  | .handPiece n, _ => ⟨serving_handPiece s n, silent_handPiece s n⟩
  | .pieceEnded n cls data, _ => ⟨serving_pieceEnded s n cls data, silent_pieceEnded s n cls data⟩
  | .endWait n, _ => ⟨serving_endWait s n, silent_endWait s n⟩
  | .recopyLeft n, _ => ⟨serving_recopyLeft s n, silent_recopyLeft s n⟩
  | .laneTests n, _ => ⟨serving_laneTests s n, silent_laneTests s n⟩

theorem serving_settled {s : State} {ts : List Task} (silent : ts.all Task.silent = true) :
    (settled (s, ts)).link.inService = s.link.inService := by
  refine settle_invariant (P := fun u => u.link.inService = s.link.inService) (A := fun t => t.silent = true)
    (fun u t same quiet => ?_) _ ts s rfl (List.all_eq_true.1 silent)
  obtain ⟨kept, more⟩ := silent_doTask u t quiet
  exact ⟨kept.trans same, List.all_eq_true.1 more⟩

theorem repliesOnly_append (ts us : List Task) (s : State) : repliesOnly (ts ++ us) s = repliesOnly us (repliesOnly ts s) := by
  induction ts generalizing s with
  | nil => rfl
  | cons t ts ih => cases t <;> exact ih _

/-- The reply that stands last is the one that is composed. -/
theorem settle_replied (n : LaneIx) (c : Bool) (st : Status) (body : List Byte) : ∀ (k : Nat) (ts : List Task) (s : State),
    ∃ u : State, settle k (ts ++ [.takeReply n c st body]) s = u.answerTake n c st body
  | 0, ts, s => by
      cases ts with
      | nil => exact ⟨s, rfl⟩
      | cons t ts => exact ⟨repliesOnly (t :: ts) s, repliesOnly_append (t :: ts) _ s⟩
  | k + 1, [], s => ⟨s, settle_nil _ _⟩
  | k + 1, t :: ts, s => by
      obtain ⟨u, run⟩ := settle_replied n c st body k ((doTask s t).2 ++ ts) (doTask s t).1
      refine ⟨u, ?_⟩
      rw [← run, List.append_assoc]
      rfl

/-! ### What a request answers -/

/-- Whatever the work composes at once is OK. -/
def Work.AnswersOk (w : Work) : Prop := ∀ f, (settled w).link.composed = some f → f.status = .ok

/-- The request is answered before anything changes, or whatever is composed at once is OK. -/
def Answers (s : State) (w : Work) : Prop :=
  (∃ st body, w = (s.answerClamped false st body, [])) ∨ w.AnswersOk

@[simp] theorem answers_answer (s : State) (st : Status) (body : List Byte) : Answers s (s.answer st body, []) :=
  .inl ⟨st, body, rfl⟩

@[simp] theorem answers_refuseTake (s : State) (n : LaneIx) (st : Status) (body : List Byte) :
    Answers s (s.refuseTake n st body) := .inl ⟨st, _, rfl⟩

@[simp] theorem answers_refuseBare (s : State) (st : Status) : Answers s (s.refuseBare st) := .inl ⟨st, _, rfl⟩

/-- A reply that is OK, with no action that replies behind it. -/
theorem answersOk_answerClamped (u : State) (c : Bool) (body : List Byte) {ts : List Task}
    (silent : ts.all Task.silent = true) : Work.AnswersOk (u.answerClamped c .ok body, ts) := by
  intro f composed
  rw [Link.composed, serving_settled silent] at composed
  exact composed_answerClamped composed

@[simp] theorem answers_ok (s u : State) (c : Bool) (body : List Byte) : Answers s (u.answerClamped c .ok body, []) :=
  .inr (answersOk_answerClamped u c body rfl)

@[simp] theorem answers_done (s u : State) (body : List Byte) : Answers s (u.answer .ok body, []) := answers_ok ..

@[simp] theorem answers_addTasks (s : State) (w : Work) (n : LaneIx) (c : Bool) (body : List Byte) :
    Answers s (w.addTasks [.takeReply n c .ok body]) := by
  refine .inr fun f composed => ?_
  obtain ⟨u, run⟩ := settle_replied n c .ok body Config.settleFuel w.2 w.1
  rw [show settled (w.addTasks [.takeReply n c .ok body]) = _ from run] at composed
  exact composed_answerClamped composed

@[simp] theorem answers_takeReply (s u : State) (n : LaneIx) (c : Bool) (body : List Byte) :
    Answers s (u, [.takeReply n c .ok body]) := answers_addTasks s (u, []) n c body

theorem answers_append (s u : State) (ts : List Task) (n : LaneIx) (c : Bool) (body : List Byte) :
    Answers s (u, ts ++ [.takeReply n c .ok body]) := answers_addTasks s (u, ts) n c body

/-- A request that is answered later. -/
theorem answers_awaits (s : State) {u : State} (awaits : u.link.composed = none) : Answers s (u, []) := by
  refine .inr fun f composed => ?_
  rw [settled_nil, awaits] at composed
  exact absurd composed (by simp)

section
variable (s : State) (x : Byte)

theorem answers_openTake (label : BitVec 16) (ts k v p m r al w : Byte) :
    Answers s (serveOpenTake x label ts k v p m r al w s) := by
  unfold serveOpenTake
  (repeat' split) <;> simp

theorem answers_appendEntries (es : List EntryArg) : Answers s (serveAppendEntries x es s) := by
  unfold serveAppendEntries
  dsimp only
  (repeat' split) <;> simp

theorem answers_startTake : Answers s (serveStartTake x s) := by
  unfold serveStartTake
  dsimp only
  (repeat' split) <;> simp

theorem answers_suspendTake : Answers s (serveSuspendTake x s) := by
  unfold serveSuspendTake
  (repeat' split) <;> simp

@[simp] theorem answers_resumeInterrupted (n : LaneIx) (t : Take) : Answers s (resumeInterrupted n t s) := by
  unfold resumeInterrupted
  dsimp only
  (repeat' split) <;> simp

theorem answers_resumeTake : Answers s (serveResumeTake x s) := by
  unfold serveResumeTake
  (repeat' split) <;> simp

theorem answers_stopTake : Answers s (serveStopTake x s) := by
  unfold serveStopTake
  dsimp only
  split
  · simp
  · next n _ =>
    cases s.laneState n with
    | none => exact answers_refuseTake ..
    | some st =>
      cases st with
      | interrupted => exact answers_append s _ _ n false []
      | stopping => exact answers_takeReply ..
      | draining => exact answers_takeReply ..
      | opened => exact answers_refuseTake ..
      | aborting => exact answers_refuseTake ..
      | closed => exact answers_refuseTake ..
      | _ => exact answers_addTasks ..

theorem answers_abortTake : Answers s (serveAbortTake x s) := by
  unfold serveAbortTake
  (repeat' split) <;> simp

theorem answers_adjustTake (k rm : Byte) : Answers s (serveAdjustTake x k rm s) := by
  unfold serveAdjustTake
  dsimp only
  (repeat' split) <;> simp

theorem answers_releaseTake (flag : Byte) : Answers s (serveReleaseTake x flag s) := by
  unfold serveReleaseTake
  dsimp only
  (repeat' split) <;> simp

end

/-! ### The other requests -/

section
variable {s : State} (x : Byte)

theorem answers_clearAttention (c : BitVec 80) : Answers s (serveClearAttention c s) := by
  unfold serveClearAttention
  split <;> simp

theorem answers_setAttentionEnables (a : BitVec 80) (p : Byte) (b : BitVec 80) (q : Byte) :
    Answers s (serveSetAttentionEnables a p b q s) := by
  unfold serveSetAttentionEnables
  dsimp only
  split <;> simp

theorem answers_slotStatus : Answers s (serveSlotStatus x s) := by
  unfold serveSlotStatus
  split
  · simp
  · dsimp only
    split
    · refine .inr fun f composed => ?_
      rw [settled_nil] at composed
      exact composed_answerClamped (s := s) composed
    · simp

theorem answers_holdSlot : Answers s (serveHoldSlot x s) := by
  unfold serveHoldSlot
  (repeat' split) <;> simp

theorem answers_freeSlot : Answers s (serveFreeSlot x s) := by
  unfold serveFreeSlot
  (repeat' split) <;> simp

theorem answers_configureTarget (u : BitVec 16) (q : Byte) : Answers s (serveConfigureTarget x u q s) := by
  unfold serveConfigureTarget
  dsimp only
  (repeat' split) <;> simp

theorem answers_bringTargetOnline : Answers s (serveBringTargetOnline x s) := by
  unfold serveBringTargetOnline State.answerTarget
  (repeat' split) <;> simp

theorem answers_clearPool : Answers s (serveClearPool x s) := by
  unfold serveClearPool
  (repeat' split) <;> simp

theorem answers_readPool : Answers s (serveReadPool x s) := by
  unfold serveReadPool
  split <;> simp

theorem answers_targetStatus : Answers s (serveTargetStatus x s) := by
  unfold serveTargetStatus
  split <;> simp

theorem answers_takeStatus : Answers s (serveTakeStatus x s) := by
  unfold serveTakeStatus
  split <;> simp

theorem answers_readManifest (a : BitVec 16) (k : Byte) : Answers s (serveReadManifest x a k s) := by
  unfold serveReadManifest
  (repeat' split) <;> simp

theorem answers_readAllocation (a : BitVec 16) (y : Byte) : Answers s (serveReadAllocation x a y s) := by
  unfold serveReadAllocation
  (repeat' split) <;> simp

theorem answers_grantSpace (rs : List UnitRunArg) : Answers s (serveGrantSpace x rs s) := by
  unfold serveGrantSpace
  split
  · simp
  · dsimp only
    split
    · simp
    · refine .inr (answersOk_answerClamped _ false _ ?_)
      simp

variable (awaits : s.link.composed = none)
include awaits

theorem answers_readTarget (a : BitVec 32) (k : Byte) : Answers s (serveReadTarget x a k s) := by
  have offered (t : TargetIx) (h : HostOp) : Answers s (s.offerHost t h, []) := answers_awaits s awaits
  unfold serveReadTarget
  (repeat' split) <;> simp [offered]

theorem answers_writeTarget (a : BitVec 32) (k : Byte) (data : List Byte) : Answers s (serveWriteTarget x a k data s) := by
  have offered (t : TargetIx) (h : HostOp) : Answers s (s.offerHost t h, []) := answers_awaits s awaits
  unfold serveWriteTarget
  (repeat' split) <;> simp [offered]

theorem answers_peekCard (a : BitVec 32) (k r al : Byte) : Answers s (servePeekCard x a k r al s) := by
  have offered (n : LaneIx) (p : Peek) (inRange : (s.slot n).outOfRange p.read = false) :
      Answers s (s.offerPeek n p, []) := by
    refine answers_awaits s ?_
    unfold State.offerPeek State.beginPeek
    rw [inRange]
    split <;> exact awaits
  unfold servePeekCard
  dsimp only
  (repeat' split) <;> simp_all

omit awaits in
/-- The actions that follow when a target leaves ONLINE reply to nothing. -/
theorem silent_leaveOnline (s : State) (t : TargetIx) (st : TargetState) (why : Option FaultReason) (reason : CopyReason)
    (timeout : Bool) : (s.leaveOnline t st why reason timeout).2.all Task.silent = true := by
  have purged := silent_forEach (f := fun n => forEach (s.target t).fifos[n] fun (o : WriteOrder) s => s.countDown o.segment)
    (fun n s => silent_forEach (fun (o : WriteOrder) s => silent_countDown s o.segment) _ s) allLanes s
  have effects (u : State) (n : LaneIx) : (u.laneEffects t n).all Task.silent = true := by
    unfold State.laneEffects
    split
    · rfl
    · simp only [List.all_append, Bool.and_eq_true]
      refine ⟨⟨?_, ?_⟩, rfl⟩
      · rw [List.all_eq_true]
        intro task mem
        obtain ⟨p, -, made⟩ := List.mem_filterMap.1 mem
        split at made <;> cases made
        rfl
      · split <;> rfl
  simp only [State.leaveOnline, List.all_append, purged, Bool.and_true, List.all_map, List.all_flatMap, effects]
  simp

omit awaits in
theorem answers_takeTargetOffline : Answers s (serveTakeTargetOffline x s) := by
  unfold serveTakeTargetOffline
  split
  · simp
  · next t _ =>
    cases (s.target t).state with
    | online =>
      refine .inr (answersOk_answerClamped _ false _ ?_)
      show (List.append _ []).all Task.silent = true
      rw [List.append_eq, List.append_nil]
      exact silent_leaveOnline ..
    | faulted => exact answers_done ..
    | offline => exact answers_done ..
    | absent => exact answers_answer ..
    | attaching => exact answers_answer ..

omit awaits in
theorem answers_serve (awaits : s.link.composed = none) : ∀ r : Request, Answers s (serve r s)
  | .identify => answers_done ..
  | .resetPart => answers_done ..
  | .readAttention => answers_done ..
  | .clearAttention c => answers_clearAttention c
  | .setAttentionEnables n nf p pf => answers_setAttentionEnables n nf p pf
  | .slotStatus x => answers_slotStatus x
  | .peekCard x a c r al => answers_peekCard x awaits a c r al
  | .holdSlot x => answers_holdSlot x
  | .freeSlot x => answers_freeSlot x
  | .targetStatus x => answers_targetStatus x
  | .configureTarget x u q => answers_configureTarget x u q
  | .takeTargetOffline x => answers_takeTargetOffline x
  | .bringTargetOnline x => answers_bringTargetOnline x
  | .readTarget x a c => answers_readTarget x awaits a c
  | .writeTarget x a c d => answers_writeTarget x awaits a c d
  | .grantSpace x rs => answers_grantSpace x rs
  | .clearPool x => answers_clearPool x
  | .readPool x => answers_readPool x
  | .openTake x l ts k v p m r al w => answers_openTake s x l ts k v p m r al w
  | .appendEntries x es => answers_appendEntries s x es
  | .startTake x => answers_startTake s x
  | .suspendTake x => answers_suspendTake s x
  | .resumeTake x => answers_resumeTake s x
  | .stopTake x => answers_stopTake s x
  | .abortTake x => answers_abortTake s x
  | .adjustTake x k rm => answers_adjustTake s x k rm
  | .takeStatus x => answers_takeStatus x
  | .releaseTake x rc => answers_releaseTake s x rc
  | .readManifest x f c => answers_readManifest x f c
  | .readAllocation x i t => answers_readAllocation x i t

end

/-! ### Nothing that is served makes a request stale -/

section
variable (s : State)

@[simp] theorem stale_modifyTarget (x : TargetIx) (f : Target → Target) :
    (s.modifyTarget x f).link.stale = s.link.stale := rfl

@[simp] theorem stale_modifyPool (x : TargetIx) (f : Pool → Pool) : (s.modifyPool x f).link.stale = s.link.stale := rfl

@[simp] theorem stale_modifySlot (n : LaneIx) (f : Slot → Slot) : (s.modifySlot n f).link.stale = s.link.stale := rfl

@[simp] theorem stale_fall (c : Nat) : (s.fall c).link.stale = s.link.stale := rfl

@[simp] theorem stale_offerPeek (n : LaneIx) (p : Peek) : (s.offerPeek n p).link.stale = s.link.stale := by
  unfold State.offerPeek State.beginPeek State.answerPeek
  (repeat' split) <;> simp [answerClamped_stale]

end

theorem stale_answer (s : State) (st : Status) (body : List Byte) : (s.answer st body).link.stale = s.link.stale :=
  answerClamped_stale s false st body

theorem stale_foldl {α : Type} {f : State → α → State} (h : ∀ s x, (f s x).link.stale = s.link.stale) :
    ∀ (xs : List α) (s : State), (xs.foldl f s).link.stale = s.link.stale
  | [], _ => rfl
  | x :: xs, s => (stale_foldl h xs _).trans (h s x)

theorem stale_leaveOnline (s : State) (t : TargetIx) (st : TargetState) (why : Option FaultReason) (reason : CopyReason)
    (timeout : Bool) : (s.leaveOnline t st why reason timeout).1.link.stale = s.link.stale := by
  have purged : (forEach allLanes (fun n => forEach (s.target t).fifos[n] fun (o : WriteOrder) s => s.countDown o.segment)
      s).1.link.stale = s.link.stale := by
    rw [(frame_forEach (fun n s => frame_forEach (fun (o : WriteOrder) s => frame_countDown s o.segment) _ s) allLanes s).link]
  have failed (u : State) : (allLanes.foldl (fun s n => s.modifyTake n fun tk => tk.failTarget t reason) u).link.stale
      = u.link.stale := stale_foldl (f := fun s n => s.modifyTake n fun tk => tk.failTarget t reason) (fun _ _ => rfl) _ u
  have ended (u : State) (a b : List Byte) : ((match (s.target t).waitingHost with
      | some _ => (match (s.target t).op with
        | .host _ => u.answer .targetFault a
        | _ => u).answer .targetFault b
      | none => match (s.target t).op with
        | .host _ => u.answer .targetFault a
        | _ => u) : State).link.stale = u.link.stale := by
    (repeat' split) <;> simp only [stale_answer]
  have faulted (u : State) : (if st = .faulted then u.rise (condTargetFault t) else u).link.stale = u.link.stale := by
    split
    · exact (attentionOnly_rise u _).stale
    · rfl
  exact (faulted _).trans ((failed _).trans ((ended _ _ _).trans purged))

/-- What is served leaves the link listening to its replies. -/
theorem stale_serve (s : State) (r : Request) : (serve r s).1.link.stale = s.link.stale := by
  by_cases kind : isTakeKind (requestKind r) = true
  · have around := around_serve kind (m := ((requestBody r).head?.bind laneOf).getD 0) (fun n named => by rw [named]; rfl) s
    rw [around.link]
  · cases r with
    | identify => exact stale_answer ..
    | resetPart => exact stale_answer ..
    | readAttention => exact stale_answer ..
    | clearAttention c =>
      simp only [serve, serveClearAttention]
      split <;> simp [stale_answer]
    | setAttentionEnables n nf p pf =>
      simp only [serve, serveSetAttentionEnables]
      (repeat' split) <;> simp [stale_answer, State.setNoticeEnable, State.setPanelEnable, (attentionOnly_gain _ _).stale]
    | slotStatus x =>
      simp only [serve, serveSlotStatus]
      (repeat' split) <;> simp [stale_answer]
    | peekCard x a c r al =>
      simp only [serve, servePeekCard]
      (repeat' split) <;> simp [stale_answer]
    | holdSlot x =>
      simp only [serve, serveHoldSlot]
      (repeat' split) <;> simp [stale_answer]
    | freeSlot x =>
      simp only [serve, serveFreeSlot]
      (repeat' split) <;> simp [stale_answer]
    | targetStatus x =>
      simp only [serve, serveTargetStatus]
      split <;> simp [stale_answer]
    | configureTarget x u q =>
      simp only [serve, serveConfigureTarget]
      (repeat' split) <;> simp [stale_answer, answerClamped_stale]
    | takeTargetOffline x =>
      simp only [serve, serveTakeTargetOffline]
      (repeat' split) <;> simp [stale_answer, Work.andThen, State.answerTarget, State.leaveFaulted, stale_leaveOnline]
    | bringTargetOnline x =>
      simp only [serve, serveBringTargetOnline]
      (repeat' split) <;> simp [stale_answer, State.answerTarget, State.leaveFaulted]
    | readTarget x a c =>
      simp only [serve, serveReadTarget]
      (repeat' split) <;> simp [stale_answer, State.offerHost]
    | writeTarget x a c d =>
      simp only [serve, serveWriteTarget]
      (repeat' split) <;> simp [stale_answer, State.offerHost]
    | grantSpace x rs =>
      simp only [serve, serveGrantSpace]
      (repeat' split) <;> simp [stale_answer]
    | clearPool x =>
      simp only [serve, serveClearPool]
      split <;> simp [stale_answer]
    | readPool x =>
      simp only [serve, serveReadPool]
      split <;> simp [stale_answer]
    | readManifest x f c =>
      simp only [serve, serveReadManifest]
      (repeat' split) <;> simp [stale_answer]
    | readAllocation x i t =>
      simp only [serve, serveReadAllocation]
      (repeat' split) <;> simp [stale_answer]
    | _ => exact absurd (by simp only [requestKind]; decide) kind

/-! ### The reply of a step -/

theorem composed_conclude (s : State) : s.conclude.link.composed = s.link.composed := by
  obtain ⟨t, choice, conclude⟩ := conclude_frame s
  rw [conclude, choosePath_composed, choice.rest]

theorem composed_replied {s : State} {kind : Byte} {tag : BitVec 16} {c : Bool} {st : Status} {body : List Byte}
    {f : OutFrame} (composed : (s.replied kind tag c st body).link.composed = some f) :
    s.replied kind tag c st body = s.replied kind tag c f.status f.body := by
  rw [State.replied, choosePath_composed] at composed
  cases composed
  rfl

/-- Settles O15: what is composed at once is OK, or stands for a request that was refused before anything changed. -/
theorem refusedRequestsChangeNothing : Obligations.RefusedRequestsChangeNothing := by
  intro c tag r s t f request listening rest run composed bad
  obtain ⟨-, -, -, -, stale⟩ := (listening_iff s).1 listening
  obtain rfl : submit tag r s = t := by
    rw [exec_of_request request] at run
    exact Host.Outcome.next.inj run
  cases shape : shapeRefusal r with
  | some st =>
    rw [submit_misshapen listening tag rest shape] at composed ⊢
    exact composed_replied composed
  | none =>
    rcases answers_serve (s := s.beginService (requestKind r) tag) rfl r with ⟨st, body, answered⟩ | ok
    · rw [submit_answered listening tag rest shape answered] at composed ⊢
      exact composed_replied composed
    · rw [submit_served listening tag shape] at composed
      have fresh : (settled (serve r (s.beginService (requestKind r) tag))).link.stale = false := by
        rw [(frame_settled _).link]
        exact (stale_serve _ r).trans stale
      rw [finish_tasks rfl fresh, composed_conclude] at composed
      exact absurd (ok f composed) bad

end Sys2Proof.Machine
end

