-- ==== Sys2Proof/Proofs/RemovedTarget.lean ====
section
/-! SUPPORT. A target that a lane's take no longer has: what the follow-on actions of a step keep of it. -/

namespace Sys2Proof.Machine

/-! ### A take without the target -/

/-- A file's change keeps its copy on y out of the states that are not yet safe, and keeps the copy as it is once the
file has started. -/
def FileEntry.StaysAt (y : TargetIx) (f g : FileEntry) : Prop :=
  ((f.copy y).state.unsafe_ = false → (g.copy y).state.unsafe_ = false)
    ∧ (f.progress.started → g.progress.started ∧ g.copy y = f.copy y)

theorem staysAt_of_copies {y : TargetIx} {f g : FileEntry} (copies : g.copies = f.copies)
    (started : f.progress.started → g.progress.started) : f.StaysAt y g := by
  have same : g.copy y = f.copy y := by simp [FileEntry.copy, copies]
  exact ⟨fun safe => same ▸ safe, fun s => ⟨started s, same⟩⟩

theorem staysAt_modifyCopy_ne {x y : TargetIx} (f : FileEntry) (ne : x ≠ y) (g : CopyRecord → CopyRecord) :
    f.StaysAt y (f.modifyCopy x g) := by
  have same := copy_modifyCopy_ne f ne.symm g
  exact ⟨fun safe => same ▸ safe, fun s => ⟨s, same⟩⟩

theorem staysAt_modifyCopy_idle {y : TargetIx} (f : FileEntry) (x : TargetIx) {g : CopyRecord → CopyRecord}
    (safe : ∀ c, c.state.unsafe_ = false → (g c).state.unsafe_ = false) (idle : ¬ f.progress.started) :
    f.StaysAt y (f.modifyCopy x g) := by
  refine ⟨fun was => ?_, fun s => absurd s idle⟩
  by_cases x_ : y = x
  · rw [x_, copy_modifyCopy_same]
    exact safe _ (x_ ▸ was)
  · rw [copy_modifyCopy_ne f x_]
    exact was

/-- The take is done with target y: y is outside its set and on no pair of its recopy list, none of its copies there is
in a state that is not yet safe, those tracked by T stand as they are, and, from W on, it does not wait for y's pool. -/
structure Take.DoneWith (y : TargetIx) (T : Nat → CopyRecord → Prop) (W : Prop) (t : Take) : Prop where
  outside : t.targets.getLsbD y.val = false
  unlisted : ∀ p ∈ t.recopyList, p.2 ≠ y
  safe : ∀ e f, t.file? e = some f → (f.copy y).state.unsafe_ = false
  tracked : ∀ e c, T e c → ∃ f, t.file? e = some f ∧ f.progress.started ∧ f.copy y = c
  elsewhere : W → t.waitReason ≠ some (.pool y)

section
variable {y : TargetIx} {T : Nat → CopyRecord → Prop} {W : Prop} {a b : Take} (h : a.DoneWith y T W)
include h

theorem Take.DoneWith.of_files (targets : b.targets = a.targets) (list : ∀ p ∈ b.recopyList, p ∈ a.recopyList)
    (files : ∀ e, b.file? e = a.file? e) (reason : b.waitReason = a.waitReason ∨ b.waitReason ≠ some (.pool y)) :
    b.DoneWith y T W where
  outside := targets ▸ h.outside
  unlisted p mem := h.unlisted p (list p mem)
  safe e f file := h.safe e f (files e ▸ file)
  tracked e c t := by rw [files e]; exact h.tracked e c t
  elsewhere w := by
    rcases reason with same | other
    · rw [same]
      exact h.elsewhere w
    · exact other

theorem Take.DoneWith.mapFiles {g : Nat → FileEntry → FileEntry} (targets : b.targets = a.targets)
    (list : b.recopyList = a.recopyList) (files : ∀ e, b.file? e = (a.file? e).map (g e))
    (reason : b.waitReason = a.waitReason) (stays : ∀ e f, a.file? e = some f → f.StaysAt y (g e f)) :
    b.DoneWith y T W where
  outside := targets ▸ h.outside
  unlisted p mem := h.unlisted p (list ▸ mem)
  safe e f file := by
    rw [files e, Option.map_eq_some_iff] at file
    obtain ⟨f', there, rfl⟩ := file
    exact (stays e f' there).1 (h.safe e f' there)
  tracked e c t := by
    obtain ⟨f, there, started, copy⟩ := h.tracked e c t
    obtain ⟨started', same⟩ := (stays e f there).2 started
    exact ⟨g e f, by rw [files e, there]; rfl, started', same.trans copy⟩
  elsewhere w := reason ▸ h.elsewhere w

theorem Take.DoneWith.modifyFile {e : Nat} {g : FileEntry → FileEntry}
    (stays : ∀ f, a.file? e = some f → f.StaysAt y (g f)) : (a.modifyFile e g).DoneWith y T W := by
  refine h.mapFiles (g := fun d => if d = e then g else id) rfl rfl (fun d => ?_) rfl fun d f there => ?_
  · rw [file_modifyFile]
    split
    · rfl
    · simp
  · split
    · next d_ => exact stays f (d_ ▸ there)
    · exact ⟨id, fun s => ⟨s, rfl⟩⟩

end

/-! ### A lane without the target -/

/-- Lane n is done with target y: its take is, all of its orders there are withdrawn, and, if S, it is not on the short
list of y's pool. -/
structure State.DoneWith (n : LaneIx) (y : TargetIx) (T : Nat → CopyRecord → Prop) (W S : Prop) (s : State) : Prop where
  taken : ∃ t, s.take? n = some t ∧ t.DoneWith y T W
  fifo : ∀ o ∈ (s.target y).fifos[n], o.withdrawn = true
  short : S → n ∉ (s.pool y).short

section
variable {n : LaneIx} {y : TargetIx} {T : Nat → CopyRecord → Prop} {W S : Prop} {s t : State}
  (h : s.DoneWith n y T W S) (m : LaneIx)
include h

theorem State.DoneWith.of_same (lanes : t.lanes = s.lanes) (targets : t.targets = s.targets) (pools : t.pools = s.pools) :
    t.DoneWith n y T W S where
  taken := by simpa [State.take?, lanes] using h.taken
  fifo := by simpa [State.target, targets] using h.fifo
  short := by simpa [State.pool, pools] using h.short

theorem State.DoneWith.attention (a : AttentionOnly s t) : t.DoneWith n y T W S := h.of_same a.lanes a.targets a.pools

theorem State.DoneWith.ne_of_mem {a : Take} (taken : s.take? m = some a) {x : TargetIx} (mem : x ∈ targetsOf a.targets)
    (same : m = n) : x ≠ y := by
  rintro rfl
  subst same
  obtain ⟨b, taken', done⟩ := h.taken
  rw [taken, Option.some.injEq] at taken'
  have inSet := (List.mem_filter.1 mem).2
  rw [taken', done.outside] at inSet
  exact absurd inSet (by simp)

theorem State.DoneWith.modifyTake {f : Take → Take}
    (ok : m = n → ∀ a, s.take? n = some a → a.DoneWith y T W → (f a).DoneWith y T W) :
    (s.modifyTake m f).DoneWith n y T W S where
  taken := by
    obtain ⟨a, taken, done⟩ := h.taken
    by_cases m_ : m = n
    · subst m_
      exact ⟨f a, by rw [modifyTake_of_take s m f taken, take_setLane_same], ok rfl a taken done⟩
    · exact ⟨a, by rw [take_modifyTake, if_neg (Ne.symm m_)]; exact taken, done⟩
  fifo := h.fifo
  short := h.short

/-- A change of a take that leaves its entries, its recopy list and its wait alone. -/
theorem State.DoneWith.working {f : Take → Take} (targets : ∀ a, (f a).targets = a.targets)
    (list : ∀ a, (f a).recopyList = a.recopyList) (entries : ∀ a, (f a).entries = a.entries)
    (reason : ∀ a, (f a).waitReason = a.waitReason) : (s.modifyTake m f).DoneWith n y T W S :=
  h.modifyTake m fun _ a _ done => done.of_files (targets a) (fun p mem => list a ▸ mem)
    (fun e => by simp only [Take.file?, entries a]) (.inl (reason a))

theorem State.DoneWith.modifyFile {e : Nat} {g : FileEntry → FileEntry}
    (ok : m = n → ∀ f, s.file? n e = some f → f.StaysAt y (g f)) : (s.modifyFile m e g).DoneWith n y T W S :=
  h.modifyTake m fun same a taken done => done.modifyFile fun f there => ok same f (by simp [State.file?, taken, there])

theorem State.DoneWith.keepsCopies {e : Nat} {g : FileEntry → FileEntry} (copies : ∀ f, (g f).copies = f.copies)
    (started : ∀ f, f.progress.started → (g f).progress.started) : (s.modifyFile m e g).DoneWith n y T W S :=
  h.modifyFile m fun _ f _ => staysAt_of_copies (copies f) (started f)

theorem State.DoneWith.modifyCopy {x : TargetIx} (ne : m = n → x ≠ y) (e : Nat) (g : CopyRecord → CopyRecord) :
    (s.modifyCopy m e x g).DoneWith n y T W S :=
  h.modifyFile m fun same f _ => staysAt_modifyCopy_ne f (ne same) g

omit h in
theorem State.DoneWith.foldl {α : Type} {f : State → α → State} : ∀ {xs : List α} {s : State},
    (∀ s, ∀ x ∈ xs, s.DoneWith n y T W S → (f s x).DoneWith n y T W S) → s.DoneWith n y T W S →
      (xs.foldl f s).DoneWith n y T W S
  | [], _, _, h => h
  | x :: xs, _, each, h => State.DoneWith.foldl (xs := xs) (fun s z mem => each s z (List.mem_cons_of_mem _ mem))
      (each _ x (List.mem_cons_self ..) h)

omit h in
theorem State.DoneWith.forEach {α : Type} {f : α → State → Work} {xs : List α}
    (each : ∀ s, ∀ x ∈ xs, s.DoneWith n y T W S → (f x s).1.DoneWith n y T W S) (h : s.DoneWith n y T W S) :
    (forEach xs f s).1.DoneWith n y T W S := by
  rw [forEach_state]
  exact State.DoneWith.foldl each h

/-! ### Lane states, waits, pools -/

theorem State.DoneWith.enter (st : TakeState) : (s.enter m st).DoneWith n y T W S := by
  have fell (u : State) (h : u.DoneWith n y T W S) : (u.modifyTake m (·.inState st)).DoneWith n y T W S :=
    h.modifyTake m fun _ a _ done => done.of_files rfl (fun _ mem => mem) (fun _ => rfl) (.inr (by simp [Take.inState]))
  unfold State.enter
  cases (s.laneState m).bind (laneLevel m) <;> cases laneLevel m st
  · exact fell s h
  · exact (fell s h).attention (attentionOnly_rise _ _)
  · exact fell _ (h.attention (attentionOnly_fall s _))
  · exact (fell _ (h.attention (attentionOnly_fall s _))).attention (attentionOnly_rise _ _)

theorem State.DoneWith.enterWaiting {r : WaitReason} (ok : m = n → r ≠ .pool y) :
    (s.enterWaiting m r).DoneWith n y T W S :=
  (h.enter m .waiting).modifyTake m fun same _ _ done =>
    done.of_files rfl (fun _ mem => mem) (fun _ => rfl) (.inr fun e => ok same (Option.some.inj e))

theorem State.DoneWith.setHold (x : HeadHold) : (s.setHold m x).DoneWith n y T W S :=
  h.working m (fun _ => rfl) (fun _ => rfl) (fun _ => rfl) fun _ => rfl

theorem State.DoneWith.joinWaiting : (s.joinWaiting m).DoneWith n y T W S := by
  have joined : ({ s with staging := { s.staging with waiting := s.staging.waiting ++ [m] } } : State).DoneWith n y T W S :=
    h.of_same rfl rfl rfl
  unfold State.joinWaiting
  split
  · exact h
  · dsimp only
    split
    · exact joined.attention (attentionOnly_rise _ _)
    · exact joined

theorem State.DoneWith.leaveWaiting : (s.leaveWaiting m).DoneWith n y T W S :=
  h.of_same (leaveWaiting_rest s m).lanes (leaveWaiting_rest s m).targets (leaveWaiting_rest s m).pools

theorem State.DoneWith.modifyPool (x : TargetIx) {f : Pool → Pool}
    (ok : x = y → n ∉ (s.pool y).short → n ∉ (f (s.pool y)).short) : (s.modifyPool x f).DoneWith n y T W S where
  taken := h.taken
  fifo := h.fifo
  short out := by
    have before := h.short out
    rw [State.modifyPool, pool_setPool]
    split
    · next x_ =>
      subst x_
      exact ok rfl before
    · exact before

theorem State.DoneWith.joinShort {x : TargetIx} (ne : m = n → x ≠ y) : (s.joinShort x m).DoneWith n y T W S := by
  have joined : (s.modifyPool x fun p => { p with short := p.short ++ [m] }).DoneWith n y T W S :=
    h.modifyPool x fun x_ out => by
      simp only [List.mem_append, List.mem_singleton, not_or]
      exact ⟨out, fun same => ne same.symm x_⟩
  unfold State.joinShort
  split
  · exact h
  · dsimp only
    split
    · exact joined.attention (attentionOnly_rise _ _)
    · exact joined

theorem State.DoneWith.leaveShort (x : TargetIx) : (s.leaveShort x m).DoneWith n y T W S := by
  have left : (s.modifyPool x fun p => { p with short := (s.pool x).short.erase m }).DoneWith n y T W S :=
    h.modifyPool x fun x_ out => by
      subst x_
      exact fun mem => out (List.mem_of_mem_erase mem)
  unfold State.leaveShort
  split
  · dsimp only
    split
    · exact left.attention (attentionOnly_fall _ _)
    · exact left
  · exact h

theorem State.DoneWith.leaveAllShort : (s.leaveAllShort m).DoneWith n y T W S :=
  State.DoneWith.foldl (fun _ x _ h => h.leaveShort m x) h

theorem State.DoneWith.returned (x : TargetIx) (rs : List Extent) (c : Bool) :
    (if c = true then s.modifyPool x (·.returnRuns rs) else s).DoneWith n y T W S := by
  split
  · exact h.modifyPool x fun _ out => by rw [returnRuns_short]; exact out
  · exact h

theorem State.DoneWith.giveBack {x : TargetIx} (e : Nat) (ne : m = n → x ≠ y) :
    (s.giveBack m e x).DoneWith n y T W S := by
  unfold State.giveBack
  split
  · exact h
  · exact (h.returned x _ _).modifyCopy m ne e _

end

/-! ### Files that have not started -/

/-- The file of lane n has not started. -/
def State.Unstarted (n : LaneIx) (e : Nat) (s : State) : Prop := ∀ f, s.file? n e = some f → ¬ f.progress.started

section
variable {n : LaneIx} {y : TargetIx} {T : Nat → CopyRecord → Prop} {W S : Prop} {s t : State} {e : Nat}

theorem unstarted_modifyCopy (h : s.Unstarted n e) (x : TargetIx) (g : CopyRecord → CopyRecord) :
    (s.modifyCopy n e x g).Unstarted n e := by
  intro f there
  cases taken : s.take? n with
  | none => simp [State.file?, State.modifyCopy, State.modifyFile, take_modifyTake, taken] at there
  | some a =>
    simp only [State.file?, State.modifyCopy, State.modifyFile, take_modifyTake, taken, if_true, Option.map_some,
      Option.bind_some, file_modifyFile_same, Option.map_eq_some_iff] at there
    obtain ⟨f', there', rfl⟩ := there
    exact h f' (by simp [State.file?, taken, there'])

theorem State.DoneWith.modifyUnstarted (h : s.DoneWith n y T W S) (m : LaneIx) (idle : m = n → s.Unstarted n e)
    (x : TargetIx) {g : CopyRecord → CopyRecord} (safe : ∀ c, c.state.unsafe_ = false → (g c).state.unsafe_ = false) :
    (s.modifyCopy m e x g).DoneWith n y T W S :=
  h.modifyFile m fun same f there => staysAt_modifyCopy_idle f x safe (idle same f there)

theorem unstarted_giveBack (h : s.Unstarted n e) (x : TargetIx) : (s.giveBack n e x).Unstarted n e := by
  unfold State.giveBack
  split
  · exact h
  · refine unstarted_modifyCopy ?_ x _
    split <;> exact h

theorem unstarted_foldl {α : Type} {f : State → α → State} (each : ∀ s x, s.Unstarted n e → (f s x).Unstarted n e) :
    ∀ (xs : List α) {s : State}, s.Unstarted n e → (xs.foldl f s).Unstarted n e
  | [], _, h => h
  | x :: xs, _, h => unstarted_foldl each xs (each _ x h)

theorem State.DoneWith.unallocate (h : s.DoneWith n y T W S) (m : LaneIx) (idle : m = n → s.Unstarted n e) :
    (s.unallocate m e).DoneWith n y T W S := by
  let Q (s : State) : Prop := s.DoneWith n y T W S ∧ (m = n → s.Unstarted n e)
  have given : Q (allTargets.foldl (fun s x => s.giveBack m e x) s) := by
    refine List.foldlRecOn _ _ ⟨h, idle⟩ fun s q x _ => ⟨?_, fun same => ?_⟩
    · unfold State.giveBack
      split
      · exact q.1
      · exact (q.1.returned x _ _).modifyUnstarted m (fun same f there => q.2 same f (by split at there <;> exact there)) x
          fun _ safe => safe
    · subst same
      exact unstarted_giveBack (q.2 rfl) x
  have cleared : Q (allTargets.foldl (fun s x => s.modifyCopy m e x fun c => { c with state := .none, reason := none })
      (allTargets.foldl (fun s x => s.giveBack m e x) s)) := by
    refine List.foldlRecOn _ _ given fun s q x _ => ⟨q.1.modifyUnstarted m q.2 x fun _ _ => rfl, fun same => ?_⟩
    subst same
    exact unstarted_modifyCopy (q.2 rfl) x _
  exact cleared.1.modifyFile m fun same f there =>
    ⟨fun safe => safe, fun started => absurd started (cleared.2 same f there)⟩

theorem not_started_of {p : Progress} (idle : p = .pending ∨ p = .allocating) : ¬ p.started := by
  rcases idle with rfl | rfl <;> simp [Progress.started]

theorem State.DoneWith.dropAllocating (h : s.DoneWith n y T W S) (m : LaneIx) : (s.dropAllocating m).DoneWith n y T W S := by
  unfold State.dropAllocating
  dsimp only
  refine State.DoneWith.leaveAllShort ?_ m
  split
  · next e drop =>
    refine h.unallocate m fun same f there => ?_
    subst same
    obtain ⟨a, taken, found⟩ := Option.bind_eq_some_iff.1 drop
    obtain ⟨p, first, rfl⟩ := (Option.map_eq_some_iff (f := Prod.fst)).1 found
    have allocating := List.find?_some (p := fun p : Nat × FileEntry => p.2.progress == .allocating) first
    have file := (mem_files_iff a p.1 p.2).1 (List.mem_of_find?_eq_some first)
    rw [State.file?, taken, Option.bind_some, file, Option.some.injEq] at there
    rw [← there]
    exact not_started_of (.inr (by simpa using allocating))
  · exact h

end

section
variable {n : LaneIx} {y : TargetIx} {T : Nat → CopyRecord → Prop} {W S : Prop} {s t : State}
  (h : s.DoneWith n y T W S) (m : LaneIx)
include h

theorem State.DoneWith.askPool {x : TargetIx} (e : Nat) (ne : m = n → x ≠ y) : (s.askPool m e x).DoneWith n y T W S := by
  unfold State.askPool
  split
  · exact h
  · split
    · exact ((h.modifyPool x fun _ out => out).modifyCopy m ne e _).leaveShort m x
    · exact h.joinShort m ne

/-! ### Card port and staging buffer -/

theorem State.DoneWith.setSegment (g : SegmentIx) (x : Segment) : (s.setSegment g x).DoneWith n y T W S :=
  h.of_same rfl rfl rfl

theorem State.DoneWith.modifySlot (f : Slot → Slot) : (s.modifySlot m f).DoneWith n y T W S := h.of_same rfl rfl rfl

theorem State.DoneWith.handPiece : (s.handPiece m).1.DoneWith n y T W S := by
  unfold State.handPiece State.offerPiece State.beginPiece
  (repeat' split)
  case h_2.isTrue.isFalse => exact h.of_same rfl rfl rfl
  case h_2.isFalse => exact h.of_same rfl rfl rfl
  all_goals exact h

theorem State.DoneWith.beginRead (g : SegmentIx) : (s.beginRead m g).1.DoneWith n y T W S := by
  unfold State.beginRead
  split
  · exact h
  · split
    · exact h
    · exact (h.setSegment g _).working m (fun _ => rfl) (fun _ => rfl) (fun _ => rfl) fun _ => rfl

theorem State.DoneWith.tryRead : (s.tryRead m).1.DoneWith n y T W S := by
  unfold State.tryRead
  split
  · split
    · exact h.beginRead m _
    · dsimp only
      split
      · exact (h.joinWaiting m).enterWaiting m fun _ => by simp
      · exact h.joinWaiting m
  · exact h

omit m in
theorem State.DoneWith.handOn (g : SegmentIx) : (s.handOn g).1.DoneWith n y T W S := by
  unfold State.handOn
  split
  · exact h
  · next m _ =>
    have turn : (s.takesTurn m).DoneWith n y T W S := (h.leaveWaiting m).of_same rfl rfl rfl
    dsimp only
    split
    · exact (turn.beginRead m g).enter m .running
    · exact turn.beginRead m g

omit m in
theorem State.DoneWith.freeSegment (g : SegmentIx) : (s.freeSegment g).1.DoneWith n y T W S := by
  unfold State.freeSegment
  split
  · exact h
  · exact (h.setSegment g .free).handOn g

omit m in
theorem State.DoneWith.countDown (g : SegmentIx) : (s.countDown g).1.DoneWith n y T W S := by
  unfold State.countDown
  split
  · exact h.setSegment g _
  · exact h
  · exact h

/-- The write orders of a lane at a target change. -/
theorem State.DoneWith.fifos (x : TargetIx) {f : Target → List WriteOrder}
    (ok : m = n → x = y → ∀ o ∈ f (s.target x), o.withdrawn = true) :
    (s.modifyTarget x fun v => { v with fifos := v.fifos.set m.val (f v) m.isLt }).DoneWith n y T W S where
  taken := h.taken
  fifo := by
    rw [modifyTarget_eq, target_setTarget]
    split
    · next x_ =>
      dsimp only
      by_cases same : m = n
      · subst same
        simpa using ok rfl x_.symm
      · have apart : m.val ≠ n.val := fun e => same (Fin.ext e)
        have kept := h.fifo
        rw [x_] at kept
        simpa [Vector.getElem_set, apart] using kept
    · exact h.fifo
  short := h.short

/-- The orders left after some have been withdrawn are as they were, or withdrawn. -/
theorem State.DoneWith.withdrawAt (x : TargetIx) (p : WriteOrder → Bool) : (s.withdrawAt m x p).1.DoneWith n y T W S := by
  obtain ⟨head, queued, all, -, eq⟩ := withdrawAt_eq s m x p
  rw [eq]
  refine State.DoneWith.forEach (fun s o _ h => h.countDown o.segment) ?_
  refine h.fifos m x (f := fun _ => head.map (·.markIf p) ++ queued.filter fun o => !p o) fun same x_ o mem => ?_
  subst same x_
  have orders := h.fifo
  rw [all] at orders
  rcases List.mem_append.1 mem with marked | kept
  · obtain ⟨o', here, rfl⟩ := List.mem_map.1 marked
    have was := orders o' (List.mem_append_left _ here)
    unfold WriteOrder.markIf
    split
    · rfl
    · exact was
  · exact orders o (List.mem_append_right _ (List.mem_of_mem_filter kept))

theorem State.DoneWith.withdraw (p : WriteOrder → Bool) : (s.withdraw m p).1.DoneWith n y T W S := by
  unfold State.withdraw
  exact State.DoneWith.forEach (fun s x _ h => h.withdrawAt m x p) h

/-! ### Lanes -/

theorem State.DoneWith.closeTake (o : TakeOutcome) : (s.closeTake m o).DoneWith n y T W S := by
  refine State.DoneWith.attention (State.DoneWith.enter (h.modifyTake m fun _ a _ done => ?_) m .closed)
    (attentionOnly_latch _ _)
  exact done.mapFiles (g := fun _ f => { f with goodFile := some (f.isGood a.verify a.k) }) rfl rfl
    (fun e => file_mapEntries (t := a) (u := a.judged o) rfl e) rfl fun _ f _ => staysAt_of_copies rfl id

theorem State.DoneWith.finishFile (e : Nat) : (s.finishFile m e).DoneWith n y T W S :=
  (h.keepsCopies m (g := fun f => { f with progress := .finished }) (fun _ => rfl) fun _ _ => .inr (.inr rfl)).working m
    (fun _ => rfl) (fun _ => rfl) (fun _ => rfl) fun _ => rfl

theorem State.DoneWith.finishIf (e : Nat) : (s.finishIf m e).DoneWith n y T W S := by
  unfold State.finishIf
  split
  · exact h.finishFile m e
  · exact h

theorem State.DoneWith.testFinish (e : Nat) : (s.testFinish m e).1.DoneWith n y T W S := by
  unfold State.testFinish
  split
  · exact h.finishFile m e
  · exact h

theorem State.DoneWith.endReading : (s.endReading m).DoneWith n y T W S :=
  h.working m (fun _ => rfl) (fun _ => rfl) (fun _ => rfl) fun _ => rfl

theorem State.DoneWith.interrupt : (s.interrupt m).DoneWith n y T W S :=
  ((h.dropAllocating m).leaveWaiting m).enter m .interrupted

theorem State.DoneWith.enterRunning : (s.enterRunning m).1.DoneWith n y T W S := h.enter m .running

theorem State.DoneWith.endWait : (s.endWait m).1.DoneWith n y T W S := by
  unfold State.endWait
  split
  · exact h.enterRunning m
  · exact h

theorem State.DoneWith.beginFile (e : Nat) {on : List TargetIx} (ne : m = n → y ∉ on) :
    (s.beginFile m e on).1.DoneWith n y T W S := by
  have copies (g : CopyRecord → CopyRecord) {s : State} (h : s.DoneWith n y T W S) :
      (on.foldl (fun s x => s.modifyCopy m e x g) s).DoneWith n y T W S :=
    State.DoneWith.foldl (fun s x mem h => h.modifyCopy m (fun same x_ => ne same (x_ ▸ mem)) e g) h
  unfold State.beginFile
  split
  · dsimp only
    split
    · exact ((copies _ (copies _ h)).keepsCopies m (g := fun f => { f with progress := .draining, source := some Digest.start })
        (fun _ => rfl) fun _ _ => .inr (.inl rfl)).working m (fun _ => rfl) (fun _ => rfl) (fun _ => rfl) fun _ => rfl
    · exact ((copies _ h).keepsCopies m (g := fun f => { f with progress := .moving, running := Digest.start })
        (fun _ => rfl) fun _ _ => .inl rfl).working m (fun _ => rfl) (fun _ => rfl) (fun _ => rfl) fun _ => rfl
  · exact h

theorem State.DoneWith.allocateFile (e : Nat) {on : List TargetIx} (ne : m = n → y ∉ on) :
    (s.allocateFile m e on).1.DoneWith n y T W S := by
  have asked (lacks : TargetIx → Bool) : ((on.filter lacks).foldl (fun s x => s.askPool m e x) s).DoneWith n y T W S :=
    State.DoneWith.foldl (fun s x mem h =>
      h.askPool m e fun same x_ => ne same (x_ ▸ List.mem_of_mem_filter mem)) h
  unfold State.allocateFile
  dsimp only
  split
  · next x found =>
    refine (asked _).enterWaiting m fun same x_ => ne same ?_
    cases x_
    exact List.mem_of_find?_eq_some found
  · exact (asked _).beginFile m e ne

theorem State.DoneWith.startFile (e : Nat) : (s.startFile m e).1.DoneWith n y T W S := by
  unfold State.startFile
  split
  · next a f taken there =>
    have apart {x : TargetIx} (mem : x ∈ targetsOf a.targets) (same : m = n) : x ≠ y := h.ne_of_mem m taken mem same
    have live_in {x : TargetIx} (mem : x ∈ s.liveTargets a) : x ∈ targetsOf a.targets := List.mem_of_mem_filter mem
    dsimp only
    split
    · next allocating =>
      split
      · refine ((h.unallocate m fun same g file => ?_).leaveAllShort m).enterWaiting m fun _ => by simp
        subst same
        rw [there, Option.some.injEq] at file
        exact file ▸ not_started_of (.inr allocating)
      · refine State.DoneWith.allocateFile (State.DoneWith.foldl (fun s x mem h => ?_) h) m e fun same mem => ?_
        · have ne := apart (List.mem_of_mem_filter mem)
          exact ((h.giveBack m e ne).modifyCopy m ne e _).leaveShort m x
        · exact apart (live_in (List.mem_of_mem_filter mem)) same rfl
    · split
      · exact h
      · next pending =>
        split
        · exact (h.leaveAllShort m).enterWaiting m fun _ => by simp
        · refine State.DoneWith.allocateFile (State.DoneWith.foldl (fun s x mem h => ?_)
          (h.modifyFile m fun same g file => ?_)) m e
            fun same mem => apart (live_in mem) same rfl
          · exact h.modifyCopy m (apart (List.mem_of_mem_filter mem)) e _
          · subst same
            rw [there, Option.some.injEq] at file
            subst file
            exact ⟨id, fun started => absurd started (not_started_of (.inl (by simpa using pending)))⟩
  · exact h

theorem State.DoneWith.beginRecopy {a : Take} (taken : s.take? m = some a) {p : Nat × TargetIx} (mem : p ∈ a.recopyList) :
    (s.beginRecopy m p.1 p.2).1.DoneWith n y T W S := by
  have ne (same : m = n) : p.2 ≠ y := by
    subst same
    obtain ⟨b, taken', done⟩ := h.taken
    rw [taken, Option.some.injEq] at taken'
    exact done.unlisted p (taken' ▸ mem)
  refine State.DoneWith.modifyCopy (h.modifyTake m fun _ a _ done => ?_) m ne p.1 _
  exact done.of_files rfl (fun _ mem => List.mem_of_mem_drop mem) (fun _ => rfl) (.inl rfl)

theorem State.DoneWith.recopyLeft : (s.recopyLeft m).1.DoneWith n y T W S := by
  unfold State.recopyLeft
  (repeat' split)
  case h_3.isFalse.isTrue => exact ((h.endReading m).leaveWaiting m).enterRunning m
  case h_3.isFalse.isFalse => exact (h.endReading m).leaveWaiting m
  all_goals exact h

/-- An entry that is no FILE is reached: no file changes. -/
theorem State.DoneWith.reaches {a : Take} (taken : s.take? m = some a) {x z : Entry} {f : Take → Take}
    (entry : a.entries[a.head]? = some x) (old : x.file? = none) (new : z.file? = none)
    (targets : (f a).targets = a.targets) (list : (f a).recopyList = a.recopyList)
    (entries : (f a).entries = a.entries.set a.head z) (reason : (f a).waitReason = a.waitReason) :
    (s.modifyTake m f).DoneWith n y T W S := by
  refine h.modifyTake m fun same b taken' done => ?_
  subst same
  rw [taken, Option.some.injEq] at taken'
  subst taken'
  refine done.of_files targets (fun p mem => list ▸ mem) (fun e => ?_) (.inl reason)
  rw [Take.file?, entries, List.getElem?_set, Take.file?]
  by_cases e_ : a.head = e
  · subst e_
    simp only [if_true, entry, Option.bind_some, old]
    split
    · exact new
    · rfl
  · rw [if_neg e_]

theorem State.DoneWith.workHead : (s.workHead m).1.DoneWith n y T W S := by
  unfold State.workHead
  cases taken : s.take? m with
  | none => exact h
  | some a =>
    dsimp only
    by_cases running : a.state ≠ .running
    · rw [if_pos running]
      exact h
    rw [if_neg running]
    by_cases reads : a.reading ≠ .none
    · rw [if_pos reads]
      exact h.setHold m .none
    rw [if_neg reads]
    cases list : a.recopyList with
    | cons p rest =>
      dsimp only
      split
      · exact h.beginRecopy m taken (list ▸ List.mem_cons_self ..)
      · exact h.interrupt m
    | nil =>
      dsimp only
      cases entry : a.entries[a.head]? with
      | none =>
        dsimp only
        split
        · exact h.setHold m .none
        · exact h.enter m .starved
      | some x =>
        cases x with
        | file f =>
          dsimp only
          split
          · exact h.interrupt m
          · split
            · exact h.setHold m .depth
            · exact (h.setHold m .none).startFile m _
        | mark k r =>
          dsimp only
          split
          · exact (h.reaches m taken (z := .mark k true) entry rfl rfl rfl rfl rfl rfl).attention (attentionOnly_latch _ _)
          · exact h.setHold m .mark
        | pause r =>
          dsimp only
          split
          · exact (h.reaches m taken (z := .pause true) entry rfl rfl rfl rfl rfl rfl).enter m .suspended
          · exact h.setHold m .pause
        | endOfList => exact (h.enter m .draining).setHold m .endOfList

end

end Sys2Proof.Machine
end

