-- ==== Sys2Proof/Proofs/RemovedTargetSteps.lean ====
section
/-! SUPPORT. A target that a lane's take no longer has: the lane's tests, the chunk read, and a whole step. -/

namespace Sys2Proof.Machine

/-- A file whose WRITING copies fail: a copy that is safe stays. -/
theorem staysAt_failWriting (f : FileEntry) (y : TargetIx) (c : SourceCondition) (d : Digest) (r : CopyReason)
    (safe : (f.copy y).state.unsafe_ = false) : f.StaysAt y { f with
      condition := c, progress := .draining, running := d, copies := f.copies.map (CopyRecord.failIf (· == .writing) r) } := by
  have same : ({ f with condition := c, progress := .draining, running := d
                        copies := f.copies.map (CopyRecord.failIf (· == .writing) r) } : FileEntry).copy y = f.copy y := by
    have out : ((f.copy y).state == .writing) = false := by
      cases state : (f.copy y).state <;> first | rfl | (rw [state] at safe; exact absurd safe (by decide))
    show (f.copies.map _)[y] = _
    simp only [Fin.getElem_fin, Vector.getElem_map]
    show CopyRecord.failIf _ r (f.copy y) = _
    simp [CopyRecord.failIf, out]
  exact ⟨fun safe => same ▸ safe, fun _ => ⟨.inr (.inl rfl), same⟩⟩

section
variable {n : LaneIx} {y : TargetIx} {T : Nat → CopyRecord → Prop} {W S : Prop} {s t : State}
  (h : s.DoneWith n y T W S) (m : LaneIx)
include h

/-! ### The tests of a lane -/

theorem State.DoneWith.closeIfClear (o : TakeOutcome) : (s.closeIfClear m o).1.DoneWith n y T W S := by
  unfold State.closeIfClear
  split
  · exact h.closeTake m o
  · exact h

theorem State.DoneWith.testDone (a : Take) : (s.testDone m a).1.DoneWith n y T W S := by
  unfold State.testDone
  split
  · exact h.closeIfClear m _
  · exact h

theorem State.DoneWith.testInterrupted (a : Take) : (s.testInterrupted m a).1.DoneWith n y T W S := by
  unfold State.testInterrupted
  split
  · exact h
  · exact h.enterRunning m

/-- A pair that leaves the list fails at its own target. -/
theorem State.DoneWith.dropPair {a : Take} (taken : s.take? m = some a) {p : Nat × TargetIx} {rest : List (Nat × TargetIx)}
    (list : a.recopyList = p :: rest) :
    ((s.modifyTake m fun t => { t with recopyList := rest }).modifyCopy m p.1 p.2 (CopyRecord.fail .cut)).DoneWith n y T W S := by
  have ne (same : m = n) : p.2 ≠ y := by
    subst same
    obtain ⟨b, taken', done⟩ := h.taken
    rw [taken, Option.some.injEq] at taken'
    exact done.unlisted p (by rw [← taken', list]; exact List.mem_cons_self ..)
  refine State.DoneWith.modifyCopy (h.modifyTake m fun same b taken' done => ?_) m ne p.1 _
  subst same
  rw [taken, Option.some.injEq] at taken'
  subst taken'
  exact done.of_files rfl (fun q mem => list ▸ List.mem_cons_of_mem _ mem) (fun _ => rfl) (.inl rfl)

theorem State.DoneWith.serveOrClose {a : Take} (taken : s.take? m = some a) :
    (s.serveOrClose m a).1.DoneWith n y T W S := by
  unfold State.serveOrClose
  by_cases reads : a.reading ≠ .none
  · rw [if_pos reads]
    exact h
  rw [if_neg reads]
  cases list : a.recopyList with
  | cons p rest =>
    dsimp only
    split
    · exact h.beginRecopy m taken (list ▸ List.mem_cons_self ..)
    · split
      · exact h.interrupt m
      · exact h.dropPair m taken list
  | nil =>
    dsimp only
    split
    · exact h.closeIfClear m _
    · exact h

theorem State.DoneWith.goOn : (s.goOn m).1.DoneWith n y T W S := by
  unfold State.goOn
  cases taken : s.take? m with
  | none => exact h
  | some a =>
    dsimp only
    cases a.state with
    | stopping => exact h.serveOrClose m taken
    | draining => exact h.serveOrClose m taken
    | interrupted => exact h.testInterrupted m a
    | aborting => exact h.closeIfClear m .aborted
    | _ => exact h

theorem State.DoneWith.laneTests : (s.laneTests m).1.DoneWith n y T W S := by
  unfold State.laneTests
  cases s.take? m with
  | none => exact h
  | some a =>
    dsimp only
    cases a.state with
    | interrupted => exact h.testInterrupted m a
    | aborting => exact h.closeIfClear m .aborted
    | stopping => exact h.testDone m a
    | draining => exact h.testDone m a
    | _ => exact h

theorem State.DoneWith.enterStopping : (s.enterStopping m).1.DoneWith n y T W S := (h.dropAllocating m).enter m .stopping

/-! ### The chunk read -/

theorem State.DoneWith.counts (f : Counters → Counters) :
    (s.modifyTake m fun t => { t with counters := f t.counters }).DoneWith n y T W S :=
  h.working m (fun _ => rfl) (fun _ => rfl) (fun _ => rfl) fun _ => rfl

theorem State.DoneWith.countChunkRead : (s.countChunkRead m).DoneWith n y T W S :=
  h.working m (fun _ => rfl) (fun _ => rfl) (fun _ => rfl) fun _ => rfl

omit m in
theorem State.DoneWith.storePiece (g : SegmentIx) (b : List Byte) : (s.storePiece g b).DoneWith n y T W S := by
  unfold State.storePiece
  split
  · exact h.setSegment g _
  · exact h
  · exact h

theorem State.DoneWith.foldPass (u : SegmentUse) (b : List Byte) : (s.foldPass m u b).DoneWith n y T W S := by
  unfold State.foldPass
  split
  · exact h.keepsCopies m (fun _ => rfl) fun _ => id
  · exact h.working m (fun _ => rfl) (fun _ => rfl) (fun _ => rfl) fun _ => rfl

theorem State.DoneWith.countCorrected (u : SegmentUse) : (s.countCorrected m u).DoneWith n y T W S := by
  have counted := h.counts m fun c => { c with corrected := satInc c.corrected }
  unfold State.countCorrected
  dsimp only
  split
  · exact counted
  · exact counted.keepsCopies m (fun _ => rfl) fun _ => id

theorem State.DoneWith.damage (e : Nat) : (s.damage m e).DoneWith n y T W S := by
  have damaged : (s.modifyFile m e fun f => { f with condition := .damaged, damageCounted := true }).DoneWith n y T W S :=
    h.keepsCopies m (fun _ => rfl) fun _ => id
  unfold State.damage
  split
  · exact h
  · split
    · refine State.DoneWith.attention ?_ (attentionOnly_latch _ _)
      split
      · exact damaged
      · exact damaged.counts m fun c => { c with filesDamaged := satInc c.filesDamaged }
    · exact h

/-- No chunk goes to a target without a WRITING copy. -/
theorem State.DoneWith.ne_of_writing {e : Nat} {f : FileEntry} (there : s.file? m e = some f) {x : TargetIx}
    (writing : (f.copy x).state = .writing) (same : m = n) : x ≠ y := by
  rintro rfl
  subst same
  obtain ⟨a, taken, done⟩ := h.taken
  have safe := done.safe e f (by simpa [State.file?, taken] using there)
  rw [writing] at safe
  exact absurd safe (by decide)

theorem State.DoneWith.placeOrder (f : FileEntry) (u : SegmentUse) (g : SegmentIx) {x : TargetIx} (ne : m = n → x ≠ y) :
    (s.placeOrder m f u g x).DoneWith n y T W S :=
  h.fifos m x (f := fun v => v.fifos[m] ++ [_]) fun same x_ => absurd x_ (ne same)

theorem State.DoneWith.fanOut (a : Take) {f : FileEntry} (u : SegmentUse) (g : SegmentIx)
    (there : s.file? m u.entry = some f) : (s.fanOut m a f u g).1.DoneWith n y T W S := by
  have writing {x : TargetIx} (mem : x ∈ orderTargets a f u) : (f.copy x).state = .writing := by
    unfold orderTargets at mem
    simpa using (List.mem_filter.1 mem).2
  unfold State.fanOut
  dsimp only
  have placed := State.DoneWith.foldl (fun s x mem h' => h'.placeOrder m f u g (h.ne_of_writing m there (writing mem))) h
  exact placed.setSegment g _

theorem State.DoneWith.failsAt (e : Nat) {x : TargetIx} (r : CopyReason) (ne : m = n → x ≠ y) (p : WriteOrder → Bool) :
    ((s.modifyCopy m e x (CopyRecord.fail r)).withdrawAt m x p).1.DoneWith n y T W S :=
  (h.modifyCopy m ne e _).withdrawAt m x p

theorem State.DoneWith.compareRecopy (e : Nat) (x : TargetIx) : (s.compareRecopy m e x).1.DoneWith n y T W S := by
  have compared {f : FileEntry} (there : s.file? m e = some f) (b : Bool) :
      (if (f.copy x).state = .writing ∧ b = false then
        (s.modifyCopy m e x (CopyRecord.fail .sourceUnstable)).withdrawAt m x fun o => o.entry == e
      else (s, [])).1.DoneWith n y T W S := by
    split
    · next differs => exact h.failsAt m e .sourceUnstable (h.ne_of_writing m there differs.1) _
    · exact h
  unfold State.compareRecopy
  split
  · next a f taken there => exact compared there _
  · exact h

theorem State.DoneWith.nextChunk (k : Nat) : (s.modifyTake m fun t => { t with nextChunk := k }).DoneWith n y T W S :=
  h.working m (fun _ => rfl) (fun _ => rfl) (fun _ => rfl) fun _ => rfl

theorem State.DoneWith.chunkGood (g : SegmentIx) (u : SegmentUse) : (s.chunkGood m g u).1.DoneWith n y T W S := by
  have counted := h.countChunkRead m
  unfold State.chunkGood
  cases u.pass with
  | none =>
    have read : ((s.countChunkRead m).modifyFile m u.entry fun f => { f with chunksRead := f.chunksRead + 1 }).DoneWith
      n y T W S := counted.keepsCopies m (fun _ => rfl) fun _ => id
    dsimp only
    split
    · next a f taken there =>
      have sent := (read.fanOut m a u g there).nextChunk m (u.chunk + 1)
      split
      · exact (sent.keepsCopies m (g := fun f => { f with source := some f.running, progress := .draining })
          (fun _ => rfl) fun _ _ => .inr (.inl rfl)).endReading m
      · exact sent
    · exact read
  | some x =>
    dsimp only
    split
    · next a f taken there =>
      have sent := (counted.fanOut m a u g there).nextChunk m (u.chunk + 1)
      split
      · exact (sent.compareRecopy m u.entry x).endReading m
      · split
        · exact sent
        · exact sent.endReading m
    · exact counted

theorem State.DoneWith.pieceDone (g : SegmentIx) (rest : List Piece) : (s.pieceDone m g rest).1.DoneWith n y T W S := by
  unfold State.pieceDone
  split
  · split
    · exact h.chunkGood m g _
    · exact h
  · exact h.working m (fun _ => rfl) (fun _ => rfl) (fun _ => rfl) fun _ => rfl

theorem State.DoneWith.haltTake : (s.haltTake m).1.DoneWith n y T W S := by
  have halting : (s.modifyTake m fun t => { t with halting := true }).DoneWith n y T W S :=
    h.working m (fun _ => rfl) (fun _ => rfl) (fun _ => rfl) fun _ => rfl
  unfold State.haltTake
  dsimp only
  split
  · exact halting.enterStopping m
  · exact halting.enterStopping m
  · exact halting.enterStopping m
  · exact halting

theorem State.DoneWith.fileUnreadable (e : Nat) (g : SegmentIx) : (s.fileUnreadable m e g).1.DoneWith n y T W S := by
  have failed := (h.countChunkRead m).modifyFile m (e := e) (g := fun f =>
    { f with condition := .unreadable, progress := .draining, running := Digest.start
             copies := f.copies.map (CopyRecord.failIf (· == .writing) .source) }) fun same f there => by
      subst same
      obtain ⟨a, taken, done⟩ := (h.countChunkRead m).taken
      exact staysAt_failWriting f y .unreadable Digest.start .source (done.safe e f (by simpa [State.file?, taken] using there))
  have left {w : State} (done : w.DoneWith n y T W S) :
      (((w.latch (condSourceFault m)).withdraw m fun o => o.entry == e).1.finishIf m e).DoneWith n y T W S :=
    ((done.attention (attentionOnly_latch w _)).withdraw m _).finishIf m e
  have counted {w : State} (done : w.DoneWith n y T W S) : (w.modifyTake m fun t => { t with
      reading := .none, counters := { t.counters with filesUnreadable := satInc t.counters.filesUnreadable } }).DoneWith
        n y T W S := done.working m (fun _ => rfl) (fun _ => rfl) (fun _ => rfl) fun _ => rfl
  unfold State.fileUnreadable
  dsimp only
  split
  · apply State.DoneWith.haltTake (m := m)
    apply left
    apply counted
    exact failed
  · dsimp only
    apply left
    apply counted
    exact failed

theorem State.DoneWith.recopyFailed (e : Nat) (x : TargetIx) (g : SegmentIx) :
    (s.recopyFailed m e x g).1.DoneWith n y T W S := by
  have ended := (h.countChunkRead m).endReading m
  unfold State.recopyFailed
  dsimp only
  split
  · next writing =>
    obtain ⟨c, copy, state⟩ := Option.map_eq_some_iff.1 writing
    obtain ⟨f, there, rfl⟩ := Option.map_eq_some_iff.1 copy
    exact ended.failsAt m e .source (ended.ne_of_writing m there state) _
  · exact ended

theorem State.DoneWith.countDelivered (u : SegmentUse) (len : Nat) (p : Piece) (cls : ResultClass) :
    (s.countDelivered m u len p cls).DoneWith n y T W S := by
  have counted := h.counts m fun c => { c with bytesRead := satAdd 64 c.bytesRead (fileBytesOf len p.sector p.count) }
  unfold State.countDelivered
  dsimp only
  split
  · exact counted.countCorrected m u
  · exact counted

theorem State.DoneWith.deliverPiece (g : SegmentIx) (u : SegmentUse) (len : Nat) (p : Piece) (rest : List Piece)
    (cls : ResultClass) (data : List Byte) : (s.deliverPiece m g u len p rest cls data).1.DoneWith n y T W S :=
  (((h.storePiece g _).foldPass m u _).countDelivered m u len p cls).pieceDone m g rest

theorem State.DoneWith.discardPiece (g : SegmentIx) (u : SegmentUse) (p : Piece) (cls : ResultClass) :
    (s.discardPiece m g u p cls).1.DoneWith n y T W S := by
  unfold State.discardPiece
  dsimp only
  split
  · exact h.countChunkRead m
  · split
    · exact (h.countDelivered m u _ p cls).countChunkRead m
    · exact h.countChunkRead m

theorem State.DoneWith.fillPiece (g : SegmentIx) (u : SegmentUse) (len : Nat) (p : Piece) (rest : List Piece) :
    (s.fillPiece m g u len p rest).1.DoneWith n y T W S :=
  (((h.storePiece g _).foldPass m u _).damage m u.entry).pieceDone m g rest

theorem State.DoneWith.pieceEnded (cls : ResultClass) (data : List Byte) : (s.pieceEnded m cls data).1.DoneWith n y T W S := by
  unfold State.pieceEnded
  cases s.take? m with
  | none => exact h
  | some a =>
    dsimp only
    cases a.chunkRead with
    | none => exact h
    | some cr =>
      dsimp only
      split
      · next u discard p rest _ _ =>
        split
        · exact h.discardPiece m cr.segment u p cls
        · split
          · exact h.countChunkRead m
          · cases a.file? u.entry with
            | none => exact h.countChunkRead m
            | some f =>
              dsimp only
              split
              · exact h.deliverPiece m cr.segment u f.length p rest cls data
              · cases u.pass with
                | some x => exact h.recopyFailed m u.entry x cr.segment
                | none =>
                  dsimp only
                  split
                  · exact h.fillPiece m cr.segment u f.length p rest
                  · exact h.fileUnreadable m u.entry cr.segment
      · exact h

/-! ### A whole step -/

omit m in
theorem State.DoneWith.answerClamped (c : Bool) (st : Status) (body : List Byte) :
    (s.answerClamped c st body).DoneWith n y T W S := by
  unfold State.answerClamped
  split
  · exact h
  · exact h.of_same rfl rfl rfl

omit h m in
/-- No follow-on action brings the target back. -/
theorem State.DoneWith.doTask (h : s.DoneWith n y T W S) : ∀ t : Task, (doTask s t).1.DoneWith n y T W S
  | .workHead m => h.workHead m
  | .goOn m => h.goOn m
  | .tryRead m => h.tryRead m
  | .testFinish m e => h.testFinish m e
  | .freeSegment g => h.freeSegment g
  | .handPiece m => h.handPiece m
  | .pieceEnded m cls data => h.pieceEnded m cls data
  | .endWait m => h.endWait m
  | .recopyLeft m => h.recopyLeft m
  | .laneTests m => h.laneTests m
  | .takeReply _ c st _ => h.answerClamped c st _

omit m in
theorem State.DoneWith.settle (k : Nat) (ts : List Task) : (settle k ts s).DoneWith n y T W S :=
  settle_invariant (P := fun u => u.DoneWith n y T W S) (A := fun _ => True)
    (fun _ t done _ => ⟨done.doTask t, fun _ _ => trivial⟩) k ts s h fun _ _ => trivial

end

end Sys2Proof.Machine
end

