-- ==== Sys2Proof/Proofs/TargetRemoval.lean ====
section
/-! ADJUST TAKE. What is left of a target the moment the request has removed it. -/

namespace Sys2Proof.Machine

/-- A fold in which one member brings a property about, from one that the members before it keep to one that the members
behind it keep. -/
theorem foldl_establishes {α β : Type} {f : β → α → β} {P Q : β → Prop} {y : α} : ∀ {xs : List α} {b : β},
    y ∈ xs → xs.Nodup → (∀ b x, x ≠ y → P b → P (f b x)) → (∀ b, P b → Q (f b y)) →
      (∀ b x, x ≠ y → Q b → Q (f b x)) → P b → Q (xs.foldl f b)
  | x :: xs, b, mem, once, before, here, behind, h => by
    obtain ⟨out, once'⟩ := List.nodup_cons.1 once
    rw [List.foldl_cons]
    by_cases x_ : x = y
    · subst x_
      exact List.foldlRecOn _ _ (here b h) fun c q z m => behind c z (fun z_ => out (z_ ▸ m)) q
    · exact foldl_establishes (List.mem_of_ne_of_mem (Ne.symm x_) mem) once' before here behind (before b x x_ h)

/-! ### The copies a take loses at a target -/

theorem failIf_unsafe (r : CopyReason) (c : CopyRecord) : c.failIf CopyState.unsafe_ r = c.lost r := by
  cases state : c.state <;> simp [CopyRecord.failIf, CopyRecord.lost, CopyRecord.fail, CopyState.unsafe_, state]

theorem lost_safe (r : CopyReason) (c : CopyRecord) : (c.lost r).state.unsafe_ = false := by
  cases state : c.state <;> simp [CopyRecord.lost, CopyState.unsafe_, state]

theorem file_failTarget (t : Take) (x : TargetIx) (r : CopyReason) (e : Nat) : (t.failTarget x r).file? e
    = (t.file? e).map fun f => f.modifyCopy x (CopyRecord.failIf CopyState.unsafe_ r) := file_mapEntries rfl e

/-- The record that a started file's copy on y has once y is removed. -/
def Take.lostAt (a : Take) (y : TargetIx) (e : Nat) (c : CopyRecord) : Prop :=
  ∃ f, a.file? e = some f ∧ f.progress.started ∧ c = (f.copy y).lost .removed

/-! ### A target on its way out -/

/-- The take `t` has lost target y from its set; the files stand as in `a`, as far as the copies of the started ones on
y go. -/
structure Take.Leaves (y : TargetIx) (a t : Take) : Prop where
  outside : t.targets.getLsbD y.val = false
  files : ∀ e f, a.file? e = some f → ∃ g, t.file? e = some g ∧ g.progress = f.progress
    ∧ (f.progress.started → g.copy y = f.copy y)

/-- Lane n, whose take was `a`, has lost target y from its set; with F its orders there are withdrawn. -/
structure State.Leaving (n : LaneIx) (y : TargetIx) (a : Take) (F S : Prop) (s : State) : Prop where
  taken : ∃ t, s.take? n = some t ∧ a.Leaves y t
  fifo : F → ∀ o ∈ (s.target y).fifos[n], o.withdrawn = true
  short : S → (s.pool y).short.Nodup

section
variable {y : TargetIx} {a t u : Take} (h : a.Leaves y t)
include h

theorem Take.Leaves.mapFiles {g : Nat → FileEntry → FileEntry} (targets : u.targets = t.targets)
    (files : ∀ e, u.file? e = (t.file? e).map (g e)) (progress : ∀ e f, (g e f).progress = f.progress)
    (copy : ∀ e f, a.file? e = some f → f.progress.started → ∀ f', (g e f').copy y = f'.copy y) : a.Leaves y u where
  outside := targets ▸ h.outside
  files e f there := by
    obtain ⟨f', found, same, copies⟩ := h.files e f there
    exact ⟨g e f', by rw [files e, found]; rfl, (progress e f').trans same,
      fun started => (copy e f there started f').trans (copies started)⟩

/-- Once the copies on y have failed, the take is done with y. -/
theorem Take.Leaves.failTarget : (t.failTarget y .removed).DoneWith y (a.lostAt y) False where
  outside := h.outside
  unlisted p mem := by simpa using (List.mem_filter.1 mem).2
  safe e f there := by
    rw [file_failTarget, Option.map_eq_some_iff] at there
    obtain ⟨f', -, rfl⟩ := there
    rw [copy_modifyCopy_same, failIf_unsafe]
    exact lost_safe _ _
  tracked e c lost := by
    obtain ⟨f, there, started, rfl⟩ := lost
    obtain ⟨f', found, same, copies⟩ := h.files e f there
    exact ⟨_, by rw [file_failTarget, found]; rfl, by simpa [FileEntry.modifyCopy, same] using started,
      by rw [copy_modifyCopy_same, failIf_unsafe, copies started]⟩
  elsewhere w := w.elim

end

section
variable {n : LaneIx} {y : TargetIx} {a : Take} {F S : Prop} {s t : State} (h : s.Leaving n y a F S)
include h

theorem State.Leaving.of_same (lanes : t.lanes = s.lanes) (targets : t.targets = s.targets)
    (short : (t.pool y).short = (s.pool y).short) : t.Leaving n y a F S where
  taken := by simpa [State.take?, lanes] using h.taken
  fifo := by simpa [State.target, targets] using h.fifo
  short := short ▸ h.short

theorem State.Leaving.modifyTake {f : Take → Take} (ok : ∀ t, a.Leaves y t → a.Leaves y (f t)) :
    (s.modifyTake n f).Leaving n y a F S where
  taken := by
    obtain ⟨t, taken, leaves⟩ := h.taken
    exact ⟨f t, by rw [modifyTake_of_take s n f taken, take_setLane_same], ok t leaves⟩
  fifo := h.fifo
  short := h.short

theorem State.Leaving.leaveShort {x : TargetIx} (ne : x ≠ y) : (s.leaveShort x n).Leaving n y a F S := by
  have left : (s.modifyPool x fun p => { p with short := (s.pool x).short.erase n }).Leaving n y a F S :=
    h.of_same rfl rfl (congrArg Pool.short (pool_setPool_ne (h := Ne.symm ne) ..))
  unfold State.leaveShort
  split
  · dsimp only
    split
    · exact left.of_same rfl rfl rfl
    · exact left
  · exact h

/-- A file that had not started gives back its allocation. -/
theorem State.Leaving.giveBack {e : Nat} (idle : ∀ f, a.file? e = some f → ¬ f.progress.started) (x : TargetIx) :
    (s.giveBack n e x).Leaving n y a F S := by
  have cleared {v : State} (h : v.Leaving n y a F S) :
      (v.modifyCopy n e x fun c => { c with allocation := none }).Leaving n y a F S := by
    refine h.modifyTake fun t leaves => leaves.mapFiles
      (g := fun d f => if d = e then f.modifyCopy x (fun c => { c with allocation := none }) else f) rfl
      (fun d => ?_) (fun d f => ?_) fun d f there started f' => ?_
    · rw [file_modifyFile]
      split <;> simp
    · split <;> rfl
    · rw [if_neg]
      rintro rfl
      exact idle f there started
  unfold State.giveBack
  split
  · exact h
  · refine cleared ?_
    split
    · refine h.of_same rfl rfl ?_
      rw [State.modifyPool, pool_setPool]
      split
      · subst_vars
        exact returnRuns_short ..
      · rfl
    · exact h

/-- The orders at any target are withdrawn. -/
theorem State.Leaving.withdrawAt {x : TargetIx} (ne : x ≠ y) (p : WriteOrder → Bool) :
    (s.withdrawAt n x p).1.Leaving n y a F S := by
  obtain ⟨head, queued, -, -, eq⟩ := withdrawAt_eq s n x p
  have kept : (s.modifyTarget x fun v => { v with
      fifos := v.fifos.set n.val (head.map (·.markIf p) ++ queued.filter fun o => !p o) n.isLt }).Leaving n y a F S :=
    ⟨h.taken, by simpa [modifyTarget_eq, target_setTarget_ne (h := Ne.symm ne)] using h.fifo, h.short⟩
  rw [eq]
  exact kept.of_same (by simp) (by simp) (by simp [State.pool])

/-- All of the lane's orders at y are withdrawn. -/
theorem State.Leaving.withdrawn : (s.withdrawAt n y fun _ => true).1.Leaving n y a True S := by
  obtain ⟨head, queued, -, -, eq⟩ := withdrawAt_eq s n y fun _ => true
  have kept : (s.modifyTarget y fun v => { v with
      fifos := v.fifos.set n.val (head.map (fun o => o.markIf fun _ => true) ++ queued.filter fun _ => !true) n.isLt }).Leaving
        n y a True S := by
    refine ⟨h.taken, fun _ o mem => ?_, h.short⟩
    obtain ⟨o', -, rfl⟩ : ∃ o', o' ∈ head ∧ o'.markIf (fun _ => true) = o := by
      simpa [modifyTarget_eq] using mem
    rfl
  rw [eq]
  exact kept.of_same (by simp) (by simp) (by simp [State.pool])

end

/-- The lane leaves a short list it is on once at most. -/
theorem leaveShort_out {s : State} {y : TargetIx} {n : LaneIx} (once : (s.pool y).short.Nodup) :
    n ∉ ((s.leaveShort y n).pool y).short := by
  have erased : n ∉ (s.pool y).short.erase n := once.not_mem_erase
  unfold State.leaveShort
  split
  · have left : ((s.modifyPool y fun p => { p with short := (s.pool y).short.erase n }).pool y).short
      = (s.pool y).short.erase n := by rw [State.modifyPool, pool_setPool_same]
    dsimp only
    split
    · exact fun mem => erased ((congrArg (n ∈ ·) left).mp mem)
    · exact fun mem => erased ((congrArg (n ∈ ·) left).mp mem)
  · next out => simpa using out

/-- What an ALLOCATING file holds at a target is given back. -/
def State.letGo (s : State) (n : LaneIx) (file : Option Nat) (x : TargetIx) : State :=
  match file with
  | some e => s.giveBack n e x
  | none => s

/-- How a removed target leaves the lane: what an ALLOCATING file holds there is given back, the copies there fail, and
the lane leaves its short list (R28). -/
def State.dropTarget (n : LaneIx) (file : Option Nat) (s : State) (x : TargetIx) : State :=
  ((s.letGo n file x).modifyTake n fun t => t.failTarget x .removed).leaveShort x n

section
variable {n : LaneIx} {x y : TargetIx} {a : Take} {S : Prop} {s : State} {file : Option Nat}
  (idle : ∀ e, file = some e → ∀ f, a.file? e = some f → ¬ f.progress.started)

include idle in
theorem State.Leaving.gaveBack {F : Prop} (h : s.Leaving n y a F S) (x : TargetIx) :
    (s.letGo n file x).Leaving n y a F S := by
  cases file with
  | none => exact h
  | some e => exact h.giveBack (idle e rfl) x

include idle in
theorem State.Leaving.dropTarget {F : Prop} (h : s.Leaving n y a F S) (ne : x ≠ y) :
    (State.dropTarget n file s x).Leaving n y a F S :=
  ((h.gaveBack idle x).modifyTake fun t leaves => leaves.mapFiles (u := t.failTarget x .removed)
    (g := fun _ f => f.modifyCopy x (CopyRecord.failIf CopyState.unsafe_ .removed)) rfl (file_failTarget t x .removed)
    (fun _ _ => rfl) fun _ _ _ _ f' => copy_modifyCopy_ne f' (Ne.symm ne) _).leaveShort ne

include idle in
/-- A removed target has left the lane. -/
theorem State.Leaving.dropped (h : s.Leaving n y a True S) :
    (State.dropTarget n file s y).DoneWith n y (a.lostAt y) False S := by
  have back := h.gaveBack idle y
  unfold State.dropTarget
  generalize s.letGo n file y = v at back ⊢
  obtain ⟨t, taken, leaves⟩ := back.taken
  have failed : (v.modifyTake n fun t => t.failTarget y .removed).DoneWith n y (a.lostAt y) False False :=
    ⟨⟨_, by rw [modifyTake_of_take v n _ taken, take_setLane_same], leaves.failTarget⟩, back.fifo trivial, False.elim⟩
  obtain ⟨done, fifo, -⟩ := failed.leaveShort n y
  exact ⟨done, fifo, fun once => leaveShort_out (back.short once)⟩

theorem State.DoneWith.dropTarget {T : Nat → CopyRecord → Prop} {W : Prop} (h : s.DoneWith n y T W S) (ne : x ≠ y) :
    (State.dropTarget n file s x).DoneWith n y T W S := by
  refine State.DoneWith.leaveShort (State.DoneWith.modifyTake ?_ n fun _ t _ done => ?_) n x
  · cases file with
    | none => exact h
    | some e => exact h.giveBack n e fun _ => ne
  · have failed : ({ t with entries := (t.failTarget x .removed).entries } : Take).DoneWith y T W :=
      done.mapFiles (g := fun _ f => f.modifyCopy x (CopyRecord.failIf CopyState.unsafe_ .removed)) rfl rfl
        (file_failTarget t x .removed) rfl
        fun _ f _ => staysAt_modifyCopy_ne f ne _
    exact failed.of_files rfl (fun p mem => List.mem_of_mem_filter mem) (fun _ => rfl) (.inl rfl)

end

/-! ### Verifications of the lane at the target -/

/-- No verify order of the lane names the target, and a verification of the lane under way there is stopped. -/
structure State.Unverified (n : LaneIx) (y : TargetIx) (s : State) : Prop where
  queue : ∀ o ∈ s.verify.queue, o.target = y → o.lane ≠ n
  active : ∀ v, s.active y = some v → v.lane = n → v.stop = true

theorem State.Unverified.of_verify {n : LaneIx} {y : TargetIx} {s t : State} (h : s.Unverified n y)
    (same : t.verify = s.verify) : t.Unverified n y := by
  obtain ⟨queue, active⟩ := h
  exact ⟨same ▸ queue, by simpa [State.active, same] using active⟩

/-- A stop of verifications changes the verify unit alone. -/
theorem stopLaneVerifications_rest (s : State) (n : LaneIx) (ts : List TargetIx) :
    ∃ v, s.stopLaneVerifications n ts = { s with verify := v } := by
  unfold State.stopLaneVerifications
  refine List.foldlRecOn (motive := fun t => ∃ v, t = { s with verify := v }) _ _
    ⟨{ s.verify with queue := s.verify.queue.filter fun o => !(o.lane == n && ts.contains o.target) }, rfl⟩ ?_
  rintro _ ⟨v, rfl⟩ t -
  split
  · exact ⟨v, rfl⟩
  · split
    · unfold State.stopVerification
      split
      · exact ⟨v, rfl⟩
      · split <;> exact ⟨_, rfl⟩
    · exact ⟨v, rfl⟩

theorem queue_stopVerification (s : State) (t : TargetIx) : (s.stopVerification t).verify.queue = s.verify.queue := by
  unfold State.stopVerification
  split
  · rfl
  · split <;> rfl

theorem active_stopVerification {s : State} {x y : TargetIx} (ne : x ≠ y) : (s.stopVerification x).active y = s.active y := by
  unfold State.stopVerification
  split
  · rfl
  · split <;> exact active_setActive_ne (h := Ne.symm ne) ..

/-- The stopped verification of a target ends, or is marked. -/
theorem stopped_stopVerification {s : State} {y : TargetIx} {v : Verification} (h : (s.stopVerification y).active y = some v) :
    v.stop = true := by
  unfold State.stopVerification at h
  split at h
  · next none_ => rw [none_] at h; cases h
  · split at h
    · simp at h
    · simp only [active_setActive_same, Option.some.injEq] at h
      rw [← h]

/-- A stop of the lane's verifications leaves none at the targets it names. -/
theorem unverified_stopLaneVerifications {s : State} {n : LaneIx} {y : TargetIx} {ts : List TargetIx} (mem : y ∈ ts)
    (once : ts.Nodup) : (s.stopLaneVerifications n ts).Unverified n y := by
  let P (t : State) : Prop := ∀ o ∈ t.verify.queue, o.target = y → o.lane ≠ n
  have queue : P { s with verify := { s.verify with
      queue := s.verify.queue.filter fun o => !(o.lane == n && ts.contains o.target) } } := by
    intro o m here lane
    have out := (List.mem_filter.1 m).2
    simp [lane, here, mem] at out
  unfold State.stopLaneVerifications
  refine foldl_establishes (P := P) (Q := State.Unverified n y) mem once (fun t x ne h => ?_) (fun t h => ?_)
    (fun t x ne h => ?_) queue
  · split
    · exact h
    · split
      · exact fun o m => h o (queue_stopVerification t x ▸ m)
      · exact h
  · split
    · next none_ => exact ⟨h, fun v there => by rw [none_] at there; cases there⟩
    · next v there =>
      split
      · exact ⟨fun o m => h o (queue_stopVerification t y ▸ m), fun v there _ => stopped_stopVerification there⟩
      · next other =>
        refine ⟨h, fun v' there' lane => ?_⟩
        rw [there, Option.some.injEq] at there'
        exact absurd (there' ▸ lane) other
  · split
    · exact h
    · split
      · exact ⟨fun o m => h.queue o (queue_stopVerification t x ▸ m),
          fun v there => h.active v (active_stopVerification ne ▸ there)⟩
      · exact h

/-! ### The lane with the targets removed -/

/-- The lane's settings are lowered (R28). -/
def State.lowered (s : State) (n : LaneIx) (left : TargetSet) (k : Nat) : State :=
  s.modifyTake n fun t => { t with targets := left, k := k }

/-- What is left of the lane's FIFOs at the targets removed is withdrawn (R28). -/
def State.purged (s : State) (n : LaneIx) (left : TargetSet) (k : Nat) (gone : List TargetIx) : Work :=
  forEach gone (fun x s => s.withdrawAt n x fun _ => true) (s.lowered n left k)

/-- The lane when ADJUST TAKE has removed targets, before its follow-on actions (R28). -/
def State.adjusted (s : State) (n : LaneIx) (t : Take) (left : TargetSet) (k : Nat) (gone : List TargetIx) : State :=
  gone.foldl (State.dropTarget n t.allocatingFile) ((s.purged n left k gone).1.stopLaneVerifications n gone)

/-- A STARVED lane is RUNNING again; any other stays. -/
theorem adjust_state (s : State) (n : LaneIx) (t : Take) (left : TargetSet) (k : Nat) (gone : List TargetIx) :
    (s.adjust n t left k gone).1 = s.adjusted n t left k gone
      ∨ (s.adjust n t left k gone).1 = ((s.adjusted n t left k gone).enterRunning n).1 := by
  cases state : t.state <;> simp only [State.adjust, state]
  case starved => exact .inr rfl
  all_goals exact .inl rfl

section
variable {s : State} {n : LaneIx} {a : Take} (taken : s.take? n = some a) {left : TargetSet} {k : Nat} {gone : List TargetIx}

include taken in
theorem lowered_take (left : TargetSet) (k : Nat) : (s.lowered n left k).take? n = some { a with targets := left, k := k } := by
  rw [State.lowered, modifyTake_of_take s n _ taken, take_setLane_same]

/-- An ALLOCATING file has not started. -/
theorem not_started_of_allocatingFile {e : Nat} (h : a.allocatingFile = some e) (f : FileEntry) (there : a.file? e = some f) :
    ¬ f.progress.started := by
  obtain ⟨p, first, rfl⟩ := (Option.map_eq_some_iff (f := Prod.fst)).1 h
  have allocating := List.find?_some (p := fun p : Nat × FileEntry => p.2.progress == .allocating) first
  rw [(mem_files_iff a p.1 p.2).1 (List.mem_of_find?_eq_some first), Option.some.injEq] at there
  exact not_started_of (.inr (by simpa [← there] using allocating))

include taken in
/-- The lane is done with each target removed. -/
theorem doneWith_adjusted {y : TargetIx} (mem : y ∈ gone) (once : gone.Nodup) (out : left.getLsbD y.val = false) :
    (s.adjusted n a left k gone).DoneWith n y (a.lostAt y) False (s.pool y).short.Nodup := by
  have lowered : (s.lowered n left k).Leaving n y a False (s.pool y).short.Nodup :=
    ⟨⟨{ a with targets := left, k := k }, lowered_take taken left k, out, fun e f there => ⟨f, there, rfl, fun _ => rfl⟩⟩,
      False.elim, id⟩
  have purged : (s.purged n left k gone).1.Leaving n y a True (s.pool y).short.Nodup := by
    rw [State.purged, forEach_state]
    exact foldl_establishes (P := State.Leaving n y a False _) (Q := State.Leaving n y a True _) mem once
      (fun _ _ ne h => h.withdrawAt ne _) (fun _ h => h.withdrawn) (fun _ _ ne h => h.withdrawAt ne _) lowered
  have idle (e : Nat) (file : a.allocatingFile = some e) := not_started_of_allocatingFile file
  obtain ⟨v, stopped⟩ := stopLaneVerifications_rest (s.purged n left k gone).1 n gone
  refine foldl_establishes (P := State.Leaving n y a True _) (Q := State.DoneWith n y _ False _) mem once
    (fun _ _ ne h => h.dropTarget idle ne) (fun _ h => h.dropped idle) (fun _ _ ne h => h.dropTarget ne) ?_
  rw [stopped]
  exact purged.of_same rfl rfl rfl

end

/-- No verification is left for the lane at a target removed. -/
theorem unverified_adjusted (s : State) (n : LaneIx) (a : Take) (left : TargetSet) (k : Nat) {gone : List TargetIx}
    {y : TargetIx} (mem : y ∈ gone) (once : gone.Nodup) : (s.adjusted n a left k gone).Unverified n y := by
  refine List.foldlRecOn (motive := State.Unverified n y) _ _ (unverified_stopLaneVerifications mem once) fun v h x _ => ?_
  refine h.of_verify ((frame_leaveShort _ x n).verify.trans ?_)
  show (v.letGo n a.allocatingFile x).verify = _
  cases a.allocatingFile with
  | none => rfl
  | some e => exact (frame_giveBack v n e x).verify

/-! ### What the lane's take keeps -/

/-- The take differs in its entries' records and its recopy list alone. -/
structure Take.Relisted (a b : Take) : Prop where
  rest : b = { a with entries := b.entries, recopyList := b.recopyList }
  length : b.entries.length = a.entries.length

theorem Take.Relisted.trans {a b c : Take} (h : a.Relisted b) (k : b.Relisted c) : a.Relisted c where
  rest := by have h1 := h.rest; have h2 := k.rest; rw [h1] at h2; exact h2
  length := k.length.trans h.length

theorem dropTarget_take {s : State} {n : LaneIx} {a : Take} (taken : s.take? n = some a) (file : Option Nat) (x : TargetIx) :
    ∃ b, (State.dropTarget n file s x).take? n = some b ∧ a.Relisted b := by
  have failed {v : State} {b : Take} (taken' : v.take? n = some b) (r : a.Relisted b) :
      ∃ c, ((v.modifyTake n fun t => t.failTarget x .removed).leaveShort x n).take? n = some c ∧ a.Relisted c := by
    refine ⟨b.failTarget x .removed, ?_, r.trans ⟨rfl, by simp [Take.failTarget]⟩⟩
    have lanes : (((v.modifyTake n fun t => t.failTarget x .removed).leaveShort x n).take? n)
        = (v.modifyTake n fun t => t.failTarget x .removed).take? n := by
      simp [State.take?, (leaveShort_rest (v.modifyTake n fun t => t.failTarget x .removed) x n).lanes]
    rw [lanes, modifyTake_of_take v n _ taken', take_setLane_same]
  unfold State.dropTarget
  cases file with
  | none => exact failed taken ⟨rfl, rfl⟩
  | some e =>
    show ∃ b, (((s.giveBack n e x).modifyTake n fun t => t.failTarget x .removed).leaveShort x n).take? n = some b
      ∧ a.Relisted b
    unfold State.giveBack
    split
    · exact failed taken ⟨rfl, rfl⟩
    · have taken' {v : State} (same : v.take? n = some a) (g : CopyRecord → CopyRecord) :
          (v.modifyCopy n e x g).take? n = some (a.modifyFile e (·.modifyCopy x g)) := by
        rw [modifyCopy_of_take same, take_setLane_same]
      refine failed (taken' ?_ _) ⟨rfl, modifyFile_entries_length ..⟩
      split <;> exact taken

/-- The lane's take has the settings left. -/
theorem adjusted_take {s : State} {n : LaneIx} {a : Take} (taken : s.take? n = some a) (left : TargetSet) (k : Nat)
    (gone : List TargetIx) :
    ∃ b, (s.adjusted n a left k gone).take? n = some b ∧ Take.Relisted { a with targets := left, k := k } b := by
  refine List.foldlRecOn (motive := fun v : State => ∃ b, v.take? n = some b
    ∧ Take.Relisted { a with targets := left, k := k } b) _ _ ?_ ?_
  · obtain ⟨v, stopped⟩ := stopLaneVerifications_rest (s.purged n left k gone).1 n gone
    refine ⟨_, ?_, rfl, rfl⟩
    rw [stopped]
    show (s.purged n left k gone).1.take? n = _
    rw [State.purged, forEach_state]
    refine List.foldlRecOn (motive := fun v : State => v.take? n = some { a with targets := left, k := k }) _ _
      (lowered_take taken left k) ?_
    intro v h x _
    simpa only [State.take?, withdrawAt_lanes] using h
  · rintro v ⟨b, taken', r⟩ x -
    obtain ⟨c, taken'', r'⟩ := dropTarget_take taken' a.allocatingFile x
    exact ⟨c, taken'', r.trans r'⟩

end Sys2Proof.Machine
end

