-- ==== Sys2Proof/Proofs/RemovalKept.lean ====
section
/-! ADJUST TAKE. What the rest of the step keeps of a target's removal, and a lane that waits until its wait is ended. -/

namespace Sys2Proof.Machine

/-! ### The end of the step -/

/-- The lane is done with the target, its verifications there included. -/
structure State.Parted (n : LaneIx) (y : TargetIx) (T : Nat → CopyRecord → Prop) (W S : Prop) (s : State) : Prop where
  done : s.DoneWith n y T W S
  verify : s.Unverified n y

section
variable {n : LaneIx} {y : TargetIx} {T : Nat → CopyRecord → Prop} {W S : Prop} {s : State} (h : s.Parted n y T W S)
include h

theorem State.Parted.startVerification {o : VerifyOrder} (other : o.target = y → o.lane ≠ n) :
    (s.startVerification o).Parted n y T W S where
  done := by
    unfold State.startVerification
    dsimp only
    apply State.DoneWith.modifyCopy
    · exact h.done.of_same rfl rfl rfl
    · exact fun lane here => other here lane
  verify := by
    refine ⟨fun p mem => h.verify.queue p (List.mem_of_mem_erase mem), fun v there lane => ?_⟩
    have there' : State.active (State.setActive { s with verify := { s.verify with queue := s.verify.queue.erase o } } o.target
      (some { lane := o.lane, entry := o.entry, buffer := s.verify.freeBuffer, chunk := 0, piece := 0, read := .ready,
              digest := Digest.start, stop := false })) y = some v := there
    rw [active_setActive] at there'
    split at there'
    · next here =>
      rw [Option.some.injEq] at there'
      rw [← there'] at lane
      exact absurd lane (other here.symm)
    · exact h.verify.active v there' lane

theorem State.Parted.startVerifications : s.startVerifications.Parted n y T W S :=
  List.foldlRecOn (motive := State.Parted n y T W S) _ _ h fun _ h' o mem => by
    split
    · exact h'.startVerification (h.verify.queue o mem)
    · exact h'

theorem State.Parted.modifyTarget (x : TargetIx) {f : Target → Target} (fifos : ∀ v, (f v).fifos = v.fifos) :
    (s.modifyTarget x f).Parted n y T W S where
  done := by
    have same : ((s.modifyTarget x f).target y).fifos = (s.target y).fifos := by
      rw [modifyTarget_eq, target_setTarget]
      split
      · next x_ => rw [fifos, x_]
      · rfl
    exact ⟨h.done.taken, by simpa only [same] using h.done.fifo, h.done.short⟩
  verify := h.verify.of_verify rfl

theorem State.Parted.grantTo (x : TargetIx) (c : Candidate) (k : Nat) : (s.grantTo x c k).Parted n y T W S := by
  have one := h.modifyTarget x (f := fun v => { v with holder := some c, grantCount := k }) fun _ => rfl
  unfold State.grantTo
  cases c with
  | lane m => exact one.modifyTarget x fun _ => rfl
  | verifier =>
    have two := one.modifyTarget x (f := fun v => { v with op := .readback false }) fun _ => rfl
    dsimp only
    split
    · exact two
    · next v there =>
      refine ⟨two.done.of_same rfl rfl rfl, two.verify.queue, fun v' there' lane => ?_⟩
      rw [active_setActive] at there'
      split at there'
      · next here =>
        rw [Option.some.injEq] at there'
        rw [← there'] at lane ⊢
        exact two.verify.active v (here ▸ there) lane
      · exact two.verify.active v' there' lane

theorem State.Parted.arbitrate (x : TargetIx) : (s.arbitrate x).Parted n y T W S := by
  unfold State.arbitrate State.chooseCandidate
  dsimp only
  split
  · split
    · exact h.modifyTarget x fun _ => rfl
    · split
      · exact h.grantTo x _ _
      · (repeat' split)
        case h_1 => exact h.grantTo x _ _
        case h_1.isTrue => exact h.grantTo x _ _
        case h_2.isTrue => exact h.grantTo x _ _
        all_goals exact h
  · exact h

theorem State.Parted.conclude : s.conclude.Parted n y T W S := by
  have chosen : s.startVerifications.arbitrateAll.Parted n y T W S :=
    List.foldlRecOn (motive := State.Parted n y T W S) _ _ h.startVerifications fun _ h' x _ => h'.arbitrate x
  exact ⟨chosen.done.of_same (by simp [State.conclude]) (by simp [State.conclude]) (by simp [State.conclude]),
    chosen.verify.of_verify (by simp [State.conclude])⟩

theorem State.Parted.settle (k : Nat) (ts : List Task) : (Machine.settle k ts s).Parted n y T W S :=
  ⟨h.done.settle k ts, h.verify.of_verify (settle_invariant (P := fun u => LaneFrame s u) (A := fun _ => True)
    (fun u t frame _ => ⟨frame.trans (frame_doTask u t), fun _ _ => trivial⟩) k ts s (.refl s) fun _ _ => trivial).verify⟩

end

/-! ### Follow-on actions taken before others -/

theorem Ends.settle_rest {k : Nat} {w : Work} {u : State} (h : Ends k w u) (m : Nat) (ts : List Task) :
    Machine.settle (k + m) (w.2 ++ ts) w.1 = Machine.settle m ts u := by
  induction h with
  | nil s => simp
  | @cons k s u t rest _ ih =>
    rw [Nat.succ_add]
    simpa [settle_cons] using ih

/-- What an operation for each member of a list leaves, and the follow-on actions it gives. -/
theorem forEach_tasks {α : Type} {f : α → State → Work} {P : State → Prop} {C : Task → Prop} {m : Nat} (xs : List α)
    (each : ∀ x ∈ xs, ∀ s, P s → P (f x s).1 ∧ (f x s).2.length ≤ m ∧ ∀ t ∈ (f x s).2, C t) {s : State} (h : P s) :
    P (forEach xs f s).1 ∧ (forEach xs f s).2.length ≤ m * xs.length ∧ ∀ t ∈ (forEach xs f s).2, C t := by
  have fold : ∀ (xs : List α) (w : Work),
      (∀ x ∈ xs, ∀ s, P s → P (f x s).1 ∧ (f x s).2.length ≤ m ∧ ∀ t ∈ (f x s).2, C t) → P w.1 →
      (∀ t ∈ w.2, C t) → P (xs.foldl (fun w x => w.andThen (f x)) w).1
        ∧ (xs.foldl (fun w x => w.andThen (f x)) w).2.length ≤ w.2.length + m * xs.length
        ∧ ∀ t ∈ (xs.foldl (fun w x => w.andThen (f x)) w).2, C t := by
    intro xs
    induction xs with
    | nil => exact fun w _ p c => ⟨p, by simp, c⟩
    | cons x xs ih =>
      intro w each p c
      obtain ⟨p', few, c'⟩ := each x (List.mem_cons_self ..) w.1 p
      obtain ⟨p'', few', c''⟩ := ih (w.andThen (f x)) (fun z mem => each z (List.mem_cons_of_mem _ mem)) p'
        (by simpa [Work.andThen, or_imp, forall_and] using ⟨c, c'⟩)
      refine ⟨p'', few'.trans ?_, c''⟩
      simp only [Work.andThen, List.length_append, List.length_cons, Nat.mul_succ]
      omega
  obtain ⟨p, few, c⟩ := fold xs (s, []) each h (by simp)
  exact ⟨p, few.trans_eq (Nat.zero_add _), c⟩

/-! ### How deep a lane is in its list -/

theorem files_eq (t : Take) : t.files = (List.range t.entries.length).filterMap fun e => (t.file? e).map (Prod.mk e) := by
  have indexed : t.indexed = (List.range t.entries.length).map fun e => (e, (t.entries[e]?).getD .endOfList) := by
    refine List.ext_getElem (by simp [Take.indexed]) fun i lt _ => ?_
    have lt' : i < t.entries.length := by simpa [Take.indexed] using lt
    simp [Take.indexed, lt']
  have entry (e : Nat) : ((t.entries[e]?).getD .endOfList).file? = t.file? e := by
    cases found : t.entries[e]? <;> simp [Take.file?, found, Entry.file?]
  rw [Take.files, indexed, List.filterMap_map]
  simp only [Function.comp_def, entry]

/-- A lane is no deeper when none of its files is newly in progress. -/
theorem depth_le {a b : Take} (length : b.entries.length = a.entries.length) (head : b.head = a.head)
    (files : ∀ e f, b.file? e = some f → f.progress ≠ .pending → f.progress ≠ .finished →
      ∃ g, a.file? e = some g ∧ g.progress ≠ .pending ∧ g.progress ≠ .finished) : b.depth ≤ a.depth := by
  simp only [Take.depth, files_eq, length, head, List.countP_filterMap]
  refine List.countP_mono_left fun e _ deep => ?_
  cases found : b.file? e with
  | none => simp [found] at deep
  | some f =>
    obtain ⟨⟨ne, started⟩, open_⟩ : (e ≠ a.head ∧ f.progress ≠ .pending) ∧ f.progress ≠ .finished := by
      simpa [found] using deep
    obtain ⟨g, there, started', open'⟩ := files e f found started open_
    simpa [there] using ⟨⟨ne, started'⟩, open'⟩

/-! ### A lane that waits -/

/-- From `a` to `t` some DRAINING files of the take have finished. -/
structure Take.Finishes (a t : Take) : Prop where
  rest : t = { a with entries := t.entries, counters := t.counters }
  length : t.entries.length = a.entries.length
  files : ∀ e, t.file? e = a.file? e
    ∨ ∃ f, a.file? e = some f ∧ f.progress = .draining ∧ t.file? e = some { f with progress := .finished }

theorem Take.Finishes.finish {a t : Take} (h : a.Finishes t) {e : Nat} {f : FileEntry} (there : t.file? e = some f)
    (draining : f.progress = .draining) : a.Finishes (t.finish e) where
  rest := by have h1 := h.rest; rw [h1]; rfl
  length := by simpa [Take.finish] using h.length
  files d := by
    have finish : (t.finish e).file? d
        = if d = e then (t.file? d).map fun f => { f with progress := .finished } else t.file? d :=
      file_modifyFile t e d _
    rw [finish]
    split
    · next d_ =>
      subst d_
      refine .inr ⟨f, ?_, draining, by rw [there]; rfl⟩
      rcases h.files d with same | ⟨g, -, -, done⟩
      · exact same ▸ there
      · rw [there, Option.some.injEq] at done
        rw [done] at draining
        cases draining
    · exact h.files d

/-- Lane n of `s` has waited: only files of its take have finished, and segments have become FREE. -/
def State.Waited (n : LaneIx) (a : Take) (s v : State) : Prop :=
  ∃ t x, v = State.setLane { s with staging := x } n (some t) ∧ a.Finishes t

/-- A segment whose last write order has left, of the lane's. -/
def State.LeftBy (n : LaneIx) (g : SegmentIx) (s : State) : Prop :=
  s.segment g = .free ∨ ∃ u k, s.segment g = .sending u k ∧ u.owner = n

/-- A follow-on action that leaves a waiting lane waiting. -/
inductive Task.Idles (n : LaneIx) (s : State) : Task → Prop
  | recopyLeft : Idles n s (.recopyLeft n)
  | goOn : Idles n s (.goOn n)
  | tryRead : Idles n s (.tryRead n)
  | laneTests : Idles n s (.laneTests n)
  | testFinish (e : Nat) : Idles n s (.testFinish n e)
  | freeSegment {g : SegmentIx} : s.LeftBy n g → s.staging.waiting = [] → Idles n s (.freeSegment g)

/-- How many follow-on actions one that leaves the lane waiting stands for at most. -/
def Task.weight : Task → Nat
  | .freeSegment _ => 3
  | .testFinish _ _ => 2
  | _ => 1

theorem Task.weight_pos (t : Task) : 0 < t.weight := by cases t <;> simp [Task.weight]

theorem Task.weight_le (t : Task) : t.weight ≤ 3 := by cases t <;> simp [Task.weight]

theorem Task.Idles.congr {n : LaneIx} {s v : State} {t : Task} (h : t.Idles n s) (same : v.staging = s.staging) :
    t.Idles n v := by
  cases h with
  | freeSegment left none_ => exact .freeSegment (by simpa [State.LeftBy, State.segment, same] using left) (same ▸ none_)
  | recopyLeft => exact .recopyLeft
  | goOn => exact .goOn
  | tryRead => exact .tryRead
  | laneTests => exact .laneTests
  | testFinish e => exact .testFinish e

section
variable {n : LaneIx} {a : Take} {s v : State} (waits : a.state = .waiting) (idle : a.reading = .none)
include waits idle

theorem State.Waited.take (h : s.Waited n a v) : ∃ t, v.take? n = some t ∧ a.Finishes t ∧ t.state = .waiting
    ∧ t.reading = .none := by
  obtain ⟨t, x, rfl, fin⟩ := h
  have rest := fin.rest
  exact ⟨t, take_setLane_same .., fin, by rw [rest]; exact waits, by rw [rest]; exact idle⟩

/-- One follow-on action of a lane that waits. -/
theorem State.Waited.act (h : s.Waited n a v) {t : Task} (idles : t.Idles n v) : s.Waited n a (doTask v t).1
    ∧ ((doTask v t).2.map Task.weight).sum < t.weight ∧ (∀ u ∈ (doTask v t).2, u.Idles n (doTask v t).1)
    ∧ ∀ u : Task, u.Idles n v → u.Idles n (doTask v t).1 := by
  obtain ⟨b, taken, fin, state, reading⟩ := h.take waits idle
  have stays (same : doTask v t = (v, [])) : s.Waited n a (doTask v t).1
      ∧ ((doTask v t).2.map Task.weight).sum < t.weight ∧ (∀ u ∈ (doTask v t).2, u.Idles n (doTask v t).1)
      ∧ ∀ u : Task, u.Idles n v → u.Idles n (doTask v t).1 := by
    rw [same]
    exact ⟨h, t.weight_pos, by simp, fun _ => id⟩
  cases idles with
  | recopyLeft => exact stays (by simp [doTask, State.recopyLeft, taken, reading])
  | goOn => exact stays (by simp [doTask, State.goOn, taken, state])
  | tryRead => exact stays (tryRead_of_idle taken reading)
  | laneTests => exact stays (by simp [doTask, State.laneTests, taken, state])
  | testFinish e =>
    by_cases may : v.mayFinish n e = true
    · have done : doTask v (.testFinish n e) = (v.setLane n (some (b.finish e)), [.goOn n]) := by
        simp only [doTask, State.testFinish, may, if_true, finishFile_eq taken]
      rw [done]
      have ⟨f, there, draining⟩ : ∃ f, b.file? e = some f ∧ f.progress = .draining := by
        unfold State.mayFinish at may
        rw [taken] at may
        cases found : b.file? e with
        | none => simp [found] at may
        | some f => exact ⟨f, rfl, by simp [found, FileEntry.mayFinish] at may; exact may.1⟩
      refine ⟨?_, by simp [Task.weight], fun u mem => ?_, fun u idles => idles.congr rfl⟩
      · obtain ⟨t, x, rfl, -⟩ := h
        exact ⟨b.finish e, x, setLane_setLane .., fin.finish there draining⟩
      · obtain rfl := List.mem_singleton.1 mem
        exact .goOn
    · exact stays (by simp [doTask, State.testFinish, may])
  | @freeSegment g left none_ =>
    have nobody : v.staging.nextWaiting = none := by simp [Staging.nextWaiting, none_]
    rcases owner : v.endedUse g with _ | m
    · exact stays (by simp [doTask, State.freeSegment, owner])
    · have own : m = n := by
        rcases left with free | ⟨u, k, sending, rfl⟩
        · simp [State.endedUse, free] at owner
        · simp only [State.endedUse, sending] at owner
          split at owner
          · exact (Option.some.inj owner).symm
          · cases owner
      subst own
      have done : doTask v (.freeSegment g) = (v.setSegment g .free, [.tryRead m, .laneTests m]) :=
        freeSegment_of_ended owner nobody
      rw [done]
      refine ⟨?_, by simp [Task.weight], fun u mem => ?_, fun u idles => ?_⟩
      · obtain ⟨t, x, rfl, fin'⟩ := h
        exact ⟨t, (State.setSegment { s with staging := x } g .free).staging, rfl, fin'⟩
      · simp only [List.mem_cons, List.not_mem_nil, or_false] at mem
        rcases mem with rfl | rfl
        · exact .tryRead
        · exact .laneTests
      · cases idles with
        | @freeSegment g' left' _ =>
          refine .freeSegment ?_ none_
          rw [State.LeftBy, segment_setSegment]
          split
          · exact .inl rfl
          · exact left'
        | recopyLeft => exact .recopyLeft
        | goOn => exact .goOn
        | tryRead => exact .tryRead
        | laneTests => exact .laneTests
        | testFinish e => exact .testFinish e

/-- Follow-on actions that leave a waiting lane waiting run out. -/
theorem State.Waited.ends : ∀ (k : Nat) (ts : List Task) (v : State), (ts.map Task.weight).sum ≤ k → s.Waited n a v →
    (∀ t ∈ ts, t.Idles n v) → ∃ j u, j ≤ k ∧ Ends j (v, ts) u ∧ s.Waited n a u
  | k, [], v, _, h, _ => ⟨0, v, Nat.zero_le k, .nil v, h⟩
  | 0, t :: ts, v, few, _, _ => by
    have := t.weight_pos
    simp only [List.map_cons, List.sum_cons] at few
    omega
  | k + 1, t :: ts, v, few, h, idles => by
    obtain ⟨h', less, new, kept⟩ := h.act waits idle (idles t (List.mem_cons_self ..))
    simp only [List.map_cons, List.sum_cons] at few
    obtain ⟨j, u, le, ends, waited⟩ := State.Waited.ends k ((doTask v t).2 ++ ts) (doTask v t).1
      (by rw [List.map_append, List.sum_append]; omega) h' fun u mem => by
        rcases List.mem_append.1 mem with m | m
        · exact new u m
        · exact kept u (idles u (List.mem_cons_of_mem _ m))
    exact ⟨j + 1, u, Nat.succ_le_succ le, .cons ends, waited⟩

end

end Sys2Proof.Machine
end

