-- ==== Sys2Proof/Proofs/RemovalWaits.lean ====
section
/-! ADJUST TAKE in a lane that waits: the follow-on actions before its wait ends, and the wait for another pool. -/

namespace Sys2Proof.Machine

/-! ### The segments of the orders withdrawn -/

section
variable {n : LaneIx} {g : SegmentIx} {s : State}

theorem State.LeftBy.congr {t : State} (h : s.LeftBy n g) (same : t.staging = s.staging) : t.LeftBy n g := by
  simpa [State.LeftBy, State.segment, same] using h

theorem State.LeftBy.countDown (h : s.LeftBy n g) (c : SegmentIx) : (s.countDown c).1.LeftBy n g := by
  unfold State.countDown
  split
  · next u k sending =>
    rw [State.LeftBy, segment_setSegment]
    split
    · next here =>
      subst here
      rcases h with free | ⟨v, j, sending', own⟩
      · rw [sending] at free
        cases free
      · rw [sending, Segment.sending.injEq] at sending'
        exact .inr ⟨u, k - 1, rfl, sending'.1 ▸ own⟩
    · exact h
  · exact h
  · exact h

/-- What the withdrawal of the lane's orders starts from, `s`, and has reached: a state in which the lane holds no
segment and no order that it did not hold. -/
structure State.Withdraws (n : LaneIx) (s v : State) : Prop where
  left : ∀ g, s.LeftBy n g → v.LeftBy n g
  orders : ∀ (x : TargetIx), ∀ o ∈ (v.target x).fifos[n], s.LeftBy n o.segment
  few : ∀ (x : TargetIx), ((v.target x).fifos[n]).length ≤ 128

theorem withdraws_of_stagingOk (ok : s.StagingOk) : s.Withdraws n s where
  left _ := id
  orders x o mem := by
    obtain ⟨u, k, sending, own⟩ := ok.orders x n o mem
    exact .inr ⟨u, k, sending, own⟩
  few x := by
    have := (ok.once x n).length_le_card
    simpa using this

/-- A withdrawal at one target frees segments of the lane's alone. -/
theorem State.Withdraws.withdrawAt {v : State} (h : s.Withdraws n v) (x : TargetIx) (p : WriteOrder → Bool) :
    s.Withdraws n (v.withdrawAt n x p).1 ∧ (v.withdrawAt n x p).2.length ≤ 128
      ∧ ∀ t ∈ (v.withdrawAt n x p).2, ∃ g, t = .freeSegment g ∧ s.LeftBy n g := by
  obtain ⟨head, queued, all, -, eq⟩ := withdrawAt_eq v n x p
  have fits : head.length + queued.length ≤ 128 := by
    have := h.few x
    rwa [all, List.length_append] at this
  have orders (o : WriteOrder) (mem : o ∈ head ∨ o ∈ queued) : s.LeftBy n o.segment :=
    h.orders x o (by rw [all]; exact List.mem_append.2 mem)
  have kept : s.Withdraws n (v.modifyTarget x fun z => { z with
      fifos := z.fifos.set n.val (head.map (·.markIf p) ++ queued.filter fun o => !p o) n.isLt }) := by
    refine ⟨h.left, fun y o mem => ?_, fun y => ?_⟩
    · rw [modifyTarget_eq] at mem
      by_cases y_ : y = x
      · subst y_
        have mem' : o ∈ head.map (·.markIf p) ++ queued.filter fun o => !p o := by simpa using mem
        rcases List.mem_append.1 mem' with m | m
        · obtain ⟨o', here, rfl⟩ := List.mem_map.1 m
          rw [markIf_segment]
          exact orders o' (.inl here)
        · exact orders o (.inr (List.mem_of_mem_filter m))
      · rw [target_setTarget_ne (h := y_)] at mem
        exact h.orders y o mem
    · rw [modifyTarget_eq]
      by_cases y_ : y = x
      · subst y_
        have := List.length_filter_le (fun o => !p o) queued
        simp only [target_setTarget_same, Fin.getElem_fin, Vector.getElem_set_self, List.length_append, List.length_map]
        omega
      · rw [target_setTarget_ne (h := y_)]
        exact h.few y
  have counted := forEach_tasks (f := fun (o : WriteOrder) s => s.countDown o.segment) (m := 1) (P := s.Withdraws n)
    (C := fun t => ∃ g, t = .freeSegment g ∧ s.LeftBy n g) (queued.filter p) (fun o mem u h' => ?_) kept
  · rw [eq]
    obtain ⟨h', few, tasks⟩ := counted
    have := List.length_filter_le p queued
    exact ⟨h', by omega, tasks⟩
  · have left := orders o (.inr (List.mem_of_mem_filter mem))
    have targets : (u.countDown o.segment).1.targets = u.targets := by rw [countDown_rest]
    refine ⟨⟨fun g l => (h'.left g l).countDown _, by simpa [State.target, targets] using h'.orders,
      by simpa [State.target, targets] using h'.few⟩, ?_⟩
    unfold State.countDown
    split
    · split
      · exact ⟨by simp, fun t m => ⟨o.segment, by simpa using m, left⟩⟩
      · exact ⟨by simp, by simp⟩
    · exact ⟨by simp, by simp⟩
    · exact ⟨by simp, by simp⟩

end

/-! ### The follow-on actions before a wait ends -/

/-- The follow-on actions of ADJUST TAKE that test whether files have finished. -/
def State.finishTests (s : State) (n : LaneIx) : List Task :=
  let files : List (Nat × FileEntry) := match s.take? n with
    | some t => t.files
    | none => []
  files.filterMap fun p => if p.2.progress = .draining then some (Task.testFinish n p.1) else none

/-- The follow-on actions of ADJUST TAKE in a lane whose wait it ends. -/
theorem adjust_wakes {s : State} {n : LaneIx} {a : Take} (waits : a.state = .waiting) {left : TargetSet} {k : Nat}
    {gone : List TargetIx} (wakes : a.waitReason = some .targets ∨ ∃ y ∈ gone, a.waitReason = some (.pool y)) :
    s.adjust n a left k gone = (s.adjusted n a left k gone, [.recopyLeft n] ++ (s.purged n left k gone).2
      ++ (s.adjusted n a left k gone).finishTests n ++ [.endWait n]) := by
  rcases wakes with reason | ⟨y, mem, reason⟩
  · simp only [State.adjust, waits, reason, if_true]
    rfl
  · have mem' : gone.contains y = true := by simpa using mem
    simp only [State.adjust, waits, reason, mem', if_true]
    rfl

theorem finishTests_idle {s : State} {n : LaneIx} {t : Task} (mem : t ∈ s.finishTests n) (v : State) : t.Idles n v := by
  obtain ⟨p, -, test⟩ := List.mem_filterMap.1 mem
  split at test
  · rw [← Option.some.inj test]
    exact .testFinish _
  · cases test

theorem finishTests_length {s : State} {n : LaneIx} {t : Take} (taken : s.take? n = some t) :
    (s.finishTests n).length ≤ t.entries.length := by
  refine (List.length_filterMap_le ..).trans ?_
  rw [taken]
  dsimp only
  rw [files_eq]
  exact (List.length_filterMap_le ..).trans_eq (List.length_range)

theorem staging_adjusted (s : State) (n : LaneIx) (a : Take) (left : TargetSet) (k : Nat) (gone : List TargetIx) :
    (s.adjusted n a left k gone).staging
      = (s.purged n left k gone).1.staging :=
  (calm_dropTargets _ n a.allocatingFile gone).staging.trans (quiet_stopLaneVerifications _ n gone).staging

/-- The orders withdrawn at the targets removed free segments of the lane's alone. -/
theorem purged_frees {s : State} {n : LaneIx} {a : Take} {left : TargetSet} {k : Nat} {gone : List TargetIx}
    (frees : gone = [] ∨ gone.length ≤ 4 ∧ s.StagingOk ∧ s.staging.waiting = []) : (s.purged n left k gone).2.length ≤ 512
      ∧ ∀ t ∈ (s.purged n left k gone).2, t.Idles n (s.adjusted n a left k gone) := by
  rcases frees with rfl | ⟨few, ok, none_⟩
  · exact ⟨Nat.zero_le _, by simp [State.purged, forEach]⟩
  have lowered : s.Withdraws n (s.lowered n left k) :=
    ⟨fun _ => id, (withdraws_of_stagingOk ok).orders, (withdraws_of_stagingOk ok).few⟩
  obtain ⟨h, length, freed⟩ := forEach_tasks (P := s.Withdraws n) (C := fun t => ∃ g, t = .freeSegment g ∧ s.LeftBy n g)
    gone (fun x _ v h => h.withdrawAt x fun _ => true) lowered
  have staging := staging_adjusted s n a left k gone
  refine ⟨length.trans (by omega), fun t mem => ?_⟩
  obtain ⟨g, rfl, left⟩ := freed t mem
  refine .freeSegment ((h.left g left).congr staging) ?_
  rw [staging, State.purged, forEach_state]
  exact List.foldlRecOn (motive := fun v : State => v.staging.waiting = []) _ _ none_ fun v h x _ =>
    (withdrawAt_waiting v n x _).trans h

/-- The weights of follow-on actions. -/
theorem weights_le (ts : List Task) : (ts.map Task.weight).sum ≤ 3 * ts.length := by
  have := List.sum_le_card_nsmul (ts.map Task.weight) 3 fun w mem => by
    obtain ⟨t, -, rfl⟩ := List.mem_map.1 mem
    exact t.weight_le
  simpa [Nat.mul_comm] using this

section
variable {s : State} {n : LaneIx} {a : Take} (taken : s.take? n = some a) (waits : a.state = .waiting)
  (idle : a.reading = .none) (fits : a.entries.length ≤ 4096) {left : TargetSet} {k : Nat} {gone : List TargetIx}
  (wakes : a.waitReason = some .targets ∨ ∃ y ∈ gone, a.waitReason = some (.pool y))
  (frees : gone = [] ∨ gone.length ≤ 4 ∧ s.StagingOk ∧ s.staging.waiting = [])
include taken waits idle fits wakes frees

/-- What comes before the end of the wait runs out, and the lane has waited meanwhile. -/
theorem adjust_waited : ∃ ts b j u, s.adjust n a left k gone = (s.adjusted n a left k gone, ts ++ [.endWait n])
    ∧ (s.adjusted n a left k gone).take? n = some b ∧ Take.Relisted { a with targets := left, k := k } b
    ∧ j ≤ 20000 ∧ Ends j (s.adjusted n a left k gone, ts) u ∧ (s.adjusted n a left k gone).Waited n b u := by
  obtain ⟨b, taken', relisted⟩ := adjusted_take taken left k gone
  have rest := relisted.rest
  have waits' : b.state = .waiting := by rw [rest]; exact waits
  have idle' : b.reading = .none := by rw [rest]; exact idle
  have length : b.entries.length ≤ 4096 := relisted.length.trans_le fits
  obtain ⟨few, frees'⟩ := purged_frees (n := n) (a := a) (left := left) (k := k) frees
  have tests := finishTests_length taken'
  obtain ⟨j, u, le, ends, waited⟩ := State.Waited.ends (s := s.adjusted n a left k gone) waits' idle' 20000 _ _
    (Nat.le_trans (weights_le ([.recopyLeft n] ++ (s.purged n left k gone).2 ++ (s.adjusted n a left k gone).finishTests n))
      (by simp only [List.length_append, List.length_cons, List.length_nil]; omega))
    ⟨b, _, by rw [← taken', setLane_take], ⟨rfl, rfl, fun _ => .inl rfl⟩⟩ fun t mem => by
      rcases List.mem_append.1 mem with mem | mem
      · rcases List.mem_append.1 mem with mem | mem
        · rw [List.mem_singleton.1 mem]
          exact .recopyLeft
        · exact frees' t mem
      · exact finishTests_idle mem _
  exact ⟨_, b, j, u, adjust_wakes waits wakes, taken', relisted, le, ends, waited⟩

end

/-! ### The end of the wait -/

/-- The lane that has waited is RUNNING again. -/
theorem State.Waited.endWait {n : LaneIx} {a : Take} {s u : State} (waits : a.state = .waiting) (idle : a.reading = .none)
    (reason : a.waitReason ≠ some .segments) (h : s.Waited n a u) : ∃ t, u.take? n = some t ∧ a.Finishes t
      ∧ u.endWait n = (u.enter n .running, [.tryRead n, .workHead n]) := by
  obtain ⟨t, taken, fin, state, -⟩ := h.take waits idle
  have reason' : t.waitReason ≠ some .segments := by
    have rest := fin.rest
    rw [rest]
    exact reason
  refine ⟨t, taken, fin, ?_⟩
  rw [State.endWait, if_pos ⟨by rw [laneState_of_take taken, state], by rw [taken]; exact reason'⟩]
  rfl

/-- A lane done with a target does not wait for it, where it waits for something else or for nothing. -/
theorem State.DoneWith.elsewhere {n : LaneIx} {y : TargetIx} {T : Nat → CopyRecord → Prop} {W V S : Prop} {s : State}
    (h : s.DoneWith n y T W S) (other : V → ∀ t, s.take? n = some t → t.waitReason ≠ some (.pool y)) :
    s.DoneWith n y T V S := by
  obtain ⟨⟨t, taken, done⟩, fifo, short⟩ := h
  exact ⟨⟨t, taken, { done with elsewhere := fun v => other v t taken }⟩, fifo, short⟩

/-! ### A wait for targets that becomes one for a pool -/

section
variable {s : State} {n : LaneIx} {t : Take} {e : Nat} {f : FileEntry} {z : TargetIx} (h : s.take? n = some t)
  (file : t.file? e = some f)
include h file

/-- The pool without the space takes the lane on its short list (R138). -/
theorem allocateFile_short (none_ : (f.copy z).allocation = none)
    (space : supply (unitsFor f.length (s.target z).unit) (s.pool z).runs = none) :
    s.allocateFile n e [z] = ((s.joinShort z n).enterWaiting n (.pool z), []) := by
  have lacking : ((s.copy? n e z).bind CopyRecord.allocation).isNone = true := by
    simp [copy_of_take h file, none_]
  have asked : s.askPool n e z = s.joinShort z n := by
    simp only [State.askPool, file_of_take h file, space]
  have lanes : (s.joinShort z n).lanes = s.lanes := by
    unfold State.joinShort
    split
    · rfl
    · dsimp only
      split
      · exact rise_lanes ..
      · rfl
  have still : (((s.joinShort z n).copy? n e z).bind CopyRecord.allocation).isNone = true := by
    simpa only [State.copy?, State.file?, State.take?, lanes] using lacking
  simp [State.allocateFile, lacking, asked, still]

variable (run : t.state = .running) (pending : f.progress = .pending) (live : s.liveTargets t = [z]) (one : t.k ≤ 1)
  (none_ : (f.copy z).allocation = none) (space : supply (unitsFor f.length (s.target z).unit) (s.pool z).runs = none)
include run pending live one none_ space

/-- A PENDING file with one live target, and no space there (R7 steps 2 and 3). -/
theorem startFile_short : ∃ u : Take, u.state = .running
    ∧ s.startFile n e = (((s.setLane n (some u)).joinShort z n).enterWaiting n (.pool z), []) := by
  have enough : ¬ [z].length < t.k := by simp; omega
  have here := file_of_take h file
  let skips (v : State) : Prop := ∃ u g, v = s.setLane n (some u) ∧ u.state = .running ∧ u.file? e = some g
    ∧ g.length = f.length ∧ g.copy z = f.copy z
  have skipped : skips (((targetsOf t.targets).filter fun x => !List.contains [z] x).foldl
      (fun s x => s.modifyCopy n e x CopyRecord.skip) (s.modifyFile n e fun f => { f with progress := .allocating })) := by
    refine List.foldlRecOn _ _ ⟨t.modifyFile e FileEntry.allocates, f.allocates, modifyFile_of_take h _, run,
      by rw [file_modifyFile_same, file]; rfl, rfl, rfl⟩ ?_
    rintro v ⟨u, g, rfl, run, there, length, copy⟩ x mem
    have other : z ≠ x := by simpa using Ne.symm (by simpa using (List.mem_filter.1 mem).2)
    refine ⟨u.modifyFile e (·.modifyCopy x CopyRecord.skip), g.modifyCopy x CopyRecord.skip, ?_, run,
      by rw [file_modifyFile_same, there]; rfl, length, (copy_modifyCopy_ne g other _).trans copy⟩
    rw [modifyCopy_of_take (take_setLane_same ..), setLane_setLane]
  obtain ⟨u, g, eq, run', there, length, copy⟩ := skipped
  refine ⟨u, run', ?_⟩
  simp only [State.startFile, h, here, live, pending, reduceCtorEq, if_false, enough, ne_eq, not_true_eq_false]
  rw [eq]
  exact allocateFile_short (take_setLane_same ..) there (copy ▸ none_) (length ▸ space)

end

/-- From s to v a lane has come to wait for a pool, on its short list (R138). -/
structure State.WaitsFor (v s : State) (n : LaneIx) (z : TargetIx) : Prop where
  taken : ∃ b, v.take? n = some b ∧ b.state = .waiting ∧ b.waitReason = some (.pool z)
  short : n ∈ (v.pool z).short
  asserted : (s.pool z).short = [] → v.asserts (.short z) = true

theorem waits_short (s : State) (n : LaneIx) {u : Take} (run : u.state = .running) (z : TargetIx) :
    (((s.setLane n (some u)).joinShort z n).enterWaiting n (.pool z)).WaitsFor s n z := by
  have joined : ∃ v, (s.setLane n (some u)).joinShort z n = v ∧ v.take? n = some u ∧ n ∈ (v.pool z).short
      ∧ ((s.pool z).short = [] → v.asserts (.short z) = true) := by
    refine ⟨_, rfl, ?_⟩
    unfold State.joinShort
    split
    · next on =>
      have on' : n ∈ (s.pool z).short := by simpa using on
      exact ⟨take_setLane_same .., on', fun none_ => by simp [none_] at on'⟩
    · have added : n ∈ (((s.setLane n (some u)).modifyPool z fun p => { p with short := p.short ++ [n] }).pool z).short := by
        simp [State.modifyPool]
      dsimp only
      split
      · refine ⟨(rise_take ..).trans (take_setLane_same ..), ?_, fun _ => ?_⟩
        · rw [rise_pool]
          exact added
        · exact (asserts_rise _ (.short z) (.short z)).trans (by simp)
      · next some_ => exact ⟨take_setLane_same .., added, fun none_ => absurd (by simp [none_]) some_⟩
  obtain ⟨v, eq, taken, short, asserted⟩ := joined
  have entered : v.enter n .waiting = (v.setLane n (some (u.inState .waiting))).rise (Level.waiting n).cond := by
    rw [enter_of_take taken, run]
    rfl
  rw [eq]
  refine ⟨⟨_, by rw [take_enterWaiting, if_pos rfl, taken]; rfl, rfl, rfl⟩, ?_, fun none_ => ?_⟩
  · show n ∈ ((v.enter n .waiting).pool z).short
    rw [entered, rise_pool]
    exact short
  · show (v.enter n .waiting).asserts (.short z) = true
    rw [entered, asserts_rise]
    exact Bool.or_eq_true_iff.2 (.inl (asserted none_))

/-- A lane that works its head at a PENDING file with one live target, and no space there. -/
theorem workHead_waitsFor {v : State} {n : LaneIx} {t : Take} {f : FileEntry} {z : TargetIx} (there : v.take? n = some t)
    (run : t.state = .running) (idle : t.reading = .none) (list : t.recopyList = []) (file : t.file? t.head = some f)
    (pending : f.progress = .pending) (none_ : (f.copy z).allocation = none) (room : t.depth < 2)
    (card : v.cardAtHand n = true) (live : v.liveTargets t = [z]) (one : t.k ≤ 1)
    (space : supply (unitsFor f.length (v.target z).unit) (v.pool z).runs = none) :
    ∃ w : State, v.workHead n = (w, []) ∧ w.WaitsFor v n z := by
  have works := workHead_file there run idle list (entry_of_file file) card room
  have hold : v.setHold n .none = v.setLane n (some { t with headHold := .none }) := modifyTake_of_take v n _ there
  obtain ⟨u, run', starts⟩ := startFile_short (s := v.setLane n (some { t with headHold := .none })) (take_setLane_same ..)
    (show Take.file? { t with headHold := .none } t.head = some f from file) run pending live one none_ space
  obtain ⟨taken, short, asserted⟩ := waits_short (v.setLane n (some { t with headHold := .none })) n run' z
  exact ⟨_, works.trans (hold ▸ starts), taken, short, asserted⟩

/-! ### What finishing files leaves of the head -/

section
variable {a t : Take} (h : a.Finishes t)
include h

/-- A PENDING file has not finished. -/
theorem Take.Finishes.pending {e : Nat} {f : FileEntry} (there : a.file? e = some f) (pending : f.progress = .pending) :
    t.file? e = some f := by
  rcases h.files e with same | ⟨g, there', draining, -⟩
  · exact same.trans there
  · rw [there, Option.some.injEq] at there'
    rw [← there', pending] at draining
    cases draining

theorem Take.Finishes.depth_le : t.depth ≤ a.depth := by
  refine Machine.depth_le h.length (by rw [h.rest]) fun e g there started open_ => ?_
  rcases h.files e with same | ⟨g', -, -, done⟩
  · exact ⟨g, same ▸ there, started, open_⟩
  · rw [there, Option.some.injEq] at done
    exact absurd (by rw [done]) open_

end

end Sys2Proof.Machine
end

