-- ==== Sys2Proof/Proofs/TakeAdjust.lean ====
section
/-! ADJUST TAKE: its refusals, the targets removed, and the waits it ends. -/

namespace Sys2Proof.Machine

section
variable {s : State} {n : LaneIx} {a : Take} (taken : s.take? n = some a) (waits : a.state = .waiting)
  (idle : a.reading = .none) (fits : a.entries.length ≤ 4096)
include taken waits idle fits

/-- What a wait that ends leaves of the follow-on actions of ADJUST TAKE. -/
theorem settled_adjust {left : TargetSet} {k : Nat} {gone : List TargetIx}
    (wakes : a.waitReason = some .targets ∨ ∃ y ∈ gone, a.waitReason = some (.pool y))
    (frees : gone = [] ∨ gone.length ≤ 4 ∧ s.StagingOk ∧ s.staging.waiting = []) (ts : List Task) :
    ∃ b t u j m, Take.Relisted { a with targets := left, k := k } b ∧ (s.adjusted n a left k gone).take? n = some b
      ∧ (∃ js, u = settle j js (s.adjusted n a left k gone)) ∧ (s.adjusted n a left k gone).Waited n b u
      ∧ u.take? n = some t ∧ b.Finishes t ∧ 99 ≤ m
      ∧ settled ((s.adjust n a left k gone).addTasks ts)
        = settle m ([.tryRead n, .workHead n] ++ ts) (u.enter n .running) := by
  obtain ⟨js, b, j, u, eq, taken', relisted, le, ends, waited⟩ :=
    adjust_waited taken waits idle fits wakes frees (k := k) (left := left)
  have rest := relisted.rest
  have reason : b.waitReason ≠ some .segments := by
    have same : b.waitReason = a.waitReason := by rw [rest]
    rw [same]
    rcases wakes with r | ⟨y, -, r⟩ <;> simp [r]
  obtain ⟨t, there, fin, woken⟩ := waited.endWait (by rw [rest]; exact waits) (by rw [rest]; exact idle) reason
  have fuel : Config.settleFuel = j + ((2 ^ 64 - j - 1) + 1) := by
    have : Config.settleFuel = 2 ^ 64 := rfl
    omega
  refine ⟨b, t, u, j + 0, 2 ^ 64 - j - 1, relisted, taken', ⟨js, (ends.settle 0).symm⟩, waited, there, fin, by omega, ?_⟩
  rw [eq, settled, fuel]
  simp only [Work.addTasks, List.append_assoc]
  rw [ends.settle_rest, List.singleton_append, settle_cons]
  simp only [doTask, woken]

/-- A wait for targets that is now a wait for a pool (R12, R138). -/
theorem settled_waitsFor {k : Nat} {f : FileEntry} {z : TargetIx} (targets : a.waitReason = some .targets) (one : k = 1)
    (live : s.liveTargets a = [z]) (file : a.entries[a.head]? = some (.file f)) (pending : f.progress = .pending)
    (none_ : (f.copy z).allocation = none) (list : a.recopyList = []) (room : a.depth < 2) (card : s.cardAtHand n = true)
    (space : supply (unitsFor f.length (s.target z).unit) (s.pool z).runs = none) (c : Bool) (st : Status) (body : List Byte) :
    ∃ w : State, settled ((s.adjust n a a.targets k []).addTasks [.takeReply n c st body]) = w.answerTake n c st body
      ∧ w.WaitsFor s n z := by
  obtain ⟨b, t, u, j, m, -, taken', -, waited, there, fin, fuel, settles⟩ := settled_adjust taken waits idle fits
    (.inl targets) (.inl rfl) (left := a.targets) (k := k) [.takeReply n c st body]
  have b_ : b = { a with k := k } := by
    have same : (s.adjusted n a a.targets k []).take? n = some { a with k := k } := by
      show (s.lowered n a.targets k).take? n = _
      exact lowered_take taken a.targets k
    rw [same, Option.some.injEq] at taken'
    exact taken'.symm
  subst b_
  obtain ⟨t', x, u_, -⟩ := waited
  have rest := fin.rest
  have entered := enter_rest u n .running
  have slots : (u.enter n .running).slots = s.slots := by rw [entered.slots, u_]; rfl
  have unitOf : (u.enter n .running).targets = s.targets := by rw [entered.targets, u_]; rfl
  have poolOf : (u.enter n .running).pools = s.pools := by rw [entered.pools, u_]; rfl
  have taken'' : (u.enter n .running).take? n = some (t.inState .running) := by rw [take_enter, if_pos rfl, there]; rfl
  have idle' : (t.inState .running).reading = .none := by rw [rest]; exact idle
  have card' : (u.enter n .running).cardAtHand n = true := by
    have snapshot : (t.inState .running).snapshot = a.snapshot := by rw [rest]; rfl
    simpa only [State.cardAtHand, taken, taken'', State.slot, slots, snapshot] using card
  have live' : (u.enter n .running).liveTargets (t.inState .running) = [z] := by
    have set : (t.inState .running).targets = a.targets := by rw [rest]; rfl
    simpa only [State.liveTargets, State.target, unitOf, set] using live
  have head : (t.inState .running).file? (t.inState .running).head = some f := by
    have same : (t.inState .running).head = a.head := by rw [rest]; rfl
    rw [same]
    exact fin.pending (file_of_entry file) pending
  have demand : (t.inState .running).k ≤ 1 := by rw [rest]; exact Nat.le_of_eq one
  obtain ⟨w, works, waitsFor⟩ := workHead_waitsFor taken'' rfl idle' (by rw [rest]; exact list) head pending none_
    (Nat.lt_of_le_of_lt fin.depth_le room) card' live' demand (by simpa only [State.target, State.pool, unitOf, poolOf] using space)
  refine ⟨w, ?_, waitsFor.taken, waitsFor.short, fun out => waitsFor.asserted (by simpa only [State.pool, poolOf] using out)⟩
  have ends : Ends 3 (u.enter n .running, [.tryRead n, .workHead n] ++ [.takeReply n c st body]) (w.answerTake n c st body) :=
    .one (tryRead_of_idle taken'' idle') (.one works (.one rfl (.nil _)))
  rw [settles, show m = 3 + (m - 3) by omega]
  exact ends.settle _

end

/-- The reply and the end of the step leave the wait as it is. -/
theorem State.WaitsFor.concludes {s w : State} {n : LaneIx} {z : TargetIx} (h : w.WaitsFor s n z) (c : Bool) (st : Status)
    (body : List Byte) : (w.answerTake n c st body).conclude.WaitsFor s n z := by
  obtain ⟨⟨b, taken, state, reason⟩, short, asserted⟩ := h
  obtain ⟨d, found, context⟩ := conclude_take _ ((answerTake_take w n c st body n).trans taken)
  have quiet := quiet_conclude (w.answerTake n c st body)
  refine ⟨⟨d, found, (congrArg TakeContext.state context).symm.trans state,
    (congrArg TakeContext.waitReason context).symm.trans reason⟩, ?_, fun none_ => ?_⟩
  · rw [quiet.shorts, answerTake_pool]
    exact short
  · rw [asserts_congr quiet.asserted, asserts_congr (congrArg Attention.asserted (answerTake_attention w n c st body))]
    exact asserted none_

/-! ### The targets removed -/

section
variable {s : State} {n : LaneIx} {a : Take} (taken : s.take? n = some a) {left : TargetSet} {k : Nat} {gone : List TargetIx}
  {y : TargetIx} (mem : y ∈ gone) (once : gone.Nodup) (out : left.getLsbD y.val = false)

/-- A wait for the pool of y that nothing but the removal of y ends. -/
structure State.PoolWait (s : State) (a : Take) (y : TargetIx) : Prop where
  waits : a.state = .waiting
  reason : a.waitReason = some (.pool y)
  idle : a.reading = .none
  fits : a.entries.length ≤ 4096
  staging : s.StagingOk
  nobody : s.staging.waiting = []

include taken mem once out

theorem parted_adjusted : (s.adjusted n a left k gone).Parted n y (a.lostAt y) False (s.pool y).short.Nodup :=
  ⟨doneWith_adjusted taken mem once out, unverified_adjusted s n a left k mem once⟩

theorem parted_adjust : (s.adjust n a left k gone).1.Parted n y (a.lostAt y) False (s.pool y).short.Nodup := by
  have parted := parted_adjusted taken mem once out (k := k)
  rcases adjust_state s n a left k gone with same | same
  · rw [same]
    exact parted
  · rw [same]
    exact ⟨parted.done.enterRunning n, parted.verify.of_verify (frame_enterRunning _ n).verify⟩

/-- What is left of a target removed at the end of the step. -/
theorem parted_finished (few : gone.length ≤ 4) (ts : List Task) :
    (settled ((s.adjust n a left k gone).addTasks ts)).conclude.Parted n y (a.lostAt y) (s.PoolWait a y) (s.pool y).short.Nodup := by
  refine State.Parted.conclude ?_
  by_cases wait : s.PoolWait a y
  · obtain ⟨b, t, u, j, m, -, -, ⟨js, u_⟩, -, there, -, -, settles⟩ := settled_adjust taken wait.waits wait.idle wait.fits
      (.inr ⟨y, mem, wait.reason⟩) (.inr ⟨few, wait.staging, wait.nobody⟩) (left := left) (k := k) ts
    have parted : u.Parted n y (a.lostAt y) False (s.pool y).short.Nodup :=
      u_ ▸ (parted_adjusted taken mem once out).settle j js
    rw [settles]
    refine State.Parted.settle ⟨(parted.done.enter n .running).elsewhere fun _ c there' => ?_,
      parted.verify.of_verify (enter_rest u n .running).verify⟩ m _
    rw [take_enter, if_pos rfl, there] at there'
    rw [← Option.some.inj there']
    simp [Take.inState]
  · have parted := (parted_adjust taken mem once out (k := k)).settle Config.settleFuel ((s.adjust n a left k gone).2 ++ ts)
    exact ⟨parted.done.elsewhere fun w => absurd w wait, parted.verify⟩

end

/-- The take keeps the settings that ADJUST TAKE leaves it. -/
theorem kept_finished {s : State} {n : LaneIx} {a : Take} (taken : s.take? n = some a) (left : TargetSet) (k : Nat)
    (gone : List TargetIx) (ts : List Task) :
    ∃ c, (settled ((s.adjust n a left k gone).addTasks ts)).conclude.take? n = some c ∧ Take.Kept { a with targets := left, k := k } c := by
  obtain ⟨b, taken', relisted⟩ := adjusted_take taken left k gone
  have rest := relisted.rest
  have kept : Take.Kept { a with targets := left, k := k } b := by
    refine ⟨?_, ?_, ?_, ?_, ?_, ?_, ?_, ?_, ?_, ?_, relisted.length, ?_⟩ <;> rw [rest]
  have adjusted : keptTake (some { a with targets := left, k := k }) ((s.adjust n a left k gone).1.take? n) := by
    have first : keptTake (some { a with targets := left, k := k }) ((s.adjusted n a left k gone).take? n) := ⟨b, taken', kept⟩
    rcases adjust_state s n a left k gone with same | same
    · rw [same]
      exact first
    · rw [same]
      exact keptTake_trans first ((frame_enterRunning _ n).takes n)
  obtain ⟨v, choice, path⟩ := conclude_frame (settled ((s.adjust n a left k gone).addTasks ts))
  obtain ⟨c, taken'', kept'⟩ := keptTake_trans adjusted (keptTake_trans
    ((frame_settled ((s.adjust n a left k gone).addTasks ts)).takes n) (choice.takes n))
  exact ⟨c, by rw [path, choosePath_take]; exact taken'', kept'⟩

/-! ### The request -/

section
variable {s : State} {x k rm : Byte} {n : LaneIx} {a : Take} (lane : laneOf x = some n) (taken : s.take? n = some a)
  (going : a.state ≠ .aborting) (open_ : a.state ≠ .closed)
include lane taken going open_

theorem serveAdjustTake_refused (bad : 16 ≤ rm.toNat ∨ a.k < k.toNat ∨ a.targets &&& ~~~ (rm.setWidth 4) = 0
    ∨ setSize (a.targets &&& ~~~ (rm.setWidth 4)) < if k = 0 then a.k else k.toNat) :
    serveAdjustTake x k rm s = s.refuseTake n .badField [] := by
  by_cases high : 16 ≤ rm.toNat
  · simp [serveAdjustTake, lane, taken, going, open_, targetSetOf_of_le high]
  · have rm_ := targetSetOf_of_lt (Nat.lt_of_not_le high)
    by_cases more : a.k < k.toNat
    · simp [serveAdjustTake, lane, taken, going, open_, rm_, more]
    · have bad' := (bad.resolve_left high).resolve_left more
      simp only [serveAdjustTake, lane, taken, going, open_, or_self, if_false, rm_, gt_iff_lt, more, if_pos bad']

theorem serveAdjustTake_accepted (set : rm.toNat < 16) (low : k.toNat ≤ a.k) (some_ : a.targets &&& ~~~ (rm.setWidth 4) ≠ 0)
    (enough : (if k = 0 then a.k else k.toNat) ≤ setSize (a.targets &&& ~~~ (rm.setWidth 4))) :
    serveAdjustTake x k rm s = (s.adjust n a (a.targets &&& ~~~ (rm.setWidth 4)) (if k = 0 then a.k else k.toNat)
      (targetsOf (a.targets &&& rm.setWidth 4))).addTasks [.takeReply n false .ok
        [(a.targets &&& ~~~ (rm.setWidth 4)).setWidth 8, BitVec.ofNat 8 (if k = 0 then a.k else k.toNat)]] := by
  have more : ¬ a.k < k.toNat := by omega
  have fits : ¬ (a.targets &&& ~~~ (rm.setWidth 4) = 0
      ∨ setSize (a.targets &&& ~~~ (rm.setWidth 4)) < if k = 0 then a.k else k.toNat) := by
    rintro (zero | less)
    · exact some_ zero
    · omega
  simp only [serveAdjustTake, lane, taken, going, open_, or_self, if_false, targetSetOf_of_lt set, gt_iff_lt, more, if_neg fits]

end

theorem stagingOk_beginService {s : State} (ok : s.StagingOk) (kind : Byte) (tag : BitVec 16) :
    (s.beginService kind tag).StagingOk :=
  { outstanding := ok.outstanding, orders := ok.orders, once := ok.once, reads := ok.reads, window := ok.window
    noneFree := ok.noneFree, inOnce := ok.inOnce, waiting := ok.waiting, resting := ok.resting }

theorem mem_removed_iff (ts rm : TargetSet) (y : TargetIx) :
    y ∈ targetsOf (ts &&& rm) ↔ ts.getLsbD y.val = true ∧ rm.getLsbD y.val = true := by
  simp [targetsOf, allTargets]

theorem left_out {ts rm : TargetSet} {y : TargetIx} (removed : rm.getLsbD y.val = true) :
    (ts &&& ~~~ rm).getLsbD y.val = false := by simp [removed]

theorem left_all {ts rm : TargetSet} (none_gone : ts &&& rm = 0) : ts &&& ~~~ rm = ts := by
  refine BitVec.eq_of_getLsbD_eq fun y lt => ?_
  have apart : (ts.getLsbD y && rm.getLsbD y) = false := by
    rw [← BitVec.getLsbD_and, none_gone]
    exact BitVec.getLsbD_zero
  cases kept : ts.getLsbD y <;> simp_all

theorem targetsOf_nodup (ts : TargetSet) : (targetsOf ts).Nodup := (List.nodup_finRange 4).filter _

/-- Settles O39: what the lane is left with right after the removals, the rest of the step keeps. -/
theorem adjustTakeLowersTheDemands : Obligations.AdjustTakeLowersTheDemands := by
  intro tag x k rm n s listening rest lane
  obtain ⟨-, -, -, -, stale⟩ := (listening_iff s).1 listening
  refine ⟨fun other => ?_, fun tk taken going open_ => ?_⟩
  · refine submit_refuseTake listening rest tag (n := n) .wrongState [] rfl rfl ?_
    simp only [serve, serveAdjustTake, lane, beginService_take]
    cases taken : s.take? n with
    | none => rfl
    | some t =>
      have ended : t.state = .aborting ∨ t.state = .closed := by
        simpa [laneState_of_take taken] using other
      exact if_pos ended
  intro left k'
  refine ⟨fun bad => ?_, fun set low some_ enough => ?_⟩
  · exact submit_refuseTake listening rest tag .badField [] rfl (by rw [laneState_of_take taken])
      (serveAdjustTake_refused (s := s.beginService 0x57 tag) lane taken going open_ bad)
  have few : (targetsOf (tk.targets &&& rm.setWidth 4)).length ≤ 4 := List.length_filter_le ..
  have taken' : (s.beginService 0x57 tag).take? n = some tk := taken
  have served : serve (.adjustTake x k rm) (s.beginService 0x57 tag)
      = ((s.beginService 0x57 tag).adjust n tk left k' (targetsOf (tk.targets &&& rm.setWidth 4))).addTasks
        [.takeReply n false .ok [left.setWidth 8, BitVec.ofNat 8 k']] :=
    serveAdjustTake_accepted (s := s.beginService 0x57 tag) lane taken going open_ set low some_ enough
  have fresh : (settled (serve (.adjustTake x k rm) (s.beginService 0x57 tag))).link.stale = false :=
    ((congrArg Link.stale (frame_settled _).link).trans (stale_serve ..)).trans stale
  have run := (submit_served listening tag (r := .adjustTake x k rm) rfl).trans (finish_tasks rfl fresh)
  rw [show requestKind (.adjustTake x k rm) = 0x57 from rfl, served] at run
  have gone_out {y : TargetIx} (removed : (rm.setWidth 4 : TargetSet).getLsbD y.val = true) : left.getLsbD y.val = false :=
    left_out removed
  have all_left (none_gone : tk.targets &&& rm.setWidth 4 = 0) : left = tk.targets := left_all none_gone
  clear_value left k'
  obtain ⟨c, there, kept⟩ := kept_finished taken' left k' (targetsOf (tk.targets &&& rm.setWidth 4))
    [.takeReply n false .ok [left.setWidth 8, BitVec.ofNat 8 k']]
  obtain ⟨t, final⟩ : ∃ t, t = (settled (((s.beginService 0x57 tag).adjust n tk left k'
    (targetsOf (tk.targets &&& rm.setWidth 4))).addTasks
      [.takeReply n false .ok [left.setWidth 8, BitVec.ofNat 8 k']])).conclude := ⟨_, rfl⟩
  rw [← final] at run there
  refine ⟨t, c, congrArg Host.Outcome.next run, there, kept.targets, kept.k, kept.label, kept.verify, kept.policy,
    kept.mismatch, kept.retries, kept.alternate, kept.window, kept.snapshot, kept.entries, fun y was removed => ?_, ?_⟩
  · have removed' : (rm.setWidth 4 : TargetSet).getLsbD y.val = true := by simpa using removed
    have parted := parted_finished taken' (k := k') ((mem_removed_iff _ _ y).2 ⟨was, removed'⟩) (targetsOf_nodup _)
      (gone_out removed') few [.takeReply n false .ok [left.setWidth 8, BitVec.ofNat 8 k']]
    rw [← final] at parted
    obtain ⟨⟨⟨c', there', done⟩, fifo, short⟩, queue, active⟩ := parted
    obtain rfl : c' = c := Option.some.inj (there'.symm.trans there)
    refine ⟨fun e f file started => ?_, fifo, queue, active, fun e mem => done.unlisted _ mem rfl, short,
      fun waits reason idle fits ok nobody =>
        done.elsewhere ⟨waits, reason, idle, fits, stagingOk_beginService ok .., nobody⟩⟩
    obtain ⟨g, found, -, copy⟩ := done.tracked e _ ⟨f, file, started, rfl⟩
    rw [copy_of_take there found, copy]
  · intro f z waits targets none_gone one live file pending none_ idle list room card fits space
    have none_removed : targetsOf (tk.targets &&& rm.setWidth 4) = [] := by
      rw [none_gone]
      rfl
    obtain ⟨w, settles, wait⟩ := settled_waitsFor taken' waits idle fits targets one live file pending none_ list room card
      space false .ok [tk.targets.setWidth 8, BitVec.ofNat 8 k']
    rw [none_removed, all_left none_gone, settles] at final
    have wait' := wait.concludes false .ok [tk.targets.setWidth 8, BitVec.ofNat 8 k']
    rw [← final] at wait'
    obtain ⟨⟨b, there', state, reason⟩, short, asserted⟩ := wait'
    obtain rfl : b = c := Option.some.inj (there'.symm.trans there)
    exact ⟨state, reason, short, asserted⟩

end Sys2Proof.Machine
end

