-- ==== Sys2Proof/Proofs/PieceCover.lean ====
section
/-! The pieces of a chunk tile its sectors, each at the place its run gives (R32, R33, R143). -/

namespace Sys2Proof.Machine

/-- The pieces lie one after another, none of them empty, from sector `a` to just before sector `b`. -/
def tiles : Nat → Nat → List Piece → Prop
  | a, b, [] => a = b
  | a, b, p :: ps => p.sector = a ∧ 1 ≤ p.count ∧ tiles (a + p.count) b ps

theorem tiles_total {b : Nat} : ∀ {a : Nat} {ps : List Piece}, tiles a b ps → a + (ps.map Piece.count).sum = b
  | _, [], done => by simpa [tiles] using done
  | _, p :: ps, ⟨_, _, more⟩ => by
    have total := tiles_total more
    simp only [List.map_cons, List.sum_cons]
    omega

theorem tiles_piece {b : Nat} : ∀ {a : Nat} {ps : List Piece}, tiles a b ps → ∀ {i : Nat} {p : Piece}, ps[i]? = some p →
    p.sector = a + ((ps.take i).map Piece.count).sum ∧ 1 ≤ p.count
  | _, [], _, _, _, found => by simp at found
  | _, q :: ps, ⟨first, some_, more⟩, i, p, found => by
    cases i with
    | zero =>
      obtain rfl : q = p := by simpa using found
      exact ⟨by simpa using first, some_⟩
    | succ i =>
      obtain ⟨at_, count⟩ := tiles_piece more (by simpa using found)
      refine ⟨?_, count⟩
      simp only [List.take_succ_cons, List.map_cons, List.sum_cons]
      omega

/-- Runs that reach `hi` leave no gap: their pieces tile the range, from where the first run begins if that is later. -/
theorem piecesIn_tiles {lo hi : Nat} (order : lo ≤ hi) : ∀ (runs : List Extent) (at_ : Nat),
    hi ≤ at_ + (runs.map Extent.len).sum → tiles (min (max lo at_) hi) hi (piecesIn lo hi at_ runs)
  | [], at_, reach => by
    simp only [List.map_nil, List.sum_nil] at reach
    simp only [piecesIn, tiles]
    omega
  | r :: rest, at_, reach => by
    simp only [List.map_cons, List.sum_cons] at reach
    have more := piecesIn_tiles order rest (at_ + r.len) (by omega)
    simp only [piecesIn]
    split
    case isTrue meets =>
      refine ⟨by show max lo at_ = _; omega, by show 1 ≤ _ - _; omega, ?_⟩
      convert more using 1
      show _ + (min hi (at_ + r.len) - max lo at_) = _
      omega
    case isFalse apart =>
      convert more using 1
      omega

/-- A piece lies in the range, and each of its sectors at the place its run gives. -/
theorem piecesIn_place {lo hi : Nat} : ∀ (runs : List Extent) (at_ : Nat), ∀ p ∈ piecesIn lo hi at_ runs,
    lo ≤ p.sector ∧ p.sector + p.count ≤ hi ∧ at_ ≤ p.sector
      ∧ ∀ j, j < p.count → placeOf runs (p.sector + j - at_) = some (p.lba + j)
  | [], _, p, mem => by simp [piecesIn] at mem
  | r :: rest, at_, p, mem => by
    have inRest (mem : p ∈ piecesIn lo hi (at_ + r.len) rest) : lo ≤ p.sector ∧ p.sector + p.count ≤ hi ∧ at_ ≤ p.sector
        ∧ ∀ j, j < p.count → placeOf (r :: rest) (p.sector + j - at_) = some (p.lba + j) := by
      obtain ⟨low, high, after, place⟩ := piecesIn_place rest (at_ + r.len) p mem
      refine ⟨low, high, by omega, fun j inside => ?_⟩
      rw [placeOf, if_neg (by omega), ← place j inside]
      congr 1
      omega
    simp only [piecesIn] at mem
    split at mem
    case isFalse apart => exact inRest mem
    case isTrue meets =>
      rcases List.mem_cons.1 mem with rfl | mem
      · refine ⟨by show _ ≤ max lo at_; omega, by show max lo at_ + (_ - _) ≤ _; omega,
          by show _ ≤ max lo at_; omega, fun j inside => ?_⟩
        replace inside : j < min hi (at_ + r.len) - max lo at_ := inside
        show placeOf (r :: rest) (max lo at_ + j - at_) = some (r.start + (max lo at_ - at_) + j)
        rw [placeOf, if_pos (by omega)]
        congr 1
        omega
      · exact inRest mem

/-- In runs of units, member number i of the scaled runs lies in the unit number i / unit (R143). -/
theorem placeOf_scaled {unit : Nat} (some_ : 0 < unit) : ∀ (runs : List Extent) (i : Nat),
    placeOf (runs.map (scaleRun unit)) i = (placeOf runs (i / unit)).map fun u => u * unit + i % unit
  | [], _ => rfl
  | r :: rest, i => by
    simp only [List.map_cons, placeOf, scaleRun, ← Nat.div_lt_iff_lt_mul some_]
    split
    · simp only [Option.map_some, Nat.add_mul, Nat.add_assoc, Nat.div_add_mod']
    · rename_i beyond
      have past : unit * r.len ≤ i := by
        rw [Nat.mul_comm]
        exact (Nat.le_div_iff_mul_le some_).1 (Nat.le_of_not_lt beyond)
      rw [placeOf_scaled some_ rest, Nat.mul_comm r.len, Nat.sub_mul_div, Nat.sub_mul_mod past]

theorem scaled_total (unit : Nat) (runs : List Extent) :
    ((runs.map (scaleRun unit)).map Extent.len).sum = unitsOf runs * unit := by
  induction runs with
  | nil => simp [unitsOf]
  | cons r rest ih =>
    simp only [unitsOf, List.map_cons, List.sum_cons, Nat.add_mul] at ih ⊢
    rw [ih, scaleRun]

/-- A chunk of a file begins before the file's end, and holds at most 256 sectors (R32). -/
theorem chunk_bounds {f : FileEntry} {c : Nat} (within : c < f.chunksTotal) :
    256 * c < f.chunkEnd c ∧ f.chunkEnd c ≤ 256 * c + 256 ∧ f.chunkEnd c ≤ f.sectors := by
  simp only [FileEntry.chunksTotal, ceilDiv, FileEntry.chunkEnd, Config.chunkSectors] at within ⊢
  omega

/-- The pieces of a chunk in runs that hold the whole file: they tile the chunk, each sector at its run's place. -/
theorem pieces_cover {f : FileEntry} {c : Nat} (within : c < f.chunksTotal) {runs : List Extent}
    (reach : f.sectors ≤ (runs.map Extent.len).sum) :
    let ps := piecesIn (chunkStart c) (f.chunkEnd c) 0 runs
    (ps.map Piece.count).sum = f.chunkEnd c - 256 * c
      ∧ ∀ i p, ps[i]? = some p →
        p.sector = 256 * c + ((ps.take i).map Piece.count).sum ∧ 1 ≤ p.count ∧ p.count ≤ 256
          ∧ ∀ j, j < p.count → placeOf runs (p.sector + j) = some (p.lba + j) := by
  intro ps
  obtain ⟨begins, full, ends⟩ := chunk_bounds within
  have start : chunkStart c = 256 * c := rfl
  have tiled : tiles (256 * c) (f.chunkEnd c) ps := by
    have tiled := piecesIn_tiles (lo := chunkStart c) (hi := f.chunkEnd c) (by omega) runs 0 (by omega)
    rwa [show min (max (chunkStart c) 0) (f.chunkEnd c) = 256 * c by omega] at tiled
  refine ⟨by have := tiles_total tiled; omega, fun i p found => ?_⟩
  obtain ⟨at_, some_⟩ := tiles_piece tiled found
  obtain ⟨low, high, -, place⟩ := piecesIn_place runs 0 p (List.mem_of_getElem? found)
  exact ⟨at_, some_, by omega, place⟩

/-- Settles O53: card and drive pieces are one enumeration, over the source runs and over the scaled unit runs. -/
theorem piecesCoverTheChunk : Obligations.PiecesCoverTheChunk := by
  unfold Obligations.PiecesCoverTheChunk
  intro f c within
  refine ⟨fun whole => pieces_cover within whole.ge, fun a unit some_ reach => ?_⟩
  obtain ⟨total, each⟩ := pieces_cover within (runs := a.runs.map (scaleRun unit)) (by rwa [scaled_total])
  refine ⟨total, fun i p found => ?_⟩
  obtain ⟨at_, low, high, place⟩ := each i p found
  refine ⟨at_, low, high, fun j inside => ?_⟩
  have placed := place j inside
  rw [placeOf_scaled some_, Option.map_eq_some_iff] at placed
  obtain ⟨u, unit_, sector⟩ := placed
  exact ⟨u, unit_, sector.symm⟩

end Sys2Proof.Machine
end

