-- ==== Sys2Proof/Proofs/OrderWithdrawal.lean ====
section
/-! SUPPORT. What the withdrawal of a file's orders leaves in a lane's FIFOs (R49). -/

namespace Sys2Proof.Machine

/-- Every order that a lane has left for an entry at a target is withdrawn. -/
def State.Withdrawn (n : LaneIx) (e : Nat) (y : TargetIx) (s : State) : Prop :=
  ∀ o ∈ (s.target y).fifos[n], o.entry = e → o.withdrawn = true

section
variable {s : State} {n : LaneIx} {e : Nat} {y : TargetIx}

/-- A marked order is withdrawn, if it is one that is named, or was withdrawn before. -/
theorem markIf_withdrawn (o : WriteOrder) (p : WriteOrder → Bool) (h : p o = true ∨ o.withdrawn = true) :
    (o.markIf p).withdrawn = true := by
  unfold WriteOrder.markIf
  split
  · rfl
  · rename_i not_
    exact h.resolve_left not_

@[simp] theorem markIf_entry (o : WriteOrder) (p : WriteOrder → Bool) : (o.markIf p).entry = o.entry := by
  unfold WriteOrder.markIf
  split <;> rfl

/-- A withdrawal at one target leaves the records of the others alone. -/
theorem withdrawAt_target_ne {x : TargetIx} (ne : y ≠ x) (p : WriteOrder → Bool) :
    (s.withdrawAt n x p).1.target y = s.target y := by
  obtain ⟨head, queued, -, -, eq⟩ := withdrawAt_eq s n x p
  rw [eq, countDowns_target, modifyTarget_eq, target_setTarget_ne _ _ _ _ ne]

theorem State.Withdrawn.withdrawAt (h : s.Withdrawn n e y) (x : TargetIx) (p : WriteOrder → Bool) :
    (s.withdrawAt n x p).1.Withdrawn n e y := by
  by_cases x_ : y = x
  · subst x_
    obtain ⟨head, queued, all, -, eq⟩ := withdrawAt_eq s n y p
    unfold State.Withdrawn at h ⊢
    rw [all] at h
    rw [eq, countDowns_target, modifyTarget_eq, target_setTarget_same]
    intro o mem of
    simp only [Fin.getElem_fin, Vector.getElem_set_self, List.mem_append, List.mem_map, List.mem_filter] at mem
    rcases mem with ⟨o', here, rfl⟩ | ⟨here, -⟩
    · exact markIf_withdrawn o' p (.inr (h o' (List.mem_append_left _ here) (by rwa [markIf_entry] at of)))
    · exact h o (List.mem_append_right _ here) of
  · unfold State.Withdrawn
    rw [withdrawAt_target_ne x_]
    exact h

/-- The withdrawal of an entry's orders at a target leaves none that is not withdrawn. -/
theorem withdrawAt_withdrawn (s : State) (n : LaneIx) (e : Nat) (y : TargetIx) :
    (s.withdrawAt n y fun o => o.entry == e).1.Withdrawn n e y := by
  obtain ⟨head, queued, -, -, eq⟩ := withdrawAt_eq s n y fun o => o.entry == e
  unfold State.Withdrawn
  rw [eq, countDowns_target, modifyTarget_eq, target_setTarget_same]
  intro o mem of
  simp only [Fin.getElem_fin, Vector.getElem_set_self, List.mem_append, List.mem_map, List.mem_filter] at mem
  rcases mem with ⟨o', here, rfl⟩ | ⟨-, other⟩
  · exact markIf_withdrawn o' _ (.inl (by simpa using of))
  · simp [of] at other

/-- The same at every target. -/
theorem withdraw_withdrawn (s : State) (n : LaneIx) (e : Nat) (y : TargetIx) :
    (s.withdraw n fun o => o.entry == e).1.Withdrawn n e y := by
  have fold : ∀ (xs : List TargetIx) (s : State), y ∈ xs ∨ s.Withdrawn n e y →
      (xs.foldl (fun s x => (s.withdrawAt n x fun o => o.entry == e).1) s).Withdrawn n e y := by
    intro xs
    induction xs with
    | nil => exact fun s h => h.resolve_left (by simp)
    | cons x xs ih =>
      intro s h
      refine ih _ ?_
      rcases h with mem | h
      · rcases List.mem_cons.1 mem with rfl | mem
        · exact .inr (withdrawAt_withdrawn s n e y)
        · exact .inl mem
      · exact .inr (h.withdrawAt x _)
  rw [State.withdraw, forEach_state]
  exact fold allTargets s (.inl (List.mem_finRange y))

end

end Sys2Proof.Machine
end

