-- ==== Sys2Proof/Proofs/ChunkFanOut.lean ====
section
/-! The good end of a chunk read: the orders it places, and the end of a file's reading and of a recopy. -/

namespace Sys2Proof.Machine

/-! ### The orders of a chunk (R45) -/

/-- The order that brings a chunk in a segment to target x, whose unit is given. -/
def FileEntry.orderFor (f : FileEntry) (u : SegmentUse) (g : SegmentIx) (unit : Nat) (x : TargetIx) : WriteOrder :=
  { entry := u.entry, chunk := u.chunk, segment := g, errors := 0, withdrawn := false
    pieces := match (f.copy x).allocation with
      | some a => f.devicePieces a unit u.chunk
      | none => [] }

/-- The orders of a chunk stand in the FIFOs of the targets of a list, and its segment is SENDING. -/
def State.sends (s : State) (n : LaneIx) (f : FileEntry) (u : SegmentUse) (g : SegmentIx) (xs : List TargetIx) : State :=
  (xs.foldl (fun s x => s.placeOrder n f u g x) s).setSegment g (.sending u xs.length)

section
variable (s : State) (n : LaneIx) (f : FileEntry) (u : SegmentUse) (g : SegmentIx)

theorem placeOrder_eq (x : TargetIx) : s.placeOrder n f u g x = s.setTarget x { s.target x with
    fifos := (s.target x).fifos.set n.val ((s.target x).fifos[n] ++ [f.orderFor u g (s.target x).unit x]) n.isLt } := rfl

theorem unit_placeOrder (x y : TargetIx) : ((s.placeOrder n f u g x).target y).unit = (s.target y).unit := by
  rw [placeOrder_eq, target_setTarget]
  split
  · subst_vars
    rfl
  · rfl

theorem fifos_placeOrder (x y : TargetIx) (m : LaneIx) : ((s.placeOrder n f u g x).target y).fifos[m]
    = (s.target y).fifos[m] ++ if m = n ∧ y = x then [f.orderFor u g (s.target y).unit y] else [] := by
  rw [placeOrder_eq, target_setTarget]
  by_cases y_ : y = x
  · subst y_
    by_cases m_ : m = n
    · subst m_
      simp
    · have m_' : n.val ≠ m.val := fun e => m_ (Fin.ext e.symm)
      simp [m_, m_']
  · simp [y_]

/-- Each target of the list has its order at the tail of the lane's FIFO. -/
theorem fifos_sends (y : TargetIx) (m : LaneIx) {xs : List TargetIx} (once : xs.Nodup) :
    ((s.sends n f u g xs).target y).fifos[m]
      = (s.target y).fifos[m] ++ if m = n ∧ y ∈ xs then [f.orderFor u g (s.target y).unit y] else [] := by
  rw [State.sends, setSegment_target]
  induction xs generalizing s with
  | nil => simp
  | cons x xs ih =>
    obtain ⟨out, once⟩ := List.nodup_cons.1 once
    rw [List.foldl_cons, ih _ once, fifos_placeOrder, unit_placeOrder, List.append_assoc]
    by_cases y_ : y = x
    · subst y_
      simp [out]
    · simp [y_]

/-- What the placing of orders leaves as it is. -/
theorem sends_rest (xs : List TargetIx) : ∃ targets staging, s.sends n f u g xs = { s with
    targets := targets, staging := staging } :=
  ⟨_, _, by rw [State.sends, placeOrders_rest]; rfl⟩

theorem sends_setLane (xs : List TargetIx) (x : Option Take) :
    (s.setLane n x).sends n f u g xs = (s.sends n f u g xs).setLane n x := by
  have placed : ∀ (xs : List TargetIx) (s : State), xs.foldl (fun s x => s.placeOrder n f u g x) (s.setLane n x)
      = (xs.foldl (fun s x => s.placeOrder n f u g x) s).setLane n x := by
    intro xs
    induction xs with
    | nil => exact fun _ => rfl
    | cons y ys ih => exact fun s => ih (s.placeOrder n f u g y)
  rw [State.sends, placed]
  rfl

@[simp] theorem sends_take (xs : List TargetIx) (m : LaneIx) : (s.sends n f u g xs).take? m = s.take? m := by
  obtain ⟨t, x, eq⟩ := sends_rest s n f u g xs
  rw [eq]
  rfl

@[simp] theorem sends_segment (xs : List TargetIx) : (s.sends n f u g xs).segment g = .sending u xs.length :=
  segment_setSegment_same ..

theorem fanOut_eq (t : Take) : s.fanOut n t f u g = (s.sends n f u g (orderTargets t f u),
    if orderTargets t f u = [] then [.freeSegment g] else []) := by
  simp [State.fanOut, State.sends]

end

/-! ### The take and the tasks that follow (R43, R50) -/

/-- A chunk read of a take has ended; the next chunk is c. -/
def Take.chunkCounted (t : Take) (c : Nat) : Take :=
  { t with chunkRead := none, nextChunk := c
           counters := { t.counters with chunksRead := min (t.counters.chunksRead + 1) (2 ^ 32 - 1) } }

/-- One more chunk of a file's own reading has ended good (R43). -/
def FileEntry.chunkDone (f : FileEntry) : FileEntry := { f with chunksRead := f.chunksRead + 1 }

/-- A file's own reading has ended good: its running digest is the source digest (R50, R62). -/
def FileEntry.readingDone (f : FileEntry) : FileEntry := { f with source := some f.running, progress := .draining }

section
variable {s : State} {n : LaneIx} {t : Take} {g : SegmentIx} {u : SegmentUse} {f : FileEntry}
  (h : s.take? n = some t) (file : t.file? u.entry = some f)

include h in
theorem endReading_eq : s.endReading n = s.setLane n (some { t with reading := .none }) := modifyTake_of_take s n _ h

/-- The fan-out of a chunk, as the lane's take has it. -/
theorem fanOut_setLane (b : Take) : (s.setLane n (some b)).fanOut n b f u g
    = ((s.sends n f u g (orderTargets b f u)).setLane n (some b),
        if orderTargets b f u = [] then [.freeSegment g] else []) := by
  rw [fanOut_eq, sends_setLane]

include h in
/-- A recopy that has read what the file's own reading has read (R64, R154). -/
theorem compareRecopy_equal {e : Nat} (file : t.file? e = some f) (y : TargetIx) {d : Digest} (source : f.source = some d)
    (equal : t.recopyDigest.same d = true) : s.compareRecopy n e y = (s, []) := by
  simp [State.compareRecopy, h, file_of_take h file, source, equal]

include h in
/-- A recopy that has read something else: its copy fails, and its orders are withdrawn (R66, R154). -/
theorem compareRecopy_differs {e : Nat} (file : t.file? e = some f) {y : TargetIx} (writing : (f.copy y).state = .writing)
    {d : Digest} (source : f.source = some d) (differs : t.recopyDigest.same d = false) : s.compareRecopy n e y
      = (s.modifyCopy n e y (CopyRecord.fail .sourceUnstable)).withdrawAt n y fun o => o.entry == e := by
  simp [State.compareRecopy, h, file_of_take h file, writing, source, differs]

include h file

/-- A chunk of a file's own reading: its orders are placed; the lane reads on, or the file's reading ends. -/
theorem chunkGood_own (own : u.pass = none) : s.chunkGood n g u =
    if f.chunksTotal ≤ u.chunk + 1 then
      ((s.sends n f u g (orderTargets t f u)).setLane n (some ({ t.chunkCounted (u.chunk + 1) with
          reading := .none }.modifyFile u.entry fun f => f.chunkDone.readingDone)),
        (if orderTargets t f u = [] then [.freeSegment g] else []) ++ [.testFinish n u.entry, .goOn n])
    else ((s.sends n f u g (orderTargets t f u)).setLane n
        (some ((t.chunkCounted (u.chunk + 1)).modifyFile u.entry FileEntry.chunkDone)),
      (if orderTargets t f u = [] then [.freeSegment g] else []) ++ [.tryRead n]) := by
  have counted : (s.countChunkRead n).modifyFile n u.entry FileEntry.chunkDone
      = s.setLane n (some ((t.chunkCounted t.nextChunk).modifyFile u.entry FileEntry.chunkDone)) := by
    rw [State.countChunkRead, modifyTake_of_take s n _ h, modifyFile_of_take (take_setLane_same ..), setLane_setLane]
    rfl
  have file' : ((t.chunkCounted t.nextChunk).modifyFile u.entry FileEntry.chunkDone).file? u.entry
      = some f.chunkDone := by
    rw [file_modifyFile_same]
    exact congrArg _ file
  have sent := fanOut_setLane (s := s) (n := n) (f := f.chunkDone) (u := u) (g := g)
    ((t.chunkCounted t.nextChunk).modifyFile u.entry FileEntry.chunkDone)
  have done : (fun f : FileEntry => { f with chunksRead := f.chunksRead + 1 }) = FileEntry.chunkDone := rfl
  simp only [State.chunkGood, own]
  rw [done, counted]
  simp only [take_setLane_same, file_of_take (take_setLane_same ..) file', sent, modifyTake_setLane, decide_eq_true_eq,
    Work.addTasks]
  by_cases last : f.chunksTotal ≤ u.chunk + 1
  · rw [if_pos last, if_pos (show f.chunkDone.chunksTotal ≤ _ from last), modifyFile_of_take (take_setLane_same ..),
      setLane_setLane, endReading_eq (take_setLane_same ..), setLane_setLane, ← modifyFile_modifyFile _ _ FileEntry.chunkDone FileEntry.readingDone]
    rfl
  · rw [if_neg last, if_neg (show ¬ f.chunkDone.chunksTotal ≤ _ from last)]
    rfl

/-- The last chunk of a recopy whose copy is WRITING: its order is placed, the digests are compared, and the reading
ends. -/
theorem chunkGood_recopied {y : TargetIx} (recopy : u.pass = some y) (last : f.chunksTotal ≤ u.chunk + 1)
    (writing : (f.copy y).state = .writing) : s.chunkGood n g u
      = ((((s.sends n f u g [y]).setLane n (some (t.chunkCounted (u.chunk + 1)))).compareRecopy n u.entry y).1.endReading n,
        (((s.sends n f u g [y]).setLane n (some (t.chunkCounted (u.chunk + 1)))).compareRecopy n u.entry y).2
          ++ [.testFinish n u.entry, .goOn n]) := by
  have counted : s.countChunkRead n = s.setLane n (some (t.chunkCounted t.nextChunk)) := modifyTake_of_take s n _ h
  have dest : orderTargets (t.chunkCounted t.nextChunk) f u = [y] := by simp [orderTargets, recopy, writing]
  have sent := fanOut_setLane (s := s) (n := n) (f := f) (u := u) (g := g) (t.chunkCounted t.nextChunk)
  rw [dest] at sent
  simp only [State.chunkGood, recopy, counted, take_setLane_same, file_of_take (take_setLane_same ..)
    (show (t.chunkCounted t.nextChunk).file? u.entry = some f from file), sent, modifyTake_setLane, last, decide_true,
    if_true, Work.andThen]
  rfl

end

theorem same_iff (d e : Digest) : d.same e = true ↔ d.a = e.a ∧ d.b = e.b ∧ d.len = e.len := by
  simp [Digest.same, and_assoc]

/-- Settles O46: a file's own reading and a recopy place their orders alike, and differ in how they end. -/
theorem chunksFanOutToEveryWritingCopy : Obligations.ChunksFanOutToEveryWritingCopy := by
  intro n s tk g u f taken file
  refine ⟨fun own => ?_, fun y d recopy last writing source => ⟨fun equal => ?_, fun differs => ?_⟩⟩
  · have good := chunkGood_own (g := g) taken file own
    have dests : orderTargets tk f u
        = (targetsOf tk.targets).filter fun (x : TargetIx) => (f.copy x).state == CopyState.writing := by
      simp [orderTargets, own]
    have once := orderTargets_nodup tk f u
    rw [dests] at good once
    have shape : ∃ x : Option Take, (s.chunkGood n g u).1 = (s.sends n f u g ((targetsOf tk.targets).filter
        fun (x : TargetIx) => (f.copy x).state == CopyState.writing)).setLane n x := by
      rw [good]
      split
      · exact ⟨_, rfl⟩
      · exact ⟨_, rfl⟩
    obtain ⟨x, shape⟩ := shape
    obtain ⟨targets, staging, rest⟩ := sends_rest s n f u g ((targetsOf tk.targets).filter
      fun (x : TargetIx) => (f.copy x).state == CopyState.writing)
    refine ⟨?_, fun y m => ?_, ?_, ?_, ?_, ?_, ?_, fun more => ?_, fun last => ?_⟩
    · rw [shape]
      exact sends_segment ..
    · rw [shape]
      exact fifos_sends s n f u g y m once
    · rw [shape, setLane_slots, rest]
    · rw [shape, setLane_pools, rest]
    · rw [shape, setLane_verify, rest]
    · rw [shape, setLane_attention, rest]
    · rw [shape, setLane_link, rest]
    · rw [if_neg (by omega)] at good
      rw [good]
      exact ⟨take_setLane_same .., rfl⟩
    · rw [if_pos last] at good
      rw [good]
      exact ⟨take_setLane_same .., rfl⟩
  · have good := chunkGood_recopied (g := g) taken file recopy last writing
    rw [compareRecopy_equal (t := tk.chunkCounted (u.chunk + 1)) (take_setLane_same ..) file y
      source ((same_iff ..).2 equal), endReading_eq (take_setLane_same ..), setLane_setLane] at good
    rw [good]
    refine ⟨take_setLane_same .., sends_segment .., ?_, rfl⟩
    have fifo := fifos_sends s n f u g y n (List.nodup_singleton y)
    rw [if_pos ⟨rfl, List.mem_singleton_self y⟩] at fifo
    exact fifo
  · have good := chunkGood_recopied (g := g) taken file recopy last writing
    rw [compareRecopy_differs (t := tk.chunkCounted (u.chunk + 1)) (take_setLane_same ..) file writing
      source (Bool.eq_false_iff.2 fun same => differs ((same_iff ..).1 same)),
      modifyCopy_of_take (t := tk.chunkCounted (u.chunk + 1)) (take_setLane_same ..), setLane_setLane] at good
    let failed := (tk.chunkCounted (u.chunk + 1)).modifyFile u.entry (·.modifyCopy y (CopyRecord.fail .sourceUnstable))
    have left := withdrawAt_withdrawn ((s.sends n f u g [y]).setLane n (some failed)) n u.entry y
    have taken' : (((s.sends n f u g [y]).setLane n (some failed)).withdrawAt n y fun o => o.entry == u.entry).1.take? n
        = some failed := by
      rw [State.take?, withdrawAt_lanes]
      exact take_setLane_same ..
    rw [endReading_eq taken'] at good
    rw [good]
    have file' : failed.file? u.entry = some (f.modifyCopy y (CopyRecord.fail .sourceUnstable)) := by
      rw [file_modifyFile_same]
      exact congrArg _ file
    refine ⟨?_, left, _, take_setLane_same .., rfl, rfl⟩
    rw [copy_of_take (t := { failed with reading := .none }) (take_setLane_same ..) file', copy_modifyCopy_same]
    rfl

end Sys2Proof.Machine
end

