-- ==== Sys2Proof/Proofs/PieceEnds.lean ====
section
/-! The end of a piece at the card port, and the piece that follows it (R41, R42, R78). -/

namespace Sys2Proof.Machine

/-! ### The operation ends at the port -/

/-- The port when its lane piece has ended with a class, no peek waiting (R78, R79). -/
def Slot.pieceOver (x : Slot) (cls : ResultClass) : Slot := { x.countEnd cls with op := .none }

/-- The port when its lane piece has failed; `counted` says whether its count of failures counts it (R78). -/
def Slot.pieceFailed (x : Slot) (counted : Bool) : Slot :=
  { x with op := .none, failed := if counted then satInc x.failed else x.failed }

section
variable {s : State} {n : LaneIx} {r : CardRead} {k : Nat} (op : (s.slot n).op = .piece r k)
  (alone : (s.slot n).waitingPeek = none)
include op alone

/-- The last attempt of a piece ends its operation, and the lane has the result (R77, R79). -/
theorem attemptEnded_last {cls : ResultClass} (data : List Byte) (last : cls.retried = true → 1 + r.retries ≤ k) :
    s.attemptEnded n cls data = (s.setSlot n ((s.slot n).pieceOver (operationResult k cls)),
      [.pieceEnded n (operationResult k cls) data]) := by
  have ended : ¬ (cls.retried ∧ k < 1 + r.retries ∧ s.laneState n ≠ some .aborting) := fun ⟨again, fewer, _⟩ =>
    absurd (last again) (by omega)
  have port : { (s.slot n).countEnd (operationResult k cls) with op := .none, waitingPeek := none }
      = (s.slot n).pieceOver (operationResult k cls) := by
    rw [Slot.pieceOver]
    cases operationResult k cls <;> simp [Slot.countEnd, alone]
  simp only [State.attemptEnded, op, if_neg ended, State.endPiece, alone, modifySlot_eq, port]

theorem exec_attemptLast {cls : CardClass} (data : List Byte)
    (last : (attemptClass cls).retried = true → 1 + r.retries ≤ k) :
    exec (.cardAttemptComplete n false cls data) s = .next (finish (s.setSlot n
      ((s.slot n).pieceOver (operationResult k (attemptClass cls))),
        [.pieceEnded n (operationResult k (attemptClass cls)) data])) := by
  show execCardAttemptComplete n false cls data s = _
  simp only [execCardAttemptComplete, Bool.false_eq_true, if_false, op, attemptEnded_last op alone data last]

/-- A failed piece has ended with a class that delivers nothing; the port's count of failures tells which. -/
theorem exec_failsPiece {c : Instr} {counted : Bool} (fails : failsPiece n r k c counted) : ∃ cls data,
    exec c s = .next (finish (s.setSlot n ((s.slot n).pieceFailed counted), [.pieceEnded n cls data]))
      ∧ cls.delivers = false ∧ cls ≠ .aborted := by
  rcases fails with ⟨⟨data, rfl⟩, rfl⟩ | ⟨⟨data, rfl⟩, rfl⟩ | ⟨last, ⟨data, rfl⟩ | rfl, rfl⟩
  · exact ⟨.badBlock, data, exec_attemptLast op alone data (by simp [attemptClass, ResultClass.retried]), rfl, by simp⟩
  · exact ⟨.outOfRange, data, exec_attemptLast op alone data (by simp [attemptClass, ResultClass.retried]), rfl, by simp⟩
  · exact ⟨.uncorrectable, data, exec_attemptLast op alone data fun _ => last, rfl, by simp⟩
  · refine ⟨.noResponse, [], ?_, rfl, by simp⟩
    have ended := attemptEnded_last op alone (cls := .noResponse) [] fun _ => last
    show execCardAttemptTimeout n s = _
    simp only [execCardAttemptTimeout, op, ended]
    rfl

end

/-! ### The piece reaches the lane -/

section
variable {s : State} {n : LaneIx} {t : Take} {g : SegmentIx} {u : SegmentUse} {f : FileEntry} {p : Piece}
  {rest : List Piece} (h : s.take? n = some t) (chunk : t.chunkRead = some { segment := g, pieces := p :: rest })
  (seg : s.segment g = .filling u false) (file : t.file? u.entry = some f) {cls : ResultClass} (data : List Byte)
include h chunk seg file

theorem pieceEnded_delivers (delivers : cls.delivers = true) :
    s.pieceEnded n cls data = s.deliverPiece n g u f.length p rest cls data := by
  have kept : cls ≠ .aborted := by
    rintro rfl
    cases delivers
  simp [State.pieceEnded, h, chunk, seg, file, delivers, kept]

variable (fails : cls.delivers = false) (kept : cls ≠ .aborted)
include fails kept

theorem pieceEnded_recopyFailed {y : TargetIx} (recopy : u.pass = some y) :
    s.pieceEnded n cls data = s.recopyFailed n u.entry y g := by
  simp [State.pieceEnded, h, chunk, seg, file, fails, kept, recopy]

theorem pieceEnded_fills (own : u.pass = none) (fill : t.policy = .fill) :
    s.pieceEnded n cls data = s.fillPiece n g u f.length p rest := by
  simp [State.pieceEnded, h, chunk, seg, file, fails, kept, own, fill]

theorem pieceEnded_unreadable (own : u.pass = none) (policy : t.policy ≠ .fill) :
    s.pieceEnded n cls data = s.fileUnreadable n u.entry g := by
  simp [State.pieceEnded, h, chunk, seg, file, fails, kept, own, policy]

end

/-! ### A piece that is not its chunk's last (R41, R42) -/

/-- The piece's sectors are in the segment, and the next piece of the chunk is the lane's. -/
def State.nextPiece (s : State) (n : LaneIx) (g : SegmentIx) (u : SegmentUse) (sectors : List Byte) (t : Take)
    (rest : List Piece) : State :=
  (s.setSegment g (.filling { u with data := u.data ++ sectors } false)).setLane n (some (t.readsInto g rest))

/-- A file's running digest goes on over more of its bytes (R60). -/
def FileEntry.digests (f : FileEntry) (bytes : List Byte) : FileEntry := { f with running := f.running.fold bytes }

/-- A correction in a file's own reading (R41, R90). -/
def FileEntry.correctedOnce (f : FileEntry) : FileEntry :=
  { f with correctedCount := satInc f.correctedCount
           condition := if f.condition = .clean then .corrected else f.condition }

/-- Zeros stand in a file's data (R91). -/
def FileEntry.damagedOnce (f : FileEntry) : FileEntry := { f with condition := .damaged, damageCounted := true }

section
variable {s : State} {n : LaneIx} {t : Take} {g : SegmentIx} {u : SegmentUse} {f : FileEntry} {p q : Piece}
  {rest : List Piece} (h : s.take? n = some t) (seg : s.segment g = .filling u false) (own : u.pass = none)
include h seg own

/-- The sectors go to the segment and the bytes to the digest (R33, R60). -/
theorem stored_folded (sectors bytes : List Byte) : (s.storePiece g sectors).foldPass n u bytes
    = (s.setSegment g (.filling { u with data := u.data ++ sectors } false)).setLane n
        (some (t.modifyFile u.entry fun f => f.digests bytes)) := by
  have stored : s.storePiece g sectors = s.setSegment g (.filling { u with data := u.data ++ sectors } false) := by
    simp only [State.storePiece, seg]
  rw [stored, State.foldPass, own]
  exact modifyFile_of_take (s := s.setSegment g _) h _

theorem deliverPiece_ok (len : Nat) (data : List Byte) : s.deliverPiece n g u len p (q :: rest) .ok data
    = (s.nextPiece n g u (fitSectors p.count data) ({ t with counters := { t.counters with
        bytesRead := satAdd 64 t.counters.bytesRead (fileBytesOf len p.sector p.count) } }.modifyFile u.entry fun f =>
          f.digests ((fitSectors p.count data).take (fileBytesOf len p.sector p.count))) (q :: rest), [.handPiece n]) := by
  simp only [State.deliverPiece, stored_folded h seg own, State.countDelivered, reduceCtorEq, if_false, State.pieceDone,
    modifyTake_setLane]
  rfl

omit seg in
/-- A correction in a file's own reading is counted by the take and by the file (R41, R90). -/
theorem countCorrected_own : s.countCorrected n u = s.setLane n (some ({ t with counters := { t.counters with
    corrected := satInc t.counters.corrected } }.modifyFile u.entry FileEntry.correctedOnce)) := by
  rw [State.countCorrected, own, modifyTake_of_take s n _ h]
  exact (modifyFile_of_take (take_setLane_same ..) _).trans (setLane_setLane ..)

theorem deliverPiece_corrected (len : Nat) (data : List Byte) : s.deliverPiece n g u len p (q :: rest) .corrected data
    = (s.nextPiece n g u (fitSectors p.count data) ({ t with counters := { t.counters with
        bytesRead := satAdd 64 t.counters.bytesRead (fileBytesOf len p.sector p.count)
        corrected := satInc t.counters.corrected } }.modifyFile u.entry fun f =>
          (f.digests ((fitSectors p.count data).take (fileBytesOf len p.sector p.count))).correctedOnce) (q :: rest),
      [.handPiece n]) := by
  simp only [State.deliverPiece, stored_folded h seg own, State.countDelivered, if_true, State.pieceDone,
    modifyTake_setLane, countCorrected_own (take_setLane_same ..) own, setLane_setLane]
  rw [← modifyFile_modifyFile _ _ (fun f => f.digests _) FileEntry.correctedOnce]
  rfl

omit seg own in
/-- The first zeros of a file's reading (R91). -/
theorem damage_first {e : Nat} (file : t.file? e = some f) (sound : f.condition = .clean ∨ f.condition = .corrected) :
    s.damage n e = (s.setLane n (some ({ t with counters := { t.counters with
      filesDamaged := if f.damageCounted then t.counters.filesDamaged else satInc t.counters.filesDamaged } }.modifyFile e
        FileEntry.damagedOnce))).latch (condSourceFault n) := by
  simp only [State.damage, file_of_take h file, sound, if_true]
  split
  · rw [modifyFile_of_take h]
    rfl
  · rw [modifyFile_of_take h, modifyTake_setLane]
    rfl

omit seg own in
theorem damage_again {e : Nat} (file : t.file? e = some f) (damaged : f.condition = .damaged) : s.damage n e = s := by
  simp [State.damage, file_of_take h file, damaged]

omit seg own in
theorem pieceDone_next (g : SegmentIx) : s.pieceDone n g (q :: rest)
    = (s.setLane n (some (t.readsInto g (q :: rest))), [.handPiece n]) := by
  rw [State.pieceDone, modifyTake_of_take s n _ h]
  rfl

/-- Zeros in a file that is not DAMAGED yet, and in one that is. -/
theorem fillPiece_damages (file : t.file? u.entry = some f) (sound : f.condition = .clean ∨ f.condition = .corrected)
    (len : Nat) : s.fillPiece n g u len p (q :: rest)
      = ((s.nextPiece n g u (zeroSectors p.count) ({ t with counters := { t.counters with
          filesDamaged := if f.damageCounted then t.counters.filesDamaged else satInc t.counters.filesDamaged } }.modifyFile
            u.entry fun f => (f.digests ((zeroSectors p.count).take (fileBytesOf len p.sector p.count))).damagedOnce)
          (q :: rest)).latch (condSourceFault n), [.handPiece n]) := by
  have file' (bytes : List Byte) : (t.modifyFile u.entry fun f => f.digests bytes).file? u.entry
      = some (f.digests bytes) := by
    rw [file_modifyFile_same, file]
    rfl
  rw [State.fillPiece]
  dsimp only
  rw [stored_folded h seg own, damage_first (take_setLane_same ..) (file' _) sound, setLane_setLane,
    pieceDone_next ((latch_take ..).trans (take_setLane_same ..)), setLane_latch, setLane_setLane,
    ← modifyFile_modifyFile _ _ (fun f => f.digests _) FileEntry.damagedOnce]
  rfl

theorem fillPiece_again (file : t.file? u.entry = some f) (damaged : f.condition = .damaged) (len : Nat) :
    s.fillPiece n g u len p (q :: rest)
      = (s.nextPiece n g u (zeroSectors p.count) (t.modifyFile u.entry fun f =>
          f.digests ((zeroSectors p.count).take (fileBytesOf len p.sector p.count))) (q :: rest), [.handPiece n]) := by
  have file' (bytes : List Byte) : (t.modifyFile u.entry fun f => f.digests bytes).file? u.entry
      = some (f.digests bytes) := by
    rw [file_modifyFile_same, file]
    rfl
  rw [State.fillPiece, stored_folded h seg own, damage_again (take_setLane_same ..) (file' _) damaged,
    pieceDone_next (take_setLane_same ..),
    setLane_setLane]
  rfl

end

/-! ### The next piece is handed to the port (R33) -/

theorem setSlot_gain (s : State) (n : LaneIx) (x : Slot) (g : CondSet) : (s.gain g).setSlot n x = (s.setSlot n x).gain g := by
  by_cases h : g = 0 <;> simp only [State.gain, h, if_true, if_false]
  rfl

theorem setSlot_latch (s : State) (n : LaneIx) (x : Slot) (c : Nat) :
    (s.latch c).setSlot n x = (s.setSlot n x).latch c := by
  cases h : s.attention.latched.getLsbD c <;>
    simp only [State.latch, setSlot_attention, h, if_true, Bool.false_eq_true, if_false]
  exact setSlot_gain
    { s with attention := ({ s.attention with latched := s.attention.latched ||| condBit c }).evalPanel } n x _

/-- A step in which a piece ends, leaving the lane the next one: the port begins it. -/
theorem finish_nextPiece {s v : State} {n : LaneIx} {t : Take} {g : SegmentIx} {cls : ResultClass} {data : List Byte}
    {q : Piece} {rest : List Piece} {i : CardIdentity} (rested : v.atRest = true) (fresh : v.link.stale = false)
    (ends : s.pieceEnded n cls data = (v, [.handPiece n])) (h : v.take? n = some (t.readsInto g (q :: rest)))
    (free : (v.slot n).op = .none) (card : (v.slot n).identity = some i) (within : q.lba + q.count ≤ i.sectors.toNat) :
    finish (s, [.pieceEnded n cls data]) = (v.setSlot n ((v.slot n).reads (t.cardRead q))).choosePath := by
  have begins := handPiece_begins h rfl rfl free card within
  have run : Ends 2 (s, [.pieceEnded n cls data]) (v.setSlot n ((v.slot n).reads (t.cardRead q))) :=
    .act ends (.one begins (.nil _))
  rw [finish_tasks (run.settled (by omega)) fresh, conclude_of_atRest ((atRest_setSlot ..).trans rested)]

theorem nextPiece_setSlot (s : State) (n : LaneIx) (y z : Slot) (g : SegmentIx) (u : SegmentUse) (sectors : List Byte)
    (t : Take) (rest : List Piece) : ((s.setSlot n y).nextPiece n g u sectors t rest).setSlot n z
      = (s.setSlot n z).nextPiece n g u sectors t rest :=
  congrArg (fun s : State => s.nextPiece n g u sectors t rest) (setSlot_setSlot s n y z)

section
variable {s : State} {n : LaneIx} {t : Take} {g : SegmentIx} {u : SegmentUse} {p q : Piece} {rest : List Piece}
  {i : CardIdentity} {y : Slot} {cls : ResultClass} {data sectors : List Byte} (rested : s.atRest = true)
  (fresh : s.link.stale = false) (free : y.op = .none) (card : y.identity = some i)
  (within : q.lba + q.count ≤ i.sectors.toNat)
include rested fresh free card within

/-- A piece has ended without an event: the lane's next piece is in progress at the port. -/
theorem finish_quietPiece (ends : (s.setSlot n y).pieceEnded n cls data
      = ((s.setSlot n y).nextPiece n g u sectors t (q :: rest), [.handPiece n])) :
    finish (s.setSlot n y, [.pieceEnded n cls data])
      = ((s.setSlot n (y.reads (t.cardRead q))).nextPiece n g u sectors t (q :: rest)).choosePath := by
  have port : ((s.setSlot n y).nextPiece n g u sectors t (q :: rest)).slot n = y := slot_setSlot_same s n y
  have run := finish_nextPiece (v := (s.setSlot n y).nextPiece n g u sectors t (q :: rest)) (i := i)
    ((atRest_congr (s := s) rfl rfl).trans rested) fresh ends (take_setLane_same ..) (by rw [port]; exact free)
    (by rw [port]; exact card) within
  rw [run, port, nextPiece_setSlot]

/-- A piece has ended with an event of an edge condition. -/
theorem finish_latchedPiece {c : Nat} (ends : (s.setSlot n y).pieceEnded n cls data
      = (((s.setSlot n y).nextPiece n g u sectors t (q :: rest)).latch c, [.handPiece n])) :
    finish (s.setSlot n y, [.pieceEnded n cls data])
      = (((s.setSlot n (y.reads (t.cardRead q))).nextPiece n g u sectors t (q :: rest)).latch c).choosePath := by
  have port : (((s.setSlot n y).nextPiece n g u sectors t (q :: rest)).latch c).slot n = y :=
    (latch_slot ..).trans (slot_setSlot_same s n y)
  have latched := attentionOnly_latch ((s.setSlot n y).nextPiece n g u sectors t (q :: rest)) c
  have run := finish_nextPiece (v := ((s.setSlot n y).nextPiece n g u sectors t (q :: rest)).latch c) (i := i)
    (latched.atRest.trans ((atRest_congr (s := s) rfl rfl).trans rested)) (latched.stale.trans fresh) ends
    ((latch_take ..).trans (take_setLane_same ..)) (by rw [port]; exact free) (by rw [port]; exact card) within
  rw [run, port, setSlot_latch, nextPiece_setSlot]

end

end Sys2Proof.Machine
end

