-- ==== Sys2Proof/Proofs/ReadingEnds.lean ====
section
/-! SUPPORT. The follow-on actions after a lane's reading has ended: they give the lane's segments back, and a STOPPING
lane may close (R15, R38, R50). -/

namespace Sys2Proof.Machine

/-! ### Latches only become set -/

/-- From s to u no latch has become clear. -/
def State.LatchesIn (s u : State) : Prop :=
  ∀ c, s.attention.latched.getLsbD c = true → u.attention.latched.getLsbD c = true

theorem latched_gain (s : State) (g : CondSet) : (s.gain g).attention.latched = s.attention.latched := by
  unfold State.gain
  split <;> rfl

/-- An event of a condition sets its latch and no other (R170). -/
theorem latch_latched (s : State) (c : Nat) : (s.latch c).attention.latched = s.attention.latched ||| condBit c := by
  unfold State.latch
  split
  · rename_i set_
    refine BitVec.eq_of_getLsbD_eq fun i lt => ?_
    by_cases i_ : i = c
    · subst i_
      simp [set_]
    · have other : (condBit c).getLsbD i = false := by
        rw [condBit, BitVec.getLsbD_twoPow]
        simp [Ne.symm i_]
      simp [other]
  · exact latched_gain ..

theorem rise_latched (s : State) (c : Nat) : (s.rise c).attention.latched = s.attention.latched ||| condBit c :=
  latch_latched ..

section
variable {s t u : State}

theorem State.LatchesIn.trans (h : s.LatchesIn t) (k : t.LatchesIn u) : s.LatchesIn u := fun c set_ => k c (h c set_)

theorem State.LatchesIn.of_eq (h : u.attention.latched = s.attention.latched) : s.LatchesIn u := fun c set_ => by
  rwa [h]

theorem latchesIn_latch (s : State) (c : Nat) : s.LatchesIn (s.latch c) := fun d set_ => by
  rw [latch_latched, BitVec.getLsbD_or, set_, Bool.true_or]

theorem latchesIn_rise (s : State) (c : Nat) : s.LatchesIn (s.rise c) := fun d set_ => by
  rw [rise_latched, BitVec.getLsbD_or, set_, Bool.true_or]

theorem latchesIn_enter (s : State) (n : LaneIx) (st : TakeState) : s.LatchesIn (s.enter n st) := by
  unfold State.enter
  cases (s.laneState n).bind (laneLevel n) <;> cases laneLevel n st <;> intro c set_
  · exact set_
  · exact latchesIn_rise _ _ c set_
  · exact set_
  · exact latchesIn_rise _ _ c set_

theorem latchesIn_closeTake (s : State) (n : LaneIx) (o : TakeOutcome) : s.LatchesIn (s.closeTake n o) :=
  (latchesIn_enter (s.modifyTake n (·.judged o)) n .closed).trans (latchesIn_latch _ _)

end

/-! ### Segments held by one lane -/

/-- No lane but n holds the segment. -/
def State.HeldBy (n : LaneIx) (g : SegmentIx) (s : State) : Prop := ∀ o, (s.segment g).owner? = some o → o = n

section
variable {s : State} {n : LaneIx} {g : SegmentIx}

theorem State.LeftBy.heldBy (h : s.LeftBy n g) : s.HeldBy n g := by
  intro o own
  rcases h with free | ⟨u, k, sending, rfl⟩
  · rw [free] at own
    cases own
  · rw [sending] at own
    exact (Option.some.inj own).symm

theorem heldBy_filling {u : SegmentUse} {d : Bool} (seg : s.segment g = .filling u d) (own : u.owner = n) :
    s.HeldBy n g := by
  intro o owner
  rw [seg] at owner
  exact (Option.some.inj owner).symm.trans own

theorem State.HeldBy.congr {t : State} (h : s.HeldBy n g) (same : t.staging = s.staging) : t.HeldBy n g := by
  simpa [State.HeldBy, State.segment, same] using h

theorem State.HeldBy.free (h : s.HeldBy n g) (c : SegmentIx) : (s.setSegment c .free).HeldBy n g := by
  intro o own
  rw [segment_setSegment] at own
  split at own
  · cases own
  · exact h o own

theorem State.HeldBy.countDown (h : s.HeldBy n g) (c : SegmentIx) : (s.countDown c).1.HeldBy n g := by
  unfold State.countDown
  split
  · rename_i u k seg
    intro o own
    refine h o ?_
    rw [segment_setSegment] at own
    split at own
    · subst_vars
      rw [seg]
      exact own
    · exact own
  · exact h
  · exact h

theorem State.HeldBy.withdrawAt (h : s.HeldBy n g) (m : LaneIx) (x : TargetIx) (p : WriteOrder → Bool) :
    (s.withdrawAt m x p).1.HeldBy n g := by
  obtain ⟨head, queued, -, -, eq⟩ := withdrawAt_eq s m x p
  rw [eq, forEach_state]
  exact List.foldlRecOn (motive := State.HeldBy n g) _ _ h fun _ h' o _ => h'.countDown o.segment

theorem State.HeldBy.withdraw (h : s.HeldBy n g) (m : LaneIx) (p : WriteOrder → Bool) :
    (s.withdraw m p).1.HeldBy n g := by
  rw [State.withdraw, forEach_state]
  exact List.foldlRecOn (motive := State.HeldBy n g) _ _ h fun _ h' x _ => h'.withdrawAt m x p

/-- The lane of a segment whose use has ended is the one that holds it. -/
theorem State.HeldBy.ended (h : s.HeldBy n g) {o : LaneIx} (ends : s.endedUse g = some o) : o = n := by
  refine h o ?_
  rcases endedUse_some ends with ⟨u, seg, own⟩ | ⟨u, d, seg, own, -⟩ <;> rw [seg, ← own] <;> rfl

end

/-! ### Follow-on actions that give segments back -/

/-- The take of a STOPPING lane that has closed. -/
def Take.closed (a : Take) : Take := (a.judged a.stopOutcome).inState .closed

/-- From v to u the segments of lane n have become FREE, or some of them; its take, whose reading has ended, is `a`
still, or it has closed in STOPPING. -/
structure State.Unwinds (n : LaneIx) (a : Take) (v u : State) : Prop where
  held : ∀ g, v.HeldBy n g → u.HeldBy n g
  dry : u.staging.waiting = []
  slots : u.slots = v.slots
  ports : SamePorts v u
  take : u.take? n = some a ∧ u.attention = v.attention
    ∨ a.state = .stopping ∧ u.take? n = some a.closed ∧ v.LatchesIn u

/-- The actions that give a lane's segments back, and that test whether a STOPPING lane can close. -/
inductive Task.Unwinds (n : LaneIx) (a : Take) (v : State) : Task → Prop
  | freeSegment {g : SegmentIx} : v.HeldBy n g → Unwinds n a v (.freeSegment g)
  | tryRead : Unwinds n a v (.tryRead n)
  | laneTests : Unwinds n a v (.laneTests n)
  | goOn : a.state = .stopping → Unwinds n a v (.goOn n)

section
variable {n : LaneIx} {a : Take} {v u : State} (going : a.state = .running ∨ a.state = .stopping)
  (idle : a.reading = .none) (none_ : a.recopyList = [])

include idle in
theorem State.Unwinds.idle_take (h : State.Unwinds n a v u) : ∃ b, u.take? n = some b ∧ b.reading = .none := by
  rcases h.take with ⟨taken, -⟩ | ⟨-, taken, -⟩
  · exact ⟨a, taken, idle⟩
  · exact ⟨a.closed, taken, idle⟩

/-- A STOPPING lane's test of whether it can close. -/
theorem State.Unwinds.closes (h : State.Unwinds n a v u) (stopping : a.state = .stopping) (taken : u.take? n = some a)
    (att : u.attention = v.attention) : State.Unwinds n a v (u.closeIfClear n a.closingOutcome).1
      ∧ (u.closeIfClear n a.closingOutcome).2 = [] := by
  have outcome : a.closingOutcome = a.stopOutcome := by simp [Take.closingOutcome, stopping, Take.stopOutcome]
  unfold State.closeIfClear
  split
  · refine ⟨⟨fun g held => (h.held g held).congr (closeTake_staging ..), ?_, ?_, h.ports.trans (samePorts_closeTake ..),
      .inr ⟨stopping, ?_, .trans (.of_eq (by rw [att])) (latchesIn_closeTake u n _)⟩⟩, rfl⟩
    · exact (congrArg Staging.waiting (closeTake_staging ..)).trans h.dry
    · rw [← h.slots]
      simp [State.closeTake]
    · rw [take_closeTake, if_pos rfl, taken, outcome]
      rfl
  · exact ⟨h, rfl⟩

include going idle none_

/-- Each of the actions keeps all of it, and is followed by lighter ones. -/
theorem State.Unwinds.act (h : State.Unwinds n a v u) {t : Task} (task : Task.Unwinds n a v t) :
    State.Unwinds n a v (doTask u t).1 ∧ (∀ w ∈ (doTask u t).2, Task.Unwinds n a v w)
      ∧ ((doTask u t).2.map Task.weight).sum < t.weight := by
  have stays {t : Task} {w : State} (same : doTask u t = (w, [])) (kept : State.Unwinds n a v w) :
      State.Unwinds n a v (doTask u t).1 ∧ (∀ w ∈ (doTask u t).2, Task.Unwinds n a v w)
        ∧ ((doTask u t).2.map Task.weight).sum < t.weight := by
    rw [same]
    exact ⟨kept, by simp, t.weight_pos⟩
  cases task with
  | tryRead =>
    obtain ⟨b, taken, idle'⟩ := h.idle_take idle
    exact stays (tryRead_of_idle taken idle') h
  | laneTests =>
    rcases h.take with ⟨taken, att⟩ | ⟨-, taken, -⟩
    · rcases going with running | stopping
      · exact stays (by simp [doTask, State.laneTests, taken, running]) h
      · obtain ⟨kept, done⟩ := h.closes stopping taken att
        by_cases files : a.filesDone = true
        · refine stays (w := (u.closeIfClear n a.closingOutcome).1) ?_ kept
          rw [← done]
          simp [doTask, State.laneTests, taken, stopping, State.testDone, idle, none_, files]
        · exact stays (by simp [doTask, State.laneTests, taken, stopping, State.testDone, files]) h
    · exact stays (by simp [doTask, State.laneTests, taken, Take.closed, Take.inState]) h
  | goOn stopping =>
    rcases h.take with ⟨taken, att⟩ | ⟨-, taken, -⟩
    · obtain ⟨kept, done⟩ := h.closes stopping taken att
      by_cases files : a.filesDone = true
      · refine stays (w := (u.closeIfClear n a.closingOutcome).1) ?_ kept
        rw [← done]
        simp [doTask, State.goOn, taken, stopping, State.serveOrClose, idle, none_, files]
      · exact stays (by simp [doTask, State.goOn, taken, stopping, State.serveOrClose, idle, none_, files]) h
    · exact stays (by simp [doTask, State.goOn, taken, Take.closed, Take.inState]) h
  | @freeSegment g held =>
    rcases owner : u.endedUse g with _ | o
    · exact stays (freeSegment_of_used owner) h
    · obtain rfl := (h.held g held).ended owner
      have nobody : u.staging.nextWaiting = none := by simp [Staging.nextWaiting, h.dry]
      have freed : doTask u (.freeSegment g) = (u.setSegment g .free, [.tryRead o, .laneTests o]) :=
        freeSegment_of_ended owner nobody
      rw [freed]
      refine ⟨⟨fun c held' => (h.held c held').free g, h.dry, h.slots, h.ports.trans ⟨rfl, rfl⟩, h.take⟩, ?_,
        by simp [Task.weight]⟩
      intro w mem
      simp only [List.mem_cons, List.not_mem_nil, or_false] at mem
      rcases mem with rfl | rfl
      · exact .tryRead
      · exact .laneTests

end

/-- Follow-on actions of which each keeps a property and is followed by lighter ones of its kind run out. -/
theorem ends_of_lighter {P : State → Prop} {A : Task → Prop} (one : ∀ s t, P s → A t → P (doTask s t).1
      ∧ (∀ u ∈ (doTask s t).2, A u) ∧ ((doTask s t).2.map Task.weight).sum < t.weight) :
    ∀ (k : Nat) (ts : List Task) (s : State), (ts.map Task.weight).sum ≤ k → P s → (∀ t ∈ ts, A t) →
      ∃ j u, j ≤ k ∧ Ends j (s, ts) u ∧ P u
  | k, [], s, _, p, _ => ⟨0, s, Nat.zero_le k, .nil s, p⟩
  | 0, t :: ts, s, few, _, _ => by
    have := t.weight_pos
    simp only [List.map_cons, List.sum_cons] at few
    omega
  | k + 1, t :: ts, s, few, p, all => by
    obtain ⟨p', all', less⟩ := one s t p (all t (List.mem_cons_self ..))
    simp only [List.map_cons, List.sum_cons] at few
    obtain ⟨j, u, le, ends, p''⟩ := ends_of_lighter one k ((doTask s t).2 ++ ts) (doTask s t).1
      (by simp only [List.map_append, List.sum_append]; omega) p' fun u mem => by
        rcases List.mem_append.1 mem with mem | mem
        · exact all' u mem
        · exact all u (List.mem_cons_of_mem _ mem)
    exact ⟨j + 1, u, by omega, .cons ends, p''⟩

/-- The actions that give a lane's segments back run out. -/
theorem unwinding_ends {n : LaneIx} {a : Take} {v : State} (going : a.state = .running ∨ a.state = .stopping)
    (idle : a.reading = .none) (none_ : a.recopyList = []) (taken : v.take? n = some a) (dry : v.staging.waiting = [])
    {ts : List Task} (few : ts.length ≤ 600) (all : ∀ t ∈ ts, Task.Unwinds n a v t) :
    ∃ j u, j ≤ 1800 ∧ Ends j (v, ts) u ∧ State.Unwinds n a v u :=
  ends_of_lighter (A := Task.Unwinds n a v) (fun _ _ h task => h.act going idle none_ task) 1800 ts v
    ((weights_le ts).trans (by omega)) ⟨fun _ => id, dry, rfl, .refl v, .inl ⟨taken, rfl⟩⟩ all

theorem Ends.settled_of_le {k : Nat} {w : Work} {u : State} (h : Ends k w u) (few : k ≤ 2000) : Machine.settled w = u := by
  have fuel : Config.settleFuel = k + (2 ^ 64 - k) := by
    have : Config.settleFuel = 2 ^ 64 := rfl
    omega
  rw [Machine.settled, fuel, h.settle]

/-! ### Orders leave the lane's FIFOs -/

/-- From s to u only FIFOs and the segments' counts have changed. -/
structure State.OrdersLeave (s u : State) : Prop where
  rest : u = { s with targets := u.targets, staging := { s.staging with segments := u.staging.segments } }
  states : ∀ x, (u.target x).state = (s.target x).state

theorem State.OrdersLeave.refl (s : State) : s.OrdersLeave s := ⟨rfl, fun _ => rfl⟩

theorem State.OrdersLeave.trans {s t u : State} (h : s.OrdersLeave t) (k : t.OrdersLeave u) : s.OrdersLeave u where
  rest := by have h1 := h.rest; have h2 := k.rest; rw [h1] at h2; exact h2
  states x := (k.states x).trans (h.states x)

theorem ordersLeave_withdrawAt (s : State) (n : LaneIx) (x : TargetIx) (p : WriteOrder → Bool) :
    s.OrdersLeave (s.withdrawAt n x p).1 := by
  obtain ⟨head, queued, -, -, eq⟩ := withdrawAt_eq s n x p
  refine ⟨?_, fun y => ?_⟩
  · rw [eq, countDowns_rest]
    rfl
  · rw [eq, countDowns_target, modifyTarget_eq, target_setTarget]
    split
    · subst_vars
      rfl
    · rfl

theorem ordersLeave_withdraw (s : State) (n : LaneIx) (p : WriteOrder → Bool) : s.OrdersLeave (s.withdraw n p).1 := by
  rw [State.withdraw, forEach_state]
  exact List.foldlRecOn (motive := s.OrdersLeave) _ _ (.refl s) fun v h x _ => h.trans (ordersLeave_withdrawAt v n x p)

section
variable {s c : State} (ok : s.StagingOk) (n : LaneIx) (staging : c.staging = s.staging) (targets : c.targets = s.targets)
include ok staging targets

theorem withdraws_of_same : s.Withdraws n c := by
  obtain ⟨left, orders, few⟩ := withdraws_of_stagingOk (n := n) ok
  have same (x : TargetIx) : c.target x = s.target x := by rw [State.target, targets, State.target]
  exact ⟨fun g held => held.congr staging, fun x => by rw [same]; exact orders x, fun x => by rw [same]; exact few x⟩

/-- Where the staging buffer is in order, a withdrawal is followed by the giving back of the lane's own segments. -/
theorem withdrawAt_frees (x : TargetIx) (p : WriteOrder → Bool) : (c.withdrawAt n x p).2.length ≤ 512
    ∧ ∀ t ∈ (c.withdrawAt n x p).2, ∃ g, t = .freeSegment g ∧ (c.withdrawAt n x p).1.HeldBy n g := by
  obtain ⟨kept, few, tasks⟩ := (withdraws_of_same ok n staging targets).withdrawAt x p
  refine ⟨by omega, fun t mem => ?_⟩
  obtain ⟨g, eq, left⟩ := tasks t mem
  exact ⟨g, eq, (kept.left g left).heldBy⟩

theorem withdraw_frees (p : WriteOrder → Bool) : (c.withdraw n p).2.length ≤ 512
    ∧ ∀ t ∈ (c.withdraw n p).2, ∃ g, t = .freeSegment g ∧ (c.withdraw n p).1.HeldBy n g := by
  obtain ⟨kept, few, tasks⟩ := forEach_tasks (P := s.Withdraws n) (C := fun t => ∃ g, t = .freeSegment g ∧ s.LeftBy n g)
    (m := 128) allTargets (fun x _ v h => h.withdrawAt x p) (withdraws_of_same ok n staging targets)
  refine ⟨few, fun t mem => ?_⟩
  obtain ⟨g, eq, left⟩ := tasks t mem
  exact ⟨g, eq, (kept.left g left).heldBy⟩

end

/-! ### The end of the step -/

@[simp] theorem grantTo_lanes (s : State) (x : TargetIx) (c : Candidate) (k : Nat) : (s.grantTo x c k).lanes = s.lanes := by
  unfold State.grantTo
  cases c with
  | lane n => rfl
  | verifier =>
    dsimp only
    split <;> rfl

/-- The arbiters' choices leave every take alone. -/
theorem arbitrateAll_lanes (s : State) : s.arbitrateAll.lanes = s.lanes := by
  have one (s : State) (x : TargetIx) : (s.arbitrate x).lanes = s.lanes := by
    unfold State.arbitrate
    dsimp only
    split
    · split
      · rfl
      · unfold State.chooseCandidate
        dsimp only
        repeat' split
        all_goals simp
    · rfl
  exact List.foldlRecOn (motive := fun u : State => u.lanes = s.lanes) _ _ rfl fun u h x _ => (one u x).trans h

/-- Where no verify order may start, the end of a step leaves every take alone. -/
theorem conclude_take_of_idle {s u : State} (rest : s.atRest = true) (verify : u.verify = s.verify)
    (states : ∀ x, (u.target x).state = (s.target x).state) (n : LaneIx) : u.conclude.take? n = u.take? n := by
  have idle : ∀ o ∈ u.verify.queue, u.orderQualifies o = false := fun o mem => by
    have none_ := ((atRest_iff s).1 rest).1 o (verify ▸ mem)
    simpa only [State.orderQualifies, states, State.active, verify] using none_
  have none_ : u.startVerifications = u :=
    List.foldlRecOn (motive := fun v => v = u) _ _ rfl fun v h o mem => by
      rw [h, idle o mem]
      rfl
  rw [State.conclude, choosePath_take, State.take?, arbitrateAll_lanes, none_]
  rfl

/-- A RUNNING lane with nothing to read and nothing at its head starves. -/
theorem Ends.starves {u : State} {n : LaneIx} {b : Take} (taken : u.take? n = some b) (running : b.state = .running)
    (idle : b.reading = .none) (none_ : b.recopyList = []) (past : b.entries.length ≤ b.head)
    (open_ : b.listEnded = false) : Ends 2 (u, [.goOn n]) (u.enter n .starved) := by
  have goes : doTask u (.goOn n) = (u, [.workHead n]) := by simp [doTask, State.goOn, taken, running]
  exact .act goes (.one (workHead_starved taken running idle none_ (List.getElem?_eq_none past) open_) (.nil _))

/-- Its level rises, and its condition is latched (R11, R170). -/
theorem starved_latched {u : State} {n : LaneIx} {b : Take} (taken : u.take? n = some b) (running : b.state = .running) :
    (u.enter n .starved).attention.latched = u.attention.latched ||| condBit (condLaneStarved n) := by
  have here : u = u.setLane n (some b) := by rw [← taken, setLane_take]
  have entered := enter_level u n running (st := .starved) rfl
  rw [← here] at entered
  rw [entered, rise_latched]
  rfl

/-! ### An ALLOCATING file let go -/

/-- From s to u a take of lane n has lost what an ALLOCATING file other than e held; latches stay. -/
structure State.LetsGo (n : LaneIx) (e : Nat) (s u : State) : Prop where
  take : ∀ t, s.take? n = some t → ∃ b, u.take? n = some b ∧ t.EntriesOnly b ∧ b.file? e = t.file? e
  slots : u.slots = s.slots
  latched : u.attention.latched = s.attention.latched

section
variable {s t u : State} {n : LaneIx} {e d : Nat}

theorem State.LetsGo.refl (s : State) : State.LetsGo n e s s := ⟨fun t h => ⟨t, h, rfl, rfl⟩, rfl, rfl⟩

theorem State.LetsGo.trans (h : State.LetsGo n e s t) (k : State.LetsGo n e t u) : State.LetsGo n e s u where
  take a taken := by
    obtain ⟨b, taken', only, file⟩ := h.take a taken
    obtain ⟨c, taken'', only', file'⟩ := k.take b taken'
    exact ⟨c, taken'', only.trans only', file'.trans file⟩
  slots := k.slots.trans h.slots
  latched := k.latched.trans h.latched

theorem letsGo_foldl {α : Type} {f : State → α → State} (each : ∀ s x, State.LetsGo n e s (f s x)) (xs : List α)
    (s : State) : State.LetsGo n e s (xs.foldl f s) :=
  List.foldlRecOn (motive := State.LetsGo n e s) _ _ (.refl s) fun v h x _ => h.trans (each v x)

theorem letsGo_modifyFile (ne : d ≠ e) (s : State) (g : FileEntry → FileEntry) :
    State.LetsGo n e s (s.modifyFile n d g) where
  take t taken := by
    refine ⟨t.modifyFile d g, ?_, rfl, ?_⟩
    · rw [modifyFile_of_take taken, take_setLane_same]
    · rw [file_modifyFile, if_neg (Ne.symm ne)]
  slots := rfl
  latched := rfl

theorem letsGo_giveBack (ne : d ≠ e) (s : State) (x : TargetIx) : State.LetsGo n e s (s.giveBack n d x) := by
  unfold State.giveBack
  split
  · exact .refl s
  · dsimp only
    split
    · have pool (p : Pool → Pool) : State.LetsGo n e s (s.modifyPool x p) := ⟨fun t h => ⟨t, h, rfl, rfl⟩, rfl, rfl⟩
      exact (pool _).trans (letsGo_modifyFile ne (s.modifyPool x _) _)
    · exact letsGo_modifyFile ne _ _

theorem letsGo_unallocate (ne : d ≠ e) (s : State) : State.LetsGo n e s (s.unallocate n d) :=
  ((letsGo_foldl (letsGo_giveBack ne) allTargets s).trans
    (letsGo_foldl (fun s _ => letsGo_modifyFile ne s _) allTargets _)).trans (letsGo_modifyFile ne _ _)

theorem leaveShort_latched (s : State) (x : TargetIx) (n : LaneIx) :
    (s.leaveShort x n).attention.latched = s.attention.latched := by
  unfold State.leaveShort
  split
  · dsimp only
    split <;> rfl
  · rfl

theorem letsGo_leaveAllShort (s : State) : State.LetsGo n e s (s.leaveAllShort n) where
  take t h := ⟨t, (leaveAllShort_take s n n).trans h, rfl, rfl⟩
  slots := leaveAllShort_slots s n
  latched := List.foldlRecOn (motive := fun u : State => u.attention.latched = s.attention.latched) _ _ rfl
    fun u h x _ => (leaveShort_latched u x n).trans h

/-- A file that is not ALLOCATING is not let go. -/
theorem letsGo_dropAllocating {a : Take} {f : FileEntry} (taken : s.take? n = some a) (file : a.file? e = some f)
    (other : f.progress ≠ .allocating) : State.LetsGo n e s (s.dropAllocating n) := by
  unfold State.dropAllocating
  rw [taken, Option.bind_some]
  cases found : a.allocatingFile with
  | none => exact letsGo_leaveAllShort s
  | some d =>
    refine (letsGo_unallocate (fun same => other ?_) s).trans (letsGo_leaveAllShort _)
    obtain ⟨p, first, rfl⟩ := Option.map_eq_some_iff.1 found
    have mem := (mem_files_iff a p.1 p.2).1 (List.mem_of_find?_eq_some first)
    rw [same, file, Option.some.injEq] at mem
    have allocating := List.find?_some first
    rw [mem]
    simpa using allocating

end

end Sys2Proof.Machine
end

