-- ==== Sys2Proof/Proofs/SourceFailures.lean ====
section
/-! A take and its file after the file's own reading has failed under SKIP or HALT (R92, R93). -/

namespace Sys2Proof.Machine

/-! ### A file that cannot be read (R92) -/

/-- The file is UNREADABLE, and its WRITING copies have lost their source. -/
def FileEntry.unreadable (f : FileEntry) : FileEntry :=
  { f with condition := .unreadable, progress := .draining, running := Digest.start
           copies := f.copies.map (CopyRecord.failIf (· == .writing) .source) }

/-- The take whose reading of a file has failed. -/
def Take.unreadable (t : Take) (e : Nat) : Take :=
  { t with
    chunkRead := none, reading := .none
    counters := { t.counters with
      chunksRead := satInc t.counters.chunksRead, filesUnreadable := satInc t.counters.filesUnreadable } }.modifyFile e
    FileEntry.unreadable

/-- The file is FINISHED if it may be (R10). -/
def Take.finishIf (t : Take) (e : Nat) : Take :=
  if (t.file? e).any (·.mayFinish t.verify) then t.finish e else t

theorem allTerminal_iff (f : FileEntry) (verify : Bool) :
    f.allTerminal verify = true ↔ ∀ y, (f.copy y).state.terminal verify = true := by
  simp [FileEntry.allTerminal, allTargets]

theorem finishIf_eq {s : State} {n : LaneIx} {t : Take} (h : s.take? n = some t) (e : Nat) :
    s.finishIf n e = s.setLane n (some (t.finishIf e)) := by
  have may : s.mayFinish n e = (t.file? e).any (·.mayFinish t.verify) := by
    simp only [State.mayFinish, h]
    cases t.file? e <;> rfl
  rw [State.finishIf, Take.finishIf, may]
  split
  · exact finishFile_eq h e
  · rw [← h, setLane_take]

theorem finishIf_file {t : Take} {e : Nat} {f : FileEntry} (file : t.file? e = some f) (draining : f.progress = .draining) :
    (t.finishIf e).file? e = some { f with
      progress := if ∀ y, (f.copy y).state.terminal t.verify = true then .finished else .draining } := by
  rw [Take.finishIf, file]
  by_cases all : ∀ y, (f.copy y).state.terminal t.verify = true
  · have may : f.mayFinish t.verify = true := by simp [FileEntry.mayFinish, draining, (allTerminal_iff ..).2 all]
    rw [Option.any_some, if_pos may, if_pos all]
    exact (file_modifyFile_same ..).trans (congrArg _ file)
  · have may : ¬ f.mayFinish t.verify = true := by simp [FileEntry.mayFinish, draining, allTerminal_iff, all]
    rw [Option.any_some, if_neg may, if_neg all, file, ← draining]

/-- A take whose reading of a file has failed, and what has become of the file. -/
structure Take.LosesSource (t : Take) (f : FileEntry) (e : Nat) (b : Take) (g : FileEntry) : Prop where
  file : b.file? e = some g
  reading : b.reading = .none
  chunk : b.chunkRead = none
  condition : g.condition = .unreadable
  source : g.source = f.source
  running : g.running = { a := 0, b := 0, len := 0 }
  progress : g.progress = if ∀ y, (g.copy y).state.terminal t.verify = true then .finished else .draining
  copies : ∀ y, g.copy y = if (f.copy y).state = .writing
    then { f.copy y with state := .failed, reason := some .source } else f.copy y
  chunksRead : b.counters.chunksRead = min (t.counters.chunksRead + 1) (2 ^ 32 - 1)
  unreadable : b.counters.filesUnreadable = min (t.counters.filesUnreadable + 1) (2 ^ 32 - 1)
  bytesRead : b.counters.bytesRead = t.counters.bytesRead

section
variable {t b c : Take} {f g : FileEntry} {e : Nat}

/-- The fields that lane states, the entry to STOPPING and the judgement leave alone. -/
theorem Take.LosesSource.congr (h : t.LosesSource f e b g) (file : c.file? e = some g) (reading : c.reading = b.reading)
    (chunk : c.chunkRead = b.chunkRead) (counters : c.counters = b.counters) : t.LosesSource f e c g :=
  { h with
    file := file, reading := reading.trans h.reading, chunk := chunk.trans h.chunk
    chunksRead := by rw [counters, h.chunksRead]
    unreadable := by rw [counters, h.unreadable]
    bytesRead := by rw [counters, h.bytesRead] }

/-- The judgement of a take that closes. -/
theorem Take.LosesSource.closed (h : t.LosesSource f e b g) :
    ∃ j, t.LosesSource f e b.closed { g with goodFile := j } :=
  ⟨some (g.isGood b.verify b.k), { h with
    file := by
      rw [file_mapEntries (t := b) (u := b.closed) rfl, h.file]
      rfl }⟩

end

theorem finishIf_rest (t : Take) (e : Nat) : ∃ es k, t.finishIf e = { t with
    entries := es, counters := { t.counters with filesFinished := k } } ∧ es.length = t.entries.length := by
  unfold Take.finishIf
  split
  · exact ⟨_, _, rfl, by simp [Take.modifyFile]⟩
  · exact ⟨_, _, rfl, rfl⟩

theorem unreadable_losesSource {t : Take} {e : Nat} {f : FileEntry} (file : t.file? e = some f) :
    ∃ g, t.LosesSource f e ((t.unreadable e).finishIf e) g := by
  have there : (t.unreadable e).file? e = some f.unreadable := (file_modifyFile_same ..).trans (congrArg _ file)
  obtain ⟨es, k, rest, -⟩ := finishIf_rest (t.unreadable e) e
  refine ⟨_, finishIf_file there rfl, ?_, ?_, rfl, rfl, rfl, rfl, fun y => ?_, ?_, ?_, ?_⟩
  · rw [rest]
    rfl
  · rw [rest]
    rfl
  · by_cases writing : (f.copy y).state = .writing
    · simp_all [FileEntry.copy, FileEntry.unreadable, CopyRecord.failIf, CopyRecord.fail]
    · simp_all [FileEntry.copy, FileEntry.unreadable, CopyRecord.failIf]
  · rw [rest]
    rfl
  · rw [rest]
    rfl
  · rw [rest]
    rfl

end Sys2Proof.Machine
end

