-- ==== Sys2Proof/Proofs/ReadingsLost.lean ====
section
/-! The step in which a reading fails: what it leaves alone, and how its follow-on actions come to their end
(R92, R93, R154). -/

namespace Sys2Proof.Machine

/-! ### The parts that such a step leaves alone -/

/-- From s to u the card ports, the verify unit and the targets' states stand. -/
structure State.Stands (s u : State) : Prop where
  slots : u.slots = s.slots
  verify : u.verify = s.verify
  states : ∀ x, (u.target x).state = (s.target x).state

section
variable {s t u v : State} {n : LaneIx} {e : Nat} {y : TargetIx}

theorem State.Stands.trans (h : s.Stands t) (k : t.Stands u) : s.Stands u :=
  ⟨k.slots.trans h.slots, k.verify.trans h.verify, fun x => (k.states x).trans (h.states x)⟩

theorem SamePorts.stands (h : SamePorts s t) (slots : t.slots = s.slots) : s.Stands t :=
  ⟨slots, h.verify, fun x => by rw [State.target, h.targets, State.target]⟩

theorem stands_setLane (s : State) (n : LaneIx) (x : Option Take) : s.Stands (s.setLane n x) := ⟨rfl, rfl, fun _ => rfl⟩

theorem samePorts_enter (s : State) (n : LaneIx) (st : TakeState) : SamePorts s (s.enter n st) :=
  ⟨enter_targets .., enter_verify ..⟩

theorem State.Withdrawn.of_targets (h : s.Withdrawn n e y) (same : t.targets = s.targets) : t.Withdrawn n e y := by
  simpa only [State.Withdrawn, State.target, same] using h

section
variable (h : s.OrdersLeave t)
include h

theorem State.OrdersLeave.take (n : LaneIx) : t.take? n = s.take? n := (congrArg (State.take? · n) h.rest :)

theorem State.OrdersLeave.attention : t.attention = s.attention := (congrArg State.attention h.rest :)

theorem State.OrdersLeave.waiting : t.staging.waiting = s.staging.waiting :=
  (congrArg (fun u : State => u.staging.waiting) h.rest :)

theorem State.OrdersLeave.stands : s.Stands t :=
  ⟨(congrArg State.slots h.rest :), (congrArg State.verify h.rest :), h.states⟩

end

theorem State.Unwinds.stands {a : Take} (h : State.Unwinds n a v u) : v.Stands u := h.ports.stands h.slots

theorem State.Unwinds.latchesIn {a : Take} (h : State.Unwinds n a v u) : v.LatchesIn u := by
  rcases h.take with ⟨-, att⟩ | ⟨-, -, latches⟩
  · exact .of_eq (by rw [att])
  · exact latches

/-- A RUNNING lane's take is not closed by it. -/
theorem State.Unwinds.running {a : Take} (h : State.Unwinds n a v u) (running : a.state = .running) :
    u.take? n = some a ∧ u.attention = v.attention :=
  h.take.resolve_right fun ⟨stopping, _⟩ => by simp [running] at stopping

end

/-! ### The step around it -/

/-- A step in which a piece ends: what its follow-on actions leave of the lane is what the step leaves. -/
theorem finish_pieceEnded {s v u : State} {n : LaneIx} {cls : ResultClass} {data : List Byte} {ts : List Task} {k : Nat}
    (rested : s.atRest = true) (fresh : s.link.stale = false) (ends : s.pieceEnded n cls data = (v, ts))
    (run : Ends k (v, ts) u) (few : k < 2000) (stands : s.Stands u) :
    finish (s, [.pieceEnded n cls data]) = u.conclude ∧ u.conclude.take? n = u.take? n ∧ u.conclude.slot n = s.slot n := by
  have act : Ends (k + 1) (s, [.pieceEnded n cls data]) u := .act ends (by rwa [List.append_nil])
  have settled := act.settled_of_le few
  refine ⟨finish_tasks settled ?_, conclude_take_of_idle rested stands.verify stands.states n, ?_⟩
  · rw [← settled, (frame_settled _).link]
    exact fresh
  · rw [conclude_slot, State.slot, stands.slots, State.slot]

/-! ### A file's own reading (R92, R93) -/

/-- A file's own reading has failed: its WRITING copies have, the event is latched, and the file's orders go. -/
def State.sourceLost (s : State) (n : LaneIx) (t : Take) (e : Nat) : Work :=
  ((s.setLane n (some (t.unreadable e))).latch (condSourceFault n)).withdraw n fun o => o.entry == e

/-- The file is FINISHED then, if its copies have come to their ends. -/
def State.sourceJudged (s : State) (n : LaneIx) (t : Take) (e : Nat) : State :=
  (s.sourceLost n t e).1.setLane n (some ((t.unreadable e).finishIf e))

section
variable {s : State} {n : LaneIx} {t : Take} {e : Nat} {g : SegmentIx} {f : FileEntry}

theorem sourceLost_take : (s.sourceLost n t e).1.take? n = some (t.unreadable e) := by
  rw [State.sourceLost, (ordersLeave_withdraw ..).take, latch_take, take_setLane_same]

variable (h : s.take? n = some t)
include h

theorem fileUnreadable_eq : s.fileUnreadable n e g
    = ((if t.policy = .halt then (s.sourceJudged n t e).haltTake n else (s.sourceJudged n t e, [])).1,
      [.freeSegment g] ++ (s.sourceLost n t e).2
        ++ (if t.policy = .halt then (s.sourceJudged n t e).haltTake n else (s.sourceJudged n t e, [])).2 ++ [.goOn n]) := by
  have policy : ((t.unreadable e).finishIf e).policy = t.policy := by
    obtain ⟨es, k, eq, -⟩ := finishIf_rest (t.unreadable e) e
    rw [eq]
    rfl
  have counted : ((s.countChunkRead n).modifyFile n e FileEntry.unreadable).modifyTake n (fun t => { t with
      reading := .none, counters := { t.counters with filesUnreadable := satInc t.counters.filesUnreadable } })
      = s.setLane n (some (t.unreadable e)) := by
    rw [State.countChunkRead, modifyTake_of_take s n _ h, modifyFile_of_take (take_setLane_same ..), setLane_setLane,
      modifyTake_setLane]
    rfl
  have judged : (s.sourceLost n t e).1.finishIf n e = s.sourceJudged n t e := finishIf_eq sourceLost_take e
  have lost : ((s.setLane n (some (t.unreadable e))).latch (condSourceFault n)).withdraw n (fun o => o.entry == e)
      = s.sourceLost n t e := rfl
  have unreadable : (fun f : FileEntry => { f with
      condition := .unreadable, progress := .draining, running := Digest.start
      copies := f.copies.map (CopyRecord.failIf (· == .writing) .source) }) = FileEntry.unreadable := rfl
  have judged_policy : ((s.sourceJudged n t e).take? n).map Take.policy = some t.policy := by
    rw [State.sourceJudged, take_setLane_same, Option.map_some, policy]
  dsimp only at counted
  simp only [State.fileUnreadable]
  rw [unreadable, counted, lost, judged, judged_policy]
  cases t.policy <;> simp only [reduceCtorEq, if_false, if_true]

end

/-! ### What is left to do when a reading has failed -/

/-- From s to v a reading of lane n has failed: `a` is its take, and the segments of `ts` are to be given back. -/
structure State.Lost (n : LaneIx) (a : Take) (s v : State) (ts : List Task) : Prop where
  take : v.take? n = some a
  dry : v.staging.waiting = []
  stands : s.Stands v
  few : ts.length ≤ 513
  frees : ∀ t ∈ ts, ∃ g, t = .freeSegment g ∧ v.HeldBy n g

/-- A step has come to its end in w: the ports stand, the FIFOs are those of v, and no latch of v has become clear. -/
structure State.Comes (s v w : State) : Prop where
  stands : s.Stands w
  targets : w.targets = v.targets
  latches : v.LatchesIn w

section
variable {s v : State} {n : LaneIx} {a : Take} {ts : List Task} {e : Nat}

theorem State.Lost.unwinds (h : State.Lost n a s v ts) : ∀ t ∈ ts, Task.Unwinds n a v t := fun t mem => by
  obtain ⟨g, rfl, held⟩ := h.frees t mem
  exact .freeSegment held

/-- More of the take, the attention and the lanes may change. -/
theorem State.Lost.of_same {b : Take} {w : State} (h : State.Lost n a s v ts) (take : w.take? n = some b)
    (staging : w.staging = v.staging) (ports : SamePorts v w) (slots : w.slots = v.slots) : State.Lost n b s w ts where
  take := take
  dry := by rw [staging, h.dry]
  stands := h.stands.trans (ports.stands slots)
  few := h.few
  frees t mem := by
    obtain ⟨g, eq, held⟩ := h.frees t mem
    exact ⟨g, eq, held.congr staging⟩

section
variable (h : State.Lost n a s v ts) (running : a.state = .running) (idle : a.reading = .none) (none_ : a.recopyList = [])
include h running idle none_

/-- The segments are given back. -/
theorem State.Lost.frees_end : ∃ k u, k ≤ 1800 ∧ Ends k (v, ts) u ∧ State.Unwinds n a v u :=
  unwinding_ends (.inl running) idle none_ h.take h.dry (h.few.trans (by decide)) h.unwinds

variable (past : a.entries.length ≤ a.head) (open_ : a.listEnded = false)
include past open_

/-- A RUNNING lane with nothing at its head starves. -/
theorem State.Lost.starves : ∃ k w, k ≤ 1802 ∧ Ends k (v, ts ++ [.goOn n]) w ∧ s.Comes v w
    ∧ w.take? n = some (a.inState .starved) := by
  obtain ⟨k, u, few, run, unwinds⟩ := h.frees_end running idle none_
  obtain ⟨taken, -⟩ := unwinds.running running
  refine ⟨k + 2, u.enter n .starved, by omega, run.append (.starves taken running idle none_ past open_),
    ⟨(h.stands.trans unwinds.stands).trans ((samePorts_enter ..).stands (enter_slots ..)),
      (enter_targets ..).trans unwinds.ports.targets, unwinds.latchesIn.trans (latchesIn_enter u n _)⟩, ?_⟩
  rw [take_enter, if_pos rfl, taken]
  rfl

/-- A recopy's file may be FINISHED first. -/
theorem State.Lost.finishes : ∃ k w, k ≤ 1804 ∧ Ends k (v, ts ++ [.testFinish n e, .goOn n]) w ∧ s.Comes v w
    ∧ w.take? n = some ((a.finishIf e).inState .starved)
    ∧ w.attention.latched = v.attention.latched ||| condBit (condLaneStarved n) := by
  obtain ⟨k, u, few, run, unwinds⟩ := h.frees_end running idle none_
  obtain ⟨taken, att⟩ := unwinds.running running
  obtain ⟨es, c, rest, length⟩ := finishIf_rest a e
  have taken' : (u.setLane n (some (a.finishIf e))).take? n = some (a.finishIf e) := take_setLane_same ..
  have starved : ((u.setLane n (some (a.finishIf e))).enter n .starved).take? n
      = some ((a.finishIf e).inState .starved) := by
    rw [take_enter, if_pos rfl, taken']
    rfl
  have running' : (a.finishIf e).state = .running := by rw [rest]; exact running
  have starves := Ends.starves (n := n) taken' running' (by rw [rest]; exact idle) (by rw [rest]; exact none_)
    (by rw [rest]; exact length ▸ past) (by rw [rest]; exact open_)
  have stays : doTask ((u.setLane n (some (a.finishIf e))).enter n .starved) (.goOn n)
      = ((u.setLane n (some (a.finishIf e))).enter n .starved, []) := by
    simp [doTask, State.goOn, starved, Take.inState]
  have judged := finishIf_eq taken e
  have tests : ∃ j, j ≤ 4 ∧ Ends j (u, [.testFinish n e, .goOn n])
      ((u.setLane n (some (a.finishIf e))).enter n .starved) := by
    unfold State.finishIf at judged
    by_cases may : u.mayFinish n e = true
    · rw [if_pos may] at judged
      refine ⟨_, le_refl 4, .act (new := [.goOn n]) ?_ (starves.append (.one stays (.nil _)))⟩
      rw [← judged]
      simp [doTask, State.testFinish, may]
    · rw [if_neg may] at judged
      refine ⟨3, by omega, .one ?_ starves⟩
      rw [← judged]
      simp [doTask, State.testFinish, may]
  obtain ⟨j, few', tests⟩ := tests
  refine ⟨k + j, _, by omega, run.append tests,
    ⟨(h.stands.trans unwinds.stands).trans (.trans (t := u.setLane n (some (a.finishIf e))) ⟨rfl, rfl, fun _ => rfl⟩
      ((samePorts_enter ..).stands (enter_slots ..))),
      (enter_targets ..).trans unwinds.ports.targets,
      .trans (t := u.setLane n (some (a.finishIf e))) (.of_eq ?_) (latchesIn_enter _ n _)⟩, starved, ?_⟩
  · exact congrArg Attention.latched att
  · rw [starved_latched taken' running']
    exact congrArg (· ||| _) (congrArg Attention.latched att)

end

/-- The lane enters STOPPING; what it lets go is not the file of entry e. -/
theorem State.Lost.stops {f : FileEntry} (h : State.Lost n a s v ts) (file : a.file? e = some f)
    (other : f.progress ≠ .allocating) : ∃ b, a.EntriesOnly b ∧ b.file? e = some f
      ∧ State.Lost n (b.inState .stopping) s (v.enterStopping n).1 ts ∧ (v.enterStopping n).1.targets = v.targets
      ∧ v.LatchesIn (v.enterStopping n).1 := by
  have goes := letsGo_dropAllocating h.take file other
  obtain ⟨b, taken, only, file'⟩ := goes.take _ h.take
  have ports := (samePorts_dropAllocating v n).trans (samePorts_enter (v.dropAllocating n) n .stopping)
  have entered : (v.enterStopping n).1 = (v.dropAllocating n).enter n .stopping := rfl
  have taken' : ((v.dropAllocating n).enter n .stopping).take? n = some (b.inState .stopping) := by
    rw [take_enter, if_pos rfl, taken]
    rfl
  rw [entered]
  exact ⟨b, only, file'.trans file, h.of_same taken' ((enter_staging ..).trans (calm_dropAllocating v n).staging) ports
    ((enter_slots ..).trans goes.slots), ports.targets,
    .trans (t := v.dropAllocating n) (.of_eq goes.latched) (latchesIn_enter _ n _)⟩

theorem haltTake_running (taken : v.take? n = some a) (running : a.state = .running) :
    v.haltTake n = (v.setLane n (some { a with halting := true })).enterStopping n := by
  have st : (v.setLane n (some { a with halting := true })).laneState n = some .running :=
    (laneState_of_take (take_setLane_same ..)).trans (congrArg some running)
  rw [State.haltTake, modifyTake_of_take v n _ taken]
  simp only [st]

/-- A RUNNING lane that is to halt: it is STOPPING, or it has closed with its outcome. -/
theorem State.Lost.halts {f : FileEntry} (h : State.Lost n a s v ts) (running : a.state = .running)
    (idle : a.reading = .none) (none_ : a.recopyList = []) (file : a.file? e = some f) (other : f.progress ≠ .allocating) :
    ∃ k w b, k ≤ 1800 ∧ Ends k ((v.haltTake n).1, ts ++ (v.haltTake n).2 ++ [.goOn n]) w ∧ s.Comes v w
      ∧ { a with halting := true }.EntriesOnly b ∧ b.file? e = some f
      ∧ (w.take? n = some (b.inState .stopping) ∨ w.take? n = some (b.inState .stopping).closed) := by
  have halting : State.Lost n { a with halting := true } s (v.setLane n (some { a with halting := true })) ts :=
    h.of_same (take_setLane_same ..) rfl ⟨rfl, rfl⟩ rfl
  obtain ⟨b, only, file', lost, targets, latches⟩ := halting.stops file other
  have only' : b = { a with halting := true, entries := b.entries } := only
  have idle' : b.reading = .none := by rw [only']; exact idle
  have none_' : b.recopyList = [] := by rw [only']; exact none_
  have acts : ∀ t ∈ ts ++ [Task.tryRead n, .goOn n] ++ [.goOn n],
      Task.Unwinds n (b.inState .stopping) ((v.setLane n (some { a with halting := true })).enterStopping n).1 t := by
    intro t mem
    simp only [List.mem_append, List.mem_cons, List.not_mem_nil, or_false] at mem
    rcases mem with (mem | rfl | rfl) | rfl
    · exact lost.unwinds t mem
    · exact .tryRead
    · exact .goOn rfl
    · exact .goOn rfl
  have few : (ts ++ [Task.tryRead n, .goOn n] ++ [Task.goOn n]).length ≤ 600 := by
    have := h.few
    simp only [List.length_append, List.length_cons, List.length_nil]
    omega
  obtain ⟨k, w, few, run, unwinds⟩ := unwinding_ends (a := b.inState .stopping) (.inr rfl) idle' none_' lost.take
    lost.dry few acts
  rw [haltTake_running h.take running]
  exact ⟨k, w, b, few, run, ⟨lost.stands.trans unwinds.stands, unwinds.ports.targets.trans targets,
    latches.trans unwinds.latchesIn⟩, only, file', unwinds.take.imp And.left fun closed => closed.2.1⟩

end

end Sys2Proof.Machine
end

