-- ==== Sys2Proof/Proofs/SourceLost.lean ====
section
/-! A file's own reading that has failed, as the step leaves it (R92, R93). -/

namespace Sys2Proof.Machine

/-! ### The two readings that can fail -/

/-- The segment of a failed reading and those of the orders that go with it are to be given back. -/
theorem lost_of_ordersLeave {s c : State} {w : Work} {n : LaneIx} {g : SegmentIx} {a : Take} (taken : c.take? n = some a)
    (dry : c.staging.waiting = []) (stands : s.Stands c) (leave : c.OrdersLeave w.1) (held : w.1.HeldBy n g)
    (few : w.2.length ≤ 512) (frees : ∀ t ∈ w.2, ∃ g, t = .freeSegment g ∧ w.1.HeldBy n g) :
    State.Lost n a s w.1 ([.freeSegment g] ++ w.2) where
  take := (leave.take n).trans taken
  dry := leave.waiting.trans dry
  stands := stands.trans leave.stands
  few := by
    rw [List.length_append, List.length_singleton]
    omega
  frees t mem := by
    rcases List.mem_append.1 mem with mem | mem
    · exact ⟨g, List.mem_singleton.1 mem, held⟩
    · exact frees t mem

theorem State.Lost.setLane {s v : State} {n : LaneIx} {a : Take} {ts : List Task} (h : State.Lost n a s v ts) (b : Take) :
    State.Lost n b s (v.setLane n (some b)) ts := h.of_same (take_setLane_same ..) rfl ⟨rfl, rfl⟩ rfl

theorem State.Withdrawn.setLane {s : State} {n : LaneIx} {e : Nat} {y : TargetIx} (h : s.Withdrawn n e y)
    (b : Option Take) : (s.setLane n b).Withdrawn n e y := h

section
variable {s : State} {n : LaneIx} {t : Take} {e : Nat} {g : SegmentIx} {f : FileEntry} (ok : s.StagingOk)
  (dry : s.staging.waiting = []) (held : s.HeldBy n g)
include ok dry held

theorem sourceLost_lost : State.Lost n (t.unreadable e) s (s.sourceLost n t e).1
    ([.freeSegment g] ++ (s.sourceLost n t e).2) := by
  unfold State.sourceLost
  generalize eq : (s.setLane n (some (t.unreadable e))).latch (condSourceFault n) = c
  have staging : c.staging = s.staging := eq ▸ latch_staging ..
  have targets : c.targets = s.targets := eq ▸ latch_targets ..
  have ports : SamePorts s c := ⟨targets, eq ▸ latch_verify ..⟩
  have taken : c.take? n = some (t.unreadable e) := by rw [← eq, latch_take, take_setLane_same]
  obtain ⟨few, frees⟩ := withdraw_frees ok n staging targets fun o => o.entry == e
  exact lost_of_ordersLeave taken (by rw [staging, dry]) (ports.stands (eq ▸ latch_slots ..)) (ordersLeave_withdraw ..)
    ((held.congr staging).withdraw n _) few frees

/-- The file's own reading has failed, and the file may be FINISHED. -/
theorem sourceJudged_lost : State.Lost n ((t.unreadable e).finishIf e) s (s.sourceJudged n t e)
    ([.freeSegment g] ++ (s.sourceLost n t e).2) :=
  (sourceLost_lost ok dry held).setLane _

end

theorem sourceJudged_withdrawn (s : State) (n : LaneIx) (t : Take) (e : Nat) (y : TargetIx) :
    (s.sourceJudged n t e).Withdrawn n e y := by
  refine State.Withdrawn.setLane ?_ _
  rw [State.sourceLost]
  exact withdraw_withdrawn _ n e y

theorem sourceJudged_latched (s : State) (n : LaneIx) (t : Take) (e : Nat) :
    (s.sourceJudged n t e).attention.latched.getLsbD (condSourceFault n) = true := by
  rw [State.sourceJudged, setLane_attention, State.sourceLost, (ordersLeave_withdraw ..).attention]
  exact latched_latch _ (show 6 * n.val + 5 < 78 by omega)

/-- A take that has lost a source, entering STOPPING under HALT. -/
theorem Take.LosesSource.halted {t a b : Take} {f f' : FileEntry} {e : Nat} (h : t.LosesSource f e a f')
    (only : { a with halting := true }.EntriesOnly b) (file : b.file? e = some f') :
    t.LosesSource f e (b.inState .stopping) f' ∧ b.halting = true :=
  ⟨h.congr file (congrArg Take.reading only :) (congrArg Take.chunkRead only :) (congrArg Take.counters only :),
    (congrArg Take.halting only :)⟩

theorem closed_halted {a : Take} (halted : a.stopOutcome = .halted) :
    a.closed.state = .closed ∧ a.closed.outcome = some .halted ∧ a.closed.cleared = some false := by
  unfold Take.closed
  rw [halted]
  exact ⟨rfl, rfl, rfl⟩

/-- What a step in which a file's own reading fails comes to: t, and the take b of the lane. -/
structure State.SourceFails (s t : State) (n : LaneIx) (tk : Take) (e : Nat) (f : FileEntry) (b : Take) : Prop where
  take : t.take? n = some b
  file : ∃ f', tk.LosesSource f e b f'
  withdrawn : ∀ y, t.Withdrawn n e y
  latched : t.attention.latched.getLsbD (condSourceFault n) = true
  slot : t.slot n = s.slot n

section
variable {s : State} {n : LaneIx} {t : Take} {g : SegmentIx} {u : SegmentUse} {f : FileEntry} {p : Piece}
  {rest : List Piece} (rested : s.atRest = true) (fresh : s.link.stale = false) (ok : s.StagingOk)
  (dry : s.staging.waiting = []) (h : s.take? n = some t) (running : t.state = .running) (none_ : t.recopyList = [])
  (past : t.entries.length ≤ t.head) (open_ : t.listEnded = false)
  (chunk : t.chunkRead = some { segment := g, pieces := p :: rest }) (seg : s.segment g = .filling u false)
  (file : t.file? u.entry = some f) {cls : ResultClass} (data : List Byte) (fails : cls.delivers = false)
  (kept : cls ≠ .aborted)

omit seg u in
include ok h chunk in
/-- The segment of a chunk read is the lane's own. -/
theorem heldBy_of_chunk : s.HeldBy n g := by
  obtain ⟨u', d, seg', own⟩ := ok.reads n t _ h chunk
  exact heldBy_filling seg' own

/-- The end of the step, from the end of its follow-on actions. -/
theorem State.Comes.sourceFails {v w : State} {b : Take} {f' : FileEntry} {ts : List Task} {k : Nat} {e : Nat}
    (rested : s.atRest = true) (fresh : s.link.stale = false)
    (comes : s.Comes (s.sourceJudged n t e) w) (ends : s.pieceEnded n cls data = (v, ts))
    (run : Ends k (v, ts) w) (few : k < 2000) (taken : w.take? n = some b)
    (lost : t.LosesSource f e b f') : s.SourceFails (finish (s, [.pieceEnded n cls data])) n t e f b := by
  obtain ⟨eq, take, slot⟩ := finish_pieceEnded rested fresh ends run few comes.stands
  rw [eq]
  refine ⟨take.trans taken, ⟨f', lost⟩, fun y o mem => ?_, ?_, slot⟩
  · rw [conclude_fifos] at mem
    exact ((sourceJudged_withdrawn s n t e y).of_targets comes.targets) o mem
  · rw [conclude_latched]
    exact comes.latches _ (sourceJudged_latched s n t e)

variable (own : u.pass = none)
include rested fresh ok dry h running none_ past open_ chunk seg file fails kept own

/-- Under SKIP the lane goes on, and starves (R93). -/
theorem pieceEnded_skips (skip : t.policy = .skip) : ∃ b,
    s.SourceFails (finish (s, [.pieceEnded n cls data])) n t u.entry f b ∧ b.state = .starved ∧ b.halting = t.halting := by
  have ends : s.pieceEnded n cls data = (s.sourceJudged n t u.entry,
      [.freeSegment g] ++ (s.sourceLost n t u.entry).2 ++ [.goOn n]) := by
    rw [pieceEnded_unreadable h chunk seg file data fails kept own (by rw [skip]; decide), fileUnreadable_eq h,
      if_neg (by rw [skip]; decide), List.append_nil]
  obtain ⟨es, c, eq, length⟩ := finishIf_rest (t.unreadable u.entry) u.entry
  obtain ⟨f', lost⟩ := unreadable_losesSource file
  obtain ⟨k, w, few, run, comes, taken⟩ := (sourceJudged_lost (t := t) (e := u.entry) ok dry
    (heldBy_of_chunk ok h chunk)).starves (by rw [eq]; exact running) lost.reading (by rw [eq]; exact none_)
    (by rw [eq]; exact (length.trans (List.length_modify ..)).trans_le past) (by rw [eq]; exact open_)
  refine ⟨_, comes.sourceFails data rested fresh ends run (by omega) taken
    (lost.congr lost.file rfl rfl rfl), rfl, ?_⟩
  rw [eq]
  rfl

omit past open_ in
/-- Under HALT the lane is halting, and it is STOPPING or has closed (R93, R15). -/
theorem pieceEnded_halts (halt : t.policy = .halt) : ∃ b,
    s.SourceFails (finish (s, [.pieceEnded n cls data])) n t u.entry f b ∧ b.halting = true
      ∧ (b.state = .stopping ∨ b.state = .closed ∧ b.outcome = some .halted ∧ b.cleared = some false) := by
  have ends : s.pieceEnded n cls data = (((s.sourceJudged n t u.entry).haltTake n).1,
      [.freeSegment g] ++ (s.sourceLost n t u.entry).2 ++ ((s.sourceJudged n t u.entry).haltTake n).2 ++ [.goOn n]) := by
    rw [pieceEnded_unreadable h chunk seg file data fails kept own (by rw [halt]; decide), fileUnreadable_eq h,
      if_pos halt]
  obtain ⟨es, c, eq, -⟩ := finishIf_rest (t.unreadable u.entry) u.entry
  obtain ⟨f', lost⟩ := unreadable_losesSource file
  have other : f'.progress ≠ .allocating := by
    rw [lost.progress]
    split <;> decide
  obtain ⟨k, w, b, few, run, comes, only, file', taken⟩ := (sourceJudged_lost (t := t) (e := u.entry) ok dry
    (heldBy_of_chunk ok h chunk)).halts (by rw [eq]; exact running) lost.reading (by rw [eq]; exact none_) lost.file other
  obtain ⟨lost', halting⟩ := lost.halted only file'
  rcases taken with taken | taken
  · exact ⟨_, comes.sourceFails data rested fresh ends run (by omega) taken lost', halting,
      .inl rfl⟩
  · obtain ⟨j, closed⟩ := lost'.closed
    have outcome : (b.inState .stopping).stopOutcome = .halted := if_pos halting
    exact ⟨_, comes.sourceFails data rested fresh ends run (by omega) taken closed, halting,
      .inr (closed_halted outcome)⟩

end

end Sys2Proof.Machine
end

