-- ==== Sys2Proof/Proofs/RecopyLost.lean ====
section
/-! A recopy that has failed, as the step leaves it (R154). -/

namespace Sys2Proof.Machine

/-! ### A recopy (R154) -/

/-- The take whose recopy has failed. -/
def Take.recopyLost (t : Take) : Take :=
  { t with chunkRead := none, reading := .none
           counters := { t.counters with chunksRead := satInc t.counters.chunksRead } }

/-- The file whose recopy to target y has failed; its own result stays. -/
structure FileEntry.LosesCopy (f : FileEntry) (y : TargetIx) (g : FileEntry) : Prop where
  condition : g.condition = f.condition
  source : g.source = f.source
  copy : g.copy y = if (f.copy y).state = .writing
    then { f.copy y with state := .failed, reason := some .source } else f.copy y
  others : ∀ z, z ≠ y → g.copy z = f.copy z

theorem losesCopy_refl {f : FileEntry} {y : TargetIx} (other : (f.copy y).state ≠ .writing) : f.LosesCopy y f :=
  ⟨rfl, rfl, by rw [if_neg other], fun _ _ => rfl⟩

theorem losesCopy_fail {f : FileEntry} {y : TargetIx} (writing : (f.copy y).state = .writing) :
    f.LosesCopy y (f.modifyCopy y (CopyRecord.fail .source)) where
  condition := rfl
  source := rfl
  copy := by
    rw [copy_modifyCopy_same, if_pos writing]
    rfl
  others _ ne := copy_modifyCopy_ne f ne _

theorem FileEntry.LosesCopy.finish {f g : FileEntry} {y : TargetIx} (h : f.LosesCopy y g) (p : Progress) :
    f.LosesCopy y { g with progress := p } := ⟨h.condition, h.source, h.copy, h.others⟩

theorem finishIf_file_some {t : Take} {e : Nat} {f : FileEntry} (file : t.file? e = some f) :
    ∃ p, (t.finishIf e).file? e = some { f with progress := p } := by
  unfold Take.finishIf
  split
  · exact ⟨.finished, (file_modifyFile_same ..).trans (congrArg _ file)⟩
  · exact ⟨f.progress, file⟩

/-- What a failed recopy leaves before its follow-on actions: the copy has failed if it was WRITING, and its orders go. -/
structure State.RecopyLost (s v : State) (n : LaneIx) (t : Take) (e : Nat) (y : TargetIx) (f : FileEntry) (ts : List Task) :
    Prop where
  lost : ∃ b, State.Lost n b s v ts ∧ t.recopyLost.EntriesOnly b ∧ b.entries.length = t.entries.length
    ∧ ∃ g, b.file? e = some g ∧ f.LosesCopy y g
  attention : v.attention = s.attention
  withdrawn : (f.copy y).state = .writing → v.Withdrawn n e y

section
variable {s : State} {n : LaneIx} {t : Take} {e : Nat} {g : SegmentIx} {f : FileEntry} {y : TargetIx} (ok : s.StagingOk)
  (dry : s.staging.waiting = []) (held : s.HeldBy n g) (h : s.take? n = some t) (file : t.file? e = some f)
include ok dry held h file

theorem recopyFailed_loses : ∃ v ts, s.recopyFailed n e y g = (v, ts ++ [.testFinish n e, .goOn n])
    ∧ s.RecopyLost v n t e y f ts := by
  have counted : (s.countChunkRead n).endReading n = s.setLane n (some t.recopyLost) := by
    rw [State.countChunkRead, modifyTake_of_take s n _ h, endReading_eq (take_setLane_same ..), setLane_setLane]
    rfl
  have taken : (s.setLane n (some t.recopyLost)).take? n = some t.recopyLost := take_setLane_same ..
  have file' : t.recopyLost.file? e = some f := file
  unfold State.recopyFailed
  dsimp only
  rw [counted, copy_of_take taken file', Option.map_some]
  by_cases writing : (f.copy y).state = .writing
  · rw [if_pos (congrArg some writing), modifyCopy_of_take taken, setLane_setLane]
    generalize there : t.recopyLost.modifyFile e (·.modifyCopy y (CopyRecord.fail .source)) = b
    have file'' : b.file? e = some (f.modifyCopy y (CopyRecord.fail .source)) := by
      rw [← there, file_modifyFile_same, file']
      rfl
    obtain ⟨few, frees⟩ := withdrawAt_frees (c := s.setLane n (some b)) ok n rfl rfl y fun o => o.entry == e
    have leave := ordersLeave_withdrawAt (s.setLane n (some b)) n y fun o => o.entry == e
    have held' : (s.setLane n (some b)).HeldBy n g := held.congr (setLane_staging ..)
    have left := held'.withdrawAt n y fun o => o.entry == e
    have gone := withdrawAt_withdrawn (s.setLane n (some b)) n e y
    generalize (s.setLane n (some b)).withdrawAt n y (fun o => o.entry == e) = w at *
    refine ⟨w.1, [.freeSegment g] ++ w.2, rfl, ⟨b, lost_of_ordersLeave (take_setLane_same ..) dry (stands_setLane s n _)
      leave left few frees, ?_, ?_, _, file'', losesCopy_fail writing⟩, leave.attention, fun _ => gone⟩
    · rw [← there]
      rfl
    · rw [← there]
      exact List.length_modify ..
  · rw [if_neg (by simpa using writing)]
    exact ⟨_, _, rfl, ⟨_, lost_of_ordersLeave (w := (_, [])) taken dry (stands_setLane s n _) (.refl _) (held.congr rfl)
      (Nat.zero_le _) (by simp), rfl, rfl, f, file', losesCopy_refl writing⟩, rfl, fun yes => absurd yes writing⟩

end

section
variable {s : State} {n : LaneIx} {t : Take} {g : SegmentIx} {u : SegmentUse} {f : FileEntry} {p : Piece}
  {rest : List Piece} (rested : s.atRest = true) (fresh : s.link.stale = false) (ok : s.StagingOk)
  (dry : s.staging.waiting = []) (h : s.take? n = some t) (running : t.state = .running) (none_ : t.recopyList = [])
  (past : t.entries.length ≤ t.head) (open_ : t.listEnded = false)
  (chunk : t.chunkRead = some { segment := g, pieces := p :: rest }) (seg : s.segment g = .filling u false)
  (file : t.file? u.entry = some f) {cls : ResultClass} (data : List Byte) (fails : cls.delivers = false)
  (kept : cls ≠ .aborted) {y : TargetIx} (recopy : u.pass = some y)
include rested fresh ok dry h running none_ past open_ chunk seg file fails kept recopy

/-- A failed recopy under every policy: the lane goes on, and starves; no event is raised but that (R154, R11). -/
theorem pieceEnded_recopyEnds : ∃ w b f', finish (s, [.pieceEnded n cls data]) = w ∧ w.take? n = some b
    ∧ b.file? u.entry = some f' ∧ f.LosesCopy y f' ∧ b.state = .starved ∧ b.reading = .none ∧ b.chunkRead = none
    ∧ ((f.copy y).state = .writing → w.Withdrawn n u.entry y)
    ∧ b.counters.chunksRead = satInc t.counters.chunksRead ∧ b.counters.filesUnreadable = t.counters.filesUnreadable
    ∧ w.attention.latched = s.attention.latched ||| condBit (condLaneStarved n) := by
  obtain ⟨v, ts, failed, ⟨a, lost, only, length, f', file', loses⟩, att, withdrawn⟩ :=
    recopyFailed_loses (y := y) ok dry (heldBy_of_chunk ok h chunk) h file
  have ends := (pieceEnded_recopyFailed h chunk seg file data fails kept recopy).trans failed
  have kept_ : a = { t.recopyLost with entries := a.entries } := only
  have idle : a.reading = .none := (congrArg Take.reading kept_ :)
  have head : a.head = t.head := (congrArg Take.head kept_ :)
  obtain ⟨k, w, few, run, comes, taken, latched⟩ := lost.finishes (e := u.entry)
    ((congrArg Take.state kept_ :).trans running) idle ((congrArg Take.recopyList kept_ :).trans none_)
    (by rw [head, length]; exact past) ((congrArg Take.listEnded kept_ :).trans open_)
  obtain ⟨eq, take, -⟩ := finish_pieceEnded rested fresh ends run (by omega) comes.stands
  obtain ⟨progress, finished⟩ := finishIf_file_some file'
  obtain ⟨es, c, finish_, -⟩ := finishIf_rest a u.entry
  have chunk' : a.chunkRead = none := (congrArg Take.chunkRead kept_ :)
  have counters : a.counters = t.recopyLost.counters := (congrArg Take.counters kept_ :)
  refine ⟨_, _, _, eq, take.trans taken, finished, loses.finish progress, rfl, (congrArg Take.reading finish_ :).trans idle,
    (congrArg Take.chunkRead finish_ :).trans chunk', fun writing o mem => ?_,
    (congrArg (fun t : Take => t.counters.chunksRead) finish_ :).trans (congrArg Counters.chunksRead counters :),
    (congrArg (fun t : Take => t.counters.filesUnreadable) finish_ :).trans (congrArg Counters.filesUnreadable counters :), ?_⟩
  · rw [conclude_fifos] at mem
    exact ((withdrawn writing).of_targets comes.targets) o mem
  · rw [conclude_latched, latched, att]

end

end Sys2Proof.Machine
end

