-- ==== Sys2Proof/Proofs/PieceOutcomes.lean ====
section
/-! What becomes of a piece of a lane (R41, R42, R78, R90 to R93, R154). -/

namespace Sys2Proof.Machine

/-- Settles O45: a piece that is not its chunk's last is followed by the next one; a failed one that ends its reading
has follow-on actions that run out, and they leave the lane and its file as the read policy says. -/
theorem piecesAreDeliveredOrFilled : Obligations.PiecesAreDeliveredOrFilled := by
  refine ⟨?_, ?_⟩
  · intro n s tk g u f r k p q rest i rested fresh taken chunk seg own file op alone card within x bytes following after
    refine ⟨fun data early => ?_, fun cls data corrected => ?_, fun c counted fails fill => ?_⟩
    · have run := exec_attemptLast op alone (cls := .ok) data (by simp [attemptClass, ResultClass.retried])
      have result : operationResult k (attemptClass .ok) = .ok := if_pos early
      rw [result] at run
      have ends := (pieceEnded_delivers (s := s.setSlot n ((s.slot n).pieceOver .ok)) taken chunk seg file data rfl).trans
        (deliverPiece_ok (s := s.setSlot n ((s.slot n).pieceOver .ok)) taken seg own f.length data)
      rw [run, finish_quietPiece (y := (s.slot n).pieceOver .ok) rested fresh rfl card within ends]
      rfl
    · have result : operationResult k (attemptClass cls) = .corrected := by
        rcases corrected with rfl | ⟨rfl, late⟩
        · rfl
        · exact if_neg (by omega)
      have run := exec_attemptLast op alone (cls := cls) data
        (by rcases corrected with rfl | ⟨rfl, -⟩ <;> simp [attemptClass, ResultClass.retried])
      rw [result] at run
      have ends := (pieceEnded_delivers (s := s.setSlot n ((s.slot n).pieceOver .corrected)) taken chunk seg file data
        rfl).trans (deliverPiece_corrected (s := s.setSlot n ((s.slot n).pieceOver .corrected)) taken seg own f.length data)
      rw [run, finish_quietPiece (y := (s.slot n).pieceOver .corrected) rested fresh rfl card within ends]
      rfl
    · obtain ⟨cls, data, run, nothing, kept⟩ := exec_failsPiece op alone fails
      have fills := pieceEnded_fills (s := s.setSlot n ((s.slot n).pieceFailed counted)) taken chunk seg file data nothing
        kept own fill
      have port : (if counted then { x with failed := min (x.failed + 1) (2 ^ 32 - 1) } else x)
          = { x with failed := if counted then satInc x.failed else x.failed } := by
        cases counted <;> rfl
      dsimp only
      rw [run, port]
      refine ⟨fun sound => ?_, fun damaged => ?_⟩
      · have ends := fills.trans (fillPiece_damages (s := s.setSlot n ((s.slot n).pieceFailed counted)) taken seg own
          file sound f.length)
        rw [finish_latchedPiece (y := (s.slot n).pieceFailed counted) rested fresh rfl card within ends]
        rfl
      · have ends := fills.trans (fillPiece_again (s := s.setSlot n ((s.slot n).pieceFailed counted)) taken seg own
          file damaged f.length)
        rw [finish_quietPiece (y := (s.slot n).pieceFailed counted) rested fresh rfl card within ends]
        rfl
  · intro n s tk g u f r k p rest c counted rested fresh ok dry taken running none_ past open_ chunk seg file op alone fails
    obtain ⟨cls, data, run, nothing, kept⟩ := exec_failsPiece op alone fails
    rw [run]
    have port : (s.setSlot n ((s.slot n).pieceFailed counted)).slot n = (s.slot n).pieceFailed counted := slot_setSlot_same ..
    have ok' : (s.setSlot n ((s.slot n).pieceFailed counted)).StagingOk := stagingOk_of_parts (s := s) rfl rfl rfl ok
    have rested' : (s.setSlot n ((s.slot n).pieceFailed counted)).atRest = true := rested
    refine ⟨fun own policy => ?_, fun y recopy => ?_⟩
    · have outcome : ∃ b, (s.setSlot n ((s.slot n).pieceFailed counted)).SourceFails (finish (s.setSlot n
          ((s.slot n).pieceFailed counted), [.pieceEnded n cls data])) n tk u.entry f b
          ∧ (tk.policy = .skip → b.state = .starved ∧ b.halting = tk.halting)
          ∧ (tk.policy = .halt → b.halting = true
            ∧ (b.state = .stopping ∨ b.state = .closed ∧ b.outcome = some .halted ∧ b.cleared = some false)) := by
        rcases policy with skip | halt
        · obtain ⟨b, ends, lane⟩ := pieceEnded_skips (s := s.setSlot n ((s.slot n).pieceFailed counted)) rested' fresh
            ok' dry taken running none_ past open_ chunk seg file data nothing kept own skip
          exact ⟨b, ends, fun _ => lane, fun halt => absurd (skip.symm.trans halt) (by decide)⟩
        · obtain ⟨b, ends, lane⟩ := pieceEnded_halts (s := s.setSlot n ((s.slot n).pieceFailed counted)) rested' fresh
            ok' dry taken running none_ chunk seg file data nothing kept own halt
          exact ⟨b, ends, fun skip => absurd (skip.symm.trans halt) (by decide), fun _ => lane⟩
      obtain ⟨b, ends, skips, halts⟩ := outcome
      obtain ⟨f', lost⟩ := ends.file
      exact ⟨_, b, f', rfl, ends.take, lost.file, lost.reading, lost.chunk, lost.condition, lost.source, lost.running,
        lost.progress, lost.copies, ends.withdrawn, lost.chunksRead, lost.unreadable, lost.bytesRead, ends.latched,
        ends.slot.trans port, skips, halts⟩
    · obtain ⟨w, b, f', eq, there, file', loses, state, reading, read, withdrawn, chunks, unreadable, latched⟩ :=
        pieceEnded_recopyEnds (s := s.setSlot n ((s.slot n).pieceFailed counted)) rested' fresh ok' dry taken running none_ past
          open_ chunk seg file data nothing kept recopy
      rw [eq]
      exact ⟨w, b, f', rfl, there, file', state, reading, read, loses.condition, loses.source, loses.copy, loses.others,
        withdrawn, chunks, unreadable, latched⟩

end Sys2Proof.Machine
end
